-- ==== Sys2Proof/Word.lean ====
section
/-! DEFINITION. The word types of the block and its index types (Table 0-4), and the fixed tables that State is made of. -/

namespace Sys2Proof

/-- One byte of a port (R177). -/
abbrev Byte := BitVec 8

/-- A two-byte quantity that wraps (round number, sequence number, day counter, interval index). -/
abbrev Half := BitVec 16

/-- Seconds of the seconds counter, 0..4,294,967,295 (Table 0-4). -/
abbrev Time := BitVec 32

/-- A row index 0..255 (Table 0-4). -/
abbrev Row := Fin 256

/-- A robot slot 0..31 (Table 0-4). -/
abbrev Slot := Fin 32

/-- A carrier number 0..3 (Table 0-4). -/
abbrev CarrierIx := Fin 4

/-- A zone 0..15 (Table 0-4). -/
abbrev Zone := Fin 16

/-- A table of n entries, one for each index. -/
abbrev Table (n : Nat) (α : Type) := Vector α n

/-- The entry of a table at an index. -/
def tget {n : Nat} {α : Type} (v : Table n α) (i : Fin n) : α := v[i.val]

/-- The table with the entry at an index replaced. -/
def tset {n : Nat} {α : Type} (v : Table n α) (i : Fin n) (x : α) : Table n α := v.set i.val x

/-- The table with every entry replaced by a function of its index and its old content. -/
def tmap {n : Nat} {α β : Type} (f : Fin n → α → β) (v : Table n α) : Table n β :=
  Vector.ofFn fun i => f i (tget v i)

/-- A table whose entries all hold the same value. -/
def tfill (n : Nat) {α : Type} (x : α) : Table n α := Vector.replicate n x

/-- Every index of a table in ascending order. -/
def indices (n : Nat) : List (Fin n) := List.finRange n

end Sys2Proof
end

