-- ==== Sys2Proof/Syntax.lean ====
section
/-! DEFINITION. The commands and events of the block: one constructor for each row of spec/opcode_table.json. -/

namespace Sys2Proof

/-- The three ports (Table 0-1). -/
inductive Port where
  | plant
  | tracker
  | fleet
deriving DecidableEq, Repr

/-- A unit, the addressee of an order or the source of a report (Table 0-5). -/
inductive FleetUnit where
  | robot (slot : Slot)
  | carrier (c : CarrierIx)
deriving DecidableEq, Repr

/-- The commands and events. A command names the port it is sent on and carries the data bytes that follow its
command byte, in the order they travel (R177, R178). Fewer bytes than the command takes leave it under way; more
are discarded. A report carries the unit byte and then the fields of its kind (Table 11-3). A timer event names
the timer that expires. -/
inductive Instr where
  | status (port : Port)
  | freeze (port : Port)
  | thaw (port : Port)
  | rowmapWindow (port : Port) (params : List Byte)
  | rowmapData (port : Port)
  | rowmapEntry (port : Port) (zoneRef : Byte) (capacity : Half) (length : Byte)
  | rowExclude (port : Port) (params : List Byte)
  | zoneWrite (port : Port)
  | planRanges (port : Port)
  | planRangeEntry (port : Port) (first last : Byte)
  | roundSetup (port : Port)
  | planFlip (port : Port)
  | roundStart (port : Port)
  | roundStop (port : Port) (params : List Byte)
  | energyOpen (port : Port) (params : List Byte)
  | energyData (port : Port)
  | energyValue (port : Port) (value : Half)
  | dayClose (port : Port)
  | stormDeclare (port : Port)
  | stormCancel (port : Port)
  | timingWrite (port : Port)
  | arbiterWrite (port : Port)
  | carrierSpans (port : Port) (params : List Byte)
  | carrierEnrol (port : Port) (params : List Byte)
  | carrierRetire (port : Port) (params : List Byte)
  | robotEnrol (port : Port) (params : List Byte)
  | robotRetire (port : Port) (params : List Byte)
  | robotRecovered (port : Port) (params : List Byte)
  | robotMove (port : Port) (params : List Byte)
  | accountsClear (port : Port)
  | readRow (port : Port) (params : List Byte)
  | readRobot (port : Port) (params : List Byte)
  | readCarrier (port : Port) (params : List Byte)
  | readAccount (port : Port) (params : List Byte)
  | readWorklist (port : Port)
  | readPlan (port : Port) (params : List Byte)
  | readReport (port : Port)
  | takeNotice (port : Port)
  | held (port : Port) (params : List Byte)
  | holdRefused (port : Port) (params : List Byte)
  | stowWanted (port : Port) (params : List Byte)
  | stowed (port : Port) (params : List Byte)
  | forcedStow (port : Port) (params : List Byte)
  | unstowed (port : Port) (params : List Byte)
  | wind (port : Port) (params : List Byte)
  | takeOrder (port : Port)
  | robotAccept (port : Port) (slot : Byte) (fields : List Byte)
  | refuse (port : Port) (slot : Byte) (fields : List Byte)
  | done (port : Port) (slot : Byte) (fields : List Byte)
  | progress (port : Port) (slot : Byte) (fields : List Byte)
  | docked (port : Port) (slot : Byte) (fields : List Byte)
  | aboard (port : Port) (slot : Byte) (fields : List Byte)
  | robotFault (port : Port) (slot : Byte) (fields : List Byte)
  | robotFaultClear (port : Port) (slot : Byte) (fields : List Byte)
  | battery (port : Port) (slot : Byte) (fields : List Byte)
  | alive (port : Port) (slot : Byte) (fields : List Byte)
  | carrierAccept (port : Port) (carrier : Byte) (fields : List Byte)
  | arrived (port : Port) (carrier : Byte) (fields : List Byte)
  | garaged (port : Port) (carrier : Byte) (fields : List Byte)
  | carrierFault (port : Port) (carrier : Byte) (fields : List Byte)
  | carrierFaultClear (port : Port) (carrier : Byte) (fields : List Byte)
  | unknownCommand (port : Port) (value : Byte)
  | readByte (port : Port) (dataIn : Byte)
  | selectRelease (port : Port) (clocked : List Bool)
  | portReset (port : Port) (asserted : Bool)
  | powerOnReset
  | holdTimeout (row : Row)
  | acceptTimeout (unit : FleetUnit)
  | robotSilenceTimeout (slot : Slot)
  | travelTimeout (c : CarrierIx)
  | dropRetryTimeout (seq : Half)
  | parkDelayTimeout (c : CarrierIx)
  | periodTimeout
  | timeLimitTimeout
  | windSilenceTimeout
  | quietTimeout
  | releaseTimeout
  | parkingDeadline
  | stormAlightRetry (c : CarrierIx)
  | staleExpiry
  | settingsField (port : Port) (bytes : List Byte)
  | unknownReportKind (port : Port) (ofCarrier : Bool) (unit kind : Byte)
deriving DecidableEq, Repr

end Sys2Proof
end

