-- ==== Sys2Proof/Decode.lean ====
section
/-! DEFINITION. The words of the opcode table. -/

namespace Sys2Proof

/-- The command that a word spells by the table's bits. No row of the table gives bits, so no word spells a command: the bytes of
the ports are decoded in `Sys2Proof/Machine/Operands.lean` (log entry 4). -/
def decodeTableWord (_nbits _w : Nat) : Option Instr := none

end Sys2Proof
end

