-- ==== Sys2Proof/Config.lean ====
section
/-! DEFINITION. What the manual fixes as sizes and fixed waits, and the free values: bytes of a copy whose value the manual does not state. -/

namespace Sys2Proof.Config

/-- Places of the report queue (R168). -/
def reportPlaces : Nat := 128

/-- Rows the reference set may hold (R5). -/
def referencePlaces : Nat := 8

/-- Entries a candidate range list may hold (R86). -/
def rangePlaces : Nat := 32

/-- Seconds between a failed ALIGHT hold and the next ask of it (R72, R147). -/
def alightRetry : Nat := 10

/-- The limit of an energy bucket (R155). -/
def bucketLimit : Nat := 4294967295

/-- The limit of a two-byte saturating counter. -/
def countLimit : Nat := 65535

/-- How many messages between blocks one event may set off before the model drops the rest.
DESIGN CHOICE, see log entry 3: the manual gives no limit, and no event of the manual comes near this one. -/
def cascadeLimit : Nat := 65536

/-- A byte of a copy whose value the manual does not state (the tag, status and send attempts of a waiting
successor, R33; the tag of a TAKE_ORDER copy of kind NONE, R35). DESIGN CHOICE, log entry 8: nothing
constrains it. The argument is a counter of the state, so that each use has a value of its own. -/
opaque freeByte : Nat → Byte

end Sys2Proof.Config
end

