-- ==== Sys2Proof/Machine/State.lean ====
section
/-! DEFINITION. Everything the manual gives the block to hold (Table 0-2), as plain data, and the state after power-on
reset. One structure for each functional block. A field marked MODEL is implied by a rule but named by no table. -/

namespace Sys2Proof.Machine

/-! ### Rows (RAC) -/

/-- Row states (Table 1-2). -/
inductive RowState where
  | tracking
  | holdAsked
  | held
  | occupied
  | stowWait
  | stowCleared
  | stowed
  | locked
deriving DecidableEq, Repr

/-- Hold purposes (Table 1-3). -/
inductive Purpose where
  | pass
  | board
  | alight
deriving DecidableEq, Repr

/-- Reservation kinds (R23). -/
inductive ResKind where
  | final
  | leg
  | storm
deriving DecidableEq, Repr

/-- An incoming reservation (R23). -/
structure Reservation where
  robot : Slot
  kind : ResKind
deriving DecidableEq, Repr

/-- Who asks a hold (Table 1-3): a worklist entry, a transfer request, or storm parking for a robot. -/
inductive Requester where
  | entry (round : Half) (pos : Nat)
  | request (seq : Half)
  | storm (robot : Slot)
deriving DecidableEq, Repr

/-- The hold requester field (Table 1-1). -/
structure Hold where
  by_ : Requester
  purpose : Purpose
deriving DecidableEq, Repr

/-- Tracker notices (Table 1-9). -/
inductive Notice where
  | holdAsk (purpose : Purpose)
  | withdraw
  | release
  | stowClear (forced : Bool)
deriving DecidableEq, Repr

/-- Row-state classes (Table 1-11). -/
inductive RowClass where
  | normal
  | excluded
  | service
  | stow
deriving DecidableEq, Repr

/-- A row record (Table 1-1). -/
structure RowRec where
  zone : Zone
  capacity : Nat
  length : Nat
  reference : Bool
  excluded : Bool
  state : RowState
  present : Option Slot
  incoming : Option Reservation
  stowWanted : Bool
  hold : Option Hold
  attempts : Nat
  attemptsBy : Option Requester
  holdTimer : Option Time
  notice : Option Notice
  acc : RowClass
  /-- MODEL: the row's last clearance was forced (R15, Table 1-4). -/
  lastForced : Bool
  /-- MODEL: the content of the notice slot has begun to be read by TAKE_NOTICE and has not been replaced (R24, R25). -/
  noticeRead : Bool
deriving DecidableEq, Repr

/-- A row record after power-on reset (Table 1-1). -/
def RowRec.reset : RowRec :=
  { zone := 0, capacity := 0, length := 0, reference := false, excluded := false, state := .tracking,
    present := none, incoming := none, stowWanted := false, hold := none, attempts := 0, attemptsBy := none,
    holdTimer := none, notice := none, acc := .normal, lastForced := false, noticeRead := false }

/-- The Row Access Controller (Table 0-2). -/
structure Rac where
  rows : Table 256 RowRec
  winFirst : Row
  winLast : Row
  mapPtr : Row
  /-- The tracker notice list, head first (section 1.7). -/
  notices : List Row
  /-- The tracker-port attention output (R176). -/
  attention : Bool
  /-- Hold timeout setting in seconds (R10). -/
  holdTimeout : Nat
deriving DecidableEq, Repr

def Rac.reset : Rac :=
  { rows := tfill 256 RowRec.reset, winFirst := 0, winLast := 255, mapPtr := 0, notices := [], attention := false,
    holdTimeout := 60 }

/-! ### Robots and orders (FOU) -/

/-- Zone modes (Table 4-1); a PASS order's mode is DRY or DEEP (Table 2-3). -/
inductive Mode where
  | skip
  | dry
  | deep
deriving DecidableEq, Repr

/-- Robot states (Table 2-2). -/
inductive RobotState where
  | empty
  | parked
  | passing
  | returning
  | boarding
  | aboard
  | alighting
  | fault
  | lost
  | stranded
deriving DecidableEq, Repr

/-- Robot positions (R28). -/
inductive Position where
  | docked
  | onTable
  | onCarrier
deriving DecidableEq, Repr

/-- Robot fault causes (Table 2-1). -/
inductive RobotCause where
  | none
  | code (c : Byte)
  | mismatch
  | refused
deriving DecidableEq, Repr

/-- Orders with their parameters (Table 2-3). -/
inductive OrderKind where
  | pass (row : Row) (mode : Mode)
  | goHead
  | board (c : CarrierIx)
  | alight (row : Row)
  | travel (row : Row)
  | park
deriving DecidableEq, Repr

/-- The kind of an order without its parameters (Table 2-3). -/
inductive OrderName where
  | pass
  | goHead
  | board
  | alight
  | travel
  | park
deriving DecidableEq, Repr

/-- Order classes (section 2.3). -/
inductive OrderClass where
  | routine
  | urgent
deriving DecidableEq, Repr

/-- Order statuses (section 2.3). -/
inductive OrderStatus where
  | queued
  | sent
  | accepted
deriving DecidableEq, Repr

/-- An order in an order slot (Table 2-1), with its accept timer (R39). -/
structure Order where
  tag : Byte
  kind : OrderKind
  cls : OrderClass
  status : OrderStatus
  attempts : Nat
  acceptTimer : Option Time
deriving DecidableEq, Repr

/-- An order waiting as successor: it has no tag yet (R33, R36). -/
structure Successor where
  kind : OrderKind
  cls : OrderClass
deriving DecidableEq, Repr

/-- The order side of a unit (Table 2-1, section 2.7). -/
structure UnitOrders where
  tagCounter : Byte
  latestSent : Option (Byte × OrderName)
  slot : Option Order
  successor : Option Successor
deriving DecidableEq, Repr

def UnitOrders.reset : UnitOrders := { tagCounter := 0, latestSent := none, slot := none, successor := none }

/-- A robot's task link (Table 2-1). -/
inductive TaskLink where
  | entry (round : Half) (pos : Nat)
  | request (seq : Half)
deriving DecidableEq, Repr

/-- A robot record (Table 2-1). -/
structure Robot where
  serial : Half
  state : RobotState
  position : Position
  row : Option Row
  carrier : Option CarrierIx
  unconfirmed : Bool
  cause : RobotCause
  highest : Nat
  battery : Nat
  lastReport : Time
  orders : UnitOrders
  link : Option TaskLink
  fullPasses : Nat
  partPasses : Nat
  /-- MODEL: the mode of the latest PASS issued, which its pass result names (R51). -/
  passMode : Mode
deriving DecidableEq, Repr

def Robot.reset : Robot :=
  { serial := 0, state := .empty, position := .docked, row := none, carrier := none, unconfirmed := false,
    cause := .none, highest := 0, battery := 0, lastReport := 0, orders := UnitOrders.reset, link := none,
    fullPasses := 0, partPasses := 0, passMode := .dry }

/-- The Fleet Order Unit (Table 0-2). -/
structure Fou where
  robots : Table 32 Robot
  /-- The order side of the four carriers (section 2.7). -/
  carrierOrders : Table 4 UnitOrders
  /-- The URGENT tier of the fleet order queue, head first, by unit (R34). -/
  urgentQ : List FleetUnit
  /-- The ROUTINE tier (R34). -/
  routineQ : List FleetUnit
  /-- The fleet-port attention output (R176). -/
  attention : Bool
  /-- Accept timeout and robot silence timeout in seconds (R54). -/
  acceptTimeout : Nat
  silenceTimeout : Nat
deriving DecidableEq, Repr

def Fou.reset : Fou :=
  { robots := tfill 32 Robot.reset, carrierOrders := tfill 4 UnitOrders.reset, urgentQ := [], routineQ := [],
    attention := false, acceptTimeout := 10, silenceTimeout := 120 }

/-! ### Carriers and transfers (TXS) -/

/-- Carrier states (Table 3-2). -/
inductive CarrierState where
  | absent
  | garaged
  | idle
  | toPickup
  | loading
  | toDrop
  | unloading
  | toGarage
  | halted
deriving DecidableEq, Repr

/-- Carrier positions (Table 3-1). -/
inductive CarrierPos where
  | row (r : Row)
  | garage
deriving DecidableEq, Repr

/-- Directions (Table 0-4). -/
inductive Direction where
  | up
  | down
deriving DecidableEq, Repr

/-- Halt causes (Table 3-1). -/
inductive HaltCause where
  | none
  | timeout
  | noAnswer
  | code (c : Byte)
deriving DecidableEq, Repr

/-- A carrier record (Table 3-1). -/
structure Carrier where
  state : CarrierState
  enabled : Bool
  span : Option (Row × Row)
  position : CarrierPos
  direction : Direction
  load : Option Slot
  task : Option Half
  /-- Start time and distance of the travel (R75). -/
  travelTimer : Option (Time × Nat)
  idleStart : Option Time
  cause : HaltCause
deriving DecidableEq, Repr

/-- Carriers 1..3 after power-on reset (Table 3-1). -/
def Carrier.absentReset : Carrier :=
  { state := .absent, enabled := false, span := none, position := .garage, direction := .up, load := none,
    task := none, travelTimer := none, idleStart := none, cause := .none }

/-- Carrier 0 after power-on reset (Table 3-1). -/
def Carrier.firstReset : Carrier :=
  { Carrier.absentReset with state := .garaged, enabled := true, span := some (0, 255) }

/-- Classes of a transfer request (Table 3-3). -/
inductive ReqClass where
  | routine
  | relocate
  | storm
deriving DecidableEq, Repr

/-- Origins of a transfer request (Table 3-3). -/
inductive Origin where
  | entry (round : Half) (pos : Nat)
  | plant
  | none
deriving DecidableEq, Repr

/-- WAITING, or SERVING with a carrier (Table 3-3). -/
inductive ReqState where
  | waiting
  | serving (c : CarrierIx)
deriving DecidableEq, Repr

/-- MODEL: by which rule a PENDING leg target is looked for: R60, R73 (with the failed leg target, and whether that
was the final row), or R145. -/
inductive Search where
  | leg
  | relocate (failed : Row) (wasFinal : Bool)
  | storm
deriving DecidableEq, Repr

/-- A transfer request (Table 3-3). The leg target none is PENDING. -/
structure Request where
  seq : Half
  robot : Slot
  fromRow : Row
  legTarget : Option Row
  finalRow : Row
  cls : ReqClass
  origin : Origin
  leg : Nat
  dyn : Nat
  guard : Nat
  pickupFails : Nat
  dropFails : Nat
  retry : Option Time
  cancelled : Bool
  state : ReqState
  /-- MODEL: how a PENDING leg target is looked for. -/
  search : Search
  /-- MODEL: the final row was set by R73, so a delivery there is RELOCATED (Table 3-7). -/
  relocated : Bool
  /-- MODEL: the storm target chosen at storm entry and held until the conversion (R145). -/
  stormTarget : Option Row
  /-- MODEL: storm parking began while the robot was crossing between carrier and table, so that R81 governs the crossing's
  end. -/
  stormCrossing : Bool
deriving DecidableEq, Repr

/-- The Transfer Scheduler (Table 0-2) with its arbiter settings (Table 3-5) and carrier timing settings (R75). -/
structure Txs where
  carriers : Table 4 Carrier
  /-- The transfer pool, oldest first (R59). -/
  pool : List Request
  seqCounter : Half
  headHit : Nat
  dirBonus : Nat
  near : Nat
  jump : Nat
  ceiling : Nat
  guardSetting : Nat
  secondsPerRow : Nat
  travelSlack : Nat
  parkDelay : Nat
deriving DecidableEq, Repr

def Txs.reset : Txs :=
  { carriers := tset (tfill 4 Carrier.absentReset) 0 Carrier.firstReset, pool := [], seqCounter := 0, headHit := 4,
    dirBonus := 2, near := 2, jump := 1, ceiling := 15, guardSetting := 15, secondsPerRow := 4, travelSlack := 30,
    parkDelay := 300 }

/-! ### Plans and freeze (PLS) -/

/-- A zone policy record (Table 4-1). -/
structure ZonePolicy where
  mode : Mode
  trigger : Nat
  pDry : Nat
  horizon : Nat
  cost : Nat
  minInterval : Nat
  gain : Nat
  minBattery : Nat
deriving DecidableEq, Repr

def ZonePolicy.reset : ZonePolicy :=
  { mode := .skip, trigger := 3900, pDry := 4000, horizon := 7, cost := 20000, minInterval := 2, gain := 4,
    minBattery := 40 }

/-- Trigger sources (Table 4-2). -/
inductive TriggerSource where
  | off
  | period
  | dayClose
deriving DecidableEq, Repr

/-- Round parameters (Table 4-2); period and time limit in minutes. -/
structure RoundParams where
  source : TriggerSource
  period : Nat
  budget : Nat
  limit : Nat
deriving DecidableEq, Repr

def RoundParams.reset : RoundParams := { source := .off, period := 240, budget := 16, limit := 360 }

/-- A plan bank (R83). -/
structure Bank where
  zones : Table 16 ZonePolicy
  ranges : List (Row × Row)
  round : RoundParams
deriving DecidableEq, Repr

def Bank.reset : Bank := { zones := tfill 16 ZonePolicy.reset, ranges := [], round := RoundParams.reset }

/-- The names of the plan banks. -/
inductive BankId where
  | a
  | b
deriving DecidableEq, Repr

/-- Freeze states (Table 4-4). -/
inductive FreezeState where
  | running
  | freezeAsked
  | frozen
deriving DecidableEq, Repr

/-- The Plan Store (Table 0-2). -/
structure Pls where
  bankA : Bank
  bankB : Bank
  front : BankId
  flipPending : Bool
  freeze : FreezeState
deriving DecidableEq, Repr

def Pls.reset : Pls :=
  { bankA := Bank.reset, bankB := Bank.reset, front := .a, flipPending := false, freeze := .frozen }

/-! ### Soiling estimation (SEU) -/

/-- The estimator's fields of one row (Table 5-1). -/
structure SeuRow where
  reading : Option Nat
  ratio : Nat
  lastClean : Option Half
  fullPasses : Nat
  partPasses : Nat
deriving DecidableEq, Repr

def SeuRow.reset : SeuRow := { reading := none, ratio := 4096, lastClean := none, fullPasses := 0, partPasses := 0 }

/-- The Soiling Estimator (Table 5-1). The data pointer none is PAST. -/
structure Seu where
  intervalOpen : Bool
  openIndex : Half
  winFirst : Row
  winLast : Row
  pointer : Option Row
  streamSeen : Bool
  lastClosed : Option Half
  rows : Table 256 SeuRow
  daySum : Nat
  refCount : Nat
  yDay : Nat
  day : Half
  gate : Nat
deriving DecidableEq, Repr

def Seu.reset : Seu :=
  { intervalOpen := false, openIndex := 0, winFirst := 0, winLast := 0, pointer := some 0, streamSeen := false,
    lastClosed := none, rows := tfill 256 SeuRow.reset, daySum := 0, refCount := 0, yDay := 0, day := 0, gate := 20 }

/-- Final classes (R104). -/
inductive FinalClass where
  | normal
  | service
  | stow
  | excluded
  | outage
  | nodata
deriving DecidableEq, Repr

/-! ### Rounds (RSC) -/

/-- Round states (Table 6-2). -/
inductive RoundState where
  | none
  | active
  | suspended
  | draining
deriving DecidableEq, Repr

/-- Outcomes of a round (Table 6-1). -/
inductive RoundOutcome where
  | none
  | complete
  | empty
  | timed
  | stopped
  | aborted
deriving DecidableEq, Repr

/-- Entry states (Table 6-4). -/
inductive EntryState where
  | waiting
  | assigned
  | holding
  | passing
  | doneFull
  | donePart
  | skipped
deriving DecidableEq, Repr

/-- Skip reasons (Table 6-5). -/
inductive SkipReason where
  | refused
  | timeout
  | excluded
  | stowed
  | fault
  | time
  | storm
  | noRobot
deriving DecidableEq, Repr

/-- A worklist entry (Table 6-3). -/
structure Entry where
  row : Row
  mode : Mode
  score : Nat
  state : EntryState
  robot : Option Slot
  holdFails : Nat
  transferFails : Nat
  skip : Option SkipReason
deriving DecidableEq, Repr

/-- The Round Scheduler (Table 6-1). Timers hold their start time and their length in seconds. -/
structure Rsc where
  state : RoundState
  number : Half
  due : Bool
  lastOutcome : RoundOutcome
  worklist : List Entry
  periodTimer : Option (Time × Nat)
  limitTimer : Option (Time × Nat)
  /-- MODEL: the outcome a DRAINING round will end with (R133). -/
  drainOutcome : RoundOutcome
deriving DecidableEq, Repr

def Rsc.reset : Rsc :=
  { state := .none, number := 0, due := false, lastOutcome := .none, worklist := [], periodTimer := none,
    limitTimer := none, drainOutcome := .none }

/-! ### Weather (WXM) -/

/-- Weather states (Table 7-3). -/
inductive Weather where
  | calm
  | watch
  | parking
  | secured
deriving DecidableEq, Repr

/-- Causes carried by STORM_STATE (Table 7-6). -/
inductive StormCause where
  | gust
  | stormWind
  | declared
  | silence
  | threshold
  | quiet
  | drained
  | deadline
  | released
deriving DecidableEq, Repr

/-- A storm alighting (Table 7-1). -/
structure StormAlight where
  robot : Slot
  row : Row
  asks : Nat
  /-- MODEL: the time of the failed answer after which the hold is asked again (R147). -/
  retry : Option Time
deriving DecidableEq, Repr

/-- The Weather Monitor (Table 7-1, Table 7-2). -/
structure Wxm where
  weather : Weather
  lastSample : Option Nat
  declared : Bool
  silenceStart : Time
  silenceExpired : Bool
  quietTimer : Option Time
  releaseTimer : Option Time
  deadlineTimer : Option Time
  alights : Table 4 (Option StormAlight)
  /-- MODEL: the ask count a storm alighting kept when its ALIGHT was issued (R147). -/
  askKept : Table 4 Nat
  watchAt : Nat
  stormAt : Nat
  releaseHold : Nat
  windSilence : Nat
  parkingDeadline : Nat
  /-- MODEL: WATCH was last entered by the release of storm parking (R152). -/
  released : Bool
deriving DecidableEq, Repr

def Wxm.reset : Wxm :=
  { weather := .calm, lastSample := none, declared := false, silenceStart := 0, silenceExpired := false,
    quietTimer := none, releaseTimer := none, deadlineTimer := none, alights := tfill 4 none, askKept := tfill 4 0,
    watchAt := 120, stormAt := 180, releaseHold := 900, windSilence := 30, parkingDeadline := 180,
    released := false }

/-! ### Yield accounts (YAC) -/

/-- The seven buckets of an account and its saturation flag (Table 8-1, Table 8-2). -/
structure Buckets where
  produced : Nat
  expected : Nat
  surplus : Nat
  soiling : Nat
  service : Nat
  stow : Nat
  outage : Nat
  saturated : Bool
deriving DecidableEq, Repr

def Buckets.reset : Buckets :=
  { produced := 0, expected := 0, surplus := 0, soiling := 0, service := 0, stow := 0, outage := 0, saturated := false }

/-- A row account (Table 8-1); its pass counters are the estimator's. -/
structure RowAccount where
  buckets : Buckets
  nodata : Nat
deriving DecidableEq, Repr

def RowAccount.reset : RowAccount := { buckets := Buckets.reset, nodata := 0 }

/-- A zone account (Table 8-2). -/
structure ZoneAccount where
  buckets : Buckets
  recovered : Nat
deriving DecidableEq, Repr

def ZoneAccount.reset : ZoneAccount := { buckets := Buckets.reset, recovered := 0 }

/-- The Yield Accounts (Table 0-2). -/
structure Yac where
  rows : Table 256 RowAccount
  zones : Table 16 ZoneAccount
deriving DecidableEq, Repr

def Yac.reset : Yac := { rows := tfill 256 RowAccount.reset, zones := tfill 16 ZoneAccount.reset }

/-! ### Reports (RPQ) -/

/-- Outcomes of a transfer request (Table 3-7). -/
inductive ReqOutcome where
  | delivered
  | relocated
  | stopped
  | refused
  | failed
  | dropped
deriving DecidableEq, Repr

/-- Causes of a STRANDED record (Table 11-4). -/
inductive StrandCause where
  | deadline
  | forcedStow
deriving DecidableEq, Repr

/-- The row or carrier a STRANDED record names (Table 11-4). -/
inductive StrandPlace where
  | row (r : Row)
  | carrier (c : CarrierIx)
deriving DecidableEq, Repr

/-- Report records with the fields of their kind (Table 11-4). -/
inductive RecordBody where
  | intervalClosed (index : Half) (referenced : Bool) (y refs sampled : Nat)
  | classMap (runs : List (FinalClass × Nat)) (more : Bool)
  | dayClosed (day : Half) (yDay refCount : Nat)
  | roundStarted (round : Half) (len : Nat)
  | roundEnded (round : Half) (outcome : RoundOutcome) (full part skipped : Nat)
  | passDone (row : Row) (robot : Slot) (complete : Bool) (p before after : Nat)
  | transferDone (seq : Half) (robot : Slot) (finalRow : Row) (rowNow : Option Row) (legs : Nat) (cls : ReqClass)
      (outcome : ReqOutcome)
  | stormState (prev new : Weather) (cause : StormCause) (sample : Option Nat) (declared : Bool) (stranded : Nat)
  | stranded (robot : Slot) (position : Position) (place : Option StrandPlace) (cause : StrandCause)
  | robotLost (robot : Slot) (row : Option Row) (position : Position)
  | carrierHalted (c : CarrierIx) (position : CarrierPos) (load : Option Slot) (cause : HaltCause)
  | freezeDone
  | planFlipped (front : BankId)
  | overrun (count : Nat)
deriving DecidableEq, Repr

/-- A record with its stamp (R169). -/
structure Record where
  stamp : Time
  body : RecordBody
deriving DecidableEq, Repr

/-- The Report Queue (R168). -/
structure Rpq where
  /-- The report queue, head first. -/
  queue : List Record
  overrun : Nat
  threshold : Nat
  staleTime : Nat
  /-- The plant-port attention output (R174). -/
  attention : Bool
deriving DecidableEq, Repr

def Rpq.reset : Rpq := { queue := [], overrun := 0, threshold := 16, staleTime := 20, attention := false }

/-! ### Ports -/

/-- The commands of the three ports (Tables 10-2 to 10-4), in the order of their codes (R188). -/
inductive Cmd where
  | status | freeze | thaw | rowmapWindow | rowmapData | rowExclude | zoneWrite | planRanges | roundSetup | planFlip
  | roundStart | roundStop | energyOpen | energyData | dayClose | stormDeclare | stormCancel | timingWrite
  | arbiterWrite | carrierSpans | carrierEnrol | carrierRetire | robotEnrol | robotRetire | robotRecovered | robotMove
  | accountsClear | readRow | readRobot | readCarrier | readAccount | readWorklist | readPlan | readReport
  | takeNotice | held | holdRefused | stowWanted | stowed | forcedStow | unstowed | wind
  | takeOrder | robotReport | carrierReport
deriving DecidableEq, Repr

/-- Result codes (R179). -/
inductive Result where
  | ok
  | clamped
  | role
  | range
  | state
  | full
  | unknown
  | incomplete
deriving DecidableEq, Repr

/-- What a read copied at its command byte, where its rule fixes that moment before the parameter has come (R1, R27,
R55). -/
inductive Snapshot where
  | none
  | rows (rows : Table 256 RowRec) (seu : Table 256 SeuRow) (day : Half) (yDay : Nat)
  | robots (robots : Table 32 Robot)
  | carriers (carriers : Table 4 Carrier)
deriving DecidableEq, Repr

/-- What the last byte of a read copy removes or clears (R25, R35, R166, R173). -/
inductive Removal where
  | nothing
  | notice (row : Row)
  | order (unit : FleetUnit) (tag : Byte)
  | report
  | rowAccount (row : Row) (full part : Nat)
  | zoneAccount (zone : Zone) (recovered : Nat)
deriving DecidableEq, Repr

/-- The command context of a port (R178): no command under way (data bytes are discarded), an action with the parameter
bytes taken so far, a settings command at a field with the bytes of that field taken so far (and, for ZONE_WRITE, the
zone), a stream with the bytes of a partial entry, a read taking its parameters, or a read giving its copy. -/
inductive Context where
  | none
  | action (cmd : Cmd) (got : List Byte)
  | settings (cmd : Cmd) (field : Nat) (got : List Byte) (zone : Zone)
  | stream (cmd : Cmd) (got : List Byte)
  | readParams (cmd : Cmd) (got : List Byte) (snap : Snapshot)
  | readCopy (left : List Byte) (removal : Removal)
deriving DecidableEq, Repr

/-- A port controller (section 10.1, R179). -/
structure PortCtl where
  lastResult : Result
  /-- The command code of the last result; none is NONE. -/
  code : Option Byte
  context : Context
  /-- The bits of a byte not yet whole (R181, R183). -/
  partialBits : List Bool
  /-- The byte shifted out on data out during the last byte taken (R177). -/
  dataOut : Byte
  /-- The port reset input is asserted: the port takes no byte (R183). -/
  resetHeld : Bool
deriving DecidableEq, Repr

def PortCtl.reset : PortCtl :=
  { lastResult := .ok, code := none, context := .none, partialBits := [], dataOut := 0, resetHeld := false }

/-! ### The machine -/

/-- The whole block. `pending` is the queue of commands that are waiting, first in, first out; `freeUses` counts the free
values used (both MODEL). -/
structure State where
  now : Time
  rac : Rac
  fou : Fou
  txs : Txs
  pls : Pls
  seu : Seu
  rsc : Rsc
  wxm : Wxm
  yac : Yac
  rpq : Rpq
  plant : PortCtl
  tracker : PortCtl
  fleet : PortCtl
  freeUses : Nat
  pending : List Instr
deriving DecidableEq, Repr

/-- The block right after power-on reset (R184). -/
def State.reset : State :=
  { now := 0, rac := Rac.reset, fou := Fou.reset, txs := Txs.reset, pls := Pls.reset, seu := Seu.reset,
    rsc := Rsc.reset, wxm := Wxm.reset, yac := Yac.reset, rpq := Rpq.reset, plant := PortCtl.reset,
    tracker := PortCtl.reset, fleet := PortCtl.reset, freeUses := 0, pending := [] }

/-- Faults: none. The manual names no condition in which a command stops the block: every refusal of the manual is a
result code held at the port (R179). No command raises a fault, and the one constructor stands only because a
closed reason type needs a name; it is safe. -/
inductive Fault where
  | noneNamed
deriving DecidableEq, Repr

/-- Refusals. `notModelled` is for an arm of `exec` with no meaning yet, raised by `exec` alone; it is safe. No arm is left
with it. -/
inductive Refusal where
  | notModelled (mnemonic : String)
deriving DecidableEq, Repr

end Sys2Proof.Machine
end

