-- ==== Sys2Proof/Machine/Flags.lean ====
section
/-! DEFINITION. The conditions the block judges: elapsed timers, row classes, the weather and freeze conditions, and the
attention conditions of the plant port. -/

namespace Sys2Proof.Machine

/-! ### Timers -/

/-- Whole seconds from a start time to now, on the seconds counter (section 1.5, Timeouts). -/
def elapsed (now start : Time) : Nat := (now - start).toNat

/-- A timer with a start time has reached its timeout (section 1.5, Timeouts; R54). -/
def due (now : Time) (timer : Option Time) (timeout : Nat) : Bool :=
  match timer with
  | some t => decide (timeout ≤ elapsed now t)
  | none => false

/-- A timer that holds its own length has reached it. -/
def dueLen (now : Time) (timer : Option (Time × Nat)) : Bool :=
  match timer with
  | some (t, len) => decide (len ≤ elapsed now t)
  | none => false

/-! ### Row classes -/

/-- The class of a row's condition (Table 1-11). -/
def rowClass (x : RowRec) : RowClass :=
  match x.state with
  | .stowCleared => .stow
  | .stowed => .stow
  | .holdAsked => .service
  | .held => .service
  | .occupied => .service
  | .stowWait => .service
  | .locked => .service
  | .tracking => if x.excluded then .excluded else .normal

/-- Precedence of the row-state classes, NORMAL lowest (Table 1-11). -/
def classRank (c : RowClass) : Nat :=
  match c with
  | .normal => 0
  | .excluded => 1
  | .service => 2
  | .stow => 3

/-- At a change of a row's state or exclusion, its class is placed into the accumulator when it has the higher
precedence (R26). -/
def raiseAcc (old new : RowRec) : RowRec :=
  if (old.state ≠ new.state ∨ old.excluded ≠ new.excluded) ∧ classRank new.acc < classRank (rowClass new) then
    { new with acc := rowClass new }
  else new

/-- A change by which a row becomes free (R60): it enters TRACKING, its present robot or its incoming reservation is
cleared, or its exclusion attribute is cleared. -/
def becameFree (old new : RowRec) : Bool :=
  (decide (old.state ≠ .tracking) && decide (new.state = .tracking)) || (old.present.isSome && new.present.isNone) ||
    (old.incoming.isSome && new.incoming.isNone) || (old.excluded && !new.excluded)

/-- A row that can take a robot to be set down short of a transfer's final row: it has a rail, no present robot, no
incoming reservation, is not excluded, and is in TRACKING (R60, R73, R145). -/
def rowOpen (x : RowRec) : Bool :=
  decide (0 < x.length) && x.present.isNone && x.incoming.isNone && !x.excluded && decide (x.state = .tracking)

/-- A reservation of a kind is taken on a row (R23). -/
def canReserve (x : RowRec) (kind : ResKind) : Bool :=
  decide (0 < x.length) && x.present.isNone && x.incoming.isNone && (decide (kind = .final) || !x.excluded)

/-- The robot a row's reservation is for. -/
def reservedFor (x : RowRec) (k : Slot) : Bool :=
  match x.incoming with
  | some r => decide (r.robot = k)
  | none => false

/-- A row is exempt from the standing clearance while it holds a STORM reservation (R21). -/
def stormReserved (x : RowRec) : Bool :=
  match x.incoming with
  | some r => decide (r.kind = .storm)
  | none => false

/-- A robot counts against a row (R22). -/
def countsAgainst (x : RowRec) (k : Slot) : Bool := decide (x.present = some k) || reservedFor x k

/-- The occupying robot of a row (R7): the present robot under PASS or BOARD, the reservation's robot under ALIGHT. -/
def occupyingRobot (x : RowRec) : Option Slot :=
  match x.hold with
  | some h => if h.purpose = .alight then x.incoming.map (·.robot) else x.present
  | none => x.present

/-! ### Weather and freeze -/

/-- The weather state is PARKING or SECURED: the standing clearance is in force (R20). -/
def stormOn (w : Weather) : Bool := decide (w = .parking) || decide (w = .secured)

/-- The storm condition (R142). -/
def stormCondition (x : Wxm) : Bool :=
  (match x.lastSample with
    | some v => decide (x.stormAt ≤ v)
    | none => false) || x.declared || x.silenceExpired

/-- A request class admitted to dispatch (Table 3-4). -/
def admitted (cls : ReqClass) (weather : Weather) (freeze : FreezeState) : Bool :=
  match cls with
  | .storm => true
  | .relocate => decide (freeze = .running) && (decide (weather = .calm) || decide (weather = .watch))
  | .routine => decide (freeze = .running) && decide (weather = .calm)

/-- The drain condition (R94). -/
def drained (rows : Table 256 RowRec) (robots : Table 32 Robot) (carriers : Table 4 Carrier) : Bool :=
  (indices 32).all (fun k => decide ((tget robots k).state ∉
      [RobotState.passing, .returning, .boarding, .aboard, .alighting])) &&
    (indices 4).all (fun c => decide ((tget carriers c).state ∉ [CarrierState.loading, .toDrop, .unloading])) &&
    (indices 256).all (fun r => decide ((tget rows r).state ∉ [RowState.holdAsked, .held, .occupied]))

/-- The block is secured (R148). -/
def secured (rows : Table 256 RowRec) (robots : Table 32 Robot) (carriers : Table 4 Carrier) : Bool :=
  (indices 32).all (fun k => decide ((tget robots k).state ∈ [RobotState.parked, .stranded, .lost, .empty]) ||
      (decide ((tget robots k).state = .fault) && decide ((tget robots k).position = .docked))) &&
    (indices 4).all (fun c => decide ((tget carriers c).state ∈ [CarrierState.absent, .garaged, .halted])) &&
    (indices 256).all (fun r => decide ((tget rows r).state ≠ .stowWait))

/-! ### Attention -/

/-- Prompt record kinds (Table 9-1). -/
def prompt (b : RecordBody) : Bool :=
  match b with
  | .stormState .. => true
  | .stranded .. => true
  | .robotLost .. => true
  | .carrierHalted .. => true
  | .freezeDone => true
  | .planFlipped _ => true
  | .overrun _ => true
  | .intervalClosed .. => false
  | .classMap .. => false
  | .dayClosed .. => false
  | .roundStarted .. => false
  | .roundEnded .. => false
  | .passDone .. => false
  | .transferDone .. => false

/-- The stale condition of the head record (R175). -/
def stale (now : Time) (q : Rpq) : Bool :=
  match q.queue with
  | h :: _ => decide (q.staleTime ≤ elapsed now h.stamp)
  | [] => false

/-- The plant-port attention as its conditions give it at this moment (R174). -/
def plantAttention (now : Time) (q : Rpq) : Bool :=
  decide (q.threshold ≤ q.queue.length) || stale now q || q.queue.any (fun r => prompt r.body)

end Sys2Proof.Machine
end

