-- ==== Sys2Proof/Machine/Work.lean ====
section
/-! DEFINITION. The messages the blocks send each other within one event, and the state of an event under way. -/

namespace Sys2Proof.Machine

/-- The outcomes of a hold ask (R8). -/
inductive HoldAnswer where
  | held
  | refused
  | timeout
  | holdLost
deriving DecidableEq, Repr

/-- A message from one block to another, taken after the part of the event that sent it. -/
inductive Msg where
  /-- The RAC answers a requester (R8). -/
  | holdAnswer (asker : Requester) (row : Row) (purpose : Purpose) (answer : HoldAnswer)
  /-- The RAC tells the TXS that a row has become free (R60). -/
  | rowFreed (row : Row)
  /-- Arbitration is run for a carrier (R64). -/
  | arbitrate (c : CarrierIx)
  /-- The FOU tells a worklist entry that its robot is gone: fault, loss, retirement or recovery (R131). -/
  | entryGone (round : Half) (pos : Nat) (robot : Slot)
  /-- The FOU tells a worklist entry that its robot has been stranded (R131). -/
  | entryStranded (round : Half) (pos : Nat) (robot : Slot)
  /-- The FOU hands a pass result to a worklist entry (R51, R131). -/
  | entryPass (round : Half) (pos : Nat) (robot : Slot) (complete : Bool)
  /-- The FOU tells a worklist entry that its robot has refused the PASS (R42, R130). -/
  | entryRefused (round : Half) (pos : Nat) (robot : Slot)
  /-- The TXS tells a worklist entry the outcome of its request (R79, R129). -/
  | entryOutcome (round : Half) (pos : Nat) (robot : Slot) (outcome : ReqOutcome)
  /-- The RSC tests whether the round is complete (R134). -/
  | testRound
  /-- The RSC makes the assignment pass of a build or of a resumption (R122, R132). -/
  | assignPass
  /-- A requester withdraws a hold it has asked of the RAC (R13, R147). -/
  | withdraw (asker : Requester) (row : Row)
deriving DecidableEq, Repr

/-- The block with an event under way: the messages not yet taken, whether a further assignment pass is due (R128), whether
the conditions of a storm alighting may have changed (R147), and whether the secured test waits for the end of the storm entry or
of the parking deadline (R144, R149). The four fields are empty before an event and after it. -/
structure Work extends State where
  agenda : List Msg
  passDue : Bool
  told : Bool
  entering : Bool
deriving DecidableEq, Repr

/-- The beginning of an event. -/
def State.work (s : State) : Work := { s with agenda := [], passDue := false, told := false, entering := false }

end Sys2Proof.Machine
end

