-- ==== Sys2Proof/Machine/Ops.lean ====
section
/-! DEFINITION. The named operations over the block's tables and queues: the one way a row, a robot, a carrier, a request,
an entry, the fleet order queue and the report queue are changed, each with everything the manual ties to the change. -/

namespace Sys2Proof.Machine

/-! ### Messages -/

/-- Send a message to another block. -/
def send (m : Msg) (w : Work) : Work := { w with agenda := w.agenda ++ [m] }

/-- Send several messages in order. -/
def sendAll (ms : List Msg) (w : Work) : Work := { w with agenda := w.agenda ++ ms }

/-- The RSC is told that an assignment pass is due (R53, R128). -/
def askPass (w : Work) : Work := { w with passDue := true }

/-- The RSC makes an assignment pass at once (R122, R132): before any other message is taken. -/
def passAtOnce (w : Work) : Work := { w with agenda := .assignPass :: w.agenda }

/-- The WXM is told that the conditions of a storm alighting may have changed (R147). -/
def tell (w : Work) : Work := { w with told := true }

/-- Run arbitration for every carrier (R64). -/
def arbitrateAll (w : Work) : Work := sendAll ((indices 4).map Msg.arbitrate) w

/-! ### The report queue (RPQ) -/

/-- Judge the plant-port attention again (R174). -/
def judgePlant (w : Work) : Work :=
  { w with rpq := { w.rpq with attention := plantAttention w.now w.rpq } }

/-- Store a pending OVERRUN record when the queue has a free place (R172). -/
def storeOverrun (now : Time) (q : Rpq) : Rpq :=
  if q.overrun ≠ 0 ∧ q.queue.length < Config.reportPlaces then
    { q with queue := q.queue ++ [{ stamp := now, body := .overrun q.overrun }], overrun := 0 }
  else q

/-- Store a group of records whole, or refuse it whole and count it (R171, R172). -/
def storeGroup (now : Time) (bodies : List RecordBody) (q : Rpq) : Rpq :=
  if q.overrun = 0 ∧ q.queue.length + bodies.length ≤ Config.reportPlaces then
    { q with queue := q.queue ++ bodies.map (fun b => { stamp := now, body := b }) }
  else
    storeOverrun now { q with overrun := min Config.countLimit (q.overrun + bodies.length) }

/-- A block posts a group of records (R171); the attention is judged at each record stored (R174). -/
def postGroup (bodies : List RecordBody) (w : Work) : Work :=
  judgePlant { w with rpq := storeGroup w.now bodies w.rpq }

/-- A block posts one record (R171). -/
def post (body : RecordBody) (w : Work) : Work := postGroup [body] w

/-- The head record is removed (R173), a pending OVERRUN takes the freed place (R172), and the attention is judged. -/
def removeReport (w : Work) : Work :=
  judgePlant { w with rpq := storeOverrun w.now { w.rpq with queue := w.rpq.queue.tail } }

/-! ### The tests at a change of state (R7, R28, R56) -/

/-- The number of robots in STRANDED. -/
def strandedCount (w : Work) : Nat :=
  ((indices 32).filter (fun k => decide ((tget w.fou.robots k).state = .stranded))).length

/-- The weather state changes and a STORM_STATE record is posted (R154). An entry to WATCH is marked as a release or not, for
R152. -/
def changeWeather (new : Weather) (cause : StormCause) (w : Work) : Work :=
  post (.stormState w.wxm.weather new cause w.wxm.lastSample w.wxm.declared (strandedCount w))
    { w with wxm := { w.wxm with
      weather := new, released := if new = .watch then stormOn w.wxm.weather else w.wxm.released } }

/-- The PLS tests the drain condition (R94). -/
def drainTest (w : Work) : Work :=
  if w.pls.freeze = .freezeAsked ∧ drained w.rac.rows w.fou.robots w.txs.carriers = true then
    post .freezeDone { w with pls := { w.pls with freeze := .frozen } }
  else w

/-- The storm alightings that stand are removed, and their holds withdrawn (R147). -/
def dropAlights (w : Work) : Work :=
  sendAll ((indices 4).filterMap (fun c => (tget w.wxm.alights c).map (fun a => Msg.withdraw (.storm a.robot) a.row)))
    { w with wxm := { w.wxm with alights := tfill 4 none, askKept := tfill 4 0 } }

/-- The WXM tests whether the block is secured (R148). -/
def securedTest (w : Work) : Work :=
  if w.entering = false ∧ w.wxm.weather = .parking ∧ secured w.rac.rows w.fou.robots w.txs.carriers = true then
    changeWeather .secured .drained (dropAlights { w with wxm := { w.wxm with deadlineTimer := none } })
  else w

/-- The PLS and the WXM are told of a change of a row, robot or carrier state when it is made, and each makes its test then
(R7, R28, R56, R94, R148). The WXM keeps its storm alightings by the change, too, at the event's end (R147). Of the two tests the
secured test comes first (DESIGN CHOICE, log entry 5). -/
def stateChanged (changed : Bool) (w : Work) : Work := if changed then drainTest (securedTest (tell w)) else w

/-! ### Rows (RAC) -/

/-- The notice list after a row's slot has changed: a row whose slot fills joins the tail, and a row whose slot empties
leaves (R24). -/
def syncNotices (r : Row) (old new : RowRec) (l : List Row) : List Row :=
  if old.notice.isNone && new.notice.isSome then l ++ [r]
  else if old.notice.isSome && new.notice.isNone then l.filter (fun x => decide (x ≠ r))
  else l

/-- Write one row record. The accumulator is raised (R26), the row joins or leaves the notice list (R24) with the tracker
attention following (R176), a row that becomes free is told to the TXS (R60), and a row that leaves LOCKED to the RSC (R53). -/
def putRow (r : Row) (f : RowRec → RowRec) (w : Work) : Work :=
  let old := tget w.rac.rows r
  let new := raiseAcc old (f old)
  let notices := syncNotices r old new w.rac.notices
  { w with
    rac := { w.rac with rows := tset w.rac.rows r new, notices := notices, attention := !notices.isEmpty }
    agenda := w.agenda ++ (if becameFree old new then [Msg.rowFreed r] else [])
    passDue := w.passDue || (decide (old.state = .locked) && decide (new.state ≠ .locked)) }

/-- Change one row record; a change of its state is made known to the PLS and the WXM (R7). -/
def updRow (r : Row) (f : RowRec → RowRec) (w : Work) : Work :=
  let old := tget w.rac.rows r
  stateChanged (decide (old.state ≠ (f old).state)) (putRow r f w)

/-- Write every row record by one rule, in ascending row order, with the same effects as `putRow` on each. -/
def putAllRows (f : Row → RowRec → RowRec) (w : Work) : Work :=
  let old := w.rac.rows
  let new := tmap (fun r x => raiseAcc x (f r x)) old
  let emptied := fun r : Row => (tget old r).notice.isSome && (tget new r).notice.isNone
  let filled := fun r : Row => (tget old r).notice.isNone && (tget new r).notice.isSome
  let notices := w.rac.notices.filter (fun r => !emptied r) ++ (indices 256).filter filled
  { w with
    rac := { w.rac with rows := new, notices := notices, attention := !notices.isEmpty }
    agenda := w.agenda ++ ((indices 256).filter (fun r => becameFree (tget old r) (tget new r))).map Msg.rowFreed
    passDue := w.passDue ||
      (indices 256).any (fun r => decide ((tget old r).state = .locked) && decide ((tget new r).state ≠ .locked)) }

/-- Change every row record by one rule. The changes of state are made known together: no rule that changes every row makes
a condition of the tests false again at a later row (R20, R149). -/
def updAllRows (f : Row → RowRec → RowRec) (w : Work) : Work :=
  let old := w.rac.rows
  stateChanged ((indices 256).any (fun r => decide ((tget old r).state ≠ (f r (tget old r)).state))) (putAllRows f w)

/-- A row record. -/
def Work.row (w : Work) (r : Row) : RowRec := tget w.rac.rows r

/-! ### Robots (FOU) -/

/-- A change of a robot by which it may have become assignable (R53). -/
def assignableHint (old new : Robot) : Bool :=
  (decide (old.state ≠ .parked) && decide (new.state = .parked)) || (old.unconfirmed && !new.unconfirmed) ||
    (old.link.isSome && new.link.isNone) || decide (old.battery < new.battery)

/-- Write one robot record. The RSC is told when the robot may have become assignable (R53). -/
def putRobot (k : Slot) (f : Robot → Robot) (w : Work) : Work :=
  let old := tget w.fou.robots k
  { w with
    fou := { w.fou with robots := tset w.fou.robots k (f old) }
    passDue := w.passDue || assignableHint old (f old) }

/-- Change one robot record; a change of its state is made known to the PLS and the WXM (R28). -/
def updRobot (k : Slot) (f : Robot → Robot) (w : Work) : Work :=
  let old := tget w.fou.robots k
  stateChanged (decide (old.state ≠ (f old).state)) (putRobot k f w)

/-- A robot record. -/
def Work.robot (w : Work) (k : Slot) : Robot := tget w.fou.robots k

/-- Put a robot in a state, with the position that state gives (R28). -/
def withState (st : RobotState) (x : Robot) : Robot :=
  match st with
  | .parked => { x with state := st, position := .docked }
  | .passing => { x with state := st, position := .onTable }
  | .returning => { x with state := st, position := .onTable }
  | .boarding => { x with state := st, position := .onTable }
  | .alighting => { x with state := st, position := .onTable }
  | .aboard => { x with state := st, position := .onCarrier }
  | .empty => { x with state := st }
  | .fault => { x with state := st }
  | .lost => { x with state := st }
  | .stranded => { x with state := st }

/-- The order side of a unit (section 2.7). -/
def Work.orders (w : Work) (u : FleetUnit) : UnitOrders :=
  match u with
  | .robot k => (tget w.fou.robots k).orders
  | .carrier c => tget w.fou.carrierOrders c

/-- Change the order side of a unit. -/
def updOrders (u : FleetUnit) (f : UnitOrders → UnitOrders) (w : Work) : Work :=
  match u with
  | .robot k =>
    let x := tget w.fou.robots k
    { w with fou := { w.fou with robots := tset w.fou.robots k { x with orders := f x.orders } } }
  | .carrier c =>
    { w with fou := { w.fou with carrierOrders := tset w.fou.carrierOrders c (f (tget w.fou.carrierOrders c)) } }

/-- The fleet order queue, head first: the URGENT tier ahead of the ROUTINE tier (R34). -/
def Fou.queue (x : Fou) : List FleetUnit := x.urgentQ ++ x.routineQ

/-- Set the two tiers; the fleet attention follows the queue (R176). -/
def setQueue (urgent routine : List FleetUnit) (w : Work) : Work :=
  { w with fou := { w.fou with urgentQ := urgent, routineQ := routine, attention := !(urgent ++ routine).isEmpty } }

/-- A unit's order leaves the queue (R34). -/
def leaveQueue (u : FleetUnit) (w : Work) : Work :=
  setQueue (w.fou.urgentQ.filter (fun x => decide (x ≠ u))) (w.fou.routineQ.filter (fun x => decide (x ≠ u))) w

/-- A unit's order joins the tail of its class's tier (R34). -/
def joinQueue (u : FleetUnit) (cls : OrderClass) (w : Work) : Work :=
  match cls with
  | .urgent => setQueue (w.fou.urgentQ ++ [u]) w.fou.routineQ w
  | .routine => setQueue w.fou.urgentQ (w.fou.routineQ ++ [u]) w

/-! ### Carriers and requests (TXS) -/

/-- A carrier record. -/
def Work.carrier (w : Work) (c : CarrierIx) : Carrier := tget w.txs.carriers c

/-- Write one carrier record. -/
def putCarrier (c : CarrierIx) (f : Carrier → Carrier) (w : Work) : Work :=
  { w with txs := { w.txs with carriers := tset w.txs.carriers c (f (tget w.txs.carriers c)) } }

/-- Change one carrier record; a change of its state is made known to the PLS and the WXM (R56). -/
def updCarrier (c : CarrierIx) (f : Carrier → Carrier) (w : Work) : Work :=
  let old := tget w.txs.carriers c
  stateChanged (decide (old.state ≠ (f old).state)) (putCarrier c f w)

/-- Replace the transfer pool. -/
def setPool (pool : List Request) (w : Work) : Work := { w with txs := { w.txs with pool := pool } }

/-- The request with a sequence number (R59). -/
def Work.request? (w : Work) (seq : Half) : Option Request := w.txs.pool.find? (fun q => decide (q.seq = seq))

/-- Change the request with a sequence number. -/
def updRequest (seq : Half) (f : Request → Request) (w : Work) : Work :=
  setPool (w.txs.pool.map (fun q => if q.seq = seq then f q else q)) w

/-- The request of a robot: the pool never holds two for one robot (R59). -/
def Work.requestOf? (w : Work) (k : Slot) : Option Request := w.txs.pool.find? (fun q => decide (q.robot = k))

/-! ### The worklist (RSC) -/

/-- A worklist entry by its position. -/
def Work.entry? (w : Work) (pos : Nat) : Option Entry := w.rsc.worklist[pos]?

/-- Change the worklist entry at a position. -/
def updEntry (pos : Nat) (f : Entry → Entry) (w : Work) : Work :=
  { w with rsc := { w.rsc with worklist := w.rsc.worklist.modify pos f } }

/-! ### Plans (PLS) -/

/-- The front bank (R83). -/
def Pls.frontBank (x : Pls) : Bank :=
  match x.front with
  | .a => x.bankA
  | .b => x.bankB

/-- The back bank (R83). -/
def Pls.backBank (x : Pls) : Bank :=
  match x.front with
  | .a => x.bankB
  | .b => x.bankA

/-- Write the back bank (section 4.1, Back-bank writes). -/
def updBack (f : Bank → Bank) (w : Work) : Work :=
  match w.pls.front with
  | .a => { w with pls := { w.pls with bankB := f w.pls.bankB } }
  | .b => { w with pls := { w.pls with bankA := f w.pls.bankA } }

/-- The front bank's policy of a row's zone, read through the row record (R88). -/
def Work.policy (w : Work) (r : Row) : ZonePolicy := tget w.pls.frontBank.zones (w.row r).zone

/-! ### Saturation -/

/-- A two-byte saturating counter rises by 1. -/
def satSucc (n : Nat) : Nat := min Config.countLimit (n + 1)

end Sys2Proof.Machine
end

