-- ==== Sys2Proof/Machine/Fou.lean ====
section
/-! DEFINITION. The order side of the Fleet Order Unit: tags, the order slot, the successor, the queue (R32 to R39). -/

namespace Sys2Proof.Machine

/-- The kind of an order without its parameters. -/
def OrderKind.name (k : OrderKind) : OrderName :=
  match k with
  | .pass _ _ => .pass
  | .goHead => .goHead
  | .board _ => .board
  | .alight _ => .alight
  | .travel _ => .travel
  | .park => .park

/-- An order is placed into the slot with status QUEUED and takes a tag (R33). -/
def placeOrder (kind : OrderKind) (cls : OrderClass) (x : UnitOrders) : UnitOrders :=
  { x with
    tagCounter := x.tagCounter + 1
    slot := some { tag := x.tagCounter + 1, kind := kind, cls := cls, status := .queued, attempts := 0,
                   acceptTimer := none } }

/-- A new order for a unit (R36, Table 2-4). -/
def issueOrder (u : FleetUnit) (kind : OrderKind) (cls : OrderClass) (w : Work) : Work :=
  match (w.orders u).slot with
  | none => joinQueue u cls (updOrders u (placeOrder kind cls) w)
  | some o =>
    match o.status with
    | .queued =>
      let w1 := updOrders u (placeOrder kind cls) w
      if cls = .urgent ∧ o.cls = .routine then joinQueue u .urgent (leaveQueue u w1) else w1
    | .sent => updOrders u (fun x => { x with successor := some ⟨kind, cls⟩ }) w
    | .accepted => joinQueue u cls (updOrders u (placeOrder kind cls) w)

/-- Whether a unit is a robot that is PARKED: a GO_HEAD is not placed for it (R37). -/
def unitParked (u : FleetUnit) (w : Work) : Bool :=
  match u with
  | .robot k => decide ((w.robot k).state = .parked)
  | .carrier _ => false

/-- A waiting successor is promoted into the slot, or discarded when it is a GO_HEAD for a PARKED robot (R37). The order it
follows has ended or is displaced. -/
def promote (u : FleetUnit) (w : Work) : Work :=
  match (w.orders u).successor with
  | none => w
  | some s =>
    if s.kind = .goHead ∧ unitParked u w = true then updOrders u (fun x => { x with successor := none }) w
    else
      joinQueue u s.cls (updOrders u (fun x => { placeOrder s.kind s.cls x with successor := none }) w)

/-- The order in the slot ends: it leaves the slot and the queue (R38), and a waiting successor is promoted (R37). -/
def endOrder (u : FleetUnit) (w : Work) : Work :=
  promote u (leaveQueue u (updOrders u (fun x => { x with slot := none }) w))

/-- A unit's order slot and successor are discarded (R38). -/
def discardOrders (u : FleetUnit) (w : Work) : Work :=
  leaveQueue u (updOrders u (fun x => { x with slot := none, successor := none }) w)

/-- The last byte of a TAKE_ORDER copy has been shifted out (R35). -/
def finishOrderRead (u : FleetUnit) (tag : Byte) (w : Work) : Work :=
  match (w.orders u).slot with
  | none => w
  | some o =>
    if o.status = .queued ∧ o.tag = tag then
      leaveQueue u (updOrders u (fun x => { x with
        slot := some { o with status := .sent, attempts := o.attempts + 1, acceptTimer := some w.now }
        latestSent := some (o.tag, o.kind.name) }) w)
    else w

/-- ACCEPT of a unit (R41): the answer is whether the tag was the latest sent. A QUEUED order that was never sent and has that
tag again, after 256 further orders, is accepted as one queued again is (DESIGN CHOICE, log entry 42). -/
def acceptOrder (u : FleetUnit) (tag : Byte) (w : Work) : Bool × Work :=
  let x := w.orders u
  if x.latestSent.map (·.1) ≠ some tag then (false, w)
  else
    match x.slot with
    | none => (true, w)
    | some o =>
      if o.tag ≠ tag then (true, w)
      else
        let w1 := updOrders u (fun y => { y with slot := some { o with status := .accepted, acceptTimer := none } }) w
        let w2 := if o.status = .queued then leaveQueue u w1 else w1
        (true, promote u w2)

/-- An order has been sent at least once: SENT, ACCEPTED, or QUEUED again after an accept timeout (R42, R52). -/
def wasSent (o : Order) : Bool :=
  match o.status with
  | .sent => true
  | .accepted => true
  | .queued => decide (0 < o.attempts)

/-- What the expiry of an accept timer finds (R39). -/
inductive AcceptExpiry where
  | notDue
  | handled
  | failed
deriving DecidableEq, Repr

/-- The accept timer of a unit's SENT order expires (R39): the order is abandoned for its successor, queued again, or the
unit has failed to answer three sends. -/
def expireAccept (u : FleetUnit) (w : Work) : AcceptExpiry × Work :=
  match (w.orders u).slot with
  | none => (.notDue, w)
  | some o =>
    if o.status = .sent ∧ due w.now o.acceptTimer w.fou.acceptTimeout = true then
      if (w.orders u).successor.isSome then (.handled, endOrder u w)
      else if o.attempts < 3 then
        (.handled, joinQueue u o.cls (updOrders u (fun x => { x with
          slot := some { o with status := .queued, acceptTimer := none } }) w))
      else (.failed, w)
    else (.notDue, w)

/-! ### Robot orders (R32) -/

/-- A GO_HEAD is asked for a robot (R32). -/
def askGoHead (k : Slot) (cls : OrderClass) (w : Work) : Work :=
  let x := w.robot k
  match x.state with
  | .passing => issueOrder (.robot k) .goHead cls (updRobot k (withState .returning) w)
  | .returning =>
    match x.orders.slot with
    | some o =>
      if o.kind = .goHead ∧ o.status = .queued ∧ o.cls = .routine ∧ cls = .urgent then
        issueOrder (.robot k) .goHead cls w
      else w
    | none => w
  | _ => w

/-- The order of a hold is issued to its robot at HELD (R11, R32, Table 1-3). `carrier` is the carrier of a BOARD. -/
def issueHoldOrder (purpose : Purpose) (k : Slot) (r : Row) (mode : Mode) (carrier : CarrierIx) (cls : OrderClass)
    (w : Work) : Work :=
  match purpose with
  | .pass =>
    issueOrder (.robot k) (.pass r mode) cls
      (updRobot k (fun x => { withState .passing x with row := some r, highest := 0, passMode := mode }) w)
  | .board => issueOrder (.robot k) (.board carrier) cls (updRobot k (withState .boarding) w)
  | .alight =>
    issueOrder (.robot k) (.alight r) cls (updRobot k (fun x => { withState .alighting x with row := some r }) w)

/-- A robot becomes PARKED: a GO_HEAD standing QUEUED in its slot, or waiting as successor, is discarded with whatever
order its report ended (R37, R38). -/
def parkRobot (k : Slot) (f : Robot → Robot) (w : Work) : Work :=
  endOrder (.robot k) (updRobot k (fun x => withState .parked (f x)) w)

end Sys2Proof.Machine
end

