-- ==== Sys2Proof/Machine/Pls.lean ====
section
/-! DEFINITION. The Plan Store: the back bank, the candidate range stream, and the flip (chapter 4). -/

namespace Sys2Proof.Machine

/-! ### The candidate range stream (R86) -/

/-- PLAN_RANGES at its command byte: the back bank's list is emptied. -/
def emptyRanges (w : Work) : Work := updBack (fun x => { x with ranges := [] }) w

/-- An entry of the stream: RANGE, FULL, or appended at the tail. An entry that meets both conditions gives RANGE (DESIGN
CHOICE, log entry 46). A flip taken while the stream is open turns the later entries to the new back bank's list, as that list
then stands (DEDUCED, log entry 47). -/
def rangeEntry (first last : Row) (w : Work) : Work × Option Result :=
  if last < first then (w, some .range)
  else if Config.rangePlaces ≤ w.pls.backBank.ranges.length then (w, some .full)
  else (updBack (fun x => { x with ranges := x.ranges ++ [(first, last)] }) w, none)

/-! ### The flip (R89, R90) -/

/-- The period timer is started from zero, or stopped, under the front bank's round parameters (R120). -/
def restartPeriod (w : Work) : Work :=
  let p := w.pls.frontBank.round
  { w with rsc := { w.rsc with
      periodTimer := if p.source = .period then some (w.now, p.period * 60) else none } }

/-- The other bank. -/
def BankId.other (x : BankId) : BankId :=
  match x with
  | .a => .b
  | .b => .a

/-- The PLS takes a flip (R90). -/
def takeFlip (w : Work) : Work :=
  let front := w.pls.front.other
  restartPeriod (post (.planFlipped front) { w with pls := { w.pls with front := front, flipPending := false } })

/-- PLAN_FLIP (R89). -/
def planFlip (w : Work) : Work × Result :=
  if w.pls.flipPending then (w, .state)
  else if w.rsc.state = .none then (takeFlip w, .ok)
  else ({ w with pls := { w.pls with flipPending := true } }, .ok)

end Sys2Proof.Machine
end

