-- ==== Sys2Proof/Machine/Rac.lean ====
section
/-! DEFINITION. The Row Access Controller: notices, holds, occupancy, clearances, presence, reservations and the row map
(chapter 1). -/

namespace Sys2Proof.Machine

/-! ### Record-level rules -/

/-- A notice is placed into a row's slot (R24, Table 1-10). A notice that replaces the content is one that no read has begun; a
STOW_CLEAR, not forced, leaves a forced one as it stands. -/
def placeNotice (n : Notice) (x : RowRec) : RowRec :=
  if x.state = .stowed then x
  else
    match x.notice, n with
    | some (.holdAsk _), .withdraw =>
      if x.noticeRead then { x with notice := some .withdraw, noticeRead := false }
      else { x with notice := none, noticeRead := false }
    | some (.stowClear true), .stowClear false => x
    | _, _ => { x with notice := some n, noticeRead := false }

/-- The row leaves HOLD_ASKED, OCCUPIED or STOW_WAIT: the hold timer stops and the hold requester field is cleared. -/
def dropHold (x : RowRec) : RowRec := { x with hold := none, holdTimer := none }

/-- The row moves to STOW_CLEARED with a STOW_CLEAR notice, forced or not. -/
def clearRow (forced : Bool) (x : RowRec) : RowRec :=
  placeNotice (.stowClear forced) { dropHold x with state := .stowCleared, lastForced := forced }

/-- The row returns to TRACKING with a notice. -/
def trackWith (n : Notice) (x : RowRec) : RowRec := placeNotice n { dropHold x with state := .tracking }

/-- The row enters STOWED: its slot is emptied (R17). -/
def stowRow (x : RowRec) : RowRec := { dropHold x with state := .stowed, notice := none, noticeRead := false }

/-- The reservation becomes presence (R22). -/
def enterReserved (x : RowRec) : RowRec :=
  match x.incoming with
  | some r => { x with present := some r.robot, incoming := none }
  | none => x

/-- The standing clearance is in force for a row: under storm parking, unless the row's reservation is of kind STORM (R20,
R21). `storm` is whether the weather state is PARKING or SECURED. -/
def standingFor (storm : Bool) (x : RowRec) : Bool := storm && !stormReserved x

/-- A row is given up by a robot (R14, R19): it is cleared when stow is wanted or the standing clearance is in force for it, and
otherwise returns to TRACKING with a RELEASE. -/
def clearOrTrack (storm : Bool) (x : RowRec) : RowRec :=
  if x.stowWanted || standingFor storm x then clearRow false x else trackWith .release x

/-- The end of an occupancy or wait (R14, R15): a STOW_WAIT ends in STOW_CLEARED. A row still reserved STORM, whose robot has
refused its ALIGHT or turned back, takes no standing clearance (R21 against R14; DEDUCED, log entry 37). -/
def endOccupancyRow (storm : Bool) (x : RowRec) : RowRec :=
  match x.state with
  | .occupied => clearOrTrack storm x
  | .stowWait => clearRow false x
  | _ => x

/-- The occupying robot has faulted or is lost (R16). -/
def lockRowRec (x : RowRec) : RowRec :=
  if x.state = .occupied ∨ x.state = .stowWait then { dropHold x with state := .locked } else x

/-- The standing clearance at storm entry (Table 1-6); a row reserved STORM is exempt (R21). -/
def standingClear (x : RowRec) : RowRec :=
  if stormReserved x then x
  else
    match x.state with
    | .tracking => clearRow false x
    | .holdAsked => clearRow false x
    | .occupied => { x with state := .stowWait }
    | _ => x

/-- A reservation is freed. A row in TRACKING takes the standing clearance in PARKING and SECURED (R21, R23), and in the WATCH
that follows them a RELEASE, or the clearance if stow is wanted (R152); at any other time it takes no notice. `after` is
whether R152 is in force. The reservation of an occupied, waiting or locked row is that of the robot on its table (R7) and
stays, as R78 has it for the recovery of a locked row (R19). -/
def freeReservationRow (storm after : Bool) (x : RowRec) : RowRec :=
  let y := { x with incoming := none }
  match x.state with
  | .tracking =>
    if x.incoming.isSome then (if storm then clearRow false y else if after then clearOrTrack false y else y) else y
  | .occupied => x
  | .stowWait => x
  | .locked => x
  | .holdAsked => y
  | .held => y
  | .stowCleared => y
  | .stowed => y

/-- A LOCKED row leaves LOCKED at a recovery of its robot, whose reservation on it is cleared (R19). -/
def unlockRow (storm : Bool) (k : Slot) (x : RowRec) : RowRec :=
  if x.state = .locked then clearOrTrack storm (if reservedFor x k then { x with incoming := none } else x) else x

/-! ### Holds -/

/-- The RAC answers a requester (R8). -/
def answerHold (row : Row) (h : Option Hold) (a : HoldAnswer) (w : Work) : Work :=
  match h with
  | some h => send (.holdAnswer h.by_ row h.purpose a) w
  | none => w

/-- Whether a hold ask is taken (R9): `robot` is the requester's robot. -/
def holdTaken (purpose : Purpose) (robot : Slot) (x : RowRec) : Bool :=
  decide (x.state = .tracking) &&
    (match purpose with
    | .pass => !x.excluded && decide (x.length ≠ 0) && decide (x.present = some robot)
    | .board => decide (x.present = some robot)
    | .alight => !x.excluded && decide (x.length ≠ 0) && x.present.isNone && reservedFor x robot)

/-- Count an ask of a requester on a row (R8). -/
def countAsk (q : Requester) (x : RowRec) : RowRec :=
  if x.attemptsBy = some q then { x with attempts := min 255 (x.attempts + 1) }
  else { x with attempts := 1, attemptsBy := some q }

/-- A requester asks a hold on a row for its robot (R9). -/
def askHold (q : Requester) (purpose : Purpose) (robot : Slot) (r : Row) (w : Work) : Work :=
  if holdTaken purpose robot (w.row r) then
    updRow r (fun x => placeNotice (.holdAsk purpose)
      { countAsk q x with state := .holdAsked, hold := some ⟨q, purpose⟩, holdTimer := some w.now }) w
  else send (.holdAnswer q r purpose .refused) (updRow r (countAsk q) w)

/-- A requester cancels a hold it has asked (R13). -/
def cancelHold (q : Requester) (r : Row) (w : Work) : Work :=
  let x := w.row r
  if x.state = .holdAsked ∧ x.hold.map (·.by_) = some q then updRow r (trackWith .withdraw) w else w

/-- The hold timer of a row expires (R10). -/
def expireHold (r : Row) (w : Work) : Work :=
  let x := w.row r
  if x.state = .holdAsked ∧ due w.now x.holdTimer w.rac.holdTimeout = true then
    answerHold r x.hold .timeout (updRow r (trackWith .withdraw) w)
  else w

/-! ### Occupancy and clearance -/

/-- A row's occupancy or wait ends (R14, R15). -/
def endOccupancy (r : Row) (w : Work) : Work := updRow r (endOccupancyRow (stormOn w.wxm.weather)) w

/-- A row is locked for its occupying robot (R16). -/
def lockRow (r : Row) (w : Work) : Work := updRow r lockRowRec w

/-- The storm entry at the rows (R20): every row not reserved STORM, and HOLD_LOST to the requester of each hold taken. -/
def standingClearance (w : Work) : Work :=
  let lost := (indices 256).filter (fun r => decide ((w.row r).state = .holdAsked) && !stormReserved (w.row r))
  lost.foldl (fun v r => answerHold r (w.row r).hold .holdLost v) (updAllRows (fun _ => standingClear) w)

/-! ### Reservations and presence -/

/-- A reservation is asked of the RAC (R23); the answer is whether it was taken. -/
def reserve (r : Row) (k : Slot) (kind : ResKind) (w : Work) : Bool × Work :=
  if canReserve (w.row r) kind then (true, updRow r (fun x => { x with incoming := some ⟨k, kind⟩ }) w) else (false, w)

/-- The kind of a row's reservation is changed (R23, R145). -/
def setKind (r : Row) (kind : ResKind) (w : Work) : Work :=
  updRow r (fun x => { x with incoming := x.incoming.map (fun v => { v with kind := kind }) }) w

/-- R152 is in force: the weather state is the WATCH that storm parking has been left for, which it is until WATCH is left
(DEDUCED, log entry 38). -/
def afterStorm (x : Wxm) : Bool := decide (x.weather = .watch) && x.released

/-- A row's reservation is freed (R23, R152). -/
def freeReservation (r : Row) (w : Work) : Work :=
  updRow r (freeReservationRow (stormOn w.wxm.weather) (afterStorm w.wxm)) w

/-- The rows whose reservation is for a robot, ascending. -/
def reservedRows (k : Slot) (w : Work) : List Row := (indices 256).filter (fun r => reservedFor (w.row r) k)

/-- Every reservation for a robot is freed but those on the rows kept. -/
def freeReservations (k : Slot) (keep : List Row) (w : Work) : Work :=
  ((reservedRows k w).filter (fun r => decide (r ∉ keep))).foldl (fun v r => freeReservation r v) w

/-- A robot is entered as a row's present robot (R22). -/
def enterPresent (r : Row) (k : Slot) (w : Work) : Work := updRow r (fun x => { x with present := some k }) w

/-- A robot's presence is cleared wherever it is recorded (R22). -/
def clearPresence (k : Slot) (w : Work) : Work :=
  ((indices 256).filter (fun r => decide ((w.row r).present = some k))).foldl
    (fun v r => updRow r (fun x => { x with present := none }) v) w

/-- The RAC's part of a recovery (R19): presence and reservations of the robot are cleared, and a LOCKED row whose robot it
was leaves LOCKED. -/
def recoverRows (k : Slot) (w : Work) : Work :=
  let locked := (indices 256).filter (fun r => decide ((w.row r).state = .locked) && countsAgainst (w.row r) k)
  let storm := stormOn w.wxm.weather
  locked.foldl (fun v r => updRow r (unlockRow storm k) v) (freeReservations k [] (clearPresence k w))

/-- Whether a robot counts against a LOCKED row (R30, R31). -/
def onLockedRow (k : Slot) (w : Work) : Bool :=
  (indices 256).any (fun r => decide ((w.row r).state = .locked) && countsAgainst (w.row r) k)

/-! ### Notices -/

/-- A TAKE_NOTICE read of the head row begins (R24, R25). -/
def beginNoticeRead (w : Work) : Work :=
  match w.rac.notices with
  | r :: _ => updRow r (fun x => { x with noticeRead := true }) w
  | [] => w

/-- The last byte of a TAKE_NOTICE copy has been shifted out (R25). -/
def finishNoticeRead (r : Row) (w : Work) : Work :=
  if (w.row r).noticeRead then updRow r (fun x => { x with notice := none, noticeRead := false }) w else w

/-! ### Exclusion and the row map -/

/-- Rows first..last are excluded or readmitted (R6). -/
def excludeRows (first last : Row) (on : Bool) (w : Work) : Work :=
  updAllRows (fun r x => if first ≤ r ∧ r ≤ last then { x with excluded := on } else x) w

/-- The rows that hold the reference attribute, ascending (R5). -/
def referenceRows (w : Work) : List Row := (indices 256).filter (fun r => (w.row r).reference)

/-- The row after the map pointer: after the window's last row, its first (R3). -/
def nextMapPtr (x : Rac) : Row := if x.mapPtr = x.winLast then x.winFirst else x.mapPtr + 1

/-- A complete row map entry (R3, R4, R5, R188): what is stored, the pointer's advance, and the result of the last condition
met, in the order capacity, length, reference. -/
def mapEntry (zoneRef : Byte) (capacity : Half) (length : Byte) (w : Work) : Work × Option Result :=
  let r := w.rac.mapPtr
  let x := w.row r
  let cap := min 1000 capacity.toNat
  let len := min 63 length.toNat
  let keepLen := decide (len = 0) && (x.present.isSome || x.incoming.isSome)
  let wantRef := zoneRef.getLsbD 7
  let full := wantRef && !x.reference && decide (Config.referencePlaces ≤ (referenceRows w).length)
  let ref := wantRef && !full
  let zone : Zone := ⟨zoneRef.toNat % 16, Nat.mod_lt _ (by decide)⟩
  let w1 := updRow r (fun y => { y with
      zone := zone, capacity := cap, length := if keepLen then y.length else len, reference := ref }) w
  let gained := ref && !x.reference
  let w2 :=
    if gained then
      { w1 with seu := { w1.seu with rows := tset w1.seu.rows r { tget w1.seu.rows r with ratio := 4096 } } }
    else w1
  let w3 := { w2 with rac := { w2.rac with mapPtr := nextMapPtr w2.rac } }
  let result :=
    if full then some Result.full
    else if keepLen then some .state
    else if cap < capacity.toNat ∨ len < length.toNat then some .clamped
    else none
  (w3, result)

end Sys2Proof.Machine
end

