-- ==== Sys2Proof/Machine/Yac.lean ====
section
/-! DEFINITION. The Yield Accounts: saturating buckets, attribution at the close, recovered estimates, clears (chapter 8). -/

namespace Sys2Proof.Machine

/-- A saturating addition to a bucket, and whether it held the bucket at its limit (R156). -/
def addSat (bucket v : Nat) : Nat × Bool :=
  if Config.bucketLimit < bucket + v then (Config.bucketLimit, true) else (bucket + v, false)

/-- The bucket that receives a shortfall (Table 8-3). -/
inductive LossBucket where
  | soiling
  | service
  | stow
  | outage
deriving DecidableEq, Repr

/-- The bucket of a final class (Table 8-3); NODATA has none (R158). -/
def lossBucket (c : FinalClass) : Option LossBucket :=
  match c with
  | .normal => some .soiling
  | .service => some .service
  | .stow => some .stow
  | .excluded => some .outage
  | .outage => some .outage
  | .nodata => none

/-- Add to a loss bucket (Table 8-3). -/
def addLoss (c : FinalClass) (v : Nat) (b : Buckets) : Buckets :=
  match lossBucket c with
  | none => b
  | some .soiling => { b with soiling := (addSat b.soiling v).1, saturated := b.saturated || (addSat b.soiling v).2 }
  | some .service => { b with service := (addSat b.service v).1, saturated := b.saturated || (addSat b.service v).2 }
  | some .stow => { b with stow := (addSat b.stow v).1, saturated := b.saturated || (addSat b.stow v).2 }
  | some .outage => { b with outage := (addSat b.outage v).1, saturated := b.saturated || (addSat b.outage v).2 }

/-- The attribution of a reading: E to produced, X to expected, and the difference to one further bucket. One of class NODATA
adds nothing to any bucket (R158). -/
def attribute1 (e x : Nat) (c : FinalClass) (b : Buckets) : Buckets :=
  if c = .nodata then b
  else
    let b1 : Buckets :=
      { b with
        produced := (addSat b.produced e).1
        expected := (addSat b.expected x).1
        saturated := b.saturated || (addSat b.produced e).2 || (addSat b.expected x).2 }
    if x < e then
      { b1 with surplus := (addSat b1.surplus (e - x)).1, saturated := b1.saturated || (addSat b1.surplus (e - x)).2 }
    else if e < x then addLoss c (x - e) b1
    else b1

/-- What the estimator hands over for one row at a close (R157): the zone, and the reading with its X and class, or none for
a row that closed NODATA. -/
structure Attribution where
  zone : Zone
  reading : Option (Nat × Nat × FinalClass)
deriving DecidableEq, Repr

/-- A row account receives its attribution (R158). -/
def attributeRow (a : Attribution) (x : RowAccount) : RowAccount :=
  match a.reading with
  | none => { x with nodata := satSucc x.nodata }
  | some (e, ex, c) => { x with buckets := attribute1 e ex c x.buckets }

/-- A zone account receives the attribution of a row (R159). -/
def attributeZone (a : Attribution) (x : ZoneAccount) : ZoneAccount :=
  match a.reading with
  | none => x
  | some (e, ex, c) => { x with buckets := attribute1 e ex c x.buckets }

/-- The attributions of a close are added to the row and zone accounts (R157, R159). -/
def attributeAll (f : Row → Attribution) (y : Yac) : Yac :=
  { rows := tmap (fun r x => attributeRow (f r) x) y.rows
    zones := tmap (fun z x =>
      ((indices 256).filter (fun r => decide ((f r).zone = z))).foldl (fun v r => attributeZone (f r) v) x) y.zones }

/-- A recovered estimate is added to a zone's recovered bucket (R163, R156). -/
def addRecovered (z : Zone) (v : Nat) (w : Work) : Work :=
  let x := tget w.yac.zones z
  { w with yac := { w.yac with zones := tset w.yac.zones z { x with recovered := (addSat x.recovered v).1 } } }

/-- A clearing read of a row has been given whole (R166): `full` and `part` are the counters in the copy. -/
def clearRowAccount (r : Row) (full part : Nat) (w : Work) : Work :=
  let s := tget w.seu.rows r
  let s1 : SeuRow := { s with fullPasses := s.fullPasses - full, partPasses := s.partPasses - part }
  { w with
    yac := { w.yac with rows := tset w.yac.rows r RowAccount.reset }
    seu := { w.seu with rows := tset w.seu.rows r s1 } }

/-- A clearing read of a zone has been given whole (R166): `recovered` is the recovered bucket in the copy. -/
def clearZoneAccount (z : Zone) (recovered : Nat) (w : Work) : Work :=
  let x1 : ZoneAccount := { buckets := Buckets.reset, recovered := (tget w.yac.zones z).recovered - recovered }
  { w with yac := { w.yac with zones := tset w.yac.zones z x1 } }

/-- ACCOUNTS_CLEAR after its command byte has closed an open interval (R167). -/
def clearAccounts (w : Work) : Work :=
  { w with
    yac := Yac.reset
    seu := { w.seu with rows := tmap (fun _ s => { s with fullPasses := 0, partPasses := 0 }) w.seu.rows } }

end Sys2Proof.Machine
end

