-- ==== Sys2Proof/Machine/Seu.lean ====
section
/-! DEFINITION. The Soiling Estimator: intervals, final classes, the reference yield, samples, pass results and the day
close (chapter 5). -/

namespace Sys2Proof.Machine

/-! ### Final classes and the reference yield -/

/-- The final class of a row at a close (R104). -/
def finalClass (reading : Option Nat) (acc : RowClass) : FinalClass :=
  match reading, acc with
  | none, _ => .nodata
  | some e, .normal => if e = 0 then .outage else .normal
  | some _, .excluded => .excluded
  | some _, .service => .service
  | some _, .stow => .stow

/-- The final class of each row at this moment (R103, step 1). -/
def closeClass (w : Work) (r : Row) : FinalClass := finalClass (tget w.seu.rows r).reading (w.row r).acc

/-- The reading of a row in Wh; 0 where it has none. -/
def readingOf (w : Work) (r : Row) : Nat := (tget w.seu.rows r).reading.getD 0

/-- The valid references (R105). -/
def validRefs (w : Work) : List Row :=
  (indices 256).filter (fun r =>
    (w.row r).reference && decide (closeClass w r = .normal) && decide (0 < (w.row r).capacity))

/-- The reference sums, the interval yield and the referenced flag (R105). -/
structure Reference where
  sumE : Nat
  sumC : Nat
  y : Nat
  referenced : Bool
  count : Nat
deriving DecidableEq, Repr

def referenceOf (w : Work) : Reference :=
  let refs := validRefs w
  let e := (refs.map (readingOf w)).sum
  let c := (refs.map (fun r => (w.row r).capacity)).sum
  let y := if refs.isEmpty then 0 else e * 10 / c
  { sumE := e, sumC := c, y := y, referenced := !refs.isEmpty && decide (w.seu.gate ≤ y), count := refs.length }

/-- The soiling sample SR (R106). -/
def sampleOf (f : Reference) (e cap : Nat) : Nat := min 4096 (e * f.sumC * 4096 / (cap * f.sumE))

/-- Whether a row gives a sample in an interval (R106). -/
def givesSample (f : Reference) (c : FinalClass) (x : RowRec) : Bool :=
  f.referenced && !x.reference && decide (c = .normal) && decide (0 < x.capacity)

/-- The filter (R107): the step is truncated toward zero. -/
def filterRatio (s sr gain : Nat) : Nat :=
  (((s : Int) + Int.tdiv (((sr : Int) - (s : Int)) * (gain : Int)) 16)).toNat

/-- Expected energy X (R109). -/
def expectedOf (f : Reference) (e cap : Nat) : Nat :=
  if f.referenced ∧ 0 < cap then f.sumE * cap / f.sumC else e

/-- The attribution handed to the yield accounts for a row (R109, R157). -/
def attributionOf (w : Work) (f : Reference) (r : Row) : Attribution :=
  let x := w.row r
  match (tget w.seu.rows r).reading with
  | none => { zone := x.zone, reading := none }
  | some e => { zone := x.zone, reading := some (e, expectedOf f e x.capacity, closeClass w r) }

/-! ### The class map (R170) -/

/-- Runs of equal classes, in order. -/
def runsOf : List FinalClass → List (FinalClass × Nat)
  | [] => []
  | c :: cs =>
    match runsOf cs with
    | (d, n) :: rest => if c = d then (d, n + 1) :: rest else (c, 1) :: (d, n) :: rest
    | [] => [(c, 1)]

/-- CLASS_MAP records of a list of runs, sixteen to a record, the more-follows flag set on all but the last. The first
argument bounds the number of records. -/
def classMaps : Nat → List (FinalClass × Nat) → List RecordBody
  | 0, _ => []
  | n + 1, runs =>
    if runs.length ≤ 16 then [.classMap runs false]
    else .classMap (runs.take 16) true :: classMaps n (runs.drop 16)

/-! ### The close -/

/-- Closing an interval (R103). -/
def closeInterval (w : Work) : Work :=
  let f := referenceOf w
  let classes := (indices 256).map (closeClass w)
  let sampled := (indices 256).filter (fun r => givesSample f (closeClass w r) (w.row r))
  let seuRows := tmap (fun r s =>
    let x := w.row r
    let ratio :=
      if givesSample f (closeClass w r) x then
        filterRatio s.ratio (sampleOf f (readingOf w r) x.capacity) (w.policy r).gain
      else s.ratio
    { s with ratio := ratio, reading := none }) w.seu.rows
  let group := .intervalClosed w.seu.openIndex f.referenced f.y f.count sampled.length :: classMaps 16 (runsOf classes)
  let w1 : Work :=
    { w with
      rac := { w.rac with rows := tmap (fun _ x => { x with acc := rowClass x }) w.rac.rows }
      yac := attributeAll (attributionOf w f) w.yac
      seu :=
        { w.seu with
          rows := seuRows
          daySum := if f.referenced then min 16000 (w.seu.daySum + f.y) else w.seu.daySum
          refCount := if f.referenced then satSucc w.seu.refCount else w.seu.refCount
          lastClosed := some w.seu.openIndex
          intervalOpen := false } }
  postGroup group w1

/-- An open interval is closed by an event other than its last reading (R101). -/
def closeOpen (w : Work) : Work := if w.seu.intervalOpen then closeInterval w else w

/-! ### Interval intake -/

/-- ENERGY_OPEN once its parameters have come (R100). Where both refusals apply the result is RANGE, which R100 lists first
(DEDUCED, log entry 25). -/
def openInterval (index : Half) (first last : Row) (w : Work) : Work × Result :=
  if last < first then (w, .range)
  else if w.seu.lastClosed = some index then (w, .state)
  else
    ({ w with seu :=
        { w.seu with
          intervalOpen := true, openIndex := index, winFirst := first, winLast := last, pointer := some first,
          streamSeen := false, rows := tmap (fun _ s => { s with reading := none }) w.seu.rows } }, .ok)

/-- A complete value of an ENERGY_DATA stream (R102). -/
def energyValueIn (v : Half) (w : Work) : Work × Option Result :=
  match w.seu.intervalOpen, w.seu.pointer with
  | true, some r =>
    let rows :=
      if v = 0xFFFF#16 then w.seu.rows
      else tset w.seu.rows r { tget w.seu.rows r with reading := some v.toNat }
    let last := decide (r = w.seu.winLast)
    let w1 : Work := { w with seu := { w.seu with rows := rows, pointer := if last then none else some (r + 1) } }
    (if last then closeInterval w1 else w1, none)
  | _, _ => (w, some .full)

/-! ### Pass results -/

/-- The ratio after a pass (R112). -/
def ratioAfter (complete : Bool) (before post p len : Nat) : Nat :=
  if complete then (if before < post then post else before)
  else if before < post ∧ 0 < len then before + (post - before) * min p len / len
  else before

/-- The post-pass ratio of a mode under a policy (R112, R124). -/
def postRatio (mode : Mode) (pol : ZonePolicy) : Nat :=
  match mode with
  | .deep => 4096
  | .dry => pol.pDry
  | .skip => pol.pDry

/-- A pass result reaches the estimator (R112, R113, R114). `p` is the highest segment of a partial pass. -/
def passResult (r : Row) (k : Slot) (mode : Mode) (complete : Bool) (p : Nat) (w : Work) : Work :=
  let s := tget w.seu.rows r
  let x := w.row r
  let q := if complete then x.length else min p x.length
  let after := ratioAfter complete s.ratio (postRatio mode (w.policy r)) p x.length
  let recovered := w.seu.yDay * x.capacity * (after - s.ratio) / 40960
  let s1 : SeuRow :=
    if complete then { s with ratio := after, lastClean := some w.seu.day, fullPasses := satSucc s.fullPasses }
    else { s with ratio := after, partPasses := satSucc s.partPasses }
  post (.passDone r k complete q s.ratio after)
    (addRecovered x.zone recovered { w with seu := { w.seu with rows := tset w.seu.rows r s1 } })

/-! ### Day close -/

/-- The estimator's part of DAY_CLOSE, steps 1 to 4 (R115). -/
def closeDay (w : Work) : Work :=
  let day := w.seu.day + 1
  let yDay := if 0 < w.seu.refCount then w.seu.daySum else w.seu.yDay
  let count := w.seu.refCount
  let w1 := post (.dayClosed day yDay count) { w with seu := { w.seu with day := day, yDay := yDay } }
  { w1 with seu := { w1.seu with daySum := 0, refCount := 0 } }

end Sys2Proof.Machine
end

