-- ==== Sys2Proof/Machine/Txs.lean ====
section
/-! DEFINITION. The Transfer Scheduler: spans and reach, the transfer pool, leg targets, the dispatch arbiter, the serving
sequence, halts, and storm parking at the carriers (chapter 3), with the choice of storm targets (R145). -/

namespace Sys2Proof.Machine

/-! ### Positions, spans and reach (R55) -/

/-- The low row of a carrier's span. -/
def spanLow (x : Carrier) : Nat :=
  match x.span with
  | some (l, _) => l.val
  | none => 0

/-- A carrier's position on the track; its garage counts as row low − 1 (R55). -/
def posInt (x : Carrier) : Int :=
  match x.position with
  | .row r => (r.val : Int)
  | .garage => (spanLow x : Int) - 1

/-- The carrier stands at a row (R55); an ABSENT carrier stands at none (R46). -/
def standsAt (x : Carrier) (r : Row) : Bool := decide (x.state ≠ .absent) && decide (posInt x = (r.val : Int))

/-- A row lies in the carrier's span. -/
def inSpan (x : Carrier) (r : Row) : Bool :=
  match x.span with
  | some (l, h) => decide (l ≤ r) && decide (r ≤ h)
  | none => false

/-- A row lies in the carrier's reach (R55). -/
def reaches (x : Carrier) (r : Row) : Bool :=
  match x.span with
  | some (l, _) => inSpan x r || decide (r.val + 1 = l.val)
  | none => false

/-- The distance between two places of the track. -/
def distance (a b : Int) : Nat := (a - b).natAbs

/-- The carrier whose span contains a row. -/
def spanCarrier (w : Work) (r : Row) : Option CarrierIx := (indices 4).find? (fun c => inSpan (w.carrier c) r)

/-- The carrier of the serving span (R60). -/
def servingOf (w : Work) (fromRow finalRow : Row) : Option CarrierIx :=
  match spanCarrier w fromRow with
  | none => none
  | some c =>
    if (w.carrier c).span.map (·.2) = some fromRow ∧ fromRow < finalRow then spanCarrier w (fromRow + 1) else some c

/-- The carrier of a request's current leg: the one it is served by, or its serving span's (R60). -/
def legCarrier (w : Work) (q : Request) : Option CarrierIx :=
  match q.state with
  | .serving c => some c
  | .waiting => servingOf w q.fromRow q.finalRow

/-- The handover row of a serving carrier that does not reach the final row (R60). -/
def handoverRow (x : Carrier) (finalRow : Row) : Option Row :=
  match x.span with
  | none => none
  | some (l, h) => if h < finalRow then some h else if l = 0 then none else some (l - 1)

/-- The row nearest to a place of the track, ties to the lower row, among the open rows of a carrier's span (R73, R145). -/
def nearestOpen (w : Work) (x : Carrier) (place : Int) : Option Row :=
  ((indices 256).filter (fun r => inSpan x r && rowOpen (w.row r))).foldl
    (fun best r =>
      match best with
      | none => some r
      | some b => if distance (r.val : Int) place < distance (b.val : Int) place then some r else some b) none

/-! ### Leg targets (R60) -/

/-- The row that R60 names as leg target, whether or not it can be taken: the final row, or the handover row. -/
def wantedTarget (w : Work) (c : CarrierIx) (finalRow : Row) : Option Row :=
  if reaches (w.carrier c) finalRow then some finalRow else handoverRow (w.carrier c) finalRow

/-- Find a request's leg target by R60; a handover row is reserved. None is PENDING. -/
def findLegTarget (q : Request) (w : Work) : Option Row × Work :=
  match legCarrier w q with
  | none => (none, w)
  | some c =>
    match wantedTarget w c q.finalRow with
    | none => (none, w)
    | some t =>
      if t = q.finalRow then (some t, w)
      else if rowOpen (w.row t) then
        let a := reserve t q.robot .leg w
        (if a.1 then some t else none, a.2)
      else (none, w)

/-- The storm target of a request whose robot the carrier carries or is boarding (R145). A storm target still held for it comes
before its leg target (R153). Case 1 names no exclusion, so a leg target excluded after it was reserved is kept as storm target,
although R6 says that an excluded row is never chosen (DESIGN CHOICE, log entry 39). -/
def chooseStormTarget (c : CarrierIx) (q : Request) (w : Work) : Option Row × Work :=
  let x := w.carrier c
  let isHalted := decide (x.state = .halted)
  let kept := (q.stormTarget.toList ++ q.legTarget.toList).find? (fun r =>
    decide ((w.row r).state = .tracking) && reservedFor (w.row r) q.robot && (!isHalted || standsAt x r))
  match kept with
  | some r => (some r, setKind r .storm w)
  | none =>
    let found :=
      if isHalted then (indices 256).find? (fun r => standsAt x r && inSpan x r && rowOpen (w.row r))
      else nearestOpen w x (posInt x)
    match found with
    | none => (none, w)
    | some r =>
      let a := reserve r q.robot .storm w
      (if a.1 then some r else none, a.2)

/-! ### Storm alightings held by the WXM (R147) -/

/-- Storm parking's hold of a carrier is withdrawn: its storm alighting is removed, a hold in HOLD_ASKED is cancelled and a
retry stops (R147). -/
def removeAlight (c : CarrierIx) (w : Work) : Work :=
  let w1 : Work := { w with wxm := { w.wxm with
    alights := tset w.wxm.alights c none, askKept := tset w.wxm.askKept c 0 } }
  match tget w.wxm.alights c with
  | none => w1
  | some a => cancelHold (.storm a.robot) a.row w1

/-! ### Travels and parking (R69, R75, R80) -/

/-- The class of the carrier orders of a request (R69). -/
def travelClass (q : Request) : OrderClass := if q.cls = .storm then .urgent else .routine

/-- A travel order to a row: TRAVEL to a row of the span, PARK for the row at the garage; the travel timer starts
(R69, R75). -/
def travel (c : CarrierIx) (r : Row) (cls : OrderClass) (w : Work) : Work :=
  let x := w.carrier c
  let kind := if inSpan x r then OrderKind.travel r else .park
  let d := if inSpan x r then distance (posInt x) (r.val : Int) else distance (posInt x) ((spanLow x : Int) - 1)
  issueOrder (.carrier c) kind cls (updCarrier c (fun y => { y with travelTimer := some (w.now, d) }) w)

/-- PARK for a carrier with no task, which enters TO_GARAGE (R80, R81, R82). Its idle start is absent (DEDUCED, log entry 44). -/
def parkCarrier (c : CarrierIx) (cls : OrderClass) (w : Work) : Work :=
  let d := distance (posInt (w.carrier c)) ((spanLow (w.carrier c) : Int) - 1)
  issueOrder (.carrier c) .park cls
    (updCarrier c (fun y => { y with
      state := .toGarage, task := none, idleStart := none, travelTimer := some (w.now, d) }) w)

/-- A carrier becomes IDLE with no task (R80). Without a load it is parked at once under storm parking, and arbitration is
run for it otherwise (R64). With a load its idle start is absent (DEDUCED, log entry 44). -/
def setIdle (c : CarrierIx) (w : Work) : Work :=
  let free := (w.carrier c).load.isNone
  let w1 := updCarrier c (fun y => { y with
    state := .idle, task := none, idleStart := if free then some w.now else none }) w
  if free then (if stormOn w.wxm.weather then parkCarrier c .urgent w1 else send (.arbitrate c) w1) else w1

/-! ### Ends of requests (R79) -/

/-- A request ends or is dropped with an outcome (R79): a hold it has asked is cancelled, its reservations are freed but
those on the rows kept, it leaves the pool, TRANSFER_DONE is posted, its origin is told, and its robot's task link is set. The carrier
that served it has no task. -/
def finishRequest (q : Request) (outcome : ReqOutcome) (legs : Nat) (keep : List Row) (w : Work) : Work :=
  let w1 := cancelHold (.request q.seq) q.fromRow w
  let w2 :=
    match q.legTarget with
    | some t => cancelHold (.request q.seq) t w1
    | none => w1
  let w3 :=
    match q.state with
    | .serving c => updCarrier c (fun y => { y with task := none }) (removeAlight c w2)
    | .waiting => w2
  let w4 := freeReservations q.robot keep w3
  let w5 := setPool (w4.txs.pool.filter (fun p => decide (p.seq ≠ q.seq))) w4
  let w6 := post (.transferDone q.seq q.robot q.finalRow (w5.robot q.robot).row legs q.cls outcome) w5
  let link : Option TaskLink :=
    match q.origin, outcome with
    | .entry n p, .delivered => some (.entry n p)
    | _, _ => none
  let w7 :=
    if (w6.robot q.robot).link = some (.request q.seq) then updRobot q.robot (fun x => { x with link := link }) w6 else w6
  match q.origin with
  | .entry n p => send (.entryOutcome n p q.robot outcome) w7
  | .plant => w7
  | .none => w7

/-- A request is dropped before its current leg has ended. -/
def dropRequest (q : Request) (outcome : ReqOutcome) (w : Work) : Work := finishRequest q outcome (q.leg - 1) [] w

/-- A SERVING request returns to WAITING with its scores and counts kept (R67, R70, R76); its carrier has no task. -/
def returnWaiting (c : CarrierIx) (q : Request) (w : Work) : Work :=
  updCarrier c (fun y => { y with task := none })
    (updRequest q.seq (fun p => { p with state := .waiting, retry := none }) w)

/-! ### Steps of a leg -/

/-- The BOARD hold is asked at the pickup row (R70), but under a freeze only for a STORM request. -/
def boardStep (c : CarrierIx) (q : Request) (w : Work) : Work :=
  if w.pls.freeze ≠ .running ∧ q.cls ≠ .storm then setIdle c (returnWaiting c q w)
  else askHold (.request q.seq) .board q.robot q.fromRow w

/-- A pickup has failed (R70). -/
def pickupFail (c : CarrierIx) (q : Request) (w : Work) : Work :=
  if 2 ≤ q.pickupFails + 1 then
    let q1 := { q with pickupFails := 2 }
    setIdle c (dropRequest q1 .refused w)
  else
    setIdle c (returnWaiting c q (updRequest q.seq (fun p => { p with pickupFails := q.pickupFails + 1 }) w))

/-- The ALIGHT hold is asked at the leg target (R72), unless the robot aboard is in FAULT or LOST. -/
def alightStep (q : Request) (t : Row) (w : Work) : Work :=
  let w1 := updRequest q.seq (fun p => { p with retry := none }) w
  if (w.robot q.robot).state = .aboard then askHold (.request q.seq) .alight q.robot t w1 else w1

/-- The carrier, with its load, goes to its leg target or asks the ALIGHT hold there (R71, R73, R77, R81); with the leg
target PENDING it stays where it is. -/
def goToDrop (c : CarrierIx) (q : Request) (w : Work) : Work :=
  let w1 := updCarrier c (fun y => { y with state := .toDrop }) w
  match q.legTarget with
  | none => w1
  | some t => if standsAt (w1.carrier c) t then alightStep q t w1 else travel c t (travelClass q) w1

/-- The kind a relocation row is reserved with (R73). -/
def relocateKind (q : Request) (wasFinal : Bool) : ResKind :=
  if q.cls = .storm then .storm else if wasFinal then .final else .leg

/-- A relocation row has been found for a request (R73). -/
def relocateTo (t : Row) (wasFinal : Bool) (q : Request) : Request :=
  { q with
    legTarget := some t
    finalRow := if wasFinal then t else q.finalRow
    relocated := q.relocated || wasFinal
    search := .leg }

/-- A request that is re-aimed (R73): its origin has let it go, its failures are forgotten, and its leg target is PENDING until a
relocation row is found. -/
def reAimed (failed : Row) (wasFinal : Bool) (q : Request) : Request :=
  { q with
    cls := if q.cls = .storm then .storm else .relocate
    origin := .none, dropFails := 0, retry := none, legTarget := none, search := .relocate failed wasFinal }

/-- A request whose drop has failed three times is re-aimed to the relocation row (R73). -/
def reAim (c : CarrierIx) (q : Request) (failed : Row) (w : Work) : Work :=
  let wasFinal := decide (failed = q.finalRow)
  let found := nearestOpen w (w.carrier c) (failed.val : Int)
  let w1 :=
    match q.origin with
    | .entry n p => send (.entryOutcome n p q.robot .refused) w
    | .plant => w
    | .none => w
  match found with
  | none => updRequest q.seq (reAimed failed wasFinal) (freeReservation failed w1)
  | some t =>
    let f := fun p : Request => relocateTo t wasFinal (reAimed failed wasFinal p)
    let w2 := (reserve t q.robot (relocateKind q wasFinal) w1).2
    goToDrop c (f q) (updRequest q.seq f (freeReservation failed w2))

/-- A drop has failed (R72). -/
def dropFail (c : CarrierIx) (q : Request) (t : Row) (w : Work) : Work :=
  if q.dropFails + 1 < 3 then
    updRequest q.seq (fun p => { p with
      dropFails := q.dropFails + 1
      retry := if (w.robot q.robot).state = .aboard then some w.now else none }) w
  else reAim c q t w

/-- A request as its conversion makes it (R81). A relocation before it is forgotten: a delivery at the storm target is DELIVERED,
also where R73 had set the same row (DESIGN CHOICE, log entry 40). -/
def converted (target : Option Row) (q : Request) : Request :=
  { q with
    cls := .storm, legTarget := target, finalRow := target.getD q.finalRow, dropFails := 0, retry := none,
    search := .storm, relocated := false, stormTarget := none, stormCrossing := false }

/-- A request is converted to STORM with a storm target, or none (R81). -/
def convert (c : CarrierIx) (q : Request) (target : Option Row) (w : Work) : Work :=
  let w1 :=
    match q.legTarget with
    | some t => if some t = target then w else cancelHold (.request q.seq) t w
    | none => w
  let w2 := freeReservations q.robot target.toList w1
  let w3 := tell (updRequest q.seq (converted target) w2)
  if (w3.carrier c).state = .halted then w3 else goToDrop c (converted target q) w3

/-- The storm target held for a request since the entry, or a new choice (R145). -/
def stormTargetOf (c : CarrierIx) (q : Request) (w : Work) : Option Row × Work :=
  let heldStill := q.stormTarget.filter (fun t => reservedFor (w.row t) q.robot && stormReserved (w.row t))
  match heldStill with
  | some t => (some t, w)
  | none => chooseStormTarget c q w

/-! ### Dispatch (R63 to R69) -/

/-- A WAITING request is eligible (R63). -/
def eligible (w : Work) (q : Request) : Bool :=
  decide (q.state = .waiting) && q.legTarget.isSome && admitted q.cls w.wxm.weather w.pls.freeze

/-- The candidates of a carrier, oldest first (R64). -/
def candidates (w : Work) (c : CarrierIx) : List Request :=
  w.txs.pool.filter (fun q => eligible w q && decide (servingOf w q.fromRow q.finalRow = some c))

/-- The from row lies in the carrier's last direction from its position, or equals it (R66). -/
def inDirection (x : Carrier) (fromRow : Row) : Bool :=
  let dir := if x.position = .garage then Direction.up else x.direction
  match dir with
  | .up => decide (posInt x ≤ (fromRow.val : Int))
  | .down => decide ((fromRow.val : Int) ≤ posInt x)

/-- The score of a candidate (R66). -/
def scoreOf (t : Txs) (x : Carrier) (q : Request) : Nat :=
  (if distance (q.fromRow.val : Int) (posInt x) ≤ t.near then t.headHit else 0) +
    (if inDirection x q.fromRow then t.dirBonus else 0) + q.dyn

/-- The candidate with the highest score, the oldest among equals (R65). -/
def bestScore (t : Txs) (x : Carrier) (l : List Request) : Option Request :=
  l.foldl (fun best q =>
    match best with
    | none => some q
    | some b => if scoreOf t x b < scoreOf t x q then some q else some b) none

/-- The winner of a decision (R65). -/
def winner (t : Txs) (x : Carrier) (l : List Request) : Option Request :=
  match l.find? (fun q => decide (q.cls = .storm)) with
  | some q => some q
  | none =>
    match l.find? (fun q => decide (t.guardSetting ≤ q.guard)) with
    | some q => some q
    | none => bestScore t x l

/-- A losing candidate ages (R67). -/
def age (t : Txs) (q : Request) : Request :=
  if q.dyn < t.ceiling then { q with dyn := min t.ceiling (q.dyn + t.jump) } else { q with guard := min 30 (q.guard + 1) }

/-- The winner is served (R69). -/
def serve (c : CarrierIx) (q : Request) (w : Work) : Work :=
  let q1 := { q with state := .serving c }
  let w1 := updCarrier c (fun y => { y with state := .toPickup, task := some q.seq, idleStart := none })
    (updRequest q.seq (fun p => { p with state := .serving c }) w)
  if standsAt (w1.carrier c) q.fromRow then boardStep c q1 w1 else travel c q.fromRow (travelClass q) w1

/-- Arbitration is run for a carrier (R64). -/
def arbitrate (c : CarrierIx) (w : Work) : Work :=
  let x := w.carrier c
  if x.state = .garaged ∨ (x.state = .idle ∧ x.load = none) then
    let l := candidates w c
    match winner w.txs x l with
    | none => w
    | some q =>
      let losers := (l.filter (fun p => decide (p.seq ≠ q.seq))).map (·.seq)
      let w1 :=
        if 2 ≤ l.length then
          setPool (w.txs.pool.map (fun p => if p.seq ∈ losers then age w.txs p else p)) w
        else w
      serve c q w1
  else w

/-! ### Creation (R61) -/

/-- The answers to a creation (R61). -/
inductive Creation where
  | created
  | robotBusy
  | rowTaken
deriving DecidableEq, Repr

/-- Arbitration after a request has entered the pool or become eligible (R64). -/
def arbitrateFor (q : Request) (w : Work) : Work :=
  match servingOf w q.fromRow q.finalRow with
  | some c => arbitrate c w
  | none => w

/-- A request is created (R61). -/
def createRequest (k : Slot) (finalRow : Row) (origin : Origin) (w : Work) : Creation × Work :=
  let x := w.robot k
  if (w.requestOf? k).isSome ∨ x.state ≠ .parked then (.robotBusy, w)
  else
    let a := reserve finalRow k .final w
    if a.1 then
      let seq := w.txs.seqCounter + 1
      let q : Request :=
        { seq := seq, robot := k, fromRow := x.row.getD 0, legTarget := none, finalRow := finalRow, cls := .routine,
          origin := origin, leg := 1, dyn := 0, guard := 0, pickupFails := 0, dropFails := 0, retry := none,
          cancelled := false, state := .waiting, search := .leg, relocated := false, stormTarget := none,
          stormCrossing := false }
      let b := findLegTarget q a.2
      let q1 := { q with legTarget := b.1 }
      let w1 : Work := { b.2 with txs := { b.2.txs with seqCounter := seq, pool := b.2.txs.pool ++ [q1] } }
      let w2 := updRobot k (fun y => { y with link := some (.request seq) }) w1
      (.created, arbitrateFor q1 w2)
    else (.rowTaken, w)

/-! ### A row becomes free (R60, R73) -/

/-- The search of a PENDING request is made again: how what it finds changes the request. -/
def search (q : Request) (w : Work) : Option (Request → Request) × Work :=
  match q.search, legCarrier w q with
  | _, none => (none, w)
  | .leg, some _ =>
    let a := findLegTarget q w
    (a.1.map (fun t p => { p with legTarget := some t }), a.2)
  | .relocate failed wasFinal, some c =>
    match nearestOpen w (w.carrier c) (failed.val : Int) with
    | none => (none, w)
    | some t => (some (relocateTo t wasFinal), (reserve t q.robot (relocateKind q wasFinal) w).2)
  | .storm, some c =>
    let a := chooseStormTarget c q w
    (a.1.map (fun t p => { p with legTarget := some t, finalRow := t }), a.2)

/-- A request has its leg target, and goes on with it. -/
def found (q : Request) (f : Request → Request) (w : Work) : Work :=
  let q1 := f q
  let w1 := tell (updRequest q.seq f w)
  match q1.state with
  | .waiting =>
    match servingOf w1 q1.fromRow q1.finalRow with
    | some c => send (.arbitrate c) w1
    | none => w1
  | .serving c => if (w1.carrier c).state = .toDrop then goToDrop c q1 w1 else w1

/-- The search of a PENDING request is made again. -/
def searchAgain (q : Request) (w : Work) : Work :=
  let a := search q w
  match a.1 with
  | none => a.2
  | some f => found q f a.2

/-- A row has become free: the searches it concerns are made one at a time, oldest request first (R60). -/
def rowFreed (r : Row) (w : Work) : Work :=
  (w.txs.pool.map (·.seq)).foldl (fun v seq =>
    match v.request? seq with
    | none => v
    | some q =>
      match q.legTarget, legCarrier v q with
      | none, some c => if reaches (v.carrier c) r then searchAgain q v else v
      | _, _ => v) w

/-! ### Answers of the RAC (R70, R72) -/

/-- The RAC answers a request's hold ask. An answer that no longer fits the request's step is of no effect. -/
def requestAnswer (seq : Half) (r : Row) (purpose : Purpose) (a : HoldAnswer) (w : Work) : Work :=
  match w.request? seq with
  | none => w
  | some q =>
    match q.state with
    | .waiting => w
    | .serving c =>
      match purpose, (w.carrier c).state with
      | .board, .toPickup =>
        if q.fromRow = r then
          match a with
          | .held => updCarrier c (fun y => { y with state := .loading }) w
          | _ => pickupFail c q w
        else w
      | .alight, .toDrop =>
        if q.legTarget = some r then
          match a with
          | .held => updCarrier c (fun y => { y with state := .unloading }) w
          | _ => dropFail c q r w
        else w
      | _, _ => w

/-! ### Robot events (R71, R72, R74, R78) -/

/-- The request a robot's task link names. -/
def linkedRequest? (k : Slot) (w : Work) : Option Request :=
  match (w.robot k).link with
  | some (.request seq) => w.request? seq
  | _ => none

/-- The end of a crossing at a carrier is under R81: storm parking began during the crossing, whether or not it still lasts
(DEDUCED, log entry 41), or it is on and the request is not yet STORM. -/
def underEntry (q : Request) (w : Work) : Bool := q.stormCrossing || (stormOn w.wxm.weather && decide (q.cls ≠ .storm))

/-- The robot has come aboard a carrier (R71, R76, R81). -/
def robotBoarded (k : Slot) (c : CarrierIx) (w : Work) : Work :=
  match linkedRequest? k w with
  | none => w
  | some q =>
    if q.state = .serving c then
      let q1 := { q with pickupFails := 0 }
      let w1 := updCarrier c (fun y => { y with load := some k })
        (updRequest q.seq (fun p => { p with pickupFails := 0 }) w)
      if underEntry q w then
        let a := stormTargetOf c q1 w1
        convert c q1 a.1 a.2
      else if (w1.carrier c).state = .loading then goToDrop c q1 w1
      else w1
    else w

/-- The robot has refused its BOARD, or turned back and docked (R71, R76, R81). -/
def boardingRefused (k : Slot) (w : Work) : Work :=
  match linkedRequest? k w with
  | none => w
  | some q =>
    match q.state with
    | .waiting => w
    | .serving c =>
      if (w.carrier c).state = .loading then
        if underEntry q w then setIdle c (dropRequest q .dropped w) else pickupFail c q w
      else if (w.carrier c).state = .halted then
        if underEntry q w then dropRequest q .dropped w else returnWaiting c q w
      else w

/-- A carrier in UNLOADING has its robot aboard again and goes to the leg target its request now has (R81). -/
def unloadingBack (c : CarrierIx) (q : Request) (w : Work) : Work :=
  if (w.carrier c).state = .unloading then goToDrop c q w else w

/-- The robot has refused its ALIGHT at a row, or turned back aboard (R72, R81). At a HALTED carrier no drop failure is counted
(R76; DEDUCED, log entry 20). A row that is no longer the leg target is that of a request converted during the crossing, which
now lets it go (DEDUCED, log entry 21). -/
def alightingRefused (k : Slot) (row : Option Row) (w : Work) : Work :=
  match linkedRequest? k w with
  | none => w
  | some q =>
    match q.state with
    | .waiting => w
    | .serving c =>
      if underEntry q w then
        let a := stormTargetOf c q w
        convert c q a.1 a.2
      else
        match row with
        | none => unloadingBack c q w
        | some r =>
          if q.legTarget = some r then
            if (w.carrier c).state = .unloading then
              dropFail c q r (updCarrier c (fun y => { y with state := .toDrop }) w)
            else w
          else unloadingBack c q (freeReservation r w)

/-- A request on its next leg, from the row where the last one ended (R74). -/
def nextLeg (t : Row) (q : Request) : Request :=
  { q with
    fromRow := t, leg := min 255 (q.leg + 1), dyn := 0, guard := 0, pickupFails := 0, dropFails := 0, retry := none,
    state := .waiting, legTarget := none, search := .leg, stormCrossing := false }

/-- A request goes on to its next leg: its leg target is found, and arbitration is run for its carrier (R60, R64, R74). -/
def goOnward (t : Row) (q : Request) (w : Work) : Work :=
  let q1 := nextLeg t q
  let b := findLegTarget q1 (updRequest q.seq (nextLeg t) w)
  let w1 := updRequest q.seq (fun p => { p with legTarget := b.1 }) b.2
  match servingOf w1 q1.fromRow q1.finalRow with
  | some c => send (.arbitrate c) w1
  | none => w1

/-- The robot has docked at the row of its ALIGHT, which ends the leg (R74). That row is the leg target, unless the request was
converted during the crossing (DEDUCED, log entry 21). -/
def robotAlighted (k : Slot) (r : Row) (w : Work) : Work :=
  match linkedRequest? k w with
  | none => w
  | some q =>
    match q.state with
    | .waiting => w
    | .serving c =>
      let w0 := updCarrier c (fun y => { y with load := none, task := none }) (removeAlight c w)
      let w1 := if (w0.carrier c).state = .halted then w0 else setIdle c w0
      if r = q.finalRow then finishRequest q (if q.relocated then .relocated else .delivered) q.leg [] w1
      else if q.cancelled then finishRequest q .stopped q.leg [] w1
      else if stormOn w.wxm.weather then finishRequest q .dropped q.leg [] w1
      else goOnward r q w1

/-- The robot has faulted or is lost (R71, R72, R76, R78). `prev` is the state it left. -/
def robotOut (k : Slot) (prev : RobotState) (w : Work) : Work :=
  match linkedRequest? k w with
  | none => w
  | some q =>
    match q.state with
    | .waiting => dropRequest q .failed w
    | .serving c =>
      if (w.robot k).position = .onCarrier then
        removeAlight c (updRequest q.seq (fun p => { p with retry := none }) w)
      else if prev = .alighting then finishRequest q .failed (q.leg - 1) ((w.robot k).row.toList) w
      else
        let w1 := dropRequest q .failed w
        if (w1.carrier c).state = .toPickup ∨ (w1.carrier c).state = .loading then setIdle c w1 else w1

/-- The robot has been stranded by a forced stow (R50, Table 3-7): the request ends FAILED; a carrier whose alighting robot
was stranded on the row loses its load. -/
def robotStranded (k : Slot) (prev : RobotState) (w : Work) : Work :=
  match linkedRequest? k w with
  | none => w
  | some q =>
    let w1 := dropRequest q .failed w
    match q.state with
    | .waiting => w1
    | .serving c =>
      let w2 := if prev = .alighting then updCarrier c (fun y => { y with load := none }) w1 else w1
      if (w2.carrier c).state = .halted ∨ (w2.carrier c).load.isSome = true then w2 else setIdle c w2

/-- The request has asked a hold on a row that the RAC has not answered. -/
def holdStands (q : Request) (r : Row) (w : Work) : Bool := decide ((w.row r).hold.map (·.by_) = some (.request q.seq))

/-- A FAULT_CLEAR has made the robot ABOARD again (R72): the retry timer starts for a carrier in TO_DROP that stands at the
leg target with no hold asked. -/
def robotBack (k : Slot) (w : Work) : Work :=
  match linkedRequest? k w with
  | none => w
  | some q =>
    match q.state, q.legTarget with
    | .serving c, some t =>
      if (w.carrier c).state = .toDrop ∧ standsAt (w.carrier c) t = true ∧ holdStands q t w = false then
        updRequest q.seq (fun p => { p with retry := some w.now }) w
      else w
    | _, _ => w

/-- The robot has been retired (R30, R78). -/
def robotRetired (k : Slot) (w : Work) : Work :=
  match linkedRequest? k w with
  | none => w
  | some q =>
    let w1 := dropRequest q .dropped w
    match q.state with
    | .waiting => w1
    | .serving c => if (w1.carrier c).state = .toPickup then setIdle c w1 else w1

/-- The robot has been recovered (R31, R78): its request is dropped, and a carrier that carried it is free again. -/
def robotRecovered (k : Slot) (w : Work) : Work :=
  let w1 :=
    match linkedRequest? k w with
    | none => w
    | some _ => robotRetired k w
  ((indices 4).filter (fun c => decide ((w1.carrier c).load = some k))).foldl (fun v c =>
    let v1 := updCarrier c (fun y => { y with load := none, task := none }) v
    if (v1.carrier c).state = .halted then v1 else setIdle c v1) w1

/-- An origin cancels its request (R79). -/
def cancelRequest (seq : Half) (w : Work) : Work :=
  match w.request? seq with
  | none => w
  | some q =>
    match q.state with
    | .waiting => dropRequest q .dropped w
    | .serving c =>
      if (w.carrier c).state = .toPickup then setIdle c (dropRequest q .dropped w)
      else updRequest seq (fun p => { p with cancelled := true }) w

/-! ### Halts and carrier reports (R75 to R77) -/

/-- A carrier becomes HALTED (R76); a carrier already HALTED only takes the new cause. Its idle start is absent (DEDUCED, log
entry 44). -/
def halt (c : CarrierIx) (cause : HaltCause) (w : Work) : Work :=
  let x := w.carrier c
  if x.state = .halted then updCarrier c (fun y => { y with cause := cause }) w
  else
    let w1 := discardOrders (.carrier c) w
    let w2 := updCarrier c (fun y => { y with state := .halted, cause := cause, travelTimer := none, idleStart := none }) w1
    let w3 := post (.carrierHalted c x.position x.load cause) w2
    match x.task.bind w3.request? with
    | none => w3
    | some q =>
      let w4 := cancelHold (.request q.seq) q.fromRow w3
      let w5 :=
        match q.legTarget with
        | some t => cancelHold (.request q.seq) t w4
        | none => w4
      let w6 := updRequest q.seq (fun p => { p with retry := none }) w5
      if x.state = .toPickup then returnWaiting c q w6 else w6

/-- The travel timer of a carrier expires (R75). -/
def expireTravel (c : CarrierIx) (w : Work) : Work :=
  let x := w.carrier c
  match x.travelTimer with
  | none => w
  | some (t, d) =>
    if w.txs.secondsPerRow * d + w.txs.travelSlack ≤ elapsed w.now t ∧ x.state ≠ .halted then halt c .timeout w else w

/-- The retry timer of a request expires (R72). -/
def expireRetry (seq : Half) (w : Work) : Work :=
  match w.request? seq with
  | none => w
  | some q =>
    match q.state, q.legTarget with
    | .serving c, some t =>
      if due w.now q.retry Config.alightRetry = true ∧ (w.carrier c).state = .toDrop then alightStep q t w else w
    | _, _ => w

/-- The park timer of an idle carrier expires (R80). -/
def expirePark (c : CarrierIx) (w : Work) : Work :=
  let x := w.carrier c
  if x.state = .idle ∧ x.task = none ∧ x.load = none ∧ w.txs.parkDelay ≠ 0 ∧
      due w.now x.idleStart w.txs.parkDelay = true then
    parkCarrier c .routine w
  else w

/-- A report sets a carrier's position and last direction (R69). -/
def setPosition (c : CarrierIx) (p : CarrierPos) (w : Work) : Work :=
  updCarrier c (fun y =>
    let z := { y with position := p }
    if posInt y < posInt z then { z with direction := .up }
    else if posInt z < posInt y then { z with direction := .down }
    else z) w

/-- A report completes the carrier's travel order (R52): the order in the slot is of that kind and was sent. -/
def completes (c : CarrierIx) (kind : OrderKind) (w : Work) : Bool :=
  match (tget w.fou.carrierOrders c).slot with
  | some o => decide (o.kind = kind) && wasSent o
  | none => false

/-- Whether a further travel order stands in the carrier's slot after one has been completed. -/
def travelStands (c : CarrierIx) (w : Work) : Bool := (tget w.fou.carrierOrders c).slot.isSome

/-- The travel timer stops when its order is completed and no other travel stands (R69, R75). -/
def stopTravel (c : CarrierIx) (w : Work) : Work :=
  if travelStands c w then w else updCarrier c (fun y => { y with travelTimer := none }) w

/-- The step of a carrier with a task whose travel is complete and has left it at the row concerned (R70, R72), also while a
further travel of it stands. A hold that the request has asked there already is not asked again (DEDUCED, log entry 19). -/
def arriveStep (c : CarrierIx) (w : Work) : Work :=
  match (w.carrier c).task.bind w.request? with
  | none => w
  | some q =>
    match (w.carrier c).state, q.legTarget with
    | .toPickup, _ => if standsAt (w.carrier c) q.fromRow && !holdStands q q.fromRow w then boardStep c q w else w
    | .toDrop, some t => if standsAt (w.carrier c) t && !holdStands q t w then alightStep q t w else w
    | _, _ => w

/-- ARRIVED(row) (Table 3-6). -/
def arrivedReport (c : CarrierIx) (r : Row) (w : Work) : Work × Result :=
  if (w.carrier c).state = .halted then
    if reaches (w.carrier c) r then (tell (updCarrier c (fun y => { y with position := .row r }) w), .ok)
    else (w, .state)
  else if completes c (.travel r) w then
    (arriveStep c (stopTravel c (setPosition c (.row r) (endOrder (.carrier c) w))), .ok)
  else (w, .state)

/-- A carrier with no load comes to rest in its garage (Table 3-6). Its idle start is absent (DEDUCED, log entry 44). -/
def restInGarage (c : CarrierIx) (w : Work) : Work :=
  send (.arbitrate c) (updCarrier c (fun y => { y with state := .garaged, direction := .down, idleStart := none }) w)

/-- GARAGED (Table 3-6). -/
def garagedReport (c : CarrierIx) (w : Work) : Work × Result :=
  if (w.carrier c).state = .halted then
    (tell (updCarrier c (fun y => { y with position := .garage }) w), .ok)
  else if completes c .park w then
    let w1 := stopTravel c (setPosition c .garage (endOrder (.carrier c) w))
    match (w1.carrier c).state with
    | .toGarage => (restInGarage c w1, .ok)
    | .idle => (if (w1.carrier c).load.isNone then restInGarage c w1 else w1, .ok)
    | _ => (arriveStep c w1, .ok)
  else (w, .state)

/-- FAULT(code) of a carrier (R52, R76). -/
def carrierFaultReport (c : CarrierIx) (code : Byte) (w : Work) : Work × Result := (halt c (.code code) w, .ok)

/-- FAULT_CLEAR of a carrier (R77, R147). -/
def carrierClearReport (c : CarrierIx) (w : Work) : Work × Result :=
  if (w.carrier c).state = .halted then
    let w1 := updCarrier c (fun y => { y with cause := .none }) (removeAlight c w)
    match (w1.carrier c).task.bind w1.request? with
    | some q =>
      match (w1.robot q.robot).state with
      | .boarding => (updCarrier c (fun y => { y with state := .loading }) w1, .ok)
      | .alighting => (updCarrier c (fun y => { y with state := .unloading }) w1, .ok)
      | _ => (goToDrop c q w1, .ok)
    | none =>
      if (w1.carrier c).load.isSome then (setIdle c w1, .ok)
      else if (w1.carrier c).position = .garage then
        (send (.arbitrate c) (updCarrier c (fun y => { y with state := .garaged }) w1), .ok)
      else (setIdle c w1, .ok)
  else (w, .state)

/-! ### Storm parking at the carriers (R81, R82, R144 step 2) -/

/-- Whether a storm target is chosen at the entry for the request a carrier serves (R145). -/
def wantsStormTarget (c : CarrierIx) (q : Request) (w : Work) : Bool :=
  let x := w.carrier c
  decide (x.state = .toDrop) || decide (x.state = .loading) ||
    (decide (x.state = .halted) && (x.load.isSome || decide ((w.robot q.robot).state = .boarding)))

/-- The robot of a request is crossing between a carrier and a table. -/
def crossing (q : Request) (w : Work) : Bool :=
  decide ((w.robot q.robot).state = .boarding) || decide ((w.robot q.robot).state = .alighting)

/-- The storm targets are chosen and reserved, one carrier after another (R145), and the requests whose robots are crossing are
marked for R81. -/
def chooseStormTargets (w : Work) : Work :=
  (indices 4).foldl (fun v c =>
    match (v.carrier c).task.bind v.request? with
    | none => v
    | some q =>
      let a := if wantsStormTarget c q v then chooseStormTarget c q v else (q.stormTarget, v)
      updRequest q.seq (fun p => { p with stormTarget := a.1, stormCrossing := crossing q v }) a.2) w

/-- The TXS's part of the storm entry at one carrier (R81). The request of a HALTED carrier with a load is converted at once,
also while its robot is ALIGHTING (DEDUCED, log entry 21). -/
def stormEntryCarrier (c : CarrierIx) (w : Work) : Work :=
  let x := w.carrier c
  match x.state, x.task.bind w.request? with
  | .idle, _ => if x.load.isNone then parkCarrier c .urgent w else w
  | .toPickup, some q => setIdle c (dropRequest q .dropped w)
  | .toDrop, some q => convert c q q.stormTarget w
  | .halted, some q => if x.load.isSome then convert c q q.stormTarget w else w
  | _, _ => w

/-- The TXS's part of the storm entry (R81). -/
def stormEntryTxs (w : Work) : Work :=
  let waiting := w.txs.pool.filter (fun q => decide (q.state = .waiting))
  (indices 4).foldl (fun v c => stormEntryCarrier c v) (waiting.foldl (fun v q => dropRequest q .dropped v) w)

/-- The TXS's part of the parking deadline (R82): `out` are the robots stranded, `freed` the robots whose exempt storm
target was freed. -/
def deadlineTxs (out freed : List Slot) (w : Work) : Work :=
  let gone := w.txs.pool.filter (fun q =>
    decide (q.robot ∈ out) ||
      (decide (q.robot ∈ freed) && decide ((w.robot q.robot).position = .onCarrier) &&
        (decide ((w.robot q.robot).state = .fault) || decide ((w.robot q.robot).state = .lost))))
  let w1 := gone.foldl (fun v q =>
    let v1 := dropRequest q .failed v
    match q.state with
    | .waiting => v1
    | .serving c =>
      if (v1.robot q.robot).state = .stranded ∧ (v1.robot q.robot).position = .onTable then
        updCarrier c (fun y => { y with load := none }) v1
      else v1) w
  (indices 4).foldl (fun v c =>
    if (v.carrier c).state ∉ [CarrierState.absent, .garaged, .halted] ∧ (v.carrier c).load.isNone = true then
      parkCarrier c .urgent v
    else v) w1

/-! ### Spans and enrolment (R57, R58) -/

/-- The spans a bound list gives to the enabled carriers, from a low row up: none when a bound breaks R57. Each element is a
carrier with its bound; none is NONE. -/
def spansFrom : Nat → List (CarrierIx × Option Nat) → Option (List (CarrierIx × (Row × Row)))
  | _, [] => some []
  | low, [(c, b)] =>
    if b = none then
      if h : low < 256 then some [(c, (⟨low, h⟩, 255))] else none
    else none
  | low, (c, b) :: rest =>
    match b with
    | none => none
    | some v =>
      if h : low ≤ v ∧ v < 255 then
        match spansFrom (v + 1) rest with
        | none => none
        | some l => some ((c, (⟨low, by omega⟩, ⟨v, by omega⟩)) :: l)
      else none

/-- The spans of an enable set and bounds, or none for RANGE (R57). -/
def spansOf (enabled : CarrierIx → Bool) (bound : CarrierIx → Option Nat) : Option (List (CarrierIx × (Row × Row))) :=
  let on := (indices 4).filter enabled
  if on.isEmpty ∨ (indices 4).any (fun c => !enabled c && (bound c).isSome) = true then none
  else spansFrom 0 (on.map (fun c => (c, bound c)))

/-- The new span of a carrier in a list of spans. -/
def spanIn (l : List (CarrierIx × (Row × Row))) (c : CarrierIx) : Option (Row × Row) :=
  (l.find? (fun e => decide (e.1 = c))).map (·.2)

/-- The state checks of CARRIER_SPANS (R57). -/
def spansFit (l : List (CarrierIx × (Row × Row))) (w : Work) : Bool :=
  (indices 4).all (fun c =>
    let x := w.carrier c
    decide (x.state = .absent) ||
      (match spanIn l c with
      | none => false
      | some s =>
        match x.position with
        | .garage => true
        | .row r => decide (s.1 ≤ r) && decide (r ≤ s.2))) &&
    w.txs.pool.all (fun q => decide (q.state = .waiting))

/-- The leg target of a WAITING request is derived again (R57, R60). -/
def reDerive (q : Request) (w : Work) : Work :=
  let wanted := (legCarrier w q).bind (fun c => wantedTarget w c q.finalRow)
  if q.legTarget.isSome ∧ q.legTarget = wanted then w
  else
    let w1 :=
      match q.legTarget with
      | some t => if t = q.finalRow then w else freeReservation t w
      | none => w
    let a := findLegTarget q w1
    let w2 := updRequest q.seq (fun p => { p with legTarget := a.1 }) a.2
    match servingOf w2 q.fromRow q.finalRow with
    | some c => send (.arbitrate c) w2
    | none => w2

/-- CARRIER_SPANS once its parameters have come (R57). -/
def setSpans (enabled : CarrierIx → Bool) (bound : CarrierIx → Option Nat) (w : Work) : Work × Result :=
  if w.pls.freeze ≠ .frozen then (w, .state)
  else
    match spansOf enabled bound with
    | none => (w, .range)
    | some l =>
      if spansFit l w then
        let w1 : Work :=
          { w with txs := { w.txs with carriers := tmap (fun c x =>
              { x with enabled := enabled c, span := spanIn l c }) w.txs.carriers } }
        ((w1.txs.pool.filter (fun q => decide (q.state = .waiting))).foldl (fun v q => reDerive q v) w1, .ok)
      else (w, .state)

/-- CARRIER_ENROL (R58). -/
def enrolCarrier (c : CarrierIx) (w : Work) : Work × Result :=
  let x := w.carrier c
  if x.state ≠ .absent then (w, .state)
  else if !x.enabled then (w, .range)
  else
    let w1 := updCarrier c (fun y =>
      { Carrier.absentReset with state := .garaged, enabled := y.enabled, span := y.span }) w
    let w2 := updOrders (.carrier c) (fun o => { o with latestSent := none }) (discardOrders (.carrier c) w1)
    (send (.arbitrate c) w2, .ok)

/-- CARRIER_RETIRE (R58). The timers of an ABSENT carrier are stopped, and its position, direction and halt cause stay (DESIGN
CHOICE, log entry 45). -/
def retireCarrier (c : CarrierIx) (w : Work) : Work × Result :=
  let x := w.carrier c
  if x.state = .garaged ∨ (x.state = .idle ∧ x.load = none) ∨ (x.state = .halted ∧ x.load = none ∧ x.task = none) then
    (updCarrier c (fun y => { y with state := .absent, idleStart := none, travelTimer := none })
      (discardOrders (.carrier c) w), .ok)
  else (w, .state)

/-- ROBOT_MOVE(slot, row) (R62). -/
def moveRobot (k : Slot) (r : Row) (w : Work) : Work × Result :=
  let x := w.robot k
  if (w.row r).length = 0 then (w, .range)
  else if stormOn w.wxm.weather ∨ x.state ≠ .parked ∨ x.unconfirmed = true ∨ x.link.isSome = true then (w, .state)
  else
    let a := createRequest k r .plant w
    match a.1 with
    | .created => (a.2, .ok)
    | .robotBusy => (w, .state)
    | .rowTaken => (w, .state)

end Sys2Proof.Machine
end

