-- ==== Sys2Proof/Machine/Rsc.lean ====
section
/-! DEFINITION. The Round Scheduler: triggers, the worklist build, the assignment pass, the entries, suspension and round end
(chapter 6). -/

namespace Sys2Proof.Machine

/-! ### Worklist build (R123 to R126) -/

/-- The days since a row's last complete pass; none counts as longer ago than any interval (R108). -/
def daysSince (day : Half) (last : Option Half) : Option Nat := last.map (fun d => (day - d).toNat)

/-- The benefit of a pass on a row (R124). -/
def benefit (pol : ZonePolicy) (yDay cap ratio : Nat) : Nat :=
  pol.horizon * yDay * cap * (postRatio pol.mode pol - ratio) / 40960

/-- A row is covered by the front bank's candidate range list (R123). -/
def covered (ranges : List (Row × Row)) (r : Row) : Bool := ranges.any (fun p => decide (p.1 ≤ r) && decide (r ≤ p.2))

/-- The benefit of a row at this moment. -/
def rowBenefit (w : Work) (r : Row) : Nat :=
  benefit (w.policy r) w.seu.yDay (w.row r).capacity (tget w.seu.rows r).ratio

/-- The minimum interval has passed since the row's last complete pass (R123). -/
def intervalPassed (w : Work) (r : Row) : Bool :=
  match daysSince w.seu.day (tget w.seu.rows r).lastClean with
  | none => true
  | some d => decide ((w.policy r).minInterval ≤ d)

/-- A row that is no reference row is a candidate (R123). -/
def isCandidate (w : Work) (r : Row) : Bool :=
  let x := w.row r
  let pol := w.policy r
  !x.reference && decide (0 < x.length) && !x.excluded && decide (x.state = .tracking) && decide (pol.mode ≠ .skip) &&
    intervalPassed w r && decide ((tget w.seu.rows r).ratio ≤ pol.trigger) && decide (pol.cost < rowBenefit w r)

/-- A reference row that is always taken (R125). -/
def isReferenceTaken (w : Work) (r : Row) : Bool :=
  (w.row r).reference && decide (0 < (w.row r).length) && !(w.row r).excluded

/-- An entry at the build (R127). -/
def newEntry (row : Row) (mode : Mode) (score : Nat) : Entry :=
  { row := row, mode := mode, score := score, state := .waiting, robot := none, holdFails := 0, transferFails := 0,
    skip := none }

/-- Put an entry into a list kept in descending order of score; an entry of equal score stays behind those already there. -/
def insertEntry (e : Entry) : List Entry → List Entry
  | [] => [e]
  | f :: rest => if f.score < e.score then e :: f :: rest else f :: insertEntry e rest

/-- The worklist built from the front bank (R123 to R126). -/
def buildWorklist (w : Work) : List Entry :=
  let bank := w.pls.frontBank
  let rows := (indices 256).filter (covered bank.ranges)
  let refs := (rows.filter (isReferenceTaken w)).map (fun r => newEntry r .deep 0)
  let cands := (rows.filter (isCandidate w)).map (fun r =>
    newEntry r (w.policy r).mode (rowBenefit w r - (w.policy r).cost))
  (refs ++ cands.foldl (fun l e => insertEntry e l) []).take bank.round.budget

/-! ### Round end (R136) -/

/-- An entry has ended (R127). -/
def Entry.ended (e : Entry) : Bool := decide (e.state ∈ [EntryState.doneFull, .donePart, .skipped])

/-- How many entries of a worklist are in a state. -/
def countState (l : List Entry) (st : EntryState) : Nat := (l.filter (fun e => decide (e.state = st))).length

/-- A round ends, steps 1 to 3 (R136). -/
def roundEndCore (outcome : RoundOutcome) (w : Work) : Work :=
  let w1 : Work := { w with rsc := { w.rsc with limitTimer := none, lastOutcome := outcome } }
  let l := w.rsc.worklist
  let w2 := post (.roundEnded w.rsc.number outcome (countState l .doneFull) (countState l .donePart)
    (countState l .skipped)) w1
  let w3 : Work := { w2 with rsc := { w2.rsc with state := .none } }
  if w3.pls.flipPending then takeFlip w3 else w3

/-! ### Triggers and the build (R119 to R122) -/

/-- A round can be built now (R119). -/
def canBuild (w : Work) : Bool :=
  decide (w.rsc.state = .none) && decide (w.wxm.weather = .calm) && decide (w.pls.freeze = .running) &&
    !w.pls.flipPending

/-- Building a round (R122). Its assignment pass is the next thing the event does. -/
def buildRound (w : Work) : Work :=
  let l := buildWorklist w
  let number := w.rsc.number + 1
  let w1 := restartPeriod { w with rsc := { w.rsc with due := false, number := number, worklist := l } }
  let w2 : Work :=
    if l.isEmpty then w1
    else { w1 with rsc := { w1.rsc with limitTimer := some (w1.now, w1.pls.frontBank.round.limit * 60) } }
  let w3 := post (.roundStarted number l.length) w2
  if l.isEmpty then roundEndCore .empty w3
  else passAtOnce { w3 with rsc := { w3.rsc with state := .active } }

/-- A due round is considered (R121). -/
def considerDue (w : Work) : Work := if w.rsc.due ∧ canBuild w = true then buildRound w else w

/-- A round trigger is raised; the answer is whether a round was built (R119). -/
def trigger (w : Work) : Bool × Work :=
  if canBuild w then (true, buildRound w) else (false, { w with rsc := { w.rsc with due := true } })

/-- A round ends (R136). -/
def roundEnd (outcome : RoundOutcome) (w : Work) : Work := considerDue (roundEndCore outcome w)

/-- The RSC tests whether the round is complete (R133, R134). -/
def testRound (w : Work) : Work :=
  match w.rsc.state with
  | .none => w
  | .active => if w.rsc.worklist.all Entry.ended then roundEnd .complete w else w
  | .suspended => if w.rsc.worklist.all Entry.ended then roundEnd .complete w else w
  | .draining =>
    if w.rsc.worklist.all (fun e => decide (e.state ≠ .passing)) then roundEnd w.rsc.drainOutcome w else w

/-! ### Entries (R127) -/

/-- A robot's task link is cleared if it names the entry (R127). -/
def unlink (k : Slot) (pos : Nat) (w : Work) : Work :=
  if (w.robot k).link = some (.entry w.rsc.number pos) then updRobot k (fun x => { x with link := none }) w else w

/-- The robot an entry names is unlinked (R127). -/
def unlinkEntry (pos : Nat) (w : Work) : Work :=
  match (w.entry? pos).bind (·.robot) with
  | some k => unlink k pos w
  | none => w

/-- An entry ends (R127): its robot is unlinked, the round is tested and a pass is due. -/
def endEntry (pos : Nat) (st : EntryState) (why : Option SkipReason) (w : Work) : Work :=
  askPass (send .testRound (unlinkEntry pos (updEntry pos (fun e => { e with state := st, skip := why }) w)))

/-- An entry is skipped. -/
def skipEntry (pos : Nat) (why : SkipReason) (w : Work) : Work := endEntry pos .skipped (some why) w

/-- An entry returns to WAITING keeping its robot (R130, R132). -/
def keepWaiting (pos : Nat) (w : Work) : Work := askPass (updEntry pos (fun e => { e with state := .waiting }) w)

/-- An entry sends a cancel for its hold (R131 to R135). -/
def cancelEntryHold (pos : Nat) (w : Work) : Work :=
  match w.entry? pos with
  | some e => cancelHold (.entry w.rsc.number pos) e.row w
  | none => w

/-- The entry a message names, if it is of the present round. -/
def entryOf (n : Half) (pos : Nat) (w : Work) : Option Entry := if n = w.rsc.number then w.entry? pos else none

/-! ### The assignment pass (R128, R129) -/

/-- A robot is PARKED at a row. -/
def parkedAt (x : Robot) (r : Row) : Bool := decide (x.state = .parked) && decide (x.row = some r)

/-- A robot's row is LOCKED. -/
def rowLocked (w : Work) (x : Robot) : Bool :=
  match x.row with
  | some r => decide ((w.row r).state = .locked)
  | none => false

/-- A robot is assignable to an entry's row (R53). -/
def assignable (w : Work) (target : Row) (k : Slot) : Bool :=
  let x := w.robot k
  decide (x.state = .parked) && !x.unconfirmed && x.link.isNone && !rowLocked w x &&
    decide ((w.policy target).minBattery ≤ x.battery)

/-- A transfer choice (R129): whether the robot's row lies outside the span that contains the entry's row, then the distance
in rows. -/
def transferRank (w : Work) (target : Row) (k : Slot) : Nat :=
  match (w.robot k).row with
  | none => 1024
  | some r =>
    let same : Bool :=
      match spanCarrier w target with
      | some c => inSpan (w.carrier c) r
      | none => false
    (if same then 0 else 512) + distance (r.val : Int) (target.val : Int)

/-- The robot chosen for a transfer to an entry's row (R129): least rank, then the lower slot. -/
def transferRobot (w : Work) (target : Row) : Option Slot :=
  let busy := (w.rsc.worklist.filter (fun e => decide (e.state = .waiting))).map (·.row)
  let free := (indices 32).filter (fun k =>
    assignable w target k &&
      (match (w.robot k).row with
      | some r => decide (r ∉ busy)
      | none => false))
  free.foldl (fun best k =>
    match best with
    | none => some k
    | some b => if transferRank w target k < transferRank w target b then some k else some b) none

/-- An entry asks its PASS hold with a robot (R130). -/
def askEntryHold (pos : Nat) (k : Slot) (r : Row) (w : Work) : Work :=
  askHold (.entry w.rsc.number pos) .pass k r
    (updEntry pos (fun e => { e with state := .holding, robot := some k }) w)

/-- The pass acts on an entry in WAITING, and on one in ASSIGNED whose robot stands docked at its row, linked to it. -/
def actsOn (w : Work) (pos : Nat) (e : Entry) : Bool :=
  decide (e.state = .waiting) ||
    (decide (e.state = .assigned) &&
      (match e.robot with
      | some k => parkedAt (w.robot k) e.row && decide ((w.robot k).link = some (.entry w.rsc.number pos))
      | none => false))

/-- An entry on a row in TRACKING asks its hold or chooses a robot (R128, R129). -/
def assignEntry (pos : Nat) (e : Entry) (w : Work) : Work :=
  match e.robot.filter (fun k => parkedAt (w.robot k) e.row) with
  | some k => askEntryHold pos k e.row w
  | none =>
    match (indices 32).find? (fun k => assignable w e.row k && decide ((w.robot k).row = some e.row)) with
    | some k =>
      askEntryHold pos k e.row (updRobot k (fun x => { x with link := some (.entry w.rsc.number pos) }) w)
    | none =>
      match transferRobot w e.row with
      | none => w
      | some k =>
        let a := createRequest k e.row (.entry w.rsc.number pos) w
        match a.1 with
        | .created => updEntry pos (fun f => { f with state := .assigned, robot := some k }) a.2
        | .robotBusy => w
        | .rowTaken => w

/-- The pass at one entry (R128). -/
def passEntry (w : Work) (pos : Nat) : Work :=
  match w.entry? pos with
  | none => w
  | some e =>
    if actsOn w pos e then
      let x := w.row e.row
      if x.excluded ∨ x.length = 0 then skipEntry pos .excluded w
      else
        match x.state with
        | .stowCleared => skipEntry pos .stowed w
        | .stowed => skipEntry pos .stowed w
        | .tracking => assignEntry pos e w
        | _ => w
    else w

/-- After a pass, with no entry at work every entry still WAITING is skipped (R134). -/
def noRobotLeft (w : Work) : Work :=
  if w.rsc.worklist.any (fun e => decide (e.state ∈ [EntryState.assigned, .holding, .passing])) then w
  else
    (List.range w.rsc.worklist.length).foldl (fun v pos =>
      if (v.entry? pos).map (·.state) = some .waiting then skipEntry pos .noRobot v else v) w

/-- An assignment pass (R128, R134): made only in ACTIVE. -/
def assignmentPass (w : Work) : Work :=
  if w.rsc.state = .active then
    testRound (noRobotLeft ((List.range w.rsc.worklist.length).foldl passEntry w))
  else w

/-! ### Answers and events at an entry (R129 to R131) -/

/-- A hold has failed (R130); in a round that drains the entry, which can ask no hold again, is skipped. -/
def entryFail (pos : Nat) (e : Entry) (why : SkipReason) (w : Work) : Work :=
  let w1 := updEntry pos (fun f => { f with holdFails := min 2 (f.holdFails + 1) }) w
  if 2 ≤ e.holdFails + 1 then skipEntry pos why w1
  else if w.rsc.state = .draining then skipEntry pos .time w1
  else keepWaiting pos w1

/-- The RAC's answer to an entry's hold (R130). -/
def entryAnswer (n : Half) (pos : Nat) (row : Row) (a : HoldAnswer) (w : Work) : Work :=
  match entryOf n pos w with
  | none => w
  | some e =>
    if e.state = .holding ∧ e.row = row then
      match a with
      | .held => updEntry pos (fun f => { f with state := .passing }) w
      | .refused => entryFail pos e .refused w
      | .timeout => entryFail pos e .timeout w
      | .holdLost =>
        if stormOn w.wxm.weather then skipEntry pos .storm w
        else if (w.row row).state = .stowCleared ∨ (w.row row).state = .stowed then skipEntry pos .stowed w
        else entryFail pos e .refused w
    else w

/-- The entry's robot has refused its PASS (R42, R130). -/
def entryRefused (n : Half) (pos : Nat) (k : Slot) (w : Work) : Work :=
  match entryOf n pos w with
  | none => w
  | some e => if e.state = .passing ∧ e.robot = some k then entryFail pos e .refused w else w

/-- A pass result reaches a PASSING entry (R131). -/
def entryPass (n : Half) (pos : Nat) (k : Slot) (complete : Bool) (w : Work) : Work :=
  match entryOf n pos w with
  | none => w
  | some e =>
    if e.state = .passing ∧ e.robot = some k then endEntry pos (if complete then .doneFull else .donePart) none w else w

/-- The robot of a PASSING entry has been stranded (R131). -/
def entryStranded (n : Half) (pos : Nat) (k : Slot) (w : Work) : Work := entryPass n pos k false w

/-- The robot of an entry has faulted, is lost, retired or recovered (R131). -/
def entryGone (n : Half) (pos : Nat) (k : Slot) (w : Work) : Work :=
  match entryOf n pos w with
  | none => w
  | some e =>
    if e.ended = false ∧ e.robot = some k then
      skipEntry pos .fault (if e.state = .holding then cancelEntryHold pos w else w)
    else w

/-- The outcome of a transfer reaches its origin (Table 6-6, R129). In ACTIVE the PASS hold of a DELIVERED entry is asked at once,
whatever the state of its row. An assignment pass follows every outcome given, also one that finds its entry ended or of an earlier
round (R128). -/
def entryOutcome (n : Half) (pos : Nat) (k : Slot) (outcome : ReqOutcome) (w : Work) : Work :=
  let mine := (entryOf n pos w).filter (fun e => decide (e.state = .assigned) && decide (e.robot = some k))
  askPass <| match mine with
  | some e =>
    match outcome with
    | .delivered => if w.rsc.state = .active then askEntryHold pos k e.row w else w
    | .relocated => w
    | .stopped => w
    | .refused =>
      let w1 := updEntry pos (fun f =>
        { f with robot := none, transferFails := min 2 (f.transferFails + 1) }) w
      if 2 ≤ e.transferFails + 1 then skipEntry pos .refused w1 else keepWaiting pos w1
    | .failed => skipEntry pos .fault w
    | .dropped => skipEntry pos .fault w
  | none =>
    if outcome = .delivered ∧ (w.robot k).link = some (.entry n pos) then updRobot k (fun x => { x with link := none }) w
    else w

/-! ### Suspension (R132) -/

/-- The round is suspended (R132): ACTIVE becomes SUSPENDED. -/
def suspendRound (w : Work) : Work :=
  if w.rsc.state = .active then { w with rsc := { w.rsc with state := .suspended } } else w

/-- The HOLDING entries cancel their holds and return to WAITING keeping their robots (R132), in list order (DEDUCED, log
entry 35). -/
def withdrawHolds (w : Work) : Work :=
  (List.range w.rsc.worklist.length).foldl (fun v pos =>
    if (v.entry? pos).map (·.state) = some .holding then keepWaiting pos (cancelEntryHold pos v) else v) w

/-- The weather state has entered WATCH from CALM (R132). -/
def watchRound (w : Work) : Work :=
  match w.rsc.state with
  | .active => withdrawHolds (suspendRound w)
  | .suspended => withdrawHolds w
  | .none => w
  | .draining => w

/-- The weather state is CALM again, or the freeze state RUNNING: a suspended round resumes when both are so, with an
assignment pass at once, and with no round under way a due round is considered (R121, R132). -/
def resumeRound (w : Work) : Work :=
  if w.rsc.state = .suspended ∧ w.wxm.weather = .calm ∧ w.pls.freeze = .running then
    passAtOnce { w with rsc := { w.rsc with state := .active } }
  else considerDue w

/-! ### Giving up (R133, R135) -/

/-- An entry not yet passing is given up at the time limit or a stop (R133). -/
def giveUpEntry (w : Work) (pos : Nat) : Work :=
  match w.entry? pos with
  | none => w
  | some e =>
    match e.state with
    | .waiting => skipEntry pos .time w
    | .holding => skipEntry pos .time (cancelEntryHold pos w)
    | .assigned =>
      let w1 := skipEntry pos .time w
      match e.robot.bind (fun k => (w1.robot k).link) with
      | some (.request seq) => cancelRequest seq w1
      | _ => w1
    | _ => w

/-- The round's time has run out or it has been stopped (R133); the entries are given up in list order (DEDUCED, log entry
35). -/
def giveUp (outcome : RoundOutcome) (w : Work) : Work :=
  let w1 := (List.range w.rsc.worklist.length).foldl giveUpEntry w
  if w1.rsc.worklist.all (fun e => decide (e.state ≠ .passing)) then roundEnd outcome w1
  else { w1 with rsc := { w1.rsc with state := .draining, limitTimer := none, drainOutcome := outcome } }

/-- GO_HEAD, ROUTINE, for the robot of every PASSING entry (R133), in list order (DEDUCED, log entry 35). -/
def recallPasses (w : Work) : Work :=
  (w.rsc.worklist.filter (fun e => decide (e.state = .passing))).foldl (fun v e =>
    match e.robot with
    | some k => askGoHead k .routine v
    | none => v) w

/-- ROUND_STOP(recall) (R133). The GO_HEADs are asked before the entries are given up, which PASSING entries are not. -/
def stopRound (turnBack : Bool) (w : Work) : Work × Result :=
  if w.rsc.state = .active ∨ w.rsc.state = .suspended then
    (giveUp .stopped (if turnBack then recallPasses w else w), .ok)
  else (w, .state)

/-- An entry at the abort (R135). -/
def abortEntry (w : Work) (pos : Nat) : Work :=
  match w.entry? pos with
  | none => w
  | some e =>
    match e.state with
    | .waiting => skipEntry pos .storm w
    | .assigned => skipEntry pos .storm w
    | .holding => skipEntry pos .storm (cancelEntryHold pos w)
    | .passing => endEntry pos .donePart none w
    | _ => w

/-- The round is aborted at the storm entry (R135), its entries in list order (DEDUCED, log entry 35). -/
def abortRound (w : Work) : Work :=
  if w.rsc.state = .none then w
  else roundEnd .aborted ((List.range w.rsc.worklist.length).foldl abortEntry w)

/-! ### Timers and the day close -/

/-- The period timer expires (R120). -/
def expirePeriod (w : Work) : Work :=
  if dueLen w.now w.rsc.periodTimer then restartPeriod (trigger w).2 else w

/-- The time-limit timer expires (R133). -/
def expireLimit (w : Work) : Work :=
  if dueLen w.now w.rsc.limitTimer = true ∧ (w.rsc.state = .active ∨ w.rsc.state = .suspended) then giveUp .timed w else w

/-- ROUND_START (R119). -/
def startRound (w : Work) : Work × Result :=
  let a := trigger w
  (a.2, if a.1 then .ok else .state)

/-- DAY_CLOSE after its command byte has closed an open interval (R115). -/
def dayClose (w : Work) : Work :=
  let w1 := closeDay w
  if w1.pls.frontBank.round.source = .dayClose then (trigger w1).2 else w1

/-! ### Freeze and thaw (R92, R96) -/

/-- FREEZE (R92, R93); the drain condition is tested within the command (R94). -/
def freeze (w : Work) : Work × Result :=
  if w.pls.freeze = .running then
    (drainTest (suspendRound { w with pls := { w.pls with freeze := .freezeAsked } }), .ok)
  else (w, .state)

/-- THAW (R96): the RSC is told, and only then the TXS, so that the assignment pass of a round that resumes or is built comes
before the arbitration for the carriers. -/
def thaw (w : Work) : Work × Result :=
  if w.pls.freeze = .running then (w, .state)
  else (arbitrateAll (resumeRound { w with pls := { w.pls with freeze := .running } }), .ok)

end Sys2Proof.Machine
end

