-- ==== Sys2Proof/Machine/Robots.lean ====
section
/-! DEFINITION. The robots at the Fleet Order Unit: fault, loss, stranding, pass results, enrolment, retirement, recovery, the
robot and carrier reports, and the accept and silence timeouts (chapter 2). -/

namespace Sys2Proof.Machine

/-! ### Leaving service -/

/-- A robot state in which the robot is off its dock on a table (Table 2-2). -/
def offDock (st : RobotState) : Bool :=
  decide (st ∈ [RobotState.passing, .returning, .boarding, .alighting])

/-- The row of a robot that was off its dock is locked (R16, R47, R48). -/
def lockRobotRow (k : Slot) (prev : RobotState) (w : Work) : Work :=
  match (w.robot k).row with
  | some r => if offDock prev then lockRow r w else w
  | none => w

/-- The requester named by a robot's task link is told that the robot has faulted, is lost, retired or recovered. -/
def tellEntryGone (k : Slot) (link : Option TaskLink) (w : Work) : Work :=
  match link with
  | some (.entry n p) => send (.entryGone n p k) w
  | some (.request _) => w
  | none => w

/-- A robot enters FAULT (R47); `cause` is the code, MISMATCH or REFUSED. -/
def enterFault (k : Slot) (cause : RobotCause) (w : Work) : Work :=
  let x := w.robot k
  let w1 := updRobot k (fun y => { withState .fault y with cause := cause }) (discardOrders (.robot k) w)
  tellEntryGone k x.link (robotOut k x.state (lockRobotRow k x.state w1))

/-- A robot becomes LOST (R48). -/
def loseRobot (k : Slot) (w : Work) : Work :=
  let x := w.robot k
  let w1 := updRobot k (withState .lost) (discardOrders (.robot k) w)
  let w2 := tellEntryGone k x.link (robotOut k x.state (lockRobotRow k x.state w1))
  post (.robotLost k x.row x.position) w2

/-! ### Pass results (R51) -/

/-- A pass result is handed on to the estimator and counted for the robot (R51, R112). -/
def handPass (k : Slot) (complete : Bool) (w : Work) : Work :=
  let x := w.robot k
  let w1 := updRobot k (fun y =>
    if complete then { y with fullPasses := satSucc y.fullPasses }
    else { y with partPasses := satSucc y.partPasses }) w
  match x.row with
  | some r => passResult r k x.passMode complete x.highest w1
  | none => w1

/-- The worklist entry of a robot's task link is told of the pass result (R51, R131). -/
def tellEntryPass (k : Slot) (complete : Bool) (w : Work) : Work :=
  match (w.robot k).link with
  | some (.entry n p) => send (.entryPass n p k complete) w
  | some (.request _) => w
  | none => w

/-! ### Stranding (R50) -/

/-- A robot becomes STRANDED (R50). The TXS is told by the caller, after the STRANDED record. -/
def strandRobot (k : Slot) (w : Work) : Work :=
  let x := w.robot k
  let passing := decide (x.state = .passing) || decide (x.state = .returning)
  let w1 := if passing then handPass k false w else w
  let w2 := updRobot k (withState .stranded) (discardOrders (.robot k) w1)
  match x.link with
  | some (.entry n p) => send (.entryStranded n p k) w2
  | some (.request _) => w2
  | none => w2

/-- The row or carrier a STRANDED record names (R149). -/
def strandPlace (x : Robot) : Option StrandPlace :=
  match x.position with
  | .onCarrier => x.carrier.map StrandPlace.carrier
  | .onTable => x.row.map StrandPlace.row
  | .docked => x.row.map StrandPlace.row

/-- The WXM posts a STRANDED record (R154). -/
def postStranded (k : Slot) (cause : StrandCause) (w : Work) : Work :=
  post (.stranded k (w.robot k).position (strandPlace (w.robot k)) cause) w

/-! ### Enrolment, retirement and recovery -/

/-- ROBOT_ENROL (R29). Of its refusals the slot's state comes before the row's length, which R29 does not rank (DEDUCED, log
entry 25). -/
def enrolRobot (k : Slot) (serial : Half) (r : Row) (w : Work) : Work × Result :=
  if (w.robot k).state ≠ .empty then (w, .state)
  else if (w.row r).length = 0 then (w, .range)
  else if (w.row r).present.isSome ∨ (w.row r).incoming.isSome then (w, .state)
  else
    (enterPresent r k (updRobot k (fun x =>
      { Robot.reset with
        serial := serial, state := .parked, row := some r, unconfirmed := true, lastReport := w.now
        orders := { UnitOrders.reset with tagCounter := x.orders.tagCounter } }) w), .ok)

/-- The slot becomes EMPTY with the power-on values except the tag counter (R30); its orders are discarded (R38). -/
def emptySlot (k : Slot) (w : Work) : Work :=
  updRobot k (fun x => { Robot.reset with orders := { UnitOrders.reset with tagCounter := x.orders.tagCounter } })
    (discardOrders (.robot k) w)

/-- ROBOT_RETIRE (R30). -/
def retireRobot (k : Slot) (w : Work) : Work × Result :=
  let x := w.robot k
  if (x.state = .parked ∨ x.state = .fault ∨ x.state = .lost) ∧ x.position = .docked ∧ onLockedRow k w = false then
    let w1 := tellEntryGone k x.link (robotRetired k (freeReservations k [] (clearPresence k w)))
    (emptySlot k w1, .ok)
  else (w, .state)

/-- The checks of a recovery on the row it names (R31). -/
def recoveryRow (k : Slot) (r : Row) (w : Work) : Option Result :=
  let x := w.row r
  if (w.robot k).row = some r ∨ reservedFor x k = true then none
  else if x.present.isSome ∨ x.incoming.isSome then some .state
  else if x.length = 0 then some .range
  else none

/-- A robot is one that a recovery may name (R31). -/
def recoverable (k : Slot) (w : Work) : Bool :=
  let x := w.robot k
  decide (x.state ∈ [RobotState.fault, .lost, .stranded]) || (decide (x.state = .parked) && onLockedRow k w)

/-- A recovery that is taken (R31, R19); `row` none is REMOVED. -/
def recover (k : Slot) (row : Option Row) (w : Work) : Work :=
  let link := (w.robot k).link
  let w1 := tellEntryGone k link
    (updOrders (.robot k) (fun o => { o with latestSent := none }) (discardOrders (.robot k) w))
  let w2 := recoverRows k (robotRecovered k w1)
  match row with
  | some r =>
    enterPresent r k (updRobot k (fun x =>
      { withState .parked x with
        row := some r, carrier := none, unconfirmed := true, cause := .none, link := none, lastReport := w.now }) w2)
  | none => updRobot k (fun x => { x with lastReport := w.now }) (emptySlot k w2)

/-- ROBOT_RECOVERED (R31). Of its refusals the robot's state comes before those of the named row, which R31 does not rank
(DEDUCED, log entry 25). -/
def recoverRobot (k : Slot) (row : Option Row) (w : Work) : Work × Result :=
  if recoverable k w then
    match row.bind (fun r => recoveryRow k r w) with
    | some e => (w, e)
    | none => (recover k row w, .ok)
  else (w, .state)

/-! ### Robot reports (R40 to R49) -/

/-- A report from a LOST robot (R49): `dockedAt` is the row of a DOCKED report. -/
def lostReport (k : Slot) (dockedAt : Option Row) (w : Work) : Work × Result :=
  let x := w.robot k
  if dockedAt.isSome ∧ dockedAt = x.row ∧ x.position ≠ .onCarrier then
    (updRobot k (fun y => { withState .parked y with carrier := none, unconfirmed := false }) w, .ok)
  else (enterFault k .mismatch w, .ok)

/-- A tag is the latest sent tag of a unit (R40). -/
def latestTag (u : FleetUnit) (tag : Byte) (w : Work) : Bool := decide ((w.orders u).latestSent.map (·.1) = some tag)

/-- ACCEPT(tag) of a unit (R41). -/
def acceptReport (u : FleetUnit) (tag : Byte) (w : Work) : Work × Result :=
  let a := acceptOrder u tag w
  (a.2, if a.1 then .ok else .state)

/-- The occupancy or wait of a robot's row ends (R14, R15). -/
def endRobotOccupancy (r : Option Row) (w : Work) : Work :=
  match r with
  | some r => endOccupancy r w
  | none => w

/-- The robot has refused its PASS (R42). -/
def refusePass (k : Slot) (w : Work) : Work :=
  let x := w.robot k
  let w1 := endRobotOccupancy x.row (parkRobot k id w)
  match x.link with
  | some (.entry n p) => send (.entryRefused n p k) w1
  | some (.request _) => w1
  | none => w1

/-- The robot has refused its BOARD or turned back from it (R42, R45). -/
def turnBackBoarding (k : Slot) (f : Robot → Robot) (w : Work) : Work :=
  let x := w.robot k
  boardingRefused k (endRobotOccupancy x.row (parkRobot k f w))

/-- The robot has refused its ALIGHT or turned back onto its carrier (R42, R46): it is ABOARD again. -/
def turnBackAlighting (k : Slot) (w : Work) : Work :=
  let x := w.robot k
  alightingRefused k x.row (endRobotOccupancy x.row
    (endOrder (.robot k) (updRobot k (fun y => { withState .aboard y with row := none }) w)))

/-- What a robot's refusal of its order does, by the kind of the order (R42). -/
def refuseOrder (k : Slot) (kind : OrderKind) (w : Work) : Work × Result :=
  match kind, (w.robot k).state with
  | .pass _ _, .passing => (refusePass k w, .ok)
  | .pass _ _, .returning => (refusePass k w, .ok)
  | .board _, .boarding => (turnBackBoarding k id w, .ok)
  | .alight _, .alighting => (turnBackAlighting k w, .ok)
  | .goHead, .returning => (enterFault k .refused w, .ok)
  | _, _ => (w, .state)

/-- REFUSE(tag, reason) (R42). The reason is handed on uninterpreted and held nowhere. -/
def refuseReport (k : Slot) (tag : Byte) (w : Work) : Work × Result :=
  match (w.robot k).orders.slot with
  | none => (w, .state)
  | some o =>
    if latestTag (.robot k) tag w = true ∧ o.tag = tag ∧ o.status ≠ .accepted ∧ wasSent o = true then
      refuseOrder k o.kind w
    else (w, .state)

/-- The GO_HEAD of a RETURNING robot has been sent: it is the latest sent order (R43). -/
def goHeadSent (x : Robot) : Bool := decide (x.orders.latestSent.map (·.2) = some .goHead)

/-- DONE(tag) (R43). -/
def doneReport (k : Slot) (tag : Byte) (w : Work) : Work × Result :=
  let x := w.robot k
  if x.orders.latestSent = some (tag, .pass) ∧
      (x.state = .passing ∨ (x.state = .returning ∧ goHeadSent x = false)) then
    let w1 := tellEntryPass k true (handPass k true (parkRobot k (fun y => { y with unconfirmed := false }) w))
    (endRobotOccupancy x.row w1, .ok)
  else (w, .state)

/-- PROGRESS(segment) (R44). -/
def progressReport (k : Slot) (segment : Nat) (w : Work) : Work × Result :=
  let x := w.robot k
  if x.state = .passing ∨ x.state = .returning then
    let len := (x.row.map (fun r => (w.row r).length)).getD 0
    (updRobot k (fun y => { y with highest := max y.highest (min segment len) }) w,
      if len < segment then .clamped else .ok)
  else (w, .state)

/-- BATTERY(level) (R44). -/
def batteryReport (k : Slot) (level : Nat) (w : Work) : Work × Result :=
  (updRobot k (fun y => { y with battery := min 100 level }) w, if 100 < level then .clamped else .ok)

/-- The robot has docked at the row of its ALIGHT (R45, R14, R22): the reservation becomes presence and the occupancy ends. -/
def dockAlighted (k : Slot) (r : Row) (w : Work) : Work :=
  let w1 := parkRobot k (fun y => { y with carrier := none, unconfirmed := false }) w
  let storm := stormOn w1.wxm.weather
  robotAlighted k r (updRow r (fun x => endOccupancyRow storm (enterReserved x)) w1)

/-- A DOCKED at the expected row (Table 2-5). -/
def dockedHere (k : Slot) (r : Row) (w : Work) : Work × Result :=
  let confirm := fun y : Robot => { y with unconfirmed := false }
  let partialPass := (endOccupancy r (tellEntryPass k false (handPass k false (parkRobot k confirm w))), Result.ok)
  match (w.robot k).state with
  | .parked => (updRobot k confirm w, .ok)
  | .passing => partialPass
  | .returning => partialPass
  | .boarding => (turnBackBoarding k confirm w, .ok)
  | .alighting => (dockAlighted k r w, .ok)
  | .aboard => (enterFault k .mismatch w, .ok)
  | .stranded =>
    if (w.robot k).position = .onCarrier then (w, .state)
    else (updRobot k (fun y => { withState .parked y with carrier := none, unconfirmed := false }) w, .ok)
  | .fault => (w, .state)
  | .lost => lostReport k (some r) w
  | .empty => (w, .state)

/-- A DOCKED at another row (Table 2-5). -/
def dockedElsewhere (k : Slot) (w : Work) : Work × Result :=
  match (w.robot k).state with
  | .stranded => (w, .state)
  | .fault => (w, .state)
  | .empty => (w, .state)
  | _ => (enterFault k .mismatch w, .ok)

/-- DOCKED(row) (R45). -/
def dockedReport (k : Slot) (r : Row) (w : Work) : Work × Result :=
  if (w.robot k).row = some r then dockedHere k r w else dockedElsewhere k w

/-- The robot has come aboard a carrier that stands at its row (R46). -/
def comeAboard (k : Slot) (c : CarrierIx) (r : Row) (w : Work) : Work :=
  let w1 := endOrder (.robot k)
    (updRobot k (fun y => { withState .aboard y with carrier := some c, row := none }) w)
  let storm := stormOn w1.wxm.weather
  robotBoarded k c (updRow r (fun x => { endOccupancyRow storm x with present := none }) w1)

/-- ABOARD(carrier) (R46). A carrier above 3 gives RANGE in every state of the robot, before the STATE or MISMATCH that the
state would give (DEDUCED, log entry 24). -/
def aboardReport (k : Slot) (carrier : Byte) (w : Work) : Work × Result :=
  let x := w.robot k
  if h : carrier.toNat < 4 then
    let c : CarrierIx := ⟨carrier.toNat, h⟩
    match x.state with
    | .boarding =>
      match x.row with
      | some r => if standsAt (w.carrier c) r then (comeAboard k c r w, .ok) else (enterFault k .mismatch w, .ok)
      | none => (enterFault k .mismatch w, .ok)
    | .alighting => if x.carrier = some c then (turnBackAlighting k w, .ok) else (enterFault k .mismatch w, .ok)
    | _ => (w, .state)
  else (w, .range)

/-- FAULT(code) (R47). -/
def faultReport (k : Slot) (code : Byte) (w : Work) : Work × Result :=
  match (w.robot k).state with
  | .stranded => (w, .state)
  | .empty => (w, .state)
  | .fault => (updRobot k (fun y => { y with cause := .code code }) w, .ok)
  | _ => (enterFault k (.code code) w, .ok)

/-- FAULT_CLEAR (R47). -/
def faultClearReport (k : Slot) (w : Work) : Work × Result :=
  if (w.robot k).state = .fault then
    match (w.robot k).position with
    | .docked => (updRobot k (fun y => { withState .parked y with cause := .none }) w, .ok)
    | .onCarrier => (robotBack k (updRobot k (fun y => { withState .aboard y with cause := .none }) w), .ok)
    | .onTable => (updRobot k (fun y => { y with cause := .none }) w, .ok)
  else (w, .state)

/-- A robot report with the fields of its kind (Table 11-3). -/
inductive RobotReport where
  | accept (tag : Byte)
  | refuse (tag reason : Byte)
  | done (tag : Byte)
  | progress (segment : Byte)
  | docked (row : Byte)
  | aboard (carrier : Byte)
  | fault (code : Byte)
  | faultClear
  | battery (level : Byte)
  | alive
deriving DecidableEq, Repr

/-- A byte as a row: every value names one. -/
def byteRow (b : Byte) : Row := ⟨b.toNat, by have := b.isLt; simpa using this⟩

/-- The row a report of a LOST robot states it has docked at. -/
def RobotReport.dockedAt (x : RobotReport) : Option Row :=
  match x with
  | .docked row => some (byteRow row)
  | _ => none

/-- The effect of a report from an enrolled robot that is not LOST (R41 to R47). -/
def reportEffect (k : Slot) (x : RobotReport) (w : Work) : Work × Result :=
  match x with
  | .accept tag => acceptReport (.robot k) tag w
  | .refuse tag _ => refuseReport k tag w
  | .done tag => doneReport k tag w
  | .progress segment => progressReport k segment.toNat w
  | .docked row => dockedReport k (byteRow row) w
  | .aboard carrier => aboardReport k carrier w
  | .fault code => faultReport k code w
  | .faultClear => faultClearReport k w
  | .battery level => batteryReport k level.toNat w
  | .alive => (w, .ok)

/-- A robot report is taken (R40, R49). The last report time is set before the report is judged, so also where R46 refuses an
ABOARD with RANGE and says that it has no effect (DEDUCED, log entry 24). -/
def robotReport (slot : Byte) (x : RobotReport) (w : Work) : Work × Result :=
  if h : slot.toNat < 32 then
    let k : Slot := ⟨slot.toNat, h⟩
    if (w.robot k).state = .empty then (w, .state)
    else
      let w1 := updRobot k (fun y => { y with lastReport := w.now }) w
      if (w.robot k).state = .lost then lostReport k x.dockedAt w1 else reportEffect k x w1
  else (w, .range)

/-! ### Carrier reports (R52) -/

/-- A carrier report with the fields of its kind (Table 11-3). -/
inductive CarrierReport where
  | accept (tag : Byte)
  | arrived (row : Byte)
  | garaged
  | fault (code : Byte)
  | faultClear
deriving DecidableEq, Repr

/-- A carrier report is taken (R52, R77). -/
def carrierReport (carrier : Byte) (x : CarrierReport) (w : Work) : Work × Result :=
  if h : carrier.toNat < 4 then
    let c : CarrierIx := ⟨carrier.toNat, h⟩
    if (w.carrier c).state = .absent then (w, .state)
    else
      match x with
      | .accept tag => acceptReport (.carrier c) tag w
      | .arrived row => arrivedReport c (byteRow row) w
      | .garaged => garagedReport c w
      | .fault code => carrierFaultReport c code w
      | .faultClear => carrierClearReport c w
  else (w, .range)

/-! ### Timeouts (R39, R48) -/

/-- The accept timer of a unit expires (R39). -/
def expireAcceptTimer (u : FleetUnit) (w : Work) : Work :=
  let a := expireAccept u w
  match a.1 with
  | .notDue => w
  | .handled => a.2
  | .failed =>
    match u with
    | .robot k => loseRobot k w
    | .carrier c => halt c .noAnswer w

/-- The silence timer of a robot runs (R48). -/
def silenceRuns (x : Robot) : Bool := decide (x.state ∉ [RobotState.empty, .lost, .stranded])

/-- The silence timer of a robot expires (R48). -/
def expireSilence (k : Slot) (w : Work) : Work :=
  let x := w.robot k
  if silenceRuns x = true ∧ due w.now (some x.lastReport) w.fou.silenceTimeout = true then loseRobot k w else w

end Sys2Proof.Machine
end

