-- ==== Sys2Proof/Machine/Holds.lean ====
section
/-! DEFINITION. The row reports of the tracker master: HELD and HOLD_REFUSED, STOW_WANTED, STOWED, FORCED_STOW and UNSTOWED
(R11, R12, R15, R17, R18). -/

namespace Sys2Proof.Machine

/-! ### HELD (R11) -/

/-- What a requester of a hold would have issued: whether it still stands, its robot, whether the order can be given, and the
order's mode, carrier and class (R11, Table 1-3). -/
structure HoldTest where
  stands : Bool
  robot : Slot
  fits : Bool
  mode : Mode
  carrier : CarrierIx
  cls : OrderClass
deriving DecidableEq, Repr

/-- The robot is PARKED and the row's present robot (R11, PASS and BOARD). -/
def dockedPresent (k : Slot) (r : Row) (w : Work) : Bool :=
  decide ((w.robot k).state = .parked) && decide ((w.row r).present = some k)

/-- The robot is ABOARD a carrier that stands at the row, and the row's reservation is for it (R11, ALIGHT). -/
def aboardAt (k : Slot) (r : Row) (w : Work) : Bool :=
  decide ((w.robot k).state = .aboard) && reservedFor (w.row r) k &&
    (match (w.robot k).carrier with
    | some c => standsAt (w.carrier c) r
    | none => false)

/-- A worklist entry's hold at HELD (R11, R130): none when there is no such entry. -/
def entryHoldTest (n : Half) (pos : Nat) (r : Row) (w : Work) : Option HoldTest :=
  match (if n = w.rsc.number then w.entry? pos else none) with
  | none => none
  | some e =>
    e.robot.map (fun k =>
      { stands := decide (e.state = .holding) && decide (e.row = r) && decide (w.wxm.weather = .calm)
        robot := k, fits := dockedPresent k r w, mode := e.mode, carrier := 0, cls := .routine })

/-- A transfer request's hold at HELD (R11, R70, R72). -/
def requestHoldTest (seq : Half) (purpose : Purpose) (r : Row) (w : Work) : Option HoldTest :=
  match w.request? seq with
  | none => none
  | some q =>
    match q.state with
    | .waiting => none
    | .serving c =>
      let x := w.carrier c
      let board := decide (purpose = .board)
      some
        { stands :=
            if board then decide (x.state = .toPickup) && decide (q.fromRow = r)
            else decide (x.state = .toDrop) && decide (q.legTarget = some r)
          robot := q.robot
          fits :=
            if board then dockedPresent q.robot r w && standsAt x r && x.load.isNone else aboardAt q.robot r w
          mode := .dry, carrier := c, cls := if q.cls = .storm then .urgent else .routine }

/-- Storm parking's hold at HELD (R11, R147). -/
def stormHoldTest (k : Slot) (r : Row) (w : Work) : Option HoldTest :=
  let wanted := (indices 4).any (fun c =>
    match tget w.wxm.alights c with
    | some a => decide (a.robot = k) && decide (a.row = r)
    | none => false)
  some { stands := wanted && decide (w.wxm.weather = .parking), robot := k, fits := aboardAt k r w, mode := .dry,
         carrier := 0, cls := .urgent }

/-- The test of R11 for a hold. -/
def holdTest (h : Hold) (r : Row) (w : Work) : Option HoldTest :=
  match h.by_ with
  | .entry n pos => entryHoldTest n pos r w
  | .request seq => requestHoldTest seq h.purpose r w
  | .storm k => stormHoldTest k r w

/-- The hold that is given cannot be used: RELEASE, TRACKING, and HOLD_LOST to a requester that still stands (R11). -/
def releaseHeld (h : Hold) (r : Row) (stands : Bool) (w : Work) : Work :=
  let w1 := updRow r (trackWith .release) w
  if stands then answerHold r (some h) .holdLost w1 else w1

/-- HELD(row) (R11). -/
def heldReport (r : Row) (w : Work) : Work × Result :=
  let x := w.row r
  match x.state, x.hold with
  | .holdAsked, some h =>
    let w1 := updRow r (fun y => { y with state := .held, holdTimer := none }) w
    match holdTest h r w1 with
    | none => (releaseHeld h r false w1, .ok)
    | some t =>
      if t.stands && t.fits then
        let w2 := issueHoldOrder h.purpose t.robot r t.mode t.carrier t.cls w1
        (answerHold r (some h) .held (updRow r (fun y => { y with state := .occupied }) w2), .ok)
      else (releaseHeld h r t.stands w1, .ok)
  | _, _ => (w, .state)

/-- HOLD_REFUSED(row) (R12). -/
def holdRefusedReport (r : Row) (w : Work) : Work × Result :=
  let x := w.row r
  if x.state = .holdAsked then
    (answerHold r x.hold .refused (updRow r (fun y => { dropHold y with state := .tracking }) w), .ok)
  else (w, .state)

/-! ### Stow reports -/

/-- The record of a row at STOW_WANTED (Table 1-4). -/
def stowWantedRow (x : RowRec) : RowRec :=
  let y := { x with stowWanted := true }
  match x.state with
  | .tracking => clearRow false y
  | .holdAsked => clearRow false y
  | .occupied => { y with state := .stowWait }
  | .stowCleared => placeNotice (.stowClear x.lastForced) y
  | .held => y
  | .stowWait => y
  | .stowed => y
  | .locked => y

/-- STOW_WANTED(row) (R15). -/
def stowWantedReport (r : Row) (w : Work) : Work :=
  let x := w.row r
  let w1 := updRow r stowWantedRow w
  match x.state with
  | .holdAsked => answerHold r x.hold .holdLost w1
  | .occupied =>
    match occupyingRobot x with
    | some k => if (w1.robot k).state = .passing then askGoHead k .urgent w1 else w1
    | none => w1
  | _ => w1

/-- The robot a forced stow finds on a row and may strand (R17): the occupying robot, or on a LOCKED row the present robot or
the reservation's. -/
def forcedRobot (x : RowRec) : Option Slot :=
  match x.state with
  | .occupied => occupyingRobot x
  | .stowWait => occupyingRobot x
  | .locked => if x.present.isSome then x.present else x.incoming.map (·.robot)
  | _ => none

/-- The record of a row at FORCED_STOW (R17): the reservation of an alighting or locked row becomes presence. R17 says so for a
robot stranded while alighting and for a PARKED robot of a LOCKED row; for a robot in FAULT or LOST that holds the reservation of
a LOCKED row, which becomes STRANDED, the model does the same (DEDUCED, log entry 50). -/
def forcedStowRow (x : RowRec) : RowRec :=
  let alighting := x.hold.map (·.purpose) = some .alight
  let y := if (alighting ∧ (x.state = .occupied ∨ x.state = .stowWait)) ∨ x.state = .locked then enterReserved x else x
  stowRow { y with stowWanted := true }

/-- FORCED_STOW(row) (R17). -/
def forcedStowReport (r : Row) (w : Work) : Work :=
  let x := w.row r
  let w1 := updRow r forcedStowRow w
  if x.state = .holdAsked then answerHold r x.hold .holdLost w1
  else
    match forcedRobot x with
    | none => w1
    | some k =>
      let prev := (w1.robot k).state
      if prev = .parked then w1
      else robotStranded k prev (postStranded k .forcedStow (strandRobot k w1))

/-- STOWED(row) (R17, R18). -/
def stowedReport (r : Row) (w : Work) : Work :=
  if (w.row r).state = .stowCleared then updRow r stowRow w else forcedStowReport r w

/-- The record of a row at UNSTOWED (Table 1-5). A row reserved STORM takes no standing clearance (R21). -/
def unstowedRow (storm : Bool) (x : RowRec) : RowRec :=
  let y := { x with stowWanted := false }
  match x.state with
  | .stowCleared => if standingFor storm x then clearRow false y else { y with state := .tracking }
  | .stowed => if standingFor storm x then clearRow false y else { y with state := .tracking }
  | .stowWait => if storm then y else { y with state := .occupied }
  | .locked => y
  | .tracking => y
  | .holdAsked => y
  | .held => y
  | .occupied => y

/-- UNSTOWED(row) (R18). -/
def unstowedReport (r : Row) (w : Work) : Work × Result :=
  let x := w.row r
  (updRow r (unstowedRow (stormOn w.wxm.weather)) w,
    if x.state ∈ [RowState.tracking, .holdAsked, .held, .occupied] then .state else .ok)

end Sys2Proof.Machine
end

