-- ==== Sys2Proof/Machine/Wxm.lean ====
section
/-! DEFINITION. The Weather Monitor: samples, declarations and silence, the weather transitions, storm alightings,
the parking deadline and the release (chapter 7). -/

namespace Sys2Proof.Machine

/-! ### The weather transitions (R143, R151, R152) -/

/-- Every storm alighting is removed (R147). -/
def removeAlights (w : Work) : Work := (indices 4).foldl (fun v c => removeAlight c v) w

/-- The last sample is below the watch threshold. -/
def belowWatch (x : Wxm) : Bool :=
  match x.lastSample with
  | some v => decide (v < x.watchAt)
  | none => false

/-- The quiet timer stops at the entry to WATCH, and starts at once when the last sample is below the threshold (R143). -/
def watchQuiet (w : Work) : Work :=
  { w with wxm := { w.wxm with quietTimer := if belowWatch w.wxm then some w.now else none } }

/-- CALM to WATCH (R143). -/
def enterWatch (cause : StormCause) (w : Work) : Work := watchRound (watchQuiet (changeWeather .watch cause w))

/-- PARKING or SECURED to WATCH (R151, R152). -/
def leaveStorm (w : Work) : Work :=
  let w1 := changeWeather .watch .released w
  let w2 : Work := { w1 with wxm := { w1.wxm with deadlineTimer := none, releaseTimer := none } }
  arbitrateAll (removeAlights (watchQuiet w2))

/-- WATCH to CALM (R143): the RSC is told, with the assignment pass of a round that resumes or is built, and then the TXS. -/
def returnCalm (w : Work) : Work :=
  let w1 := changeWeather .calm .quiet w
  arbitrateAll (resumeRound { w1 with wxm := { w1.wxm with quietTimer := none } })

/-! ### Storm entry (R144 to R146) -/

/-- GO_HEAD, URGENT, for every robot in PASSING or RETURNING (R146). -/
def orderGoHeads (w : Work) : Work :=
  ((indices 32).filter (fun k => decide ((w.robot k).state ∈ [RobotState.passing, .returning]))).foldl
    (fun v k => askGoHead k .urgent v) w

/-- Work whose changes of state make no secured test: it is left to the end (R144, R149). -/
def untested (f : Work → Work) (w : Work) : Work := { f { w with entering := true } with entering := false }

/-- Steps 2 to 6 of the entry to PARKING (R144). -/
def parkingSteps (w : Work) : Work :=
  abortRound (stormEntryTxs (orderGoHeads (standingClearance (chooseStormTargets w))))

/-- The entry to PARKING (R144). The secured test is step 7, at its end. -/
def enterParking (cause : StormCause) (w : Work) : Work :=
  let w1 := changeWeather .parking cause
    { w with wxm := { w.wxm with quietTimer := none, releaseTimer := none, deadlineTimer := some w.now } }
  securedTest (tell (untested parkingSteps w1))

/-! ### Inputs (R138 to R142) -/

/-- A timer that is started if it is stopped and left running otherwise. -/
def startedAt (now : Time) (timer : Option Time) : Option Time :=
  match timer with
  | some t => some t
  | none => some now

/-- In PARKING and SECURED the storm condition is judged (R139, R151): the release timer stops while it is present and starts
when it is absent. -/
def judgeRelease (w : Work) : Work :=
  let timer := if stormCondition w.wxm then none else startedAt w.now w.wxm.releaseTimer
  { w with wxm := { w.wxm with releaseTimer := timer } }

/-- The comparisons of the last sample with the thresholds (R139); `atWatch` and `atStorm` are the causes the records carry. -/
def compareSample (atWatch atStorm : StormCause) (w : Work) : Work :=
  match w.wxm.lastSample with
  | none => w
  | some v =>
    match w.wxm.weather with
    | .calm =>
      if w.wxm.stormAt ≤ v then enterParking atStorm w
      else if w.wxm.watchAt ≤ v then enterWatch atWatch w
      else w
    | .watch =>
      if w.wxm.stormAt ≤ v then enterParking atStorm w
      else if w.wxm.watchAt ≤ v then { w with wxm := { w.wxm with quietTimer := none } }
      else { w with wxm := { w.wxm with quietTimer := startedAt w.now w.wxm.quietTimer } }
    | .parking => judgeRelease w
    | .secured => judgeRelease w

/-- WIND(speed) (R139). -/
def windSample (speed : Nat) (w : Work) : Work × Result :=
  let w1 : Work :=
    { w with wxm := { w.wxm with lastSample := some (min 600 speed), silenceStart := w.now, silenceExpired := false } }
  (compareSample .gust .stormWind w1, if 600 < speed then .clamped else .ok)

/-- The storm condition has become present: in CALM or WATCH the weather state enters PARKING, and otherwise the release timer
stops (R140, R141). -/
def conditionPresent (cause : StormCause) (w : Work) : Work :=
  if stormOn w.wxm.weather then { w with wxm := { w.wxm with releaseTimer := none } } else enterParking cause w

/-- STORM_DECLARE (R140). -/
def stormDeclare (w : Work) : Work × Result :=
  if w.wxm.declared then (w, .state)
  else (conditionPresent .declared { w with wxm := { w.wxm with declared := true } }, .ok)

/-- STORM_CANCEL (R140). -/
def stormCancel (w : Work) : Work × Result :=
  if w.wxm.declared then
    let w1 : Work := { w with wxm := { w.wxm with declared := false } }
    (if stormOn w1.wxm.weather then judgeRelease w1 else w1, .ok)
  else (w, .state)

/-- The silence timer expires (R141). -/
def expireWindSilence (w : Work) : Work :=
  if w.wxm.silenceExpired = false ∧ due w.now (some w.wxm.silenceStart) w.wxm.windSilence = true then
    conditionPresent .silence { w with wxm := { w.wxm with silenceExpired := true } }
  else w

/-- The quiet timer expires (R143). -/
def expireQuiet (w : Work) : Work :=
  if w.wxm.weather = .watch ∧ due w.now w.wxm.quietTimer w.wxm.releaseHold = true ∧ stormCondition w.wxm = false ∧
      belowWatch w.wxm = true then
    returnCalm w
  else w

/-- The release timer expires (R151). -/
def expireRelease (w : Work) : Work :=
  if stormOn w.wxm.weather = true ∧ due w.now w.wxm.releaseTimer w.wxm.releaseHold = true ∧
      stormCondition w.wxm = false then
    leaveStorm w
  else w

/-! ### Storm alightings (R147) -/

/-- The conditions of a storm alighting at a carrier: the robot aboard and the storm target it stands at. -/
def alightWanted (w : Work) (c : CarrierIx) : Option (Slot × Row) :=
  let x := w.carrier c
  if w.wxm.weather = .parking ∧ x.state = .halted then
    match x.load, x.task.bind w.request? with
    | some k, some q =>
      match q.legTarget with
      | some t =>
        if q.cls = .storm ∧ q.robot = k ∧ (w.robot k).state = .aboard ∧ standsAt x t = true then some (k, t) else none
      | none => none
    | _, _ => none
  else none

/-- Set the storm alighting of a carrier. -/
def setAlight (c : CarrierIx) (a : Option StormAlight) (w : Work) : Work :=
  { w with wxm := { w.wxm with alights := tset w.wxm.alights c a } }

/-- A storm alighting is created and its hold asked (R147); one created again keeps its ask count, and asks while that is
below 3. -/
def createAlight (c : CarrierIx) (k : Slot) (r : Row) (w : Work) : Work :=
  let kept := tget w.wxm.askKept c
  let asks := min 3 (kept + 1)
  let w1 := setAlight c (some { robot := k, row := r, asks := asks, retry := none }) w
  if kept < 3 then askHold (.storm k) .alight k r w1 else w1

/-- The WXM keeps the storm alighting of a carrier: it creates it when its conditions come to hold and removes it when they
cease (R147). -/
def syncAlight (w : Work) (c : CarrierIx) : Work :=
  match tget w.wxm.alights c, alightWanted w c with
  | none, none => w
  | none, some (k, r) => createAlight c k r w
  | some _, none => removeAlight c w
  | some a, some (k, r) => if a.robot = k ∧ a.row = r then w else createAlight c k r (removeAlight c w)

/-- The carrier whose storm alighting is of a robot on a row. -/
def alightOf (w : Work) (k : Slot) (r : Row) : Option CarrierIx :=
  (indices 4).find? (fun c =>
    match tget w.wxm.alights c with
    | some a => decide (a.robot = k) && decide (a.row = r)
    | none => false)

/-- The RAC answers storm parking's hold (R147). -/
def stormAnswer (k : Slot) (r : Row) (ans : HoldAnswer) (w : Work) : Work :=
  match alightOf w k r with
  | none => w
  | some c =>
    match tget w.wxm.alights c with
    | none => w
    | some a =>
      match ans with
      | .held =>
        let w1 := setAlight c none w
        { w1 with wxm := { w1.wxm with askKept := tset w1.wxm.askKept c a.asks } }
      | _ => if a.asks < 3 then setAlight c (some { a with retry := some w.now }) w else w

/-- The retry of a storm alighting's hold (R147). -/
def expireAlightRetry (c : CarrierIx) (w : Work) : Work :=
  match tget w.wxm.alights c with
  | none => w
  | some a =>
    if due w.now a.retry Config.alightRetry then
      askHold (.storm a.robot) .alight a.robot a.row
        (setAlight c (some { a with asks := min 3 (a.asks + 1), retry := none }) w)
    else w

/-! ### The deadline (R149) -/

/-- The record of a row at the parking deadline (Table 1-7). -/
def deadlineRow (x : RowRec) : RowRec :=
  match x.state with
  | .occupied =>
    clearRow true (if x.hold.map (·.purpose) = some .alight then enterReserved x else x)
  | .stowWait =>
    clearRow true (if x.hold.map (·.purpose) = some .alight then enterReserved x else x)
  | .holdAsked => clearRow true x
  | .tracking => if stormReserved x then clearRow false { x with incoming := none } else x
  | _ => x

/-- The robots a list of rows gives by a rule, in the rows' order. -/
def slotsOf (rows : List Row) (f : Row → Option Slot) : List Slot := rows.filterMap f

/-- The robots on rows in OCCUPIED or STOW_WAIT (R149, step 1). -/
def deadlineRobots (w : Work) : List Slot :=
  slotsOf ((indices 256).filter (fun r => decide ((w.row r).state ∈ [RowState.occupied, .stowWait])))
    (fun r => occupyingRobot (w.row r))

/-- The robots whose STORM reservation on a row in TRACKING the deadline frees (R149, Table 1-7). -/
def deadlineFreed (w : Work) : List Slot :=
  slotsOf ((indices 256).filter (fun r => decide ((w.row r).state = .tracking) && stormReserved (w.row r)))
    (fun r => (w.row r).incoming.map (·.robot))

/-- Every row takes Table 1-7, and each requester of a hold asked is told HOLD_LOST (R149). -/
def deadlineRows (w : Work) : Work :=
  ((indices 256).filter (fun r => decide ((w.row r).state = .holdAsked))).foldl
    (fun v r => answerHold r (w.row r).hold .holdLost v) (updAllRows (fun _ => deadlineRow) w)

/-- Several robots become STRANDED, one after another. -/
def strandAll (l : List Slot) (w : Work) : Work := l.foldl (fun v k => strandRobot k v) w

/-- The robots in ABOARD, ascending. -/
def aboardRobots (w : Work) : List Slot := (indices 32).filter (fun k => decide ((w.robot k).state = .aboard))

/-- The STRANDED records, the TXS's part and the end of every storm alighting (R149). -/
def deadlineEnd (out freed : List Slot) (w : Work) : Work :=
  removeAlights (deadlineTxs out freed (out.foldl (fun v k => postStranded k .deadline v) w))

/-- The parking deadline before the weather state changes (R149). -/
def deadlineWork (w : Work) : Work :=
  let w2 := strandAll (deadlineRobots w) (deadlineRows w)
  deadlineEnd ((indices 32).filter (fun k => decide (k ∈ deadlineRobots w) || decide (k ∈ aboardRobots w2)))
    (deadlineFreed w) (strandAll (aboardRobots w2) w2)

/-- The deadline timer expires (R149). SECURED is entered at its end, not by a test. -/
def expireDeadline (w : Work) : Work :=
  if w.wxm.weather = .parking ∧ due w.now w.wxm.deadlineTimer w.wxm.parkingDeadline = true then
    let v := untested deadlineWork w
    changeWeather .secured .deadline { v with wxm := { v.wxm with deadlineTimer := none } }
  else w

end Sys2Proof.Machine
end

