-- ==== Sys2Proof/Machine/Cascade.lean ====
section
/-! DEFINITION. How an event ends: the messages between the blocks are taken one after another, then a due assignment pass is
made, then the storm alightings are kept. -/

namespace Sys2Proof.Machine

/-- A block takes a message. An assignment pass made for a build or a resumption is the pass that was due before it, too. -/
def takeMsg (m : Msg) (w : Work) : Work :=
  match m with
  | .holdAnswer (.entry n p) row _ a => entryAnswer n p row a w
  | .holdAnswer (.request seq) row purpose a => requestAnswer seq row purpose a w
  | .holdAnswer (.storm k) row _ a => stormAnswer k row a w
  | .rowFreed row => rowFreed row w
  | .arbitrate c => arbitrate c w
  | .entryGone n p k => entryGone n p k w
  | .entryStranded n p k => entryStranded n p k w
  | .entryPass n p k complete => entryPass n p k complete w
  | .entryRefused n p k => entryRefused n p k w
  | .entryOutcome n p k outcome => entryOutcome n p k outcome w
  | .testRound => testRound w
  | .assignPass => assignmentPass { w with passDue := false }
  | .withdraw q row => cancelHold q row w

/-- The WXM keeps the storm alighting of every carrier (R147). -/
def keepAlights (w : Work) : Work := (indices 4).foldl syncAlight w

/-- One step of an event's cascade: the oldest message, else a due pass, else the storm alightings after a change; none when
nothing is left. -/
def cascadeStep (w : Work) : Option Work :=
  match w.agenda with
  | m :: rest => some (takeMsg m { w with agenda := rest })
  | [] =>
    if w.passDue then some (assignmentPass { w with passDue := false })
    else if w.told then some (keepAlights { w with told := false })
    else none

/-- The cascade of an event. The first argument bounds its length (DESIGN CHOICE, log entry 3). -/
def cascade : Nat → Work → Work
  | 0, w => w
  | n + 1, w =>
    match cascadeStep w with
    | none => w
    | some v => cascade n v

/-- The event runs to its end. -/
def settle (w : Work) : Work :=
  let v := cascade Config.cascadeLimit w
  { v with agenda := [], passDue := false, told := false, entering := false }

/-- The state after an event that begins with an effect. -/
def runEvent (f : Work → Work) (s : State) : State := (settle (f s.work)).toState

end Sys2Proof.Machine
end

