-- ==== Sys2Proof/Machine/Expiry.lean ====
section
/-! DEFINITION. The timers of the block: which are due, and what the expiry of each does. -/

namespace Sys2Proof.Machine

/-- A timer of the block. -/
inductive Timer where
  | hold (row : Row)
  | accept (unit : FleetUnit)
  | silence (slot : Slot)
  | travel (c : CarrierIx)
  | dropRetry (seq : Half)
  | park (c : CarrierIx)
  | period
  | limit
  | wind
  | quiet
  | release
  | deadline
  | alightRetry (c : CarrierIx)
  | stale
deriving DecidableEq, Repr

/-- The command of the table that is the expiry of a timer. -/
def Timer.command (t : Timer) : Instr :=
  match t with
  | .hold row => .holdTimeout row
  | .accept unit => .acceptTimeout unit
  | .silence slot => .robotSilenceTimeout slot
  | .travel c => .travelTimeout c
  | .dropRetry seq => .dropRetryTimeout seq
  | .park c => .parkDelayTimeout c
  | .period => .periodTimeout
  | .limit => .timeLimitTimeout
  | .wind => .windSilenceTimeout
  | .quiet => .quietTimeout
  | .release => .releaseTimeout
  | .deadline => .parkingDeadline
  | .alightRetry c => .stormAlightRetry c
  | .stale => .staleExpiry

/-- The stale condition of the head record comes to hold: the attention is judged (R174, R175). -/
def expireStale (w : Work) : Work := judgePlant w

/-- The expiry of a timer. Each acts only when its timer runs and has reached its setting (log entry 2). -/
def expire (t : Timer) (w : Work) : Work :=
  match t with
  | .hold row => expireHold row w
  | .accept unit => expireAcceptTimer unit w
  | .silence slot => expireSilence slot w
  | .travel c => expireTravel c w
  | .dropRetry seq => expireRetry seq w
  | .park c => expirePark c w
  | .period => expirePeriod w
  | .limit => expireLimit w
  | .wind => expireWindSilence w
  | .quiet => expireQuiet w
  | .release => expireRelease w
  | .deadline => expireDeadline w
  | .alightRetry c => expireAlightRetry c w
  | .stale => expireStale w

/-! ### Which timers are due -/

/-- Rows whose hold timer is due (R10). -/
def dueHolds (s : State) : List Timer :=
  ((indices 256).filter (fun r =>
    decide ((tget s.rac.rows r).state = .holdAsked) && due s.now (tget s.rac.rows r).holdTimer s.rac.holdTimeout)).map
      Timer.hold

/-- A unit's accept timer is due (R39). -/
def acceptDue (s : State) (x : UnitOrders) : Bool :=
  match x.slot with
  | some o => decide (o.status = .sent) && due s.now o.acceptTimer s.fou.acceptTimeout
  | none => false

/-- Units whose accept timer is due: robots, then carriers. -/
def dueAccepts (s : State) : List Timer :=
  ((indices 32).filter (fun k => acceptDue s (tget s.fou.robots k).orders)).map (fun k => Timer.accept (.robot k)) ++
    ((indices 4).filter (fun c => acceptDue s (tget s.fou.carrierOrders c))).map (fun c => Timer.accept (.carrier c))

/-- Robots whose silence timer is due (R48). -/
def dueSilences (s : State) : List Timer :=
  ((indices 32).filter (fun k =>
    silenceRuns (tget s.fou.robots k) &&
      due s.now (some (tget s.fou.robots k).lastReport) s.fou.silenceTimeout)).map Timer.silence

/-- The travel timer of a carrier has reached its timeout (R75). -/
def travelDue (s : State) (x : Carrier) : Bool :=
  match x.travelTimer with
  | some (t, d) => decide (s.txs.secondsPerRow * d + s.txs.travelSlack ≤ elapsed s.now t) && decide (x.state ≠ .halted)
  | none => false

/-- Carriers whose travel timer is due. -/
def dueTravels (s : State) : List Timer :=
  ((indices 4).filter (fun c => travelDue s (tget s.txs.carriers c))).map Timer.travel

/-- Requests whose retry timer is due (R72). -/
def dueRetries (s : State) : List Timer :=
  (s.txs.pool.filter (fun q => due s.now q.retry Config.alightRetry)).map (fun q => Timer.dropRetry q.seq)

/-- Carriers whose park timer is due (R80). -/
def dueParks (s : State) : List Timer :=
  ((indices 4).filter (fun c =>
    let x := tget s.txs.carriers c
    decide (x.state = .idle) && x.task.isNone && x.load.isNone && decide (s.txs.parkDelay ≠ 0) &&
      due s.now x.idleStart s.txs.parkDelay)).map Timer.park

/-- Whether the one timer named is listed. -/
def when (b : Bool) (t : Timer) : List Timer := if b then [t] else []

/-- The timers of the weather that run under the release hold and are due (R143, R151). -/
def dueReleases (s : State) : List Timer :=
  when (decide (s.wxm.weather = .watch) && due s.now s.wxm.quietTimer s.wxm.releaseHold &&
      !stormCondition s.wxm && belowWatch s.wxm) .quiet ++
    when (stormOn s.wxm.weather && due s.now s.wxm.releaseTimer s.wxm.releaseHold && !stormCondition s.wxm) .release

/-- The wind silence timer is due (R141). -/
def dueWind (s : State) : List Timer :=
  when (!s.wxm.silenceExpired && due s.now (some s.wxm.silenceStart) s.wxm.windSilence) .wind

/-- The deadline timer is due (R149). -/
def dueDeadline (s : State) : List Timer :=
  when (decide (s.wxm.weather = .parking) && due s.now s.wxm.deadlineTimer s.wxm.parkingDeadline) .deadline

/-- Storm alightings whose retry is due (R147). -/
def dueAlights (s : State) : List Timer :=
  ((indices 4).filter (fun c =>
    match tget s.wxm.alights c with
    | some a => due s.now a.retry Config.alightRetry
    | none => false)).map Timer.alightRetry

/-- Every due timer, in the order in which the model takes them (DESIGN CHOICE, log entry 1). -/
def dueTimers (s : State) : List Timer :=
  dueHolds s ++ dueAccepts s ++ dueSilences s ++ dueTravels s ++ dueRetries s ++ dueParks s ++
    when (dueLen s.now s.rsc.periodTimer) .period ++
    when (dueLen s.now s.rsc.limitTimer && decide (s.rsc.state = .active ∨ s.rsc.state = .suspended)) .limit ++
    dueWind s ++ dueReleases s ++ dueDeadline s ++ dueAlights s ++
    when (stale s.now s.rpq && !s.rpq.attention) .stale

/-- Timers that are due expire one after another, each with its own cascade (R54). -/
def expireAll (ts : List Timer) (w : Work) : Work := ts.foldl (fun v t => settle (expire t v)) w

end Sys2Proof.Machine
end

