-- ==== Sys2Proof/Machine/Copies.lean ====
section
/-! DEFINITION. The byte forms of what the ports shift out: the codes of Table 11-1, the record copies of R187 and the report
records of R190. -/

namespace Sys2Proof.Machine

/-! ### Numbers, flags and optional values (R187) -/

/-- The lowest n bytes of a number, most significant first. -/
def numBytes : Nat → Nat → List Byte
  | 0, _ => []
  | n + 1, v => numBytes n (v / 256) ++ [BitVec.ofNat 8 v]

/-- A one-byte number or code. -/
def b1 (v : Nat) : List Byte := numBytes 1 v

/-- A two-byte number. -/
def b2 (v : Nat) : List Byte := numBytes 2 v

/-- A flag (R187). -/
def bFlag (b : Bool) : List Byte := b1 (if b then 1 else 0)

/-- An optional row: FFFFh when absent. -/
def bRow? (r : Option Row) : List Byte :=
  match r with
  | some r => b2 r.val
  | none => b2 0xFFFF

/-- A carrier's position: FFFEh means GARAGE. -/
def bPos (p : CarrierPos) : List Byte :=
  match p with
  | .row r => b2 r.val
  | .garage => b2 0xFFFE

/-- An optional slot or carrier: FFh when absent. -/
def bIx? {n : Nat} (x : Option (Fin n)) : List Byte :=
  match x with
  | some i => b1 i.val
  | none => b1 0xFF

/-- An optional value with its presence byte; `width` is the number of its bytes, given as 0 when absent. -/
def bOpt {α : Type} (width : Nat) (f : α → List Byte) (x : Option α) : List Byte :=
  match x with
  | some a => b1 1 ++ f a
  | none => b1 0 ++ List.replicate width 0#8

/-- A time. -/
def bTime (t : Time) : List Byte := numBytes 4 t.toNat

/-- A two-byte quantity that wraps. -/
def bHalf (h : Half) : List Byte := b2 h.toNat

/-! ### Codes (Table 11-1) -/

def RowState.code (x : RowState) : Nat :=
  match x with
  | .tracking => 0
  | .holdAsked => 1
  | .held => 2
  | .occupied => 3
  | .stowWait => 4
  | .stowCleared => 5
  | .stowed => 6
  | .locked => 7

def RobotState.code (x : RobotState) : Nat :=
  match x with
  | .empty => 0
  | .parked => 1
  | .passing => 2
  | .returning => 3
  | .boarding => 4
  | .aboard => 5
  | .alighting => 6
  | .fault => 7
  | .lost => 8
  | .stranded => 9

def Position.code (x : Position) : Nat :=
  match x with
  | .docked => 0
  | .onTable => 1
  | .onCarrier => 2

def CarrierState.code (x : CarrierState) : Nat :=
  match x with
  | .absent => 0
  | .garaged => 1
  | .idle => 2
  | .toPickup => 3
  | .loading => 4
  | .toDrop => 5
  | .unloading => 6
  | .toGarage => 7
  | .halted => 8

def FreezeState.code (x : FreezeState) : Nat :=
  match x with
  | .running => 0
  | .freezeAsked => 1
  | .frozen => 2

def RoundState.code (x : RoundState) : Nat :=
  match x with
  | .none => 0
  | .active => 1
  | .suspended => 2
  | .draining => 3

def Weather.code (x : Weather) : Nat :=
  match x with
  | .calm => 0
  | .watch => 1
  | .parking => 2
  | .secured => 3

def StormCause.code (x : StormCause) : Nat :=
  match x with
  | .gust => 0
  | .stormWind => 1
  | .declared => 2
  | .silence => 3
  | .threshold => 4
  | .quiet => 5
  | .drained => 6
  | .deadline => 7
  | .released => 8

def EntryState.code (x : EntryState) : Nat :=
  match x with
  | .waiting => 0
  | .assigned => 1
  | .holding => 2
  | .passing => 3
  | .doneFull => 4
  | .donePart => 5
  | .skipped => 6

def SkipReason.code (x : SkipReason) : Nat :=
  match x with
  | .refused => 0
  | .timeout => 1
  | .excluded => 2
  | .stowed => 3
  | .fault => 4
  | .time => 5
  | .storm => 6
  | .noRobot => 7

/-- The codes of Table 6-1, NONE first. -/
def RoundOutcome.code (x : RoundOutcome) : Nat :=
  match x with
  | .none => 0
  | .complete => 1
  | .empty => 2
  | .timed => 3
  | .stopped => 4
  | .aborted => 5

def FinalClass.code (x : FinalClass) : Nat :=
  match x with
  | .normal => 0
  | .service => 1
  | .stow => 2
  | .excluded => 3
  | .outage => 4
  | .nodata => 5

/-- The class accumulator is coded as in the final class. -/
def RowClass.code (x : RowClass) : Nat :=
  match x with
  | .normal => 0
  | .service => 1
  | .stow => 2
  | .excluded => 3

def ReqClass.code (x : ReqClass) : Nat :=
  match x with
  | .routine => 0
  | .relocate => 1
  | .storm => 2

def ReqOutcome.code (x : ReqOutcome) : Nat :=
  match x with
  | .delivered => 0
  | .relocated => 1
  | .stopped => 2
  | .refused => 3
  | .failed => 4
  | .dropped => 5

def Mode.code (x : Mode) : Nat :=
  match x with
  | .skip => 0
  | .dry => 1
  | .deep => 2

def TriggerSource.code (x : TriggerSource) : Nat :=
  match x with
  | .off => 0
  | .period => 1
  | .dayClose => 2

def BankId.code (x : BankId) : Nat :=
  match x with
  | .a => 0
  | .b => 1

def Result.code (x : Result) : Nat :=
  match x with
  | .ok => 0
  | .clamped => 1
  | .role => 2
  | .range => 3
  | .state => 4
  | .full => 5
  | .unknown => 6
  | .incomplete => 7

/-- Order kinds, NONE first (Table 2-3). -/
def OrderName.code (x : OrderName) : Nat :=
  match x with
  | .pass => 1
  | .goHead => 2
  | .board => 3
  | .alight => 4
  | .travel => 5
  | .park => 6

def ResKind.code (x : ResKind) : Nat :=
  match x with
  | .final => 0
  | .leg => 1
  | .storm => 2

def Purpose.code (x : Purpose) : Nat :=
  match x with
  | .pass => 0
  | .board => 1
  | .alight => 2

def OrderClass.code (x : OrderClass) : Nat :=
  match x with
  | .routine => 0
  | .urgent => 1

def OrderStatus.code (x : OrderStatus) : Nat :=
  match x with
  | .queued => 0
  | .sent => 1
  | .accepted => 2

def Direction.code (x : Direction) : Nat :=
  match x with
  | .up => 0
  | .down => 1

def StrandCause.code (x : StrandCause) : Nat :=
  match x with
  | .deadline => 0
  | .forcedStow => 1

/-! ### Notices and orders (Table 11-3) -/

/-- The kind and qualifier of a notice; NONE where there is none. -/
def noticeBytes (n : Option Notice) : List Byte :=
  match n with
  | none => b1 0 ++ b1 0
  | some (.holdAsk p) => b1 1 ++ b1 p.code
  | some .withdraw => b1 2 ++ b1 0
  | some .release => b1 3 ++ b1 0
  | some (.stowClear forced) => b1 4 ++ bFlag forced

/-- The unit byte of an order. -/
def unitByte (u : FleetUnit) : List Byte :=
  match u with
  | .robot k => b1 k.val
  | .carrier c => b1 (0x20 + c.val)

/-- The kind byte and the two parameter bytes of an order. -/
def kindBytes (k : OrderKind) : List Byte :=
  match k with
  | .pass row mode => b1 1 ++ b1 row.val ++ b1 mode.code
  | .goHead => b1 2 ++ b1 0 ++ b1 0
  | .board c => b1 3 ++ b1 c.val ++ b1 0
  | .alight row => b1 4 ++ b1 row.val ++ b1 0
  | .travel row => b1 5 ++ b1 row.val ++ b1 0
  | .park => b1 6 ++ b1 0 ++ b1 0

/-- A TAKE_ORDER copy (Table 11-3). -/
def orderCopy (u : FleetUnit) (tag : Byte) (k : OrderKind) : List Byte := unitByte u ++ [tag] ++ kindBytes k

/-- The TAKE_ORDER copy of an empty queue: kind NONE with unit FFh. Its tag byte is not stated and is a free value
(log entry 8). -/
def noOrderCopy (free : Nat) : List Byte := b1 0xFF ++ [Config.freeByte free] ++ b1 0 ++ b1 0 ++ b1 0

/-- A hold requester or the identity held with the hold attempts (R187). -/
def requesterBytes (q : Option Requester) : List Byte :=
  match q with
  | none => b1 0 ++ b2 0 ++ b1 0
  | some (.entry n pos) => b1 1 ++ bHalf n ++ b1 pos
  | some (.request seq) => b1 2 ++ bHalf seq ++ b1 0
  | some (.storm k) => b1 3 ++ b2 0 ++ b1 k.val

/-- A task link (R187). -/
def linkBytes (x : Option TaskLink) : List Byte :=
  match x with
  | none => b1 0 ++ b2 0 ++ b1 0
  | some (.entry n pos) => b1 1 ++ bHalf n ++ b1 pos
  | some (.request seq) => b1 2 ++ bHalf seq ++ b1 0

/-! ### READ_ROW (Table 1-1, R98) -/

/-- The fields of a row record. -/
def rowBytes (x : RowRec) : List Byte :=
  b1 x.zone.val ++ b2 x.capacity ++ b1 x.length ++ bFlag x.reference ++ bFlag x.excluded ++ b1 x.state.code ++
    bIx? x.present ++ bOpt 2 (fun r : Reservation => b1 r.robot.val ++ b1 r.kind.code) x.incoming ++
    bFlag x.stowWanted ++ requesterBytes (x.hold.map (·.by_)) ++
    b1 ((x.hold.map (fun h => h.purpose.code)).getD 0) ++
    b1 x.attempts ++ requesterBytes x.attemptsBy ++ bOpt 4 bTime x.holdTimer ++
    bOpt 2 (fun n => noticeBytes (some n)) x.notice ++ b1 x.acc.code

/-- A READ_ROW copy: the row record, then the ratio, the last-clean day, the day counter and Y_day. -/
def readRowCopy (x : RowRec) (s : SeuRow) (day : Half) (yDay : Nat) : List Byte :=
  rowBytes x ++ b2 s.ratio ++ bOpt 2 bHalf s.lastClean ++ bHalf day ++ b2 yDay

/-! ### READ_ROBOT (Table 2-1) -/

/-- A robot's fault cause. -/
def causeBytes (x : RobotCause) : List Byte :=
  match x with
  | .none => b2 0xFFFF
  | .code c => b2 c.toNat
  | .mismatch => b2 0x0100
  | .refused => b2 0x0101

/-- The order in a robot's slot: as in Table 11-3, then its class, status and send attempts. -/
def slotBytes (k : Slot) (o : Order) : List Byte :=
  orderCopy (.robot k) o.tag o.kind ++ b1 o.cls.code ++ b1 o.status.code ++ b1 o.attempts

/-- A waiting successor: it has no tag, status or send attempts, and those three bytes are free values (log entry 8). -/
def successorBytes (k : Slot) (free : Nat) (x : Successor) : List Byte :=
  orderCopy (.robot k) (Config.freeByte free) x.kind ++ b1 x.cls.code ++
    [Config.freeByte (free + 1), Config.freeByte (free + 2)]

/-- A READ_ROBOT copy. -/
def readRobotCopy (k : Slot) (free : Nat) (x : Robot) : List Byte :=
  bHalf x.serial ++ b1 x.state.code ++ b1 x.position.code ++ bRow? x.row ++ bIx? x.carrier ++ bFlag x.unconfirmed ++
    causeBytes x.cause ++ b1 x.highest ++ b1 x.battery ++ bTime x.lastReport ++ [x.orders.tagCounter] ++
    bOpt 2 (fun p : Byte × OrderName => [p.1] ++ b1 p.2.code) x.orders.latestSent ++
    bOpt 8 (slotBytes k) x.orders.slot ++ bOpt 8 (successorBytes k free) x.orders.successor ++ linkBytes x.link ++
    b2 x.fullPasses ++ b2 x.partPasses

/-- The free values a READ_ROBOT copy uses. -/
def robotFreeUses (x : Robot) : Nat := if x.orders.successor.isSome then 3 else 0

/-! ### READ_CARRIER (Table 3-1) -/

/-- A carrier's halt cause. -/
def haltBytes (x : HaltCause) : List Byte :=
  match x with
  | .none => b2 0xFFFF
  | .code c => b2 c.toNat
  | .timeout => b2 0x0100
  | .noAnswer => b2 0x0101

/-- A READ_CARRIER copy. -/
def readCarrierCopy (x : Carrier) : List Byte :=
  b1 x.state.code ++ bFlag x.enabled ++ bOpt 2 (fun p : Row × Row => b1 p.1.val ++ b1 p.2.val) x.span ++
    bPos x.position ++ b1 x.direction.code ++ bIx? x.load ++ bOpt 2 bHalf x.task ++
    bOpt 6 (fun p : Time × Nat => bTime p.1 ++ b2 p.2) x.travelTimer ++ bOpt 4 bTime x.idleStart ++ haltBytes x.cause

/-! ### READ_ACCOUNT (Tables 8-1 and 8-2, R165) -/

/-- The seven buckets and the saturation flag. -/
def bucketBytes (b : Buckets) : List Byte :=
  numBytes 4 b.produced ++ numBytes 4 b.expected ++ numBytes 4 b.surplus ++ numBytes 4 b.soiling ++
    numBytes 4 b.service ++ numBytes 4 b.stow ++ numBytes 4 b.outage ++ bFlag b.saturated

/-- The copy of a row account. -/
def rowAccountCopy (zone : Zone) (x : RowAccount) (full part : Nat) : List Byte :=
  b1 zone.val ++ bucketBytes x.buckets ++ b2 x.nodata ++ b2 full ++ b2 part

/-- The copy of a zone account. -/
def zoneAccountCopy (x : ZoneAccount) : List Byte := bucketBytes x.buckets ++ numBytes 4 x.recovered

/-! ### READ_PLAN (R87) -/

/-- Round parameters as in Table 11-2. -/
def roundBytes (x : RoundParams) : List Byte := b1 x.source.code ++ b2 x.period ++ b1 x.budget ++ b2 x.limit

/-- A zone policy record as in Table 11-2, without the zone number. -/
def zoneBytes (x : ZonePolicy) : List Byte :=
  b1 x.mode.code ++ b2 x.trigger ++ b2 x.pDry ++ b1 x.horizon ++ numBytes 3 x.cost ++ b1 x.minInterval ++ b1 x.gain ++
    b1 x.minBattery

/-- A READ_PLAN copy. -/
def readPlanCopy (letter front : BankId) (pending : Bool) (x : Bank) : List Byte :=
  b1 letter.code ++ b1 front.code ++ bFlag pending ++ roundBytes x.round ++
    ((indices 16).map (fun z => zoneBytes (tget x.zones z))).flatten ++ b1 x.ranges.length ++
    (x.ranges.map (fun p => b1 p.1.val ++ b1 p.2.val)).flatten

/-! ### READ_WORKLIST (R117, Table 6-3) -/

/-- An entry in the field order of Table 6-3. -/
def entryBytes (e : Entry) : List Byte :=
  b1 e.row.val ++ b1 e.mode.code ++ numBytes 4 e.score ++ b1 e.state.code ++ bIx? e.robot ++ b1 e.holdFails ++
    b1 e.transferFails ++ bOpt 1 (fun s : SkipReason => b1 s.code) e.skip

/-- A READ_WORKLIST copy. -/
def readWorklistCopy (x : Rsc) : List Byte :=
  bHalf x.number ++ b1 x.state.code ++ bFlag x.due ++ b1 x.lastOutcome.code ++ b1 x.worklist.length ++
    (x.worklist.map entryBytes).flatten

/-! ### Report records (R190, Table 11-4) -/

/-- Record kinds, NONE 0 (Table 9-1). -/
def RecordBody.kindCode (b : RecordBody) : Nat :=
  match b with
  | .intervalClosed .. => 1
  | .classMap .. => 2
  | .dayClosed .. => 3
  | .roundStarted .. => 4
  | .roundEnded .. => 5
  | .passDone .. => 6
  | .transferDone .. => 7
  | .stormState .. => 8
  | .stranded .. => 9
  | .robotLost .. => 10
  | .carrierHalted .. => 11
  | .freezeDone => 12
  | .planFlipped _ => 13
  | .overrun _ => 14

/-- The byte of the row or carrier of a STRANDED record. -/
def placeByte (p : Option StrandPlace) : List Byte :=
  match p with
  | some (.row r) => b1 r.val
  | some (.carrier c) => b1 c.val
  | none => b1 0xFF

/-- The fields of a record (Table 11-4). -/
def recordFields (b : RecordBody) : List Byte :=
  match b with
  | .intervalClosed index referenced y refs sampled =>
    bHalf index ++ bFlag referenced ++ numBytes 3 y ++ b1 refs ++ b2 sampled
  | .classMap runs more =>
    b1 runs.length ++ bFlag more ++ (runs.map (fun p => b1 p.1.code ++ b1 (p.2 - 1))).flatten
  | .dayClosed day yDay refCount => bHalf day ++ b2 yDay ++ b2 refCount
  | .roundStarted round len => bHalf round ++ b1 len
  | .roundEnded round outcome full part skipped =>
    bHalf round ++ b1 outcome.code ++ b1 full ++ b1 part ++ b1 skipped
  | .passDone row robot complete p before after =>
    b1 row.val ++ b1 robot.val ++ bFlag complete ++ b1 p ++ b2 before ++ b2 after
  | .transferDone seq robot finalRow rowNow legs cls outcome =>
    bHalf seq ++ b1 robot.val ++ b1 finalRow.val ++ bRow? rowNow ++ b1 legs ++ b1 cls.code ++ b1 outcome.code
  | .stormState prev new cause sample declared stranded =>
    b1 prev.code ++ b1 new.code ++ b1 cause.code ++ b2 (sample.getD 0xFFFF) ++ bFlag declared ++ b1 stranded
  | .stranded robot position place cause =>
    b1 robot.val ++ b1 position.code ++ placeByte place ++ b1 cause.code
  | .robotLost robot row position => b1 robot.val ++ bRow? row ++ b1 position.code
  | .carrierHalted c position load cause => b1 c.val ++ bPos position ++ bIx? load ++ haltBytes cause
  | .freezeDone => []
  | .planFlipped front => b1 front.code
  | .overrun count => b2 count

/-- A READ_REPORT copy of the head record, or of an empty queue (R173, R190). -/
def reportCopy (q : List Record) : List Byte :=
  match q with
  | h :: _ => b1 h.body.kindCode ++ bTime h.stamp ++ recordFields h.body
  | [] => b1 0 ++ numBytes 4 0

end Sys2Proof.Machine
end

