-- ==== Sys2Proof/Machine/Operands.lean ====
section
/-! DEFINITION. What the ports decode: command codes, roles, kinds, the widths of parameters, fields and entries, and the forms
of parameter bytes (R178, R185, R188, R189). -/

namespace Sys2Proof.Machine

/-! ### Command codes (R188) -/

/-- The commands in the order of their codes, from 01h. -/
def allCmds : List Cmd :=
  [.status, .freeze, .thaw, .rowmapWindow, .rowmapData, .rowExclude, .zoneWrite, .planRanges, .roundSetup, .planFlip,
   .roundStart, .roundStop, .energyOpen, .energyData, .dayClose, .stormDeclare, .stormCancel, .timingWrite,
   .arbiterWrite, .carrierSpans, .carrierEnrol, .carrierRetire, .robotEnrol, .robotRetire, .robotRecovered, .robotMove,
   .accountsClear, .readRow, .readRobot, .readCarrier, .readAccount, .readWorklist, .readPlan, .readReport,
   .takeNotice, .held, .holdRefused, .stowWanted, .stowed, .forcedStow, .unstowed, .wind,
   .takeOrder, .robotReport, .carrierReport]

/-- The value of a command byte (R188). -/
def Cmd.code (c : Cmd) : Byte :=
  match c with
  | .status => 0x01#8
  | .freeze => 0x02#8
  | .thaw => 0x03#8
  | .rowmapWindow => 0x04#8
  | .rowmapData => 0x05#8
  | .rowExclude => 0x06#8
  | .zoneWrite => 0x07#8
  | .planRanges => 0x08#8
  | .roundSetup => 0x09#8
  | .planFlip => 0x0A#8
  | .roundStart => 0x0B#8
  | .roundStop => 0x0C#8
  | .energyOpen => 0x0D#8
  | .energyData => 0x0E#8
  | .dayClose => 0x0F#8
  | .stormDeclare => 0x10#8
  | .stormCancel => 0x11#8
  | .timingWrite => 0x12#8
  | .arbiterWrite => 0x13#8
  | .carrierSpans => 0x14#8
  | .carrierEnrol => 0x15#8
  | .carrierRetire => 0x16#8
  | .robotEnrol => 0x17#8
  | .robotRetire => 0x18#8
  | .robotRecovered => 0x19#8
  | .robotMove => 0x1A#8
  | .accountsClear => 0x1B#8
  | .readRow => 0x1C#8
  | .readRobot => 0x1D#8
  | .readCarrier => 0x1E#8
  | .readAccount => 0x1F#8
  | .readWorklist => 0x20#8
  | .readPlan => 0x21#8
  | .readReport => 0x22#8
  | .takeNotice => 0x23#8
  | .held => 0x24#8
  | .holdRefused => 0x25#8
  | .stowWanted => 0x26#8
  | .stowed => 0x27#8
  | .forcedStow => 0x28#8
  | .unstowed => 0x29#8
  | .wind => 0x2A#8
  | .takeOrder => 0x2B#8
  | .robotReport => 0x2C#8
  | .carrierReport => 0x2D#8

/-- The command a byte names, or none (R178, R188). -/
def cmdOf (b : Byte) : Option Cmd := allCmds.find? (fun c => decide (c.code = b))

/-! ### Roles (R185) -/

/-- A command belongs to a port (Tables 10-2 to 10-4). -/
def Cmd.onPort (c : Cmd) (p : Port) : Bool :=
  match c, p with
  | .status, _ => true
  | .readRow, .plant => true
  | .readRow, .tracker => true
  | .readRow, .fleet => false
  | .readRobot, .plant => true
  | .readRobot, .fleet => true
  | .readRobot, .tracker => false
  | .readCarrier, .plant => true
  | .readCarrier, .fleet => true
  | .readCarrier, .tracker => false
  | .takeNotice, .tracker => true
  | .held, .tracker => true
  | .holdRefused, .tracker => true
  | .stowWanted, .tracker => true
  | .stowed, .tracker => true
  | .forcedStow, .tracker => true
  | .unstowed, .tracker => true
  | .wind, .tracker => true
  | .takeOrder, .fleet => true
  | .robotReport, .fleet => true
  | .carrierReport, .fleet => true
  | .takeNotice, _ => false
  | .held, _ => false
  | .holdRefused, _ => false
  | .stowWanted, _ => false
  | .stowed, _ => false
  | .forcedStow, _ => false
  | .unstowed, _ => false
  | .wind, _ => false
  | .takeOrder, _ => false
  | .robotReport, _ => false
  | .carrierReport, _ => false
  | _, .plant => true
  | _, .tracker => false
  | _, .fleet => false

/-! ### Kinds and widths (R178, R189, Tables 10-2 to 10-4) -/

/-- The four kinds of command (R178). -/
inductive CmdKind where
  | action
  | settings
  | stream
  | read
deriving DecidableEq, Repr

/-- The kind of a command. -/
def Cmd.kind (c : Cmd) : CmdKind :=
  match c with
  | .status => .read
  | .rowmapData => .stream
  | .planRanges => .stream
  | .energyData => .stream
  | .zoneWrite => .settings
  | .roundSetup => .settings
  | .timingWrite => .settings
  | .arbiterWrite => .settings
  | .readRow => .read
  | .readRobot => .read
  | .readCarrier => .read
  | .readAccount => .read
  | .readWorklist => .read
  | .readPlan => .read
  | .readReport => .read
  | .takeNotice => .read
  | .takeOrder => .read
  | _ => .action

/-- The number of parameter bytes of an action or a read (Tables 10-2, 10-3, R189). The count of a unit report starts with the
unit and kind bytes, and the kind's fields are added by `reportLength`. -/
def Cmd.params (c : Cmd) : Nat :=
  match c with
  | .rowmapWindow => 2
  | .rowExclude => 3
  | .roundStop => 1
  | .energyOpen => 4
  | .carrierSpans => 7
  | .carrierEnrol => 1
  | .carrierRetire => 1
  | .robotEnrol => 4
  | .robotRetire => 1
  | .robotRecovered => 3
  | .robotMove => 2
  | .readRow => 1
  | .readRobot => 1
  | .readCarrier => 1
  | .readAccount => 3
  | .readPlan => 1
  | .held => 1
  | .holdRefused => 1
  | .stowWanted => 1
  | .stowed => 1
  | .forcedStow => 1
  | .unstowed => 1
  | .wind => 2
  | .robotReport => 2
  | .carrierReport => 2
  | _ => 0

/-- The number of fields of a robot report kind, or none for a kind that names no report (Table 11-3). -/
def robotKindFields (kind : Byte) : Option Nat :=
  match kind.toNat with
  | 1 => some 1
  | 2 => some 2
  | 3 => some 1
  | 4 => some 1
  | 5 => some 1
  | 6 => some 1
  | 7 => some 1
  | 8 => some 0
  | 9 => some 1
  | 10 => some 0
  | _ => none

/-- The number of fields of a carrier report kind (Table 11-3). -/
def carrierKindFields (kind : Byte) : Option Nat :=
  match kind.toNat with
  | 1 => some 1
  | 2 => some 1
  | 3 => some 0
  | 4 => some 1
  | 5 => some 0
  | _ => none

/-- The fields of a report kind of a command that is a unit report; none for a kind that names no report (R178). -/
def kindFields (c : Cmd) (kind : Byte) : Option Nat :=
  match c with
  | .robotReport => robotKindFields kind
  | .carrierReport => carrierKindFields kind
  | _ => some 0

/-- Bytes of one entry of a stream (Table 11-2). -/
def Cmd.entryWidth (c : Cmd) : Nat :=
  match c with
  | .rowmapData => 4
  | .planRanges => 2
  | .energyData => 2
  | _ => 1

/-- The widths of the fields of a settings command (Table 11-2). -/
def Cmd.fieldWidths (c : Cmd) : List Nat :=
  match c with
  | .zoneWrite => [1, 1, 2, 2, 1, 3, 1, 1, 1]
  | .roundSetup => [1, 2, 1, 2]
  | .arbiterWrite => [1, 1, 1, 1, 1, 1]
  | .timingWrite => [2, 1, 2, 1, 1, 2, 2, 2, 2, 2, 1, 2, 1, 1]
  | _ => []

/-! ### Values (section 1.5, R188) -/

/-- A quantity of several bytes, most significant byte first. -/
def bytesNat (bs : List Byte) : Nat := bs.foldl (fun v b => v * 256 + b.toNat) 0

/-- A two-byte quantity. -/
def half (a b : Byte) : Half := BitVec.ofNat 16 (bytesNat [a, b])

/-- A received flag: clear when 00h, set otherwise (R188). -/
def flagIn (b : Byte) : Bool := decide (b ≠ 0#8)

/-- A bound of CARRIER_SPANS: NONE, a row number, or none for a value out of range (R188). -/
def boundIn (a b : Byte) : Option (Option Nat) :=
  let v := bytesNat [a, b]
  if v = 0xFFFF then some none else if v < 256 then some (some v) else none

/-- The row of ROBOT_RECOVERED: REMOVED, a row, or none for a value out of range (R188). -/
def recoveredIn (a b : Byte) : Option (Option Row) :=
  let v := bytesNat [a, b]
  if v = 0xFFFF then some none else if h : v < 256 then some (some ⟨v, h⟩) else none

/-- A numeric setting brought into its range, with whether it was clamped. -/
def clampTo (lo hi v : Nat) : Nat × Bool := (max lo (min hi v), decide (v < lo ∨ hi < v))

/-- The position of a parameter byte, 0 where none has come. -/
def nth (bs : List Byte) (i : Nat) : Byte := bs.getD i 0#8

end Sys2Proof.Machine
end

