-- ==== Sys2Proof/Machine/Actions.lean ====
section
/-! DEFINITION. What the actions do with their parameter bytes, what the streams do with an entry, and what the reads copy. -/

namespace Sys2Proof.Machine

/-! ### Actions (R178) -/

/-- An action that can only be taken. -/
def taken (w : Work) : Work × Result := (w, .ok)

/-- ROWMAP_WINDOW (R2). -/
def rowmapWindow (first last : Row) (w : Work) : Work × Result :=
  if w.pls.freeze ≠ .frozen then (w, .state)
  else if last < first then (w, .range)
  else ({ w with rac := { w.rac with winFirst := first, winLast := last, mapPtr := first } }, .ok)

/-- ROW_EXCLUDE (R6). -/
def rowExclude (first last : Row) (on : Bool) (w : Work) : Work × Result :=
  if last < first then (w, .range) else (excludeRows first last on w, .ok)

/-- An action on a carrier named by a byte, taken only in FROZEN (R58): STATE outside FROZEN, RANGE for a carrier above 3. -/
def frozenCarrier (carrier : Byte) (f : CarrierIx → Work → Work × Result) (w : Work) : Work × Result :=
  if w.pls.freeze ≠ .frozen then (w, .state)
  else if h : carrier.toNat < 4 then f ⟨carrier.toNat, h⟩ w
  else (w, .range)

/-- An action on a slot named by a byte: RANGE for a slot above 31. -/
def withSlot (slot : Byte) (f : Slot → Work → Work × Result) (w : Work) : Work × Result :=
  if h : slot.toNat < 32 then f ⟨slot.toNat, h⟩ w else (w, .range)

/-- CARRIER_SPANS with its seven parameter bytes (R57, R188). -/
def carrierSpans (bs : List Byte) (w : Work) : Work × Result :=
  if w.pls.freeze ≠ .frozen then (w, .state)
  else
    match boundIn (nth bs 1) (nth bs 2), boundIn (nth bs 3) (nth bs 4), boundIn (nth bs 5) (nth bs 6) with
    | some a, some b, some c =>
      setSpans (fun i => (nth bs 0).getLsbD i.val)
        (fun i => if i = 0 then a else if i = 1 then b else if i = 2 then c else none) w
    | _, _, _ => (w, .range)

/-- ROBOT_RECOVERED with its parameter bytes (R31, R188). -/
def robotRecoveredAction (bs : List Byte) (w : Work) : Work × Result :=
  match recoveredIn (nth bs 1) (nth bs 2) with
  | none => (w, .range)
  | some row => withSlot (nth bs 0) (fun k v => recoverRobot k row v) w

/-- A robot report from its kind byte and field bytes (Table 11-3). -/
def robotReportIn (kind a b : Byte) : Option RobotReport :=
  match kind.toNat with
  | 1 => some (.accept a)
  | 2 => some (.refuse a b)
  | 3 => some (.done a)
  | 4 => some (.progress a)
  | 5 => some (.docked a)
  | 6 => some (.aboard a)
  | 7 => some (.fault a)
  | 8 => some .faultClear
  | 9 => some (.battery a)
  | 10 => some .alive
  | _ => none

/-- A carrier report from its kind byte and field byte (Table 11-3). -/
def carrierReportIn (kind a : Byte) : Option CarrierReport :=
  match kind.toNat with
  | 1 => some (.accept a)
  | 2 => some (.arrived a)
  | 3 => some .garaged
  | 4 => some (.fault a)
  | 5 => some .faultClear
  | _ => none

/-- ROBOT_REPORT with its bytes. -/
def robotReportAction (bs : List Byte) (w : Work) : Work × Result :=
  match robotReportIn (nth bs 1) (nth bs 2) (nth bs 3) with
  | some x => robotReport (nth bs 0) x w
  | none => (w, .range)

/-- CARRIER_REPORT with its bytes. -/
def carrierReportAction (bs : List Byte) (w : Work) : Work × Result :=
  match carrierReportIn (nth bs 1) (nth bs 2) with
  | some x => carrierReport (nth bs 0) x w
  | none => (w, .range)

/-- An action is executed with all its parameter bytes, and gives its result (R178). A command that is no action does
nothing here. -/
def runAction (c : Cmd) (bs : List Byte) (w : Work) : Work × Result :=
  let r0 := byteRow (nth bs 0)
  match c with
  | .freeze => freeze w
  | .thaw => thaw w
  | .rowmapWindow => rowmapWindow r0 (byteRow (nth bs 1)) w
  | .rowExclude => rowExclude r0 (byteRow (nth bs 1)) (flagIn (nth bs 2)) w
  | .planFlip => planFlip w
  | .roundStart => startRound w
  | .roundStop => stopRound (flagIn (nth bs 0)) w
  | .energyOpen => openInterval (half (nth bs 0) (nth bs 1)) (byteRow (nth bs 2)) (byteRow (nth bs 3)) w
  | .dayClose => taken (dayClose w)
  | .stormDeclare => stormDeclare w
  | .stormCancel => stormCancel w
  | .carrierSpans => carrierSpans bs w
  | .carrierEnrol => frozenCarrier (nth bs 0) enrolCarrier w
  | .carrierRetire => frozenCarrier (nth bs 0) retireCarrier w
  | .robotEnrol => withSlot (nth bs 0) (fun k v => enrolRobot k (half (nth bs 1) (nth bs 2)) (byteRow (nth bs 3)) v) w
  | .robotRetire => withSlot (nth bs 0) retireRobot w
  | .robotRecovered => robotRecoveredAction bs w
  | .robotMove => withSlot (nth bs 0) (fun k v => moveRobot k (byteRow (nth bs 1)) v) w
  | .accountsClear => taken (clearAccounts w)
  | .held => heldReport r0 w
  | .holdRefused => holdRefusedReport r0 w
  | .stowWanted => taken (stowWantedReport r0 w)
  | .stowed => taken (stowedReport r0 w)
  | .forcedStow => taken (forcedStowReport r0 w)
  | .unstowed => unstowedReport r0 w
  | .wind => windSample (bytesNat [nth bs 0, nth bs 1]) w
  | .robotReport => robotReportAction bs w
  | .carrierReport => carrierReportAction bs w
  | _ => (w, .ok)

/-! ### Stream entries -/

/-- A complete entry of a stream; the result is that of a condition it met, if any. -/
def streamEntry (c : Cmd) (bs : List Byte) (w : Work) : Work × Option Result :=
  match c with
  | .rowmapData => mapEntry (nth bs 0) (half (nth bs 1) (nth bs 2)) (nth bs 3) w
  | .planRanges => rangeEntry (byteRow (nth bs 0)) (byteRow (nth bs 1)) w
  | .energyData => energyValueIn (half (nth bs 0) (nth bs 1)) w
  | _ => (w, none)

/-- A stream command at its command byte: what it does, and whether it opens (R3, R86, R102). -/
def openStream (c : Cmd) (w : Work) : Work × Bool :=
  match c with
  | .rowmapData => (w, decide (w.pls.freeze = .frozen))
  | .planRanges => (emptyRanges w, true)
  | .energyData =>
    if w.seu.intervalOpen then ({ w with seu := { w.seu with streamSeen := true } }, true) else (w, false)
  | _ => (w, false)

/-! ### Copies (R180) -/

/-- What a read has taken: its copy, what its last byte removes, and the state (in which the free values used are counted and
a notice read has begun). -/
structure CopyTaken where
  bytes : List Byte
  removal : Removal
  work : Work
deriving DecidableEq, Repr

/-- The outbound depth of a port (R168). -/
def outboundDepth (p : Port) (w : Work) : Nat :=
  match p with
  | .plant => w.rpq.queue.length
  | .tracker => w.rac.notices.length
  | .fleet => w.fou.queue.length

/-- A STATUS copy (R179, R187) of a port's pair. -/
def statusCopy (p : Port) (x : PortCtl) (w : Work) : List Byte :=
  b1 x.lastResult.code ++ [x.code.getD 0#8] ++ b2 (outboundDepth p w) ++ b1 w.wxm.weather.code ++ b1 w.pls.freeze.code ++
    b1 w.rsc.state.code

/-- A TAKE_NOTICE copy (R25): the read of a HOLD_ASK begins. -/
def takeNoticeCopy (w : Work) : CopyTaken :=
  match w.rac.notices with
  | r :: _ => { bytes := b1 r.val ++ noticeBytes (w.row r).notice, removal := .notice r, work := beginNoticeRead w }
  | [] => { bytes := b1 0 ++ noticeBytes none, removal := .nothing, work := w }

/-- The free values that a copy has used are counted. -/
def useFree (n : Nat) (w : Work) : Work := { w with freeUses := w.freeUses + n }

/-- A TAKE_ORDER copy (R35). -/
def takeOrderCopy (w : Work) : CopyTaken :=
  match w.fou.queue with
  | [] => { bytes := noOrderCopy w.freeUses, removal := .nothing, work := useFree 1 w }
  | u :: _ =>
    match (w.orders u).slot with
    | some o => { bytes := orderCopy u o.tag o.kind, removal := .order u o.tag, work := w }
    | none => { bytes := noOrderCopy w.freeUses, removal := .nothing, work := useFree 1 w }

/-- A READ_REPORT copy (R173). -/
def readReportCopy (w : Work) : CopyTaken :=
  { bytes := reportCopy w.rpq.queue, removal := if w.rpq.queue.isEmpty then .nothing else .report, work := w }

/-- The copy of a read with no parameters, taken at its command byte. -/
def copyNow (c : Cmd) (p : Port) (x : PortCtl) (w : Work) : CopyTaken :=
  match c with
  | .status => { bytes := statusCopy p x w, removal := .nothing, work := w }
  | .readWorklist => { bytes := readWorklistCopy w.rsc, removal := .nothing, work := w }
  | .readReport => readReportCopy w
  | .takeNotice => takeNoticeCopy w
  | .takeOrder => takeOrderCopy w
  | _ => { bytes := [], removal := .nothing, work := w }

/-- What a read with parameters holds from its command byte on (R1, R27, R55). -/
def snapshot (c : Cmd) (w : Work) : Snapshot :=
  match c with
  | .readRow => .rows w.rac.rows w.seu.rows w.seu.day w.seu.yDay
  | .readRobot => .robots w.fou.robots
  | .readCarrier => .carriers w.txs.carriers
  | _ => .none

/-- A READ_ACCOUNT copy (R165, R166). -/
def readAccountCopy (kind index clear : Byte) (w : Work) : CopyTaken :=
  if kind = 1#8 then
    if h : index.toNat < 16 then
      let z : Zone := ⟨index.toNat, h⟩
      let x := tget w.yac.zones z
      { bytes := zoneAccountCopy x
        removal := if flagIn clear then .zoneAccount z x.recovered else .nothing
        work := w }
    else { bytes := zoneAccountCopy ZoneAccount.reset, removal := .nothing, work := w }
  else
    let r := byteRow index
    let s := tget w.seu.rows r
    { bytes := rowAccountCopy (w.row r).zone (tget w.yac.rows r) s.fullPasses s.partPasses
      removal := if flagIn clear then .rowAccount r s.fullPasses s.partPasses else .nothing
      work := w }

/-- A READ_PLAN copy (R87). -/
def readPlanTaken (bank : Byte) (w : Work) : CopyTaken :=
  let front := w.pls.front
  let bytes :=
    if bank = 1#8 then readPlanCopy front.other front w.pls.flipPending w.pls.backBank
    else readPlanCopy front front w.pls.flipPending w.pls.frontBank
  { bytes := bytes, removal := .nothing, work := w }

/-- The copy of a read with parameters, given what it held since its command byte. For a slot above 31, and a carrier above 3, the
fields beside the state that the rules name are those after power-on (DESIGN CHOICE, log entry 43). -/
def copyWith (c : Cmd) (bs : List Byte) (snap : Snapshot) (w : Work) : CopyTaken :=
  match c, snap with
  | .readRow, .rows rows seu day yDay =>
    let r := byteRow (nth bs 0)
    { bytes := readRowCopy (tget rows r) (tget seu r) day yDay, removal := .nothing, work := w }
  | .readRobot, .robots robots =>
    if h : (nth bs 0).toNat < 32 then
      let k : Slot := ⟨(nth bs 0).toNat, h⟩
      let x := tget robots k
      { bytes := readRobotCopy k w.freeUses x, removal := .nothing, work := useFree (robotFreeUses x) w }
    else { bytes := readRobotCopy 0 w.freeUses Robot.reset, removal := .nothing, work := w }
  | .readCarrier, .carriers carriers =>
    if h : (nth bs 0).toNat < 4 then
      { bytes := readCarrierCopy (tget carriers ⟨(nth bs 0).toNat, h⟩), removal := .nothing, work := w }
    else { bytes := readCarrierCopy Carrier.absentReset, removal := .nothing, work := w }
  | .readAccount, _ => readAccountCopy (nth bs 0) (nth bs 1) (nth bs 2) w
  | .readPlan, _ => readPlanTaken (nth bs 0) w
  | _, _ => { bytes := [], removal := .nothing, work := w }

/-- What the last byte of a copy removes or clears (R25, R35, R166, R173). -/
def remove (x : Removal) (w : Work) : Work :=
  match x with
  | .nothing => w
  | .notice r => finishNoticeRead r w
  | .order u tag => finishOrderRead u tag w
  | .report => removeReport w
  | .rowAccount r full part => clearRowAccount r full part w
  | .zoneAccount z recovered => clearZoneAccount z recovered w

end Sys2Proof.Machine
end

