-- ==== Sys2Proof/Machine/Settings.lean ====
section
/-! DEFINITION. The settings commands, field by field: ZONE_WRITE, ROUND_SETUP, TIMING_WRITE and ARBITER_WRITE
(R10, R54, R68, R75, R84, R85, R99, R138, R168). -/

namespace Sys2Proof.Machine

/-- The result of a field that was clamped or stored as given. -/
def clampResult (clamped : Bool) : Option Result := if clamped then some .clamped else none

/-! ### ZONE_WRITE (R84, Table 4-1) -/

/-- A received mode (Table 11-1). -/
def modeIn (v : Nat) : Option Mode :=
  match v with
  | 0 => some .skip
  | 1 => some .dry
  | 2 => some .deep
  | _ => none

/-- Write a policy record of the back bank. -/
def updZone (z : Zone) (f : ZonePolicy → ZonePolicy) (w : Work) : Work :=
  updBack (fun x => { x with zones := tset x.zones z (f (tget x.zones z)) }) w

/-- A numeric field of a policy record: it is clamped into its range and written. -/
def zoneNumber (z : Zone) (lo hi v : Nat) (f : Nat → ZonePolicy → ZonePolicy) (w : Work) : Work × Option Result :=
  (updZone z (f (clampTo lo hi v).1) w, clampResult (clampTo lo hi v).2)

/-- The fields after the zone number, 1 to 8 in the order of Table 4-1. -/
def zoneField (z : Zone) (field v : Nat) (w : Work) : Work × Option Result :=
  match field with
  | 1 =>
    match modeIn v with
    | some m => (updZone z (fun x => { x with mode := m }) w, none)
    | none => (w, some .range)
  | 2 => zoneNumber z 0 4096 v (fun n x => { x with trigger := n }) w
  | 3 => zoneNumber z 2048 4096 v (fun n x => { x with pDry := n }) w
  | 4 => zoneNumber z 1 30 v (fun n x => { x with horizon := n }) w
  | 5 => zoneNumber z 0 16777215 v (fun n x => { x with cost := n }) w
  | 6 => zoneNumber z 0 60 v (fun n x => { x with minInterval := n }) w
  | 7 => zoneNumber z 1 16 v (fun n x => { x with gain := n }) w
  | _ => zoneNumber z 0 100 v (fun n x => { x with minBattery := n }) w

/-! ### ROUND_SETUP (R85, Table 4-2) -/

/-- A received trigger source (Table 11-1). -/
def sourceIn (v : Nat) : Option TriggerSource :=
  match v with
  | 0 => some .off
  | 1 => some .period
  | 2 => some .dayClose
  | _ => none

/-- Write the round parameters of the back bank. -/
def updRound (f : RoundParams → RoundParams) (w : Work) : Work := updBack (fun x => { x with round := f x.round }) w

/-- A numeric round parameter. -/
def roundNumber (lo hi v : Nat) (f : Nat → RoundParams → RoundParams) (w : Work) : Work × Option Result :=
  (updRound (f (clampTo lo hi v).1) w, clampResult (clampTo lo hi v).2)

/-- The fields 0 to 3 of ROUND_SETUP. -/
def roundField (field v : Nat) (w : Work) : Work × Option Result :=
  match field with
  | 0 =>
    match sourceIn v with
    | some s => (updRound (fun x => { x with source := s }) w, none)
    | none => (w, some .range)
  | 1 => roundNumber 10 1440 v (fun n x => { x with period := n }) w
  | 2 => roundNumber 1 64 v (fun n x => { x with budget := n }) w
  | _ => roundNumber 10 720 v (fun n x => { x with limit := n }) w

/-! ### ARBITER_WRITE (R68, Table 3-5) -/

/-- Write the arbiter settings. -/
def updTxs (f : Txs → Txs) (w : Work) : Work := { w with txs := f w.txs }

/-- A lowered ceiling holds every dynamic score (R68). -/
def capScores (dmax : Nat) (pool : List Request) : List Request := pool.map (fun q => { q with dyn := min q.dyn dmax })

/-- The fields 0 to 5 of ARBITER_WRITE. -/
def arbiterField (field v : Nat) (w : Work) : Work × Option Result :=
  match field with
  | 0 => (updTxs (fun x => { x with headHit := (clampTo 0 7 v).1 }) w, clampResult (clampTo 0 7 v).2)
  | 1 => (updTxs (fun x => { x with dirBonus := (clampTo 0 7 v).1 }) w, clampResult (clampTo 0 7 v).2)
  | 2 => (updTxs (fun x => { x with near := (clampTo 0 15 v).1 }) w, clampResult (clampTo 0 15 v).2)
  | 3 =>
    let a := clampTo 1 14 v
    if w.txs.ceiling ≤ a.1 then (w, some .range) else (updTxs (fun x => { x with jump := a.1 }) w, clampResult a.2)
  | 4 =>
    let a := clampTo 1 15 v
    if a.1 ≤ w.txs.jump then (w, some .range)
    else (updTxs (fun x => { x with ceiling := a.1, pool := capScores a.1 x.pool }) w, clampResult a.2)
  | _ => (updTxs (fun x => { x with guardSetting := (clampTo 15 30 v).1 }) w, clampResult (clampTo 15 30 v).2)

/-! ### TIMING_WRITE (Table 11-2) -/

/-- Write the weather settings. -/
def updWxm (f : Wxm → Wxm) (w : Work) : Work := { w with wxm := f w.wxm }

/-- The fields 0 to 13 of TIMING_WRITE as they are stored; the expiries and judgements a field brings about are made by
`afterTiming`. -/
def timingStore (field v : Nat) (w : Work) : Work × Option Result :=
  let put := fun (lo hi : Nat) (f : Nat → Work) => (f (clampTo lo hi v).1, clampResult (clampTo lo hi v).2)
  match field with
  | 0 => put 5 300 (fun n => { w with rac := { w.rac with holdTimeout := n } })
  | 1 => put 2 60 (fun n => { w with fou := { w.fou with acceptTimeout := n } })
  | 2 => put 10 600 (fun n => { w with fou := { w.fou with silenceTimeout := n } })
  | 3 => put 1 20 (fun n => updTxs (fun x => { x with secondsPerRow := n }) w)
  | 4 => put 10 120 (fun n => updTxs (fun x => { x with travelSlack := n }) w)
  | 5 => put 0 3600 (fun n => updTxs (fun x => { x with parkDelay := n }) w)
  | 6 => put 0 1000 (fun n => { w with seu := { w.seu with gate := n } })
  | 7 =>
    let a := clampTo 0 600 v
    if w.wxm.stormAt ≤ a.1 then (w, some .range) else (updWxm (fun x => { x with watchAt := a.1 }) w, clampResult a.2)
  | 8 =>
    let a := clampTo 0 600 v
    if a.1 ≤ w.wxm.watchAt then (w, some .range) else (updWxm (fun x => { x with stormAt := a.1 }) w, clampResult a.2)
  | 9 => put 60 3600 (fun n => updWxm (fun x => { x with releaseHold := n }) w)
  | 10 => put 5 120 (fun n => updWxm (fun x => { x with windSilence := n }) w)
  | 11 => put 30 900 (fun n => updWxm (fun x => { x with parkingDeadline := n }) w)
  | 12 => put 1 128 (fun n => { w with rpq := { w.rpq with threshold := n } })
  | _ => put 1 255 (fun n => { w with rpq := { w.rpq with staleTime := n } })

/-- What an applied field of TIMING_WRITE brings about at once: a timer that has already reached the new setting expires (R54),
a threshold is compared with the last sample (R138), an attention setting is judged (R168). -/
def afterTiming (field : Nat) (w : Work) : Work :=
  match field with
  | 0 => expireAll (dueHolds w.toState) w
  | 1 => expireAll (dueAccepts w.toState) w
  | 2 => expireAll (dueSilences w.toState) w
  | 3 => expireAll (dueTravels w.toState) w
  | 4 => expireAll (dueTravels w.toState) w
  | 5 => expireAll (dueParks w.toState) w
  | 6 => w
  | 7 => compareSample .threshold .threshold w
  | 8 => compareSample .threshold .threshold w
  | 9 => expireAll (dueReleases w.toState) w
  | 10 => expireAll (dueWind w.toState) w
  | 11 => expireAll (dueDeadline w.toState) w
  | _ => judgePlant w

/-- A field of TIMING_WRITE. -/
def timingField (field v : Nat) (w : Work) : Work × Option Result :=
  let a := timingStore field v w
  if a.2 = some .range then a else (afterTiming field a.1, a.2)

/-- A complete field of a settings command, after the zone number of ZONE_WRITE. -/
def settingsApply (cmd : Cmd) (field v : Nat) (zone : Zone) (w : Work) : Work × Option Result :=
  match cmd with
  | .zoneWrite => zoneField zone field v w
  | .roundSetup => roundField field v w
  | .arbiterWrite => arbiterField field v w
  | .timingWrite => timingField field v w
  | _ => (w, none)

end Sys2Proof.Machine
end

