-- ==== Sys2Proof/Machine/Ports.lean ====
section
/-! DEFINITION. The port controllers: command bytes, data bytes, pauses and breaks, port reset (chapter 10). -/

namespace Sys2Proof.Machine

/-! ### The three ports -/

/-- A port controller. -/
def State.port (s : State) (p : Port) : PortCtl :=
  match p with
  | .plant => s.plant
  | .tracker => s.tracker
  | .fleet => s.fleet

/-- Change a port controller. -/
def updPort (p : Port) (f : PortCtl → PortCtl) (w : Work) : Work :=
  match p with
  | .plant => { w with plant := f w.plant }
  | .tracker => { w with tracker := f w.tracker }
  | .fleet => { w with fleet := f w.fleet }

/-- The pair of last result and command code is set (R179). -/
def setResult (p : Port) (r : Result) (code : Byte) (w : Work) : Work :=
  updPort p (fun x => { x with lastResult := r, code := some code }) w

/-- The result of a field or entry that met a condition. -/
def setResult? (p : Port) (r : Option Result) (code : Byte) (w : Work) : Work :=
  match r with
  | some r => setResult p r code w
  | none => w

/-- The command context is set. -/
def setContext (p : Port) (c : Context) (w : Work) : Work := updPort p (fun x => { x with context := c }) w

/-! ### Command bytes (R178, R182) -/

/-- The result a command cut short by a command byte leaves, with its code; none where the pair is kept (R182). -/
def cutShort (c : Context) : Option (Result × Byte) :=
  match c with
  | .action cmd _ => some (.incomplete, cmd.code)
  | .settings cmd _ _ _ => some (.incomplete, cmd.code)
  | .stream cmd got => if got.isEmpty then none else some (.incomplete, cmd.code)
  | .none => none
  | .readParams _ _ _ => none
  | .readCopy _ _ => none

/-- The command under way on a port ends (R182). -/
def endCommand (p : Port) (w : Work) : Work :=
  let w1 :=
    match cutShort (w.port p).context with
    | some (r, code) => setResult p r code w
    | none => w
  updPort p (fun x => { x with context := .none, partialBits := [], dataOut := 0#8 }) w1

/-- A command byte on the plant port is the stream command of the open interval (R101). -/
def isStreamCommand (b : Byte) (w : Work) : Bool := decide (b = Cmd.energyData.code) && !w.seu.streamSeen

/-- A command byte on the plant port closes an open interval unless it is its stream command (R101). -/
def closeAtCommand (p : Port) (b : Byte) (w : Work) : Work :=
  match p with
  | .plant => if isStreamCommand b w then w else closeOpen w
  | .tracker => w
  | .fleet => w

/-- A command of the port's role opens (R178). -/
def openCommand (p : Port) (c : Cmd) (w : Work) : Work :=
  match c.kind with
  | .action =>
    if c.params = 0 then
      let a := runAction c [] w
      setResult p a.2 c.code a.1
    else setContext p (.action c []) w
  | .settings => setContext p (.settings c 0 [] 0) (setResult p .ok c.code w)
  | .stream =>
    let a := openStream c w
    if a.2 then setContext p (.stream c []) (setResult p .ok c.code a.1) else setResult p .state c.code a.1
  | .read =>
    if c.params = 0 then
      let a := copyNow c p (w.port p) w
      setContext p (.readCopy a.bytes a.removal) a.work
    else setContext p (.readParams c [] (snapshot c w)) w

/-- A command byte is taken on a port (R178). A port whose reset input is asserted takes none (R183). -/
def commandByte (p : Port) (b : Byte) (w : Work) : Work :=
  if (w.port p).resetHeld then w
  else
    let w1 := closeAtCommand p b (endCommand p w)
    match cmdOf b with
    | none => setResult p .unknown b w1
    | some c => if c.onPort p then openCommand p c w1 else setResult p .role b w1

/-! ### Data bytes (R178, R180) -/

/-- A parameter byte of an action. A report with an unknown kind ends at its kind byte with RANGE and leaves the unit's last report
time as it was (DEDUCED, log entry 51). -/
def actionByte (p : Port) (c : Cmd) (got : List Byte) (w : Work) : Work :=
  let fields := if got.length = 2 then kindFields c (nth got 1) else some 0
  let need := c.params + ((kindFields c (nth got 1)).getD 0)
  if fields = none then setContext p .none (setResult p .range c.code w)
  else if need ≤ got.length ∧ c.params ≤ got.length then
    let a := runAction c got (setContext p .none w)
    setResult p a.2 c.code a.1
  else setContext p (.action c got) w

/-- A complete field of a settings command; the zone number of ZONE_WRITE is checked first (R84). One above 15 ends the command,
so that the next command byte leaves RANGE and no INCOMPLETE (DESIGN CHOICE, log entry 48). -/
def settingsValue (p : Port) (c : Cmd) (field : Nat) (v : Nat) (zone : Zone) (w : Work) : Work :=
  let next := fun (z : Zone) (u : Work) =>
    setContext p (if field + 1 < c.fieldWidths.length then .settings c (field + 1) [] z else .none) u
  if c = .zoneWrite ∧ field = 0 then
    if h : v < 16 then next ⟨v, h⟩ w else setContext p .none (setResult p .range c.code w)
  else
    let a := settingsApply c field v zone (next zone w)
    setResult? p a.2 c.code a.1

/-- A byte of a settings command. -/
def settingsByte (p : Port) (c : Cmd) (field : Nat) (got : List Byte) (zone : Zone) (w : Work) : Work :=
  if c.fieldWidths.getD field 1 ≤ got.length then settingsValue p c field (bytesNat got) zone w
  else setContext p (.settings c field got zone) w

/-- A byte of a stream. -/
def streamByte (p : Port) (c : Cmd) (got : List Byte) (w : Work) : Work :=
  if c.entryWidth ≤ got.length then
    let a := streamEntry c got (setContext p (.stream c []) w)
    setResult? p a.2 c.code a.1
  else setContext p (.stream c got) w

/-- A parameter byte of a read. -/
def readParamByte (p : Port) (c : Cmd) (got : List Byte) (snap : Snapshot) (w : Work) : Work :=
  if c.params ≤ got.length then
    let a := copyWith c got snap w
    setContext p (.readCopy a.bytes a.removal) a.work
  else setContext p (.readParams c got snap) w

/-- A read byte shifts out the next byte of the copy; the last one makes the read's removal (R180). -/
def copyByte (p : Port) (left : List Byte) (removal : Removal) (w : Work) : Work :=
  match left with
  | [] => setContext p .none w
  | b :: rest =>
    let w1 := updPort p (fun x => { x with dataOut := b }) w
    if rest.isEmpty then remove removal (setContext p .none w1) else setContext p (.readCopy rest removal) w1

/-- A data byte is taken on a port (R178, R180). -/
def dataByte (p : Port) (b : Byte) (w : Work) : Work :=
  if (w.port p).resetHeld then w
  else
    let w1 := updPort p (fun x => { x with partialBits := [], dataOut := 0#8 }) w
    match (w.port p).context with
    | .none => w1
    | .action c got => actionByte p c (got ++ [b]) w1
    | .settings c field got zone => settingsByte p c field (got ++ [b]) zone w1
    | .stream c got => streamByte p c (got ++ [b]) w1
    | .readParams c got snap => readParamByte p c (got ++ [b]) snap w1
    | .readCopy left removal => copyByte p left removal w1

/-- Data bytes are taken one after another, each an event of its own. -/
def dataBytes (p : Port) (bs : List Byte) (w : Work) : Work := bs.foldl (fun v b => settle (dataByte p b v)) w

/-- A command byte and the data bytes that follow it. -/
def sendCommand (p : Port) (c : Cmd) (bs : List Byte) (w : Work) : Work :=
  dataBytes p bs (settle (commandByte p c.code w))

/-! ### Select and port reset (R181, R183) -/

/-- Select is released before the eighth clock of a byte: its bits are discarded (R181). -/
def discardBits (p : Port) (w : Work) : Work := updPort p (fun x => { x with partialBits := [] }) w

/-- A port reset input is asserted (R183). Data out is 0 afterwards (DESIGN CHOICE, log entry 49). -/
def assertReset (p : Port) (w : Work) : Work :=
  let w1 := updPort p (fun x => { x with
    lastResult := .ok, code := none, context := .none, partialBits := [], dataOut := 0#8, resetHeld := true }) w
  match p with
  | .plant => closeOpen w1
  | .tracker => w1
  | .fleet => w1

/-- A port reset input is released: the port takes bytes again. -/
def releaseReset (p : Port) (w : Work) : Work := updPort p (fun x => { x with resetHeld := false }) w

end Sys2Proof.Machine
end

