-- ==== Sys2Proof/Machine/Commands.lean ====
section
/-! DEFINITION. The meaning of every command and event of the table, one definition each. A command on a port is its command byte
followed by its data bytes; a timer event is the expiry of the timer it names. -/

namespace Sys2Proof.Machine

/-- What every meaning answers: the state after an event. -/
abbrev Answer := Host.Outcome State Fault Refusal

/-- The state after an event that begins with an effect, as an outcome. -/
def event (f : Work → Work) (s : State) : Answer := .next (runEvent f s)

/-- A two-byte value as the bytes that carry it, most significant first. -/
def halfBytes (h : Half) : List Byte := [(h >>> 8).setWidth 8, h.setWidth 8]

/-- STATUS (R179): Read command on any port that copies the last result with its command code, the outbound depth and
the weather, freeze and round states. -/
def execStatus (port : Port) (s : State) : Answer :=
  event (sendCommand port .status []) s

/-- FREEZE (R92): Moves the freeze state from RUNNING to FREEZE_ASKED and tests the drain condition at once. -/
def execFreeze (port : Port) (s : State) : Answer :=
  event (sendCommand port .freeze []) s

/-- THAW (R96): Returns the freeze state to RUNNING, resumes a suspended round if the weather allows, and runs
arbitration for free carriers. -/
def execThaw (port : Port) (s : State) : Answer :=
  event (sendCommand port .thaw []) s

/-- ROWMAP_WINDOW (R2): In FROZEN, sets the row map window to first..last and the map pointer to first. -/
def execRowmapWindow (port : Port) (params : List Byte) (s : State) : Answer :=
  event (sendCommand port .rowmapWindow params) s

/-- ROWMAP_DATA (R3): Opens a stream of 4-byte row map entries, refused with STATE outside FROZEN. -/
def execRowmapData (port : Port) (s : State) : Answer :=
  event (sendCommand port .rowmapData []) s

/-- ROWMAP_ENTRY (R4): A complete row map entry writes zone, capacity, length and reference attribute of the row at
the map pointer, with its checks, and advances the pointer. -/
def execRowmapEntry (port : Port) (zoneRef : Byte) (capacity : Half) (length : Byte) (s : State) : Answer :=
  event (dataBytes port ([zoneRef] ++ halfBytes capacity ++ [length])) s

/-- ROW_EXCLUDE (R6): Sets or clears the exclusion attribute of rows first..last. -/
def execRowExclude (port : Port) (params : List Byte) (s : State) : Answer :=
  event (sendCommand port .rowExclude params) s

/-- ZONE_WRITE (R84): Settings command writing one zone policy record of the back bank, field by field. -/
def execZoneWrite (port : Port) (s : State) : Answer :=
  event (sendCommand port .zoneWrite []) s

/-- PLAN_RANGES (R86): Opens a stream that empties and rewrites the back bank's candidate range list. -/
def execPlanRanges (port : Port) (s : State) : Answer :=
  event (sendCommand port .planRanges []) s

/-- PLAN_RANGE_ENTRY (R86): A complete 2-byte range entry is appended to the back bank's list, or refused with RANGE
or FULL. -/
def execPlanRangeEntry (port : Port) (first last : Byte) (s : State) : Answer :=
  event (dataBytes port [first, last]) s

/-- ROUND_SETUP (R85): Settings command writing the back bank's round parameters, field by field. -/
def execRoundSetup (port : Port) (s : State) : Answer :=
  event (sendCommand port .roundSetup []) s

/-- PLAN_FLIP (R89): Takes the flip at once with no round under way, or sets the flip-pending flag. -/
def execPlanFlip (port : Port) (s : State) : Answer :=
  event (sendCommand port .planFlip []) s

/-- ROUND_START (R119): Raises a round trigger that builds a round or sets the round-due flag. -/
def execRoundStart (port : Port) (s : State) : Answer :=
  event (sendCommand port .roundStart []) s

/-- ROUND_STOP (R133): Acts as the time-limit expiry with outcome STOPPED, and with recall set asks GO_HEAD for
passing robots. -/
def execRoundStop (port : Port) (params : List Byte) (s : State) : Answer :=
  event (sendCommand port .roundStop params) s

/-- ENERGY_OPEN (R100): Opens an energy interval with an index and a row window. -/
def execEnergyOpen (port : Port) (params : List Byte) (s : State) : Answer :=
  event (sendCommand port .energyOpen params) s

/-- ENERGY_DATA (R102): Opens the stream of energy values of the open interval, or is refused with STATE. -/
def execEnergyData (port : Port) (s : State) : Answer :=
  event (sendCommand port .energyData []) s

/-- ENERGY_VALUE (R102): A complete 2-byte value is stored as the reading of the row at the data pointer, and the
pointer advances; the last row closes the interval. -/
def execEnergyValue (port : Port) (value : Half) (s : State) : Answer :=
  event (dataBytes port (halfBytes value)) s

/-- DAY_CLOSE (R115): Closes any open interval, raises the day counter, sets Y_day, posts DAY_CLOSED and tells the
RSC. -/
def execDayClose (port : Port) (s : State) : Answer :=
  event (sendCommand port .dayClose []) s

/-- STORM_DECLARE (R140): Sets the declaration flag, making the storm condition present. -/
def execStormDeclare (port : Port) (s : State) : Answer :=
  event (sendCommand port .stormDeclare []) s

/-- STORM_CANCEL (R140): Clears the declaration flag and judges the storm condition again. -/
def execStormCancel (port : Port) (s : State) : Answer :=
  event (sendCommand port .stormCancel []) s

/-- TIMING_WRITE (R54): Settings command writing the part's timeouts, thresholds, gate and attention settings, field
by field. -/
def execTimingWrite (port : Port) (s : State) : Answer :=
  event (sendCommand port .timingWrite []) s

/-- ARBITER_WRITE (R68): Settings command writing the six dispatch arbiter settings. -/
def execArbiterWrite (port : Port) (s : State) : Answer :=
  event (sendCommand port .arbiterWrite []) s

/-- CARRIER_SPANS (R57): In FROZEN, sets the enabled carriers and their span bounds and re-derives the leg targets of
waiting requests. -/
def execCarrierSpans (port : Port) (params : List Byte) (s : State) : Answer :=
  event (sendCommand port .carrierSpans params) s

/-- CARRIER_ENROL (R58): In FROZEN, puts an enabled ABSENT carrier in GARAGED and runs arbitration for it. -/
def execCarrierEnrol (port : Port) (params : List Byte) (s : State) : Answer :=
  event (sendCommand port .carrierEnrol params) s

/-- CARRIER_RETIRE (R58): In FROZEN, makes a free unloaded carrier ABSENT. -/
def execCarrierRetire (port : Port) (params : List Byte) (s : State) : Answer :=
  event (sendCommand port .carrierRetire params) s

/-- ROBOT_ENROL (R29): Puts a robot into an empty slot as PARKED and unconfirmed at a free row. -/
def execRobotEnrol (port : Port) (params : List Byte) (s : State) : Answer :=
  event (sendCommand port .robotEnrol params) s

/-- ROBOT_RETIRE (R30): Empties the slot of a docked robot, clearing its presence and dropping its request. -/
def execRobotRetire (port : Port) (params : List Byte) (s : State) : Answer :=
  event (sendCommand port .robotRetire params) s

/-- ROBOT_RECOVERED (R31): Records a hand recovery of a faulted, lost or stranded robot to a named row or REMOVED. -/
def execRobotRecovered (port : Port) (params : List Byte) (s : State) : Answer :=
  event (sendCommand port .robotRecovered params) s

/-- ROBOT_MOVE (R62): Asks for a transfer of a parked robot to a row, with origin PLANT. -/
def execRobotMove (port : Port) (params : List Byte) (s : State) : Answer :=
  event (sendCommand port .robotMove params) s

/-- ACCOUNTS_CLEAR (R167): Closes any open interval, then clears every row and zone account and the pass counters. -/
def execAccountsClear (port : Port) (s : State) : Answer :=
  event (sendCommand port .accountsClear []) s

/-- READ_ROW (R1): Read command returning a row record with its estimator values. -/
def execReadRow (port : Port) (params : List Byte) (s : State) : Answer :=
  event (sendCommand port .readRow params) s

/-- READ_ROBOT (R27): Read command returning a robot record. -/
def execReadRobot (port : Port) (params : List Byte) (s : State) : Answer :=
  event (sendCommand port .readRobot params) s

/-- READ_CARRIER (R55): Read command returning a carrier record. -/
def execReadCarrier (port : Port) (params : List Byte) (s : State) : Answer :=
  event (sendCommand port .readCarrier params) s

/-- READ_ACCOUNT (R165): Read command copying a row or zone account, with an optional clear at the last byte. -/
def execReadAccount (port : Port) (params : List Byte) (s : State) : Answer :=
  event (sendCommand port .readAccount params) s

/-- READ_WORKLIST (R117): Read command returning the round state and the worklist entries. -/
def execReadWorklist (port : Port) (s : State) : Answer :=
  event (sendCommand port .readWorklist []) s

/-- READ_PLAN (R87): Read command returning the front or back plan bank. -/
def execReadPlan (port : Port) (params : List Byte) (s : State) : Answer :=
  event (sendCommand port .readPlan params) s

/-- READ_REPORT (R173): Closes any open interval, then copies the head record of the report queue for shifting out. -/
def execReadReport (port : Port) (s : State) : Answer :=
  event (sendCommand port .readReport []) s

/-- TAKE_NOTICE (R25): Read command on the tracker port copying the head notice of the tracker notice list. -/
def execTakeNotice (port : Port) (s : State) : Answer :=
  event (sendCommand port .takeNotice []) s

/-- HELD (R11): Tracker report that a HOLD_ASKED row is held; the requester's order is issued and the row becomes
OCCUPIED, or the hold is released. -/
def execHeld (port : Port) (params : List Byte) (s : State) : Answer :=
  event (sendCommand port .held params) s

/-- HOLD_REFUSED (R12): Tracker report declining a hold; the row returns to TRACKING and the requester is answered
REFUSED. -/
def execHoldRefused (port : Port) (params : List Byte) (s : State) : Answer :=
  event (sendCommand port .holdRefused params) s

/-- STOW_WANTED (R15): Tracker report setting stow wanted, with effects by row state. -/
def execStowWanted (port : Port) (params : List Byte) (s : State) : Answer :=
  event (sendCommand port .stowWanted params) s

/-- STOWED (R18): Tracker report that a STOW_CLEARED row is stowed, or taken as FORCED_STOW otherwise. -/
def execStowed (port : Port) (params : List Byte) (s : State) : Answer :=
  event (sendCommand port .stowed params) s

/-- FORCED_STOW (R17): Tracker report that a row was stowed regardless of clearance; the row becomes STOWED and any
robot off-dock is stranded. -/
def execForcedStow (port : Port) (params : List Byte) (s : State) : Answer :=
  event (sendCommand port .forcedStow params) s

/-- UNSTOWED (R18): Tracker report ending a stow, clearing stow wanted, with effects by row state. -/
def execUnstowed (port : Port) (params : List Byte) (s : State) : Answer :=
  event (sendCommand port .unstowed params) s

/-- WIND (R139): Wind sample that restarts the wind silence timer and is compared with the thresholds to move the
weather state. -/
def execWind (port : Port) (params : List Byte) (s : State) : Answer :=
  event (sendCommand port .wind params) s

/-- TAKE_ORDER (R35): Read command on the fleet port copying the head order of the fleet order queue. -/
def execTakeOrder (port : Port) (s : State) : Answer :=
  event (sendCommand port .takeOrder []) s

/-- ROBOT_ACCEPT (R41): Robot ACCEPT of the latest sent tag makes its order ACCEPTED and promotes a waiting successor.
-/
def execRobotAccept (port : Port) (slot : Byte) (fields : List Byte) (s : State) : Answer :=
  event (sendCommand port .robotReport ([slot, 0x01#8] ++ fields)) s

/-- REFUSE (R42): Robot refusal of its sent order, ending it with effects by order kind. -/
def execRefuse (port : Port) (slot : Byte) (fields : List Byte) (s : State) : Answer :=
  event (sendCommand port .robotReport ([slot, 0x02#8] ++ fields)) s

/-- DONE (R43): Robot reports its pass finished; it becomes PARKED and a complete pass result is handed on. -/
def execDone (port : Port) (slot : Byte) (fields : List Byte) (s : State) : Answer :=
  event (sendCommand port .robotReport ([slot, 0x03#8] ++ fields)) s

/-- PROGRESS (R44): Robot reports the segment it has reached, raising its highest segment. -/
def execProgress (port : Port) (slot : Byte) (fields : List Byte) (s : State) : Answer :=
  event (sendCommand port .robotReport ([slot, 0x04#8] ++ fields)) s

/-- DOCKED (R45): Robot reports it sits at a named row head, with effects by robot state and row. -/
def execDocked (port : Port) (slot : Byte) (fields : List Byte) (s : State) : Answer :=
  event (sendCommand port .robotReport ([slot, 0x05#8] ++ fields)) s

/-- ABOARD (R46): Robot reports it is aboard a named carrier, after boarding or after turning back from alighting. -/
def execAboard (port : Port) (slot : Byte) (fields : List Byte) (s : State) : Answer :=
  event (sendCommand port .robotReport ([slot, 0x06#8] ++ fields)) s

/-- ROBOT_FAULT (R47): Robot reports a fault; it enters FAULT, its orders are discarded and an off-dock row is locked.
-/
def execRobotFault (port : Port) (slot : Byte) (fields : List Byte) (s : State) : Answer :=
  event (sendCommand port .robotReport ([slot, 0x07#8] ++ fields)) s

/-- ROBOT_FAULT_CLEAR (R47): Robot clears its fault, becoming PARKED or ABOARD where its place is known. -/
def execRobotFaultClear (port : Port) (slot : Byte) (fields : List Byte) (s : State) : Answer :=
  event (sendCommand port .robotReport ([slot, 0x08#8] ++ fields)) s

/-- BATTERY (R44): Robot reports its battery level. -/
def execBattery (port : Port) (slot : Byte) (fields : List Byte) (s : State) : Answer :=
  event (sendCommand port .robotReport ([slot, 0x09#8] ++ fields)) s

/-- ALIVE (R44): Robot report with no effect beyond the last report time. -/
def execAlive (port : Port) (slot : Byte) (fields : List Byte) (s : State) : Answer :=
  event (sendCommand port .robotReport ([slot, 0x0A#8] ++ fields)) s

/-- CARRIER_ACCEPT (R41): Carrier ACCEPT of the latest sent tag makes its order ACCEPTED. -/
def execCarrierAccept (port : Port) (carrier : Byte) (fields : List Byte) (s : State) : Answer :=
  event (sendCommand port .carrierReport ([carrier, 0x01#8] ++ fields)) s

/-- ARRIVED (R77): Carrier report completing a TRAVEL, setting position and direction and advancing its request. -/
def execArrived (port : Port) (carrier : Byte) (fields : List Byte) (s : State) : Answer :=
  event (sendCommand port .carrierReport ([carrier, 0x02#8] ++ fields)) s

/-- GARAGED (R77): Carrier report completing a PARK, setting position GARAGE and state by the carrier's condition. -/
def execGaraged (port : Port) (carrier : Byte) (fields : List Byte) (s : State) : Answer :=
  event (sendCommand port .carrierReport ([carrier, 0x03#8] ++ fields)) s

/-- CARRIER_FAULT (R76): Carrier reports a fault and becomes HALTED. -/
def execCarrierFault (port : Port) (carrier : Byte) (fields : List Byte) (s : State) : Answer :=
  event (sendCommand port .carrierReport ([carrier, 0x04#8] ++ fields)) s

/-- CARRIER_FAULT_CLEAR (R77): Carrier clears its halt and resumes its request or becomes free. -/
def execCarrierFaultClear (port : Port) (carrier : Byte) (fields : List Byte) (s : State) : Answer :=
  event (sendCommand port .carrierReport ([carrier, 0x05#8] ++ fields)) s

/-- UNKNOWN_COMMAND (R178): A command byte naming no command sets the last result UNKNOWN, and following data bytes
are discarded. -/
def execUnknownCommand (port : Port) (value : Byte) (s : State) : Answer :=
  event (commandByte port value) s

/-- READ_BYTE (R180): A data byte clocked during a read shifts out the next copy byte; at the last byte the read's
removal or clear is made. -/
def execReadByte (port : Port) (dataIn : Byte) (s : State) : Answer :=
  event (dataByte port dataIn) s

/-- SELECT_RELEASE (R181): Release of select pauses the command, and a partly clocked byte is discarded. -/
def execSelectRelease (port : Port) (_clocked : List Bool) (s : State) : Answer :=
  event (discardBits port) s

/-- PORT_RESET (R183): A port reset input discards the partial byte and command context and sets the last result OK;
on the plant port it closes an open interval. -/
def execPortReset (port : Port) (asserted : Bool) (s : State) : Answer :=
  event (if asserted then assertReset port else releaseReset port) s

/-- POWER_ON_RESET (R184): Puts every block in its power-on state and starts the seconds counter from 0. The queue of
waiting commands and the count of free values used are the model's own and stay (log entry 12). The port reset inputs are
wires: a port whose input is still asserted takes no byte after the power-on reset either (R183). -/
def execPowerOnReset (s : State) : Answer :=
  let held := fun (x : PortCtl) => { PortCtl.reset with resetHeld := x.resetHeld }
  .next { State.reset with
    pending := s.pending, freeUses := s.freeUses
    plant := held s.plant, tracker := held s.tracker, fleet := held s.fleet }

/-- HOLD_TIMEOUT (R10): Expiry of a row's hold timer in HOLD_ASKED returns the row to TRACKING and answers TIMEOUT. -/
def execHoldTimeout (row : Row) (s : State) : Answer :=
  event (expire (.hold row)) s

/-- ACCEPT_TIMEOUT (R39): Expiry of a SENT order's accept timer promotes the successor, re-queues the order, or makes
the unit LOST or HALTED. -/
def execAcceptTimeout (unit : FleetUnit) (s : State) : Answer :=
  event (expire (.accept unit)) s

/-- ROBOT_SILENCE_TIMEOUT (R48): Expiry of a robot's silence timer makes it LOST and posts ROBOT_LOST. -/
def execRobotSilenceTimeout (slot : Slot) (s : State) : Answer :=
  event (expire (.silence slot)) s

/-- TRAVEL_TIMEOUT (R75): Expiry of a carrier's travel timer makes it HALTED with cause TIMEOUT. -/
def execTravelTimeout (c : CarrierIx) (s : State) : Answer :=
  event (expire (.travel c)) s

/-- DROP_RETRY_TIMEOUT (R72): Expiry of a request's retry timer asks the ALIGHT hold again. -/
def execDropRetryTimeout (seq : Half) (s : State) : Answer :=
  event (expire (.dropRetry seq)) s

/-- PARK_DELAY_TIMEOUT (R80): Expiry of an idle carrier's park timer orders PARK and enters TO_GARAGE. -/
def execParkDelayTimeout (c : CarrierIx) (s : State) : Answer :=
  event (expire (.park c)) s

/-- PERIOD_TIMEOUT (R120): Expiry of the period timer raises a round trigger and restarts the timer. -/
def execPeriodTimeout (s : State) : Answer :=
  event (expire .period) s

/-- TIME_LIMIT_TIMEOUT (R133): Expiry of the round time limit skips unstarted entries and drains or ends the round
with outcome TIMED. -/
def execTimeLimitTimeout (s : State) : Answer :=
  event (expire .limit) s

/-- WIND_SILENCE_TIMEOUT (R141): Expiry of the wind silence timer sets silence expired, making the storm condition
present. -/
def execWindSilenceTimeout (s : State) : Answer :=
  event (expire .wind) s

/-- QUIET_TIMEOUT (R143): Expiry of the quiet timer in WATCH returns the weather state to CALM. -/
def execQuietTimeout (s : State) : Answer :=
  event (expire .quiet) s

/-- RELEASE_TIMEOUT (R151): Expiry of the release timer takes PARKING or SECURED to WATCH with cause RELEASED. -/
def execReleaseTimeout (s : State) : Answer :=
  event (expire .release) s

/-- PARKING_DEADLINE (R149): Expiry of the deadline timer clears waiting rows with force, strands robots and enters
SECURED. -/
def execParkingDeadline (s : State) : Answer :=
  event (expire .deadline) s

/-- STORM_ALIGHT_RETRY (R147): The WXM asks a storm alighting hold again 10 s after a failed answer. -/
def execStormAlightRetry (c : CarrierIx) (s : State) : Answer :=
  event (expire (.alightRetry c)) s

/-- STALE_EXPIRY (R175): The head record reaches the stale time, and the plant-port attention is judged again. -/
def execStaleExpiry (s : State) : Answer :=
  event (expire .stale) s

/-- SETTINGS_FIELD (R178): A field of a settings command (ZONE_WRITE, ROUND_SETUP, TIMING_WRITE, ARBITER_WRITE) is
applied with its clamp or refusal as its last byte arrives, and can move the weather state, expire timers or change
attention. -/
def execSettingsField (port : Port) (bytes : List Byte) (s : State) : Answer :=
  event (dataBytes port bytes) s

/-- UNKNOWN_REPORT_KIND (R178): A ROBOT_REPORT or CARRIER_REPORT whose report kind byte names no report of the unit is
refused with RANGE at that byte, and the following bytes are discarded. -/
def execUnknownReportKind (port : Port) (ofCarrier : Bool) (unit kind : Byte) (s : State) : Answer :=
  event (sendCommand port (if ofCarrier then .carrierReport else .robotReport) [unit, kind]) s

end Sys2Proof.Machine
end

