-- ==== Sys2Proof/Machine/Dispatch.lean ====
section
/-! DEFINITION. One arm for each constructor of Instr, each one call of its meaning. -/

namespace Sys2Proof.Machine

def exec (i : Instr) (s : State) : Host.Outcome State Fault Refusal :=
  match i with
  | .status port => Sys2Proof.Machine.execStatus port s
  | .freeze port => Sys2Proof.Machine.execFreeze port s
  | .thaw port => Sys2Proof.Machine.execThaw port s
  | .rowmapWindow port params => Sys2Proof.Machine.execRowmapWindow port params s
  | .rowmapData port => Sys2Proof.Machine.execRowmapData port s
  | .rowmapEntry port zoneRef capacity length => Sys2Proof.Machine.execRowmapEntry port zoneRef capacity length s
  | .rowExclude port params => Sys2Proof.Machine.execRowExclude port params s
  | .zoneWrite port => Sys2Proof.Machine.execZoneWrite port s
  | .planRanges port => Sys2Proof.Machine.execPlanRanges port s
  | .planRangeEntry port first last => Sys2Proof.Machine.execPlanRangeEntry port first last s
  | .roundSetup port => Sys2Proof.Machine.execRoundSetup port s
  | .planFlip port => Sys2Proof.Machine.execPlanFlip port s
  | .roundStart port => Sys2Proof.Machine.execRoundStart port s
  | .roundStop port params => Sys2Proof.Machine.execRoundStop port params s
  | .energyOpen port params => Sys2Proof.Machine.execEnergyOpen port params s
  | .energyData port => Sys2Proof.Machine.execEnergyData port s
  | .energyValue port value => Sys2Proof.Machine.execEnergyValue port value s
  | .dayClose port => Sys2Proof.Machine.execDayClose port s
  | .stormDeclare port => Sys2Proof.Machine.execStormDeclare port s
  | .stormCancel port => Sys2Proof.Machine.execStormCancel port s
  | .timingWrite port => Sys2Proof.Machine.execTimingWrite port s
  | .arbiterWrite port => Sys2Proof.Machine.execArbiterWrite port s
  | .carrierSpans port params => Sys2Proof.Machine.execCarrierSpans port params s
  | .carrierEnrol port params => Sys2Proof.Machine.execCarrierEnrol port params s
  | .carrierRetire port params => Sys2Proof.Machine.execCarrierRetire port params s
  | .robotEnrol port params => Sys2Proof.Machine.execRobotEnrol port params s
  | .robotRetire port params => Sys2Proof.Machine.execRobotRetire port params s
  | .robotRecovered port params => Sys2Proof.Machine.execRobotRecovered port params s
  | .robotMove port params => Sys2Proof.Machine.execRobotMove port params s
  | .accountsClear port => Sys2Proof.Machine.execAccountsClear port s
  | .readRow port params => Sys2Proof.Machine.execReadRow port params s
  | .readRobot port params => Sys2Proof.Machine.execReadRobot port params s
  | .readCarrier port params => Sys2Proof.Machine.execReadCarrier port params s
  | .readAccount port params => Sys2Proof.Machine.execReadAccount port params s
  | .readWorklist port => Sys2Proof.Machine.execReadWorklist port s
  | .readPlan port params => Sys2Proof.Machine.execReadPlan port params s
  | .readReport port => Sys2Proof.Machine.execReadReport port s
  | .takeNotice port => Sys2Proof.Machine.execTakeNotice port s
  | .held port params => Sys2Proof.Machine.execHeld port params s
  | .holdRefused port params => Sys2Proof.Machine.execHoldRefused port params s
  | .stowWanted port params => Sys2Proof.Machine.execStowWanted port params s
  | .stowed port params => Sys2Proof.Machine.execStowed port params s
  | .forcedStow port params => Sys2Proof.Machine.execForcedStow port params s
  | .unstowed port params => Sys2Proof.Machine.execUnstowed port params s
  | .wind port params => Sys2Proof.Machine.execWind port params s
  | .takeOrder port => Sys2Proof.Machine.execTakeOrder port s
  | .robotAccept port slot fields => Sys2Proof.Machine.execRobotAccept port slot fields s
  | .refuse port slot fields => Sys2Proof.Machine.execRefuse port slot fields s
  | .done port slot fields => Sys2Proof.Machine.execDone port slot fields s
  | .progress port slot fields => Sys2Proof.Machine.execProgress port slot fields s
  | .docked port slot fields => Sys2Proof.Machine.execDocked port slot fields s
  | .aboard port slot fields => Sys2Proof.Machine.execAboard port slot fields s
  | .robotFault port slot fields => Sys2Proof.Machine.execRobotFault port slot fields s
  | .robotFaultClear port slot fields => Sys2Proof.Machine.execRobotFaultClear port slot fields s
  | .battery port slot fields => Sys2Proof.Machine.execBattery port slot fields s
  | .alive port slot fields => Sys2Proof.Machine.execAlive port slot fields s
  | .carrierAccept port carrier fields => Sys2Proof.Machine.execCarrierAccept port carrier fields s
  | .arrived port carrier fields => Sys2Proof.Machine.execArrived port carrier fields s
  | .garaged port carrier fields => Sys2Proof.Machine.execGaraged port carrier fields s
  | .carrierFault port carrier fields => Sys2Proof.Machine.execCarrierFault port carrier fields s
  | .carrierFaultClear port carrier fields => Sys2Proof.Machine.execCarrierFaultClear port carrier fields s
  | .unknownCommand port value => Sys2Proof.Machine.execUnknownCommand port value s
  | .readByte port dataIn => Sys2Proof.Machine.execReadByte port dataIn s
  | .selectRelease port clocked => Sys2Proof.Machine.execSelectRelease port clocked s
  | .portReset port asserted => Sys2Proof.Machine.execPortReset port asserted s
  | .powerOnReset => Sys2Proof.Machine.execPowerOnReset s
  | .holdTimeout row => Sys2Proof.Machine.execHoldTimeout row s
  | .acceptTimeout unit => Sys2Proof.Machine.execAcceptTimeout unit s
  | .robotSilenceTimeout slot => Sys2Proof.Machine.execRobotSilenceTimeout slot s
  | .travelTimeout c => Sys2Proof.Machine.execTravelTimeout c s
  | .dropRetryTimeout seq => Sys2Proof.Machine.execDropRetryTimeout seq s
  | .parkDelayTimeout c => Sys2Proof.Machine.execParkDelayTimeout c s
  | .periodTimeout => Sys2Proof.Machine.execPeriodTimeout s
  | .timeLimitTimeout => Sys2Proof.Machine.execTimeLimitTimeout s
  | .windSilenceTimeout => Sys2Proof.Machine.execWindSilenceTimeout s
  | .quietTimeout => Sys2Proof.Machine.execQuietTimeout s
  | .releaseTimeout => Sys2Proof.Machine.execReleaseTimeout s
  | .parkingDeadline => Sys2Proof.Machine.execParkingDeadline s
  | .stormAlightRetry c => Sys2Proof.Machine.execStormAlightRetry c s
  | .staleExpiry => Sys2Proof.Machine.execStaleExpiry s
  | .settingsField port bytes => Sys2Proof.Machine.execSettingsField port bytes s
  | .unknownReportKind port ofCarrier unit kind => Sys2Proof.Machine.execUnknownReportKind port ofCarrier unit kind s

end Sys2Proof.Machine
end

