-- ==== Sys2Proof/Machine/Step.lean ====
section
/-! DEFINITION. The step: the command at the front of the queue is taken; on an empty queue one second passes. -/

namespace Sys2Proof.Machine

/-- One second passes (R54, section 1.5): the seconds counter rises by 1, and the expiries that are then due wait as commands in
the fixed order of `dueTimers` (DESIGN CHOICE, log entry 1). -/
def tick (s : State) : State :=
  let s1 : State := { s with now := s.now + 1 }
  { s1 with pending := (dueTimers s1).map Timer.command }

/-- Take the command at the front of the queue, with the queue's rest; on an empty queue a second passes. -/
def step (s : State) : Host.Outcome State Fault Refusal :=
  match s.pending with
  | c :: rest => exec c { s with pending := rest }
  | [] => .next (tick s)

/-- The state with the command that a word of the table spells at the front of its queue; unchanged where it spells none. -/
def State.withFetchWord (s : State) (nbits w : Nat) : State :=
  match Sys2Proof.decodeTableWord nbits w with
  | some c => { s with pending := c :: s.pending }
  | none => s

end Sys2Proof.Machine
end

