-- ==== Sys2Proof/Safety.lean ====
section
/-! DEFINITION. What the claims about the block are stated in: the conditions that records keep, the conditions of the block's
queues and tables, and what an event may not touch. -/

namespace Sys2Proof.Machine

/-! ### Rows and notices (chapter 1) -/

/-- A row record as the rules keep it: nothing waits in the slot of a STOWED row (R17, R24), the hold timer runs in
HOLD_ASKED alone (R10), a requester is named from the hold to the end of the occupancy (section 1.4), and the numbers lie
in the ranges of Table 1-1. -/
structure RowInv (x : RowRec) : Prop where
  stowed : x.state = .stowed → x.notice = none
  timer : x.holdTimer.isSome = true ↔ x.state = .holdAsked
  hold : x.hold.isSome = true ↔ x.state = .holdAsked ∨ x.state = .held ∨ x.state = .occupied ∨ x.state = .stowWait
  attempts : x.attempts ≤ 255
  read : x.noticeRead = true → x.notice.isSome = true
  capacity : x.capacity ≤ 1000
  length : x.length ≤ 63

/-- The class accumulator is not below the class of the row's condition (R26). -/
def AccInv (x : RowRec) : Prop := classRank (rowClass x) ≤ classRank x.acc

/-- Every row record is as the rules keep it. -/
def RowsInv (x : Rac) : Prop := ∀ r : Row, RowInv (tget x.rows r) ∧ AccInv (tget x.rows r)

/-- The tracker notice list holds each row with a full notice slot once, and no other row (section 1.7, R24); the tracker
attention is asserted while it is not empty (R176). -/
structure NoticeInv (x : Rac) : Prop where
  once : x.notices.Nodup
  full : ∀ r : Row, r ∈ x.notices ↔ (tget x.rows r).notice.isSome = true
  attention : x.attention = !x.notices.isEmpty

/-- The reference set never holds more than 8 rows (R5). -/
def ReferenceInv (x : Rac) : Prop :=
  ((indices 256).filter (fun r => (tget x.rows r).reference)).length ≤ Config.referencePlaces

/-- The fields that only a row map entry and ROW_EXCLUDE write (R4, R6). -/
def MapSame (x y : RowRec) : Prop :=
  y.zone = x.zone ∧ y.capacity = x.capacity ∧ y.length = x.length ∧ y.reference = x.reference ∧ y.excluded = x.excluded

/-- A change of a row record by anything but the map, the exclusion and the interval close. -/
structure RowStep (x y : RowRec) : Prop where
  map : MapSame x y
  acc : y.acc = x.acc
  inv : RowInv x → RowInv y

/-! ### Orders (chapter 2) -/

/-- The order side of a unit. -/
def Fou.orders (x : Fou) (u : FleetUnit) : UnitOrders :=
  match u with
  | .robot k => (tget x.robots k).orders
  | .carrier c => tget x.carrierOrders c

/-- The order side of a unit as the rules keep it: the slot's order carries the newest tag (R33), its accept timer runs while it
is SENT (R39), a SENT order is the latest sent (R35), it is sent at most three times (R39), and a successor waits only
behind a SENT order (R36). -/
structure UnitInv (x : UnitOrders) : Prop where
  tag : ∀ o, x.slot = some o → o.tag = x.tagCounter
  timer : ∀ o, x.slot = some o → (o.acceptTimer.isSome = true ↔ o.status = .sent)
  sent : ∀ o, x.slot = some o → o.status = .sent → x.latestSent = some (o.tag, o.kind.name)
  attempts : ∀ o, x.slot = some o → o.attempts ≤ 3 ∧ (o.status = .queued → o.attempts ≤ 2)
  successor : x.successor.isSome = true → ∃ o, x.slot = some o ∧ o.status = .sent

/-- The slot holds an order that waits to be taken (R34). -/
def UnitOrders.waits (x : UnitOrders) : Prop := ∃ o, x.slot = some o ∧ o.status = .queued

/-- The fleet order queue holds each unit with a QUEUED order once, and no other unit, an URGENT order in the tier ahead
(R34); the fleet attention is asserted while it is not empty (R176); an EMPTY slot has no order (R38). -/
structure FleetInv (x : Fou) : Prop where
  once : x.queue.Nodup
  waiting : ∀ u, u ∈ x.queue ↔ (x.orders u).waits
  urgent : ∀ u o, (x.orders u).slot = some o → o.status = .queued → o.cls = .urgent → u ∈ x.urgentQ
  attention : x.attention = !x.queue.isEmpty
  units : ∀ u, UnitInv (x.orders u)
  empty : ∀ k : Slot, (tget x.robots k).state = .empty → (tget x.robots k).orders.slot = none

/-! ### Requests and carriers (chapter 3) -/

/-- A transfer request as the rules keep it: its dynamic score is held at the ceiling (R67, R68) and its guard count at 30
(R67), a second failed pickup has dropped it (R70), and a third failed drop has re-aimed it (R73). -/
structure RequestInv (ceiling : Nat) (q : Request) : Prop where
  dyn : q.dyn ≤ ceiling
  guard : q.guard ≤ 30
  pickup : q.pickupFails ≤ 1
  drop : q.dropFails ≤ 2

/-- The transfer pool never holds two requests for one robot (R59), and each request is as the rules keep it. -/
structure PoolInv (x : Txs) : Prop where
  robots : (x.pool.map (·.robot)).Nodup
  requests : ∀ q ∈ x.pool, RequestInv x.ceiling q

/-! ### Rounds and plans (chapters 4 and 6) -/

/-- A worklist entry as the rules keep it: a skip reason stands with SKIPPED alone (Table 6-3), an entry at work names its
robot (R127), and each failure is counted at most twice (R129, R130). -/
structure EntryInv (e : Entry) : Prop where
  skip : e.skip.isSome = true ↔ e.state = .skipped
  robot : e.state = .assigned ∨ e.state = .holding ∨ e.state = .passing → e.robot.isSome = true
  fails : e.holdFails ≤ 2 ∧ e.transferFails ≤ 2

/-- The round: a flip waits only for a round under way (R89, R90), the worklist names no row twice and is no longer than
64 entries (R126), the time-limit timer runs in ACTIVE and SUSPENDED alone (R122, R133, R136), and the entries are as the rules keep
them. -/
structure RoundInv (p : Pls) (x : Rsc) : Prop where
  flip : p.flipPending = true → x.state ≠ .none
  rows : (x.worklist.map (·.row)).Nodup
  length : x.worklist.length ≤ 64
  limit : x.limitTimer.isSome = true ↔ x.state = .active ∨ x.state = .suspended
  entries : ∀ e ∈ x.worklist, EntryInv e
  budgets : p.bankA.round.budget ≤ 64 ∧ p.bankB.round.budget ≤ 64

/-! ### Weather (chapter 7) -/

/-- The weather: the watch threshold lies below the storm threshold (R138); outside PARKING and SECURED the storm condition is
absent (R140 to R142), and in CALM the last sample lies below the watch threshold (R139); the deadline timer runs in
PARKING (R144, R148, R149), the quiet timer in WATCH while the last sample lies below the watch threshold (R143), the release
timer in PARKING and SECURED while the storm condition is absent (R151); storm alightings stand in PARKING alone (R147). -/
structure WeatherInv (x : Wxm) : Prop where
  thresholds : x.watchAt < x.stormAt
  calm : x.weather = .calm → ∀ v, x.lastSample = some v → v < x.watchAt
  clear : stormOn x.weather = false → stormCondition x = false
  deadline : x.deadlineTimer.isSome = true ↔ x.weather = .parking
  quiet : x.quietTimer.isSome = true ↔ x.weather = .watch ∧ belowWatch x = true
  release : x.releaseTimer.isSome = true ↔ stormOn x.weather = true ∧ stormCondition x = false
  alights : ∀ c, (tget x.alights c).isSome = true → x.weather = .parking

/-! ### Reports (chapter 9) -/

/-- The report queue holds at most 128 records (R168); records are refused only while it is full (R171, R172); the attention
is asserted while the threshold is reached or a prompt record waits (R174). -/
structure ReportInv (x : Rpq) : Prop where
  places : x.queue.length ≤ Config.reportPlaces
  overrun : x.overrun ≠ 0 → x.queue.length = Config.reportPlaces
  count : x.overrun ≤ Config.countLimit
  attention : x.threshold ≤ x.queue.length ∨ x.queue.any (fun r => prompt r.body) = true → x.attention = true

/-! ### Estimates, accounts and settings -/

/-- Policy records and round parameters lie in the ranges of Tables 4-1 and 4-2. -/
structure BankInv (b : Bank) : Prop where
  trigger : ∀ z, (tget b.zones z).trigger ≤ 4096
  pDry : ∀ z, 2048 ≤ (tget b.zones z).pDry ∧ (tget b.zones z).pDry ≤ 4096
  horizon : ∀ z, 1 ≤ (tget b.zones z).horizon ∧ (tget b.zones z).horizon ≤ 30
  cost : ∀ z, (tget b.zones z).cost ≤ 16777215
  minInterval : ∀ z, (tget b.zones z).minInterval ≤ 60
  gain : ∀ z, 1 ≤ (tget b.zones z).gain ∧ (tget b.zones z).gain ≤ 16
  minBattery : ∀ z, (tget b.zones z).minBattery ≤ 100
  ranges : b.ranges.length ≤ Config.rangePlaces ∧ ∀ p ∈ b.ranges, p.1 ≤ p.2
  period : 10 ≤ b.round.period ∧ b.round.period ≤ 1440
  budget : 1 ≤ b.round.budget ∧ b.round.budget ≤ 64
  limit : 10 ≤ b.round.limit ∧ b.round.limit ≤ 720

/-- Every setting lies in its range (Tables 3-5, 4-1, 4-2, R10, R54, R68, R75, R99, R138, R168). -/
structure SettingsInv (s : State) : Prop where
  bankA : BankInv s.pls.bankA
  bankB : BankInv s.pls.bankB
  hold : 5 ≤ s.rac.holdTimeout ∧ s.rac.holdTimeout ≤ 300
  accept : 2 ≤ s.fou.acceptTimeout ∧ s.fou.acceptTimeout ≤ 60
  silence : 10 ≤ s.fou.silenceTimeout ∧ s.fou.silenceTimeout ≤ 600
  perRow : 1 ≤ s.txs.secondsPerRow ∧ s.txs.secondsPerRow ≤ 20
  slack : 10 ≤ s.txs.travelSlack ∧ s.txs.travelSlack ≤ 120
  park : s.txs.parkDelay ≤ 3600
  arbiter : s.txs.headHit ≤ 7 ∧ s.txs.dirBonus ≤ 7 ∧ s.txs.near ≤ 15
  jump : 1 ≤ s.txs.jump ∧ s.txs.jump < s.txs.ceiling ∧ s.txs.ceiling ≤ 15
  guard : 15 ≤ s.txs.guardSetting ∧ s.txs.guardSetting ≤ 30
  gate : s.seu.gate ≤ 1000
  wind : s.wxm.watchAt < s.wxm.stormAt ∧ s.wxm.stormAt ≤ 600
  releaseHold : 60 ≤ s.wxm.releaseHold ∧ s.wxm.releaseHold ≤ 3600
  windSilence : 5 ≤ s.wxm.windSilence ∧ s.wxm.windSilence ≤ 120
  parking : 30 ≤ s.wxm.parkingDeadline ∧ s.wxm.parkingDeadline ≤ 900
  threshold : 1 ≤ s.rpq.threshold ∧ s.rpq.threshold ≤ 128
  stale : 1 ≤ s.rpq.staleTime ∧ s.rpq.staleTime ≤ 255

/-- Soiling ratios never exceed 4096 (R108, R112), and the sums and counters of the day are held at their limits (R110). -/
structure EstimatorInv (x : Seu) : Prop where
  ratio : ∀ r, (tget x.rows r).ratio ≤ 4096
  passes : ∀ r, (tget x.rows r).fullPasses ≤ Config.countLimit ∧ (tget x.rows r).partPasses ≤ Config.countLimit
  daySum : x.daySum ≤ 16000
  refCount : x.refCount ≤ Config.countLimit
  yDay : x.yDay ≤ 16000

/-- An account whose saturation flag is clear is in balance (R160), and no bucket passes the limit (R155). -/
structure Buckets.Sound (b : Buckets) : Prop where
  balance : b.saturated = false → b.produced + b.soiling + b.service + b.stow + b.outage = b.expected + b.surplus
  limit : b.produced ≤ Config.bucketLimit ∧ b.expected ≤ Config.bucketLimit ∧ b.surplus ≤ Config.bucketLimit ∧
    b.soiling ≤ Config.bucketLimit ∧ b.service ≤ Config.bucketLimit ∧ b.stow ≤ Config.bucketLimit ∧
    b.outage ≤ Config.bucketLimit

/-- Every row account and every zone account is in balance (R160). -/
structure AccountsInv (y : Yac) : Prop where
  rows : ∀ r, (tget y.rows r).buckets.Sound ∧ (tget y.rows r).nodata ≤ Config.countLimit
  zones : ∀ z, (tget y.zones z).buckets.Sound ∧ (tget y.zones z).recovered ≤ Config.bucketLimit

/-! ### Places: rows and robots together (R7, R22) -/

/-- A robot's position fits its state (R28, Table 2-2): a robot under an order is on a table, one aboard is on a carrier, and
a PARKED robot and an empty slot are docked. -/
def Robot.placed (v : Robot) : Prop :=
  (offDock v.state = true → v.position = .onTable) ∧ (v.state = .aboard → v.position = .onCarrier) ∧
  (v.state = .parked ∨ v.state = .empty → v.position = .docked)

/-- A hold is asked for the purpose of its requester: PASS by a worklist entry, BOARD or ALIGHT by a transfer request, and
ALIGHT by storm parking (Table 1-3). -/
def Hold.fits (h : Hold) : Prop :=
  match h.by_ with
  | .entry _ _ => h.purpose = .pass
  | .request _ => h.purpose ≠ .pass
  | .storm _ => h.purpose = .alight

/-- Rows and robots together. A row counts at most one robot (R22); a row names as present a robot whose row it is, and so does
the reservation of an occupied, waiting or locked row (R7, R19); a robot that has a row counts against it. A row is HELD within
an event only (R11). The occupying robot of an OCCUPIED or STOW_WAIT row is under an order there, a robot under an order is the
occupying robot of its row, and a faulted or lost robot off its dock stands on a LOCKED row (R7, R16). A LOCKED row counts a
robot (R16, R19). A robot that is gone or on a carrier has no row (Table 2-1), and a STRANDED robot has no order (R38). -/
structure PlaceInv (x : Rac) (y : Fou) : Prop where
  one : ∀ r, (tget x.rows r).present = none ∨ (tget x.rows r).incoming = none
  present : ∀ r k, (tget x.rows r).present = some k → (tget y.robots k).row = some r
  reserved : ∀ r v, (tget x.rows r).incoming = some v →
    (tget x.rows r).state ∈ [RowState.occupied, .stowWait, .locked] → (tget y.robots v.robot).row = some r
  held : ∀ r, (tget x.rows r).state ≠ .held
  occupied : ∀ r, (tget x.rows r).state = .occupied ∨ (tget x.rows r).state = .stowWait →
    ∃ k, occupyingRobot (tget x.rows r) = some k ∧ offDock (tget y.robots k).state = true
  locked : ∀ r, (tget x.rows r).state = .locked → (tget x.rows r).present ≠ none ∨ (tget x.rows r).incoming ≠ none
  holds : ∀ r h, (tget x.rows r).hold = some h → h.fits
  counted : ∀ k r, (tget y.robots k).row = some r →
    if (tget y.robots k).state = .alighting then reservedFor (tget x.rows r) k = true
    else (tget x.rows r).present = some k ∨ ((tget x.rows r).state = .locked ∧ reservedFor (tget x.rows r) k = true)
  moving : ∀ k, offDock (tget y.robots k).state = true → ∃ r, (tget y.robots k).row = some r ∧
    ((tget x.rows r).state = .occupied ∨ (tget x.rows r).state = .stowWait) ∧ occupyingRobot (tget x.rows r) = some k
  out : ∀ k, (tget y.robots k).state = .fault ∨ (tget y.robots k).state = .lost → (tget y.robots k).position = .onTable →
    ∃ r, (tget y.robots k).row = some r ∧ (tget x.rows r).state = .locked
  nowhere : ∀ k, (tget y.robots k).state = .empty ∨ (tget y.robots k).position = .onCarrier → (tget y.robots k).row = none
  placed : ∀ k, (tget y.robots k).placed
  stranded : ∀ k, (tget y.robots k).state = .stranded → (tget y.robots k).orders.slot = none

/-! ### Ports (chapter 10) -/

/-- The command a context is of. -/
def Context.cmd (c : Context) : Option Cmd :=
  match c with
  | .none => Option.none
  | .action cmd _ => some cmd
  | .settings cmd _ _ _ => some cmd
  | .stream cmd _ => some cmd
  | .readParams cmd _ _ => some cmd
  | .readCopy _ _ => Option.none

/-- The command under way on a port is one of the port's role (R178, R185). -/
def RoleInv (s : State) : Prop :=
  ∀ (p : Port) (c : Cmd), (s.port p).context.cmd = some c → c.onPort p = true

/-- While a stream of row map entries is open, the freeze state is FROZEN (R3, R96). -/
def MapStreamInv (s : State) : Prop :=
  ∀ got, s.plant.context = .stream .rowmapData got → s.pls.freeze = .frozen

/-! ### Vocabulary of the command statements -/

/-- The state with the controller of one port replaced. -/
def State.setPort (s : State) (p : Port) (x : PortCtl) : State :=
  match p with
  | .plant => { s with plant := x }
  | .tracker => { s with tracker := x }
  | .fleet => { s with fleet := x }

/-- What a command of the table is on its port: the command and the data bytes that follow its command byte; none for the
entries, fields and bytes that continue a command under way, for an unknown command byte, and for what is no byte. -/
def sentBytes (i : Instr) : Option (Port × Cmd × List Byte) :=
  match i with
  | .status port => some (port, .status, [])
  | .freeze port => some (port, .freeze, [])
  | .thaw port => some (port, .thaw, [])
  | .rowmapWindow port params => some (port, .rowmapWindow, params)
  | .rowmapData port => some (port, .rowmapData, [])
  | .rowmapEntry _ _ _ _ => none
  | .rowExclude port params => some (port, .rowExclude, params)
  | .zoneWrite port => some (port, .zoneWrite, [])
  | .planRanges port => some (port, .planRanges, [])
  | .planRangeEntry _ _ _ => none
  | .roundSetup port => some (port, .roundSetup, [])
  | .planFlip port => some (port, .planFlip, [])
  | .roundStart port => some (port, .roundStart, [])
  | .roundStop port params => some (port, .roundStop, params)
  | .energyOpen port params => some (port, .energyOpen, params)
  | .energyData port => some (port, .energyData, [])
  | .energyValue _ _ => none
  | .dayClose port => some (port, .dayClose, [])
  | .stormDeclare port => some (port, .stormDeclare, [])
  | .stormCancel port => some (port, .stormCancel, [])
  | .timingWrite port => some (port, .timingWrite, [])
  | .arbiterWrite port => some (port, .arbiterWrite, [])
  | .carrierSpans port params => some (port, .carrierSpans, params)
  | .carrierEnrol port params => some (port, .carrierEnrol, params)
  | .carrierRetire port params => some (port, .carrierRetire, params)
  | .robotEnrol port params => some (port, .robotEnrol, params)
  | .robotRetire port params => some (port, .robotRetire, params)
  | .robotRecovered port params => some (port, .robotRecovered, params)
  | .robotMove port params => some (port, .robotMove, params)
  | .accountsClear port => some (port, .accountsClear, [])
  | .readRow port params => some (port, .readRow, params)
  | .readRobot port params => some (port, .readRobot, params)
  | .readCarrier port params => some (port, .readCarrier, params)
  | .readAccount port params => some (port, .readAccount, params)
  | .readWorklist port => some (port, .readWorklist, [])
  | .readPlan port params => some (port, .readPlan, params)
  | .readReport port => some (port, .readReport, [])
  | .takeNotice port => some (port, .takeNotice, [])
  | .held port params => some (port, .held, params)
  | .holdRefused port params => some (port, .holdRefused, params)
  | .stowWanted port params => some (port, .stowWanted, params)
  | .stowed port params => some (port, .stowed, params)
  | .forcedStow port params => some (port, .forcedStow, params)
  | .unstowed port params => some (port, .unstowed, params)
  | .wind port params => some (port, .wind, params)
  | .takeOrder port => some (port, .takeOrder, [])
  | .robotAccept port slot fields => some (port, .robotReport, [slot, 0x01#8] ++ fields)
  | .refuse port slot fields => some (port, .robotReport, [slot, 0x02#8] ++ fields)
  | .done port slot fields => some (port, .robotReport, [slot, 0x03#8] ++ fields)
  | .progress port slot fields => some (port, .robotReport, [slot, 0x04#8] ++ fields)
  | .docked port slot fields => some (port, .robotReport, [slot, 0x05#8] ++ fields)
  | .aboard port slot fields => some (port, .robotReport, [slot, 0x06#8] ++ fields)
  | .robotFault port slot fields => some (port, .robotReport, [slot, 0x07#8] ++ fields)
  | .robotFaultClear port slot fields => some (port, .robotReport, [slot, 0x08#8] ++ fields)
  | .battery port slot fields => some (port, .robotReport, [slot, 0x09#8] ++ fields)
  | .alive port slot fields => some (port, .robotReport, [slot, 0x0A#8] ++ fields)
  | .carrierAccept port carrier fields => some (port, .carrierReport, [carrier, 0x01#8] ++ fields)
  | .arrived port carrier fields => some (port, .carrierReport, [carrier, 0x02#8] ++ fields)
  | .garaged port carrier fields => some (port, .carrierReport, [carrier, 0x03#8] ++ fields)
  | .carrierFault port carrier fields => some (port, .carrierReport, [carrier, 0x04#8] ++ fields)
  | .carrierFaultClear port carrier fields => some (port, .carrierReport, [carrier, 0x05#8] ++ fields)
  | .unknownCommand _ _ => none
  | .readByte _ _ => none
  | .selectRelease _ _ => none
  | .portReset _ _ => none
  | .powerOnReset => none
  | .holdTimeout _ => none
  | .acceptTimeout _ => none
  | .robotSilenceTimeout _ => none
  | .travelTimeout _ => none
  | .dropRetryTimeout _ => none
  | .parkDelayTimeout _ => none
  | .periodTimeout => none
  | .timeLimitTimeout => none
  | .windSilenceTimeout => none
  | .quietTimeout => none
  | .releaseTimeout => none
  | .parkingDeadline => none
  | .stormAlightRetry _ => none
  | .staleExpiry => none
  | .settingsField _ _ => none
  | .unknownReportKind port ofCarrier unit kind =>
    some (port, (if ofCarrier then .carrierReport else .robotReport), [unit, kind])

/-- The port whose bytes a command of the table is; none for a select release, a reset and a timer. -/
def bytesOn (i : Instr) : Option Port :=
  match i with
  | .status port => some port
  | .freeze port => some port
  | .thaw port => some port
  | .rowmapWindow port _ => some port
  | .rowmapData port => some port
  | .rowmapEntry port _ _ _ => some port
  | .rowExclude port _ => some port
  | .zoneWrite port => some port
  | .planRanges port => some port
  | .planRangeEntry port _ _ => some port
  | .roundSetup port => some port
  | .planFlip port => some port
  | .roundStart port => some port
  | .roundStop port _ => some port
  | .energyOpen port _ => some port
  | .energyData port => some port
  | .energyValue port _ => some port
  | .dayClose port => some port
  | .stormDeclare port => some port
  | .stormCancel port => some port
  | .timingWrite port => some port
  | .arbiterWrite port => some port
  | .carrierSpans port _ => some port
  | .carrierEnrol port _ => some port
  | .carrierRetire port _ => some port
  | .robotEnrol port _ => some port
  | .robotRetire port _ => some port
  | .robotRecovered port _ => some port
  | .robotMove port _ => some port
  | .accountsClear port => some port
  | .readRow port _ => some port
  | .readRobot port _ => some port
  | .readCarrier port _ => some port
  | .readAccount port _ => some port
  | .readWorklist port => some port
  | .readPlan port _ => some port
  | .readReport port => some port
  | .takeNotice port => some port
  | .held port _ => some port
  | .holdRefused port _ => some port
  | .stowWanted port _ => some port
  | .stowed port _ => some port
  | .forcedStow port _ => some port
  | .unstowed port _ => some port
  | .wind port _ => some port
  | .takeOrder port => some port
  | .robotAccept port _ _ => some port
  | .refuse port _ _ => some port
  | .done port _ _ => some port
  | .progress port _ _ => some port
  | .docked port _ _ => some port
  | .aboard port _ _ => some port
  | .robotFault port _ _ => some port
  | .robotFaultClear port _ _ => some port
  | .battery port _ _ => some port
  | .alive port _ _ => some port
  | .carrierAccept port _ _ => some port
  | .arrived port _ _ => some port
  | .garaged port _ _ => some port
  | .carrierFault port _ _ => some port
  | .carrierFaultClear port _ _ => some port
  | .unknownCommand port _ => some port
  | .readByte port _ => some port
  | .selectRelease _ _ => none
  | .portReset _ _ => none
  | .powerOnReset => none
  | .holdTimeout _ => none
  | .acceptTimeout _ => none
  | .robotSilenceTimeout _ => none
  | .travelTimeout _ => none
  | .dropRetryTimeout _ => none
  | .parkDelayTimeout _ => none
  | .periodTimeout => none
  | .timeLimitTimeout => none
  | .windSilenceTimeout => none
  | .quietTimeout => none
  | .releaseTimeout => none
  | .parkingDeadline => none
  | .stormAlightRetry _ => none
  | .staleExpiry => none
  | .settingsField port _ => some port
  | .unknownReportKind port _ _ _ => some port

/-- The state in which an open interval has been closed (R101, R103). -/
def intervalClosed (s : State) : State := (closeOpen s.work).toState

/-- The state a command byte finds: on the plant port it closes an open interval, unless it is the interval's stream command
(R101). -/
def closedAt (p : Port) (b : Byte) (s : State) : State :=
  if p = .plant ∧ ¬ (b = Cmd.energyData.code ∧ s.seu.streamSeen = false) then intervalClosed s else s

/-- A port that takes bytes (R183) and whose command byte closes no interval (R101). -/
structure Ready (p : Port) (s : State) : Prop where
  free : (s.port p).resetHeld = false
  closed : p = .plant → s.seu.intervalOpen = false

/-- A port that has ended its command with a result: the pair holds the result and the command's code (R179), and no command is
under way. -/
def answeredPort (r : Result) (code : Byte) : PortCtl :=
  { lastResult := r, code := some code, context := .none, partialBits := [], dataOut := 0#8, resetHeld := false }

/-- The state in which a port has answered a command, and only the port has changed. -/
def answered (p : Port) (c : Cmd) (r : Result) (s : State) : State := s.setPort p (answeredPort r c.code)

/-- A port that takes its next byte as the first of a copy, which its read has just taken; the last byte makes the removal
(R180). -/
def copying (p : Port) (bytes : List Byte) (m : Removal) (s : State) : State :=
  s.setPort p { s.port p with context := .readCopy bytes m, partialBits := [], dataOut := 0#8 }

/-- The state with a row's record replaced: its class is placed into the accumulator when its state or exclusion has changed and the
class has the higher precedence (R26), the row joins the tail of the notice list when its slot fills and leaves it when its slot empties
(R24), and the tracker attention follows the list (R176). -/
def State.withRow (s : State) (r : Row) (x : RowRec) : State :=
  let old := tget s.rac.rows r
  let raised := (old.state ≠ x.state ∨ old.excluded ≠ x.excluded) ∧ classRank x.acc < classRank (rowClass x)
  let notices :=
    if old.notice = none ∧ x.notice ≠ none then s.rac.notices ++ [r]
    else if old.notice ≠ none ∧ x.notice = none then s.rac.notices.filter (fun q => decide (q ≠ r))
    else s.rac.notices
  { s with rac := { s.rac with
      rows := tset s.rac.rows r (if raised then { x with acc := rowClass x } else x)
      notices := notices
      attention := !notices.isEmpty } }

/-- The state with a robot's record replaced. -/
def State.withRobot (s : State) (k : Slot) (x : Robot) : State :=
  { s with fou := { s.fou with robots := tset s.fou.robots k x } }

/-- The state with a carrier's record replaced. -/
def State.withCarrier (s : State) (c : CarrierIx) (x : Carrier) : State :=
  { s with txs := { s.txs with carriers := tset s.txs.carriers c x } }

/-- The state in which a group of records has been posted (R171, R172, R174). -/
def State.posted (s : State) (bodies : List RecordBody) : State := (postGroup bodies s.work).toState

/-- The secured test (R148): where it passes, the weather is SECURED with its deadline timer stopped and no storm alighting, and
the record follows (R154). The kept ask counts, cleared with the storm alightings, are the model's own (log entry 33). -/
def State.securedTested (s : State) : State :=
  if s.wxm.weather = .parking ∧ secured s.rac.rows s.fou.robots s.txs.carriers = true then
    State.posted
      { s with wxm := { s.wxm with
          weather := .secured, deadlineTimer := none, alights := tfill 4 none, askKept := tfill 4 0 } }
      [.stormState .parking .secured .drained s.wxm.lastSample s.wxm.declared (strandedCount s.work)]
  else s

/-- The drain test (R94): where it passes, the freeze state is FROZEN, and the record follows. -/
def State.drainTested (s : State) : State :=
  if s.pls.freeze = .freezeAsked ∧ drained s.rac.rows s.fou.robots s.txs.carriers = true then
    State.posted { s with pls := { s.pls with freeze := .frozen } } [.freezeDone]
  else s

/-- The state in which both tests have been made (R7, R28, R56), the secured test first (the model's choice, log entry 5). -/
def State.tested (s : State) : State := s.securedTested.drainTested

/-- The state in which a row has its new record, and the tests have been made if its state has changed (R7). -/
def State.changedRow (s : State) (r : Row) (x : RowRec) : State :=
  if (tget s.rac.rows r).state = x.state then s.withRow r x else (s.withRow r x).tested

/-- The state in which a robot has its new record, and the tests have been made if its state has changed (R28). -/
def State.changedRobot (s : State) (k : Slot) (x : Robot) : State :=
  if (tget s.fou.robots k).state = x.state then s.withRobot k x else (s.withRobot k x).tested

/-- The state in which a carrier has its new record, and the tests have been made if its state has changed (R56). -/
def State.changedCarrier (s : State) (c : CarrierIx) (x : Carrier) : State :=
  if (tget s.txs.carriers c).state = x.state then s.withCarrier c x else (s.withCarrier c x).tested

/-- The state in which a new order has been given to a unit (R36). -/
def State.issued (s : State) (u : FleetUnit) (kind : OrderKind) (cls : OrderClass) : State :=
  (issueOrder u kind cls s.work).toState

/-- The state in which the order in a unit's slot has ended, with the successor that follows it (R37, R38). -/
def State.orderEnded (s : State) (u : FleetUnit) : State := (endOrder u s.work).toState

/-- The state in which a unit's orders are discarded (R38). -/
def State.ordersDiscarded (s : State) (u : FleetUnit) : State := (discardOrders u s.work).toState

/-- The state with the order side of a unit replaced. -/
def State.withOrders (s : State) (u : FleetUnit) (x : UnitOrders) : State :=
  match u with
  | .robot k => s.withRobot k { tget s.fou.robots k with orders := x }
  | .carrier c => { s with fou := { s.fou with carrierOrders := tset s.fou.carrierOrders c x } }

/-- The state with the two tiers of the fleet order queue replaced; the fleet attention follows the queue (R34, R176). -/
def State.withQueue (s : State) (urgent routine : List FleetUnit) : State :=
  { s with fou := { s.fou with
      urgentQ := urgent, routineQ := routine, attention := !(urgent.isEmpty && routine.isEmpty) } }

/-- The state in which a unit stands in no tier of the queue. -/
def State.unqueued (s : State) (u : FleetUnit) : State :=
  s.withQueue (s.fou.urgentQ.filter (fun v => decide (v ≠ u))) (s.fou.routineQ.filter (fun v => decide (v ≠ u)))

/-- The state in which a unit has joined the tail of a tier. -/
def State.queued (s : State) (u : FleetUnit) (cls : OrderClass) : State :=
  match cls with
  | .urgent => s.withQueue (s.fou.urgentQ ++ [u]) s.fou.routineQ
  | .routine => s.withQueue s.fou.urgentQ (s.fou.routineQ ++ [u])

/-- The state with the back bank changed (section 4.1). -/
def State.withBack (s : State) (f : Bank → Bank) : State :=
  match s.pls.front with
  | .a => { s with pls := { s.pls with bankB := f s.pls.bankB } }
  | .b => { s with pls := { s.pls with bankA := f s.pls.bankA } }

/-- The plant port after a complete field of a settings command: the next field, or no command; a field that met a condition
replaces the pair (R178). -/
def fieldTaken (c : Cmd) (next : Context) (r : Option Result) (s : State) : State :=
  s.setPort .plant { s.plant with
    context := next, partialBits := [], dataOut := 0#8
    lastResult := r.getD s.plant.lastResult
    code := if r = none then s.plant.code else some c.code }

/-- A report queue with its attention judged (R174). -/
def Rpq.judged (now : Time) (x : Rpq) : Rpq := { x with attention := plantAttention now x }

/-- An end of an occupancy or wait, as a state: the row of a robot, if it has one (R14, R15). -/
def State.occupancyEnded (s : State) (r : Option Row) : State :=
  match r with
  | some r => s.withRow r (endOccupancyRow (stormOn s.wxm.weather) (tget s.rac.rows r))
  | none => s

/-- A robot's report has been taken: its last report time (R40). -/
def State.heard (s : State) (k : Slot) : State := s.withRobot k { tget s.fou.robots k with lastReport := s.now }

/-- The state in which a robot has been asked back (R32): a PASSING robot is RETURNING with a GO_HEAD issued; for a RETURNING one
a GO_HEAD that waits in the ROUTINE tier is given again when the new one is URGENT. -/
def State.askedBack (s : State) (k : Slot) (cls : OrderClass) : State :=
  let v := tget s.fou.robots k
  if v.state = .passing then
    (s.withRobot k { v with state := .returning, position := .onTable }).issued (.robot k) .goHead cls
  else if v.state = .returning ∧ cls = .urgent ∧
      v.orders.slot.any (fun o => decide (o.kind = .goHead ∧ o.status = .queued ∧ o.cls = .routine)) = true then
    s.issued (.robot k) .goHead cls
  else s

/-- The state in which a carrier without a task has been sent to its garage (R80 to R82): a PARK is issued and its travel timer
starts. -/
def State.sentToGarage (s : State) (c : CarrierIx) (cls : OrderClass) : State :=
  let y := tget s.txs.carriers c
  (s.changedCarrier c { y with
    state := .toGarage, task := none, idleStart := none
    travelTimer := some (s.now, distance (posInt y) ((spanLow y : Int) - 1)) }).issued (.carrier c) .park cls

/-- The state in which a robot has become STRANDED where it stood (R50): one that was PASSING or RETURNING hands on a partial
pass and counts it (R51), and its orders are gone (R38). -/
def State.strandedNow (s : State) (k : Slot) : State :=
  let v := tget s.fou.robots k
  let passing := v.state = .passing ∨ v.state = .returning
  let w := { v with partPasses := if passing then min 65535 (v.partPasses + 1) else v.partPasses }
  let passed := match v.row with
    | some p => if passing then (passResult p k v.passMode false v.highest (s.withRobot k w).work).toState else s
    | none => s
  (passed.ordersDiscarded (.robot k)).withRobot k { w with
    state := .stranded, orders := { v.orders with slot := none, successor := none } }

/-- The STRANDED record of a robot: its carrier when its position is ON_CARRIER, and otherwise its row (R149, R154). -/
def strandedRecord (k : Slot) (v : Robot) (cause : StrandCause) : RecordBody :=
  .stranded k v.position
    (match v.position with
      | .onCarrier => v.carrier.map StrandPlace.carrier
      | .onTable => v.row.map StrandPlace.row
      | .docked => v.row.map StrandPlace.row) cause

/-- The state with a worklist entry changed. -/
def State.withEntry (s : State) (pos : Nat) (f : Entry → Entry) : State :=
  { s with rsc := { s.rsc with worklist := s.rsc.worklist.modify pos f } }

/-- The state in which a worklist entry has ended (R127): its robot's task link is cleared if it names the entry. -/
def State.entryEnded (s : State) (pos : Nat) (st : EntryState) (why : Option SkipReason) : State :=
  let t := s.withEntry pos (fun e => { e with state := st, skip := why })
  match s.rsc.worklist[pos]?.bind (·.robot) with
  | some k =>
    let v := tget s.fou.robots k
    if v.link = some (.entry s.rsc.number pos) then t.withRobot k { v with link := none } else t
  | none => t

/-- The state with a request of the pool changed. -/
def State.withRequest (s : State) (seq : Half) (f : Request → Request) : State :=
  { s with txs := { s.txs with pool := s.txs.pool.map (fun q => if q.seq = seq then f q else q) } }

/-- A block in which no change sets anything further off: no round is under way and every entry has ended (R127), the transfer
pool is empty (R59), no storm alighting stands (R147), and neither the secured test nor the drain test is due (R94, R148). -/
structure Settled (s : State) : Prop where
  round : s.rsc.state = .none
  ended : ∀ e ∈ s.rsc.worklist, e.ended = true
  pool : s.txs.pool = []
  alights : ∀ c, tget s.wxm.alights c = none
  weather : s.wxm.weather ≠ .parking
  freeze : s.pls.freeze ≠ .freezeAsked

end Sys2Proof.Machine
end

