-- ==== Sys2Proof/WellFormed.lean ====
section
/-! DEFINITION. Which commands are sent whole, on a port of their role, as the tables of chapter 10 lay them out. Nothing is
refused for a flaw: the block does with a flawed command what its rules say (R178, R185). -/

namespace Sys2Proof

open Sys2Proof.Machine

/-- What is wrong with a command as it is written. -/
inductive Flaw where
  /-- The command is not of the port's role (R185). -/
  | role
  /-- The data bytes are not those the command takes (Tables 10-2 to 10-4, Table 11-3). -/
  | length
  /-- A byte that is to name no command, or no report, does name one (R178, R188). -/
  | value
  /-- A byte only partly clocked has fewer than eight bits (R181). -/
  | bits
deriving DecidableEq, Repr

/-- A flaw, when its condition holds. -/
def flawIf (b : Bool) (x : Flaw) : Option Flaw := if b then some x else none

/-- The data bytes that an action or a read takes, with the fields of a report's kind. -/
def byteCount (c : Cmd) (bs : List Byte) : Nat := c.params + (kindFields c (nth bs 1)).getD 0

/-- The flaw of a command sent on a port with its data bytes. -/
def sentFlaw (p : Port) (c : Cmd) (bs : List Byte) : Option Flaw :=
  (flawIf (!c.onPort p) .role).or (flawIf (decide (bs.length ≠ byteCount c bs)) .length)

/-- The flaw of a command, if it has one. A timer event, a port reset, a power-on reset and a read byte have none. -/
def Instr.flaw (i : Instr) : Option Flaw :=
  match i with
  | .status port => sentFlaw port .status []
  | .freeze port => sentFlaw port .freeze []
  | .thaw port => sentFlaw port .thaw []
  | .rowmapWindow port params => sentFlaw port .rowmapWindow params
  | .rowmapData port => sentFlaw port .rowmapData []
  | .rowmapEntry port _ _ _ => flawIf (decide (port ≠ .plant)) .role
  | .rowExclude port params => sentFlaw port .rowExclude params
  | .zoneWrite port => sentFlaw port .zoneWrite []
  | .planRanges port => sentFlaw port .planRanges []
  | .planRangeEntry port _ _ => flawIf (decide (port ≠ .plant)) .role
  | .roundSetup port => sentFlaw port .roundSetup []
  | .planFlip port => sentFlaw port .planFlip []
  | .roundStart port => sentFlaw port .roundStart []
  | .roundStop port params => sentFlaw port .roundStop params
  | .energyOpen port params => sentFlaw port .energyOpen params
  | .energyData port => sentFlaw port .energyData []
  | .energyValue port _ => flawIf (decide (port ≠ .plant)) .role
  | .dayClose port => sentFlaw port .dayClose []
  | .stormDeclare port => sentFlaw port .stormDeclare []
  | .stormCancel port => sentFlaw port .stormCancel []
  | .timingWrite port => sentFlaw port .timingWrite []
  | .arbiterWrite port => sentFlaw port .arbiterWrite []
  | .carrierSpans port params => sentFlaw port .carrierSpans params
  | .carrierEnrol port params => sentFlaw port .carrierEnrol params
  | .carrierRetire port params => sentFlaw port .carrierRetire params
  | .robotEnrol port params => sentFlaw port .robotEnrol params
  | .robotRetire port params => sentFlaw port .robotRetire params
  | .robotRecovered port params => sentFlaw port .robotRecovered params
  | .robotMove port params => sentFlaw port .robotMove params
  | .accountsClear port => sentFlaw port .accountsClear []
  | .readRow port params => sentFlaw port .readRow params
  | .readRobot port params => sentFlaw port .readRobot params
  | .readCarrier port params => sentFlaw port .readCarrier params
  | .readAccount port params => sentFlaw port .readAccount params
  | .readWorklist port => sentFlaw port .readWorklist []
  | .readPlan port params => sentFlaw port .readPlan params
  | .readReport port => sentFlaw port .readReport []
  | .takeNotice port => sentFlaw port .takeNotice []
  | .held port params => sentFlaw port .held params
  | .holdRefused port params => sentFlaw port .holdRefused params
  | .stowWanted port params => sentFlaw port .stowWanted params
  | .stowed port params => sentFlaw port .stowed params
  | .forcedStow port params => sentFlaw port .forcedStow params
  | .unstowed port params => sentFlaw port .unstowed params
  | .wind port params => sentFlaw port .wind params
  | .takeOrder port => sentFlaw port .takeOrder []
  | .robotAccept port _ fields => sentFlaw port .robotReport ([0#8, 0x01#8] ++ fields)
  | .refuse port _ fields => sentFlaw port .robotReport ([0#8, 0x02#8] ++ fields)
  | .done port _ fields => sentFlaw port .robotReport ([0#8, 0x03#8] ++ fields)
  | .progress port _ fields => sentFlaw port .robotReport ([0#8, 0x04#8] ++ fields)
  | .docked port _ fields => sentFlaw port .robotReport ([0#8, 0x05#8] ++ fields)
  | .aboard port _ fields => sentFlaw port .robotReport ([0#8, 0x06#8] ++ fields)
  | .robotFault port _ fields => sentFlaw port .robotReport ([0#8, 0x07#8] ++ fields)
  | .robotFaultClear port _ fields => sentFlaw port .robotReport ([0#8, 0x08#8] ++ fields)
  | .battery port _ fields => sentFlaw port .robotReport ([0#8, 0x09#8] ++ fields)
  | .alive port _ fields => sentFlaw port .robotReport ([0#8, 0x0A#8] ++ fields)
  | .carrierAccept port _ fields => sentFlaw port .carrierReport ([0#8, 0x01#8] ++ fields)
  | .arrived port _ fields => sentFlaw port .carrierReport ([0#8, 0x02#8] ++ fields)
  | .garaged port _ fields => sentFlaw port .carrierReport ([0#8, 0x03#8] ++ fields)
  | .carrierFault port _ fields => sentFlaw port .carrierReport ([0#8, 0x04#8] ++ fields)
  | .carrierFaultClear port _ fields => sentFlaw port .carrierReport ([0#8, 0x05#8] ++ fields)
  | .unknownCommand _ value => flawIf (cmdOf value).isSome .value
  | .readByte _ _ => none
  | .selectRelease _ clocked => flawIf (decide (8 ≤ clocked.length)) .bits
  | .portReset _ _ => none
  | .powerOnReset => none
  | .holdTimeout _ => none
  | .acceptTimeout _ => none
  | .robotSilenceTimeout _ => none
  | .travelTimeout _ => none
  | .dropRetryTimeout _ => none
  | .parkDelayTimeout _ => none
  | .periodTimeout => none
  | .timeLimitTimeout => none
  | .windSilenceTimeout => none
  | .quietTimeout => none
  | .releaseTimeout => none
  | .parkingDeadline => none
  | .stormAlightRetry _ => none
  | .staleExpiry => none
  | .settingsField port bytes => (flawIf (decide (port ≠ .plant)) .role).or
      (flawIf (decide (bytes.length = 0 ∨ 3 < bytes.length)) .length)
  | .unknownReportKind port ofCarrier _ kind => (flawIf (decide (port ≠ .fleet)) .role).or
      (flawIf (if ofCarrier then carrierKindFields kind else robotKindFields kind).isSome .value)

/-- A command sent whole on a port of its role. -/
def Instr.wellFormed (i : Instr) : Bool := i.flaw.isNone

end Sys2Proof
end

