-- ==== Sys2Proof/Certificates/Slice0/Obligations.lean ====
section
/-! DEFINITION. The statements for the provers. Each names the section of the manual it formalises; log entries are the
files of notes/assumptions. The next state of a command is written out whole, so that what it does not name is unchanged. -/

open Sys2Proof Sys2Proof.Machine

/-! ### The block as a machine -/

/-- A step takes the command at the front of the queue and runs it on the state with the queue's rest (first in, first
out). -/
def Obligations.StepRunsFrontCommand : Prop :=
  ∀ (c : Instr) (rest : List Instr) (s : State), s.pending = c :: rest → step s = exec c { s with pending := rest }

/-- On an empty queue one second passes and the timers then due wait as commands (the model's choice, log entry 1; the
seconds counter and the timeouts are section 1.5's). Which they are: a timer is among them exactly when it runs and has
reached its setting, with what its rule asks besides (holds R10, accept timers R39, silences R48, travels R75, drop retries
R72, parks R80, the period R120, the time limit R133, the wind silence R141, the quiet timer R143, the release R151, the
deadline R149, storm alightings R147). The stale condition (R175) waits as a command where the attention does not stand
already. That a timer has reached a setting of t at t seconds is log entry 2's. -/
def Obligations.EmptyQueueIsASecond : Prop :=
  (∀ s : State, s.pending = [] →
    step s = .next { s with
      now := s.now + 1, pending := (dueTimers { s with now := s.now + 1 }).map Timer.command }) ∧
  ∀ (s : State) (t : Timer),
    let reached (timer : Option Time) (timeout : Nat) := ∃ start, timer = some start ∧ timeout ≤ (s.now - start).toNat
    let ran (timer : Option (Time × Nat)) := ∃ start length, timer = some (start, length) ∧ length ≤ (s.now - start).toNat
    let sent (x : UnitOrders) := ∃ o, x.slot = some o ∧ o.status = .sent ∧ reached o.acceptTimer s.fou.acceptTimeout
    let x := s.wxm
    let storm := (∃ v, x.lastSample = some v ∧ x.stormAt ≤ v) ∨ x.declared = true ∨ x.silenceExpired = true
    t ∈ dueTimers s ↔ match t with
      | .hold r => (tget s.rac.rows r).state = .holdAsked ∧ reached (tget s.rac.rows r).holdTimer s.rac.holdTimeout
      | .accept (.robot k) => sent (tget s.fou.robots k).orders
      | .accept (.carrier c) => sent (tget s.fou.carrierOrders c)
      | .silence k => (tget s.fou.robots k).state ∉ [RobotState.empty, .lost, .stranded] ∧
          reached (some (tget s.fou.robots k).lastReport) s.fou.silenceTimeout
      | .travel c => (tget s.txs.carriers c).state ≠ .halted ∧ ∃ start distance,
          (tget s.txs.carriers c).travelTimer = some (start, distance) ∧
            s.txs.secondsPerRow * distance + s.txs.travelSlack ≤ (s.now - start).toNat
      | .dropRetry seq => ∃ q ∈ s.txs.pool, q.seq = seq ∧ reached q.retry 10
      | .park c => (tget s.txs.carriers c).state = .idle ∧ (tget s.txs.carriers c).task = none ∧
          (tget s.txs.carriers c).load = none ∧ s.txs.parkDelay ≠ 0 ∧
          reached (tget s.txs.carriers c).idleStart s.txs.parkDelay
      | .period => ran s.rsc.periodTimer
      | .limit => (s.rsc.state = .active ∨ s.rsc.state = .suspended) ∧ ran s.rsc.limitTimer
      | .wind => x.silenceExpired = false ∧ reached (some x.silenceStart) x.windSilence
      | .quiet => x.weather = .watch ∧ ¬ storm ∧ (∃ v, x.lastSample = some v ∧ v < x.watchAt) ∧
          reached x.quietTimer x.releaseHold
      | .release => (x.weather = .parking ∨ x.weather = .secured) ∧ ¬ storm ∧ reached x.releaseTimer x.releaseHold
      | .deadline => x.weather = .parking ∧ reached x.deadlineTimer x.parkingDeadline
      | .alightRetry c => ∃ a, tget x.alights c = some a ∧ reached a.retry 10
      | .stale => s.rpq.attention = false ∧ ∃ head rest, s.rpq.queue = head :: rest ∧
          s.rpq.staleTime ≤ (s.now - head.stamp).toNat

/-- R184: what POWER_ON_RESET leaves, whatever the state before it: every field of the tables of the chapters at its
power-on value, and every port with no command, no partial byte and last result OK with code NONE. The fields of the
model's own (log entries 6, 11 and 12) are left out. -/
def Obligations.PowerOnReset : Prop :=
  ∀ s : State, ∃ t : State, exec .powerOnReset s = .next t ∧ t.now = 0#32 ∧
    (∀ p : Port, (t.port p).lastResult = .ok ∧ (t.port p).code = none ∧ (t.port p).context = .none ∧
      (t.port p).partialBits = []) ∧
    (∀ r : Row, { tget t.rac.rows r with lastForced := false, noticeRead := false } =
      { zone := 0, capacity := 0, length := 0, reference := false, excluded := false, state := .tracking, present := none,
        incoming := none, stowWanted := false, hold := none, attempts := 0, attemptsBy := none, holdTimer := none,
        notice := none, acc := .normal, lastForced := false, noticeRead := false }) ∧
    t.rac.winFirst = 0 ∧ t.rac.winLast = 255 ∧ t.rac.mapPtr = 0 ∧ t.rac.notices = [] ∧ t.rac.attention = false ∧
    t.rac.holdTimeout = 60 ∧
    (∀ k : Slot, { tget t.fou.robots k with passMode := .dry } =
      { serial := 0, state := .empty, position := .docked, row := none, carrier := none, unconfirmed := false, cause := .none
        highest := 0, battery := 0, lastReport := 0, link := none, fullPasses := 0, partPasses := 0, passMode := .dry
        orders := { tagCounter := 0, latestSent := none, slot := none, successor := none } }) ∧
    (∀ c : CarrierIx, tget t.fou.carrierOrders c =
      { tagCounter := 0, latestSent := none, slot := none, successor := none }) ∧
    t.fou.urgentQ = [] ∧ t.fou.routineQ = [] ∧ t.fou.attention = false ∧ t.fou.acceptTimeout = 10 ∧
    t.fou.silenceTimeout = 120 ∧
    (∀ c : CarrierIx, tget t.txs.carriers c =
      if c = 0 then
        { state := .garaged, enabled := true, span := some (0, 255), position := .garage, direction := .up, load := none,
          task := none, travelTimer := none, idleStart := none, cause := .none }
      else
        { state := .absent, enabled := false, span := none, position := .garage, direction := .up, load := none,
          task := none, travelTimer := none, idleStart := none, cause := .none }) ∧
    t.txs.pool = [] ∧ t.txs.seqCounter = 0#16 ∧
    (t.txs.headHit, t.txs.dirBonus, t.txs.near, t.txs.jump, t.txs.ceiling, t.txs.guardSetting) = (4, 2, 2, 1, 15, 15) ∧
    (t.txs.secondsPerRow, t.txs.travelSlack, t.txs.parkDelay) = (4, 30, 300) ∧
    t.pls.front = .a ∧ t.pls.flipPending = false ∧ t.pls.freeze = .frozen ∧
    (∀ b ∈ [t.pls.bankA, t.pls.bankB], b.ranges = [] ∧
      b.round = { source := .off, period := 240, budget := 16, limit := 360 } ∧
      ∀ z : Zone, tget b.zones z =
        { mode := .skip, trigger := 3900, pDry := 4000, horizon := 7, cost := 20000, minInterval := 2, gain := 4,
          minBattery := 40 }) ∧
    (∀ r : Row, tget t.seu.rows r =
      { reading := none, ratio := 4096, lastClean := none, fullPasses := 0, partPasses := 0 }) ∧
    (t.seu.openIndex, t.seu.winFirst, t.seu.winLast, t.seu.pointer, t.seu.streamSeen) = (0, 0, 0, some 0, false) ∧
    t.seu.intervalOpen = false ∧ t.seu.lastClosed = none ∧ t.seu.day = 0#16 ∧ t.seu.daySum = 0 ∧ t.seu.refCount = 0 ∧
    t.seu.yDay = 0 ∧ t.seu.gate = 20 ∧
    t.rsc.state = .none ∧ t.rsc.number = 0#16 ∧ t.rsc.due = false ∧ t.rsc.lastOutcome = .none ∧ t.rsc.worklist = [] ∧
    t.rsc.periodTimer = none ∧ t.rsc.limitTimer = none ∧
    t.wxm.weather = .calm ∧ t.wxm.lastSample = none ∧ t.wxm.declared = false ∧ t.wxm.silenceStart = 0#32 ∧
    t.wxm.silenceExpired = false ∧ t.wxm.quietTimer = none ∧ t.wxm.releaseTimer = none ∧ t.wxm.deadlineTimer = none ∧
    (∀ c : CarrierIx, tget t.wxm.alights c = none) ∧
    (t.wxm.watchAt, t.wxm.stormAt, t.wxm.releaseHold, t.wxm.windSilence, t.wxm.parkingDeadline) =
      (120, 180, 900, 30, 180) ∧
    (∀ r : Row, tget t.yac.rows r = { buckets := Buckets.reset, nodata := 0 }) ∧
    (∀ z : Zone, tget t.yac.zones z = { buckets := Buckets.reset, recovered := 0 }) ∧
    Buckets.reset = { produced := 0, expected := 0, surplus := 0, soiling := 0, service := 0, stow := 0, outage := 0
                      saturated := false } ∧
    t.rpq.queue = [] ∧ t.rpq.overrun = 0 ∧ t.rpq.threshold = 16 ∧ t.rpq.staleTime = 20 ∧ t.rpq.attention = false

/-! ### Ports (chapter 10) -/

/-- A port reset (section 10.3) discards the command under way and the partial byte, sets the last result OK with code NONE,
and closes an open interval on the plant port alone; while the input stays asserted the port takes no byte, and everything
else stays. That its release changes nothing else is the model's reading, log entry 11. The input is no state of the part:
that a power-on reset leaves it asserted or released as it is is the model's choice, log entry 12. -/
def Obligations.PortReset : Prop :=
  (∀ (p : Port) (s : State), ∃ x : PortCtl, x.lastResult = .ok ∧ x.code = none ∧ x.context = .none ∧ x.partialBits = [] ∧
    x.resetHeld = true ∧ exec (.portReset p true) s = .next ((if p = .plant then intervalClosed s else s).setPort p x)) ∧
  (∀ (i : Instr) (p : Port) (s : State), bytesOn i = some p → (s.port p).resetHeld = true → exec i s = .next s) ∧
  (∀ (p : Port) (s : State), exec (.portReset p false) s = .next (s.setPort p { s.port p with resetHeld := false })) ∧
  (∀ s : State, ∃ t : State, exec .powerOnReset s = .next t ∧
    ∀ p : Port, (t.port p).resetHeld = (s.port p).resetHeld)

/-- R185: the commands of each port with the number of their parameter bytes, and a command sent on another port: it is
refused with ROLE, and has no effect but that its command byte ends the command under way and, on the plant port, an
open interval. -/
def Obligations.Roles : Prop :=
  (∀ c : Cmd, c.onPort .tracker = true ↔ c ∈ [Cmd.status, .takeNotice, .held, .holdRefused, .stowWanted, .stowed,
    .forcedStow, .unstowed, .wind, .readRow]) ∧
  (∀ c : Cmd, c.onPort .fleet = true ↔ c ∈ [Cmd.status, .takeOrder, .robotReport, .carrierReport, .readRobot,
    .readCarrier]) ∧
  (∀ c : Cmd, c.onPort .plant = true ↔ c ∉ [Cmd.takeNotice, .held, .holdRefused, .stowWanted, .stowed, .forcedStow,
    .unstowed, .wind, .takeOrder, .robotReport, .carrierReport]) ∧
  (∀ c : Cmd, c.params =
    if c ∈ [Cmd.carrierSpans] then 7
    else if c ∈ [Cmd.energyOpen, .robotEnrol] then 4
    else if c ∈ [Cmd.rowExclude, .robotRecovered, .readAccount] then 3
    else if c ∈ [Cmd.rowmapWindow, .robotMove, .wind, .robotReport, .carrierReport] then 2
    else if c ∈ [Cmd.roundStop, .carrierEnrol, .carrierRetire, .robotRetire, .readRow, .readRobot, .readCarrier, .readPlan,
      .held, .holdRefused, .stowWanted, .stowed, .forcedStow, .unstowed] then 1
    else 0) ∧
  ∀ (i : Instr) (p : Port) (c : Cmd) (bs : List Byte) (s : State), sentBytes i = some (p, c, bs) →
    c.onPort p = false → (s.port p).resetHeld = false → exec i s = .next (answered p c .role (closedAt p c.code s))

/-- An action with parameters missing waits with the bytes it has: it has no effect (section 10.2). A command byte cuts the
command under way short (Table 10-1): shown by STATUS, which leaves the pair as it finds it. An action or a settings command
(log entry 27), or a stream with a partial entry, leaves INCOMPLETE with its code; a stream with none, a read and no command
leave the pair. A command byte that names no command leaves UNKNOWN, and a report kind that names no report of the unit
leaves RANGE (that an enrolled robot's last report time then stays is the model's reading, log entry 51); nothing else
changes, and the bytes after are discarded (section 10.2, Table 11-3). SELECT_RELEASE discards the bits of a byte not yet
whole; the command under way, and everything else, stays (section 10.3). -/
def Obligations.CommandContexts : Prop :=
  (∀ (i : Instr) (p : Port) (c : Cmd) (bs : List Byte) (s : State), sentBytes i = some (p, c, bs) → c.onPort p = true →
    c.kind = .action → bs.length < c.params → Ready p s →
    ∃ x : PortCtl, x.context = .action c bs ∧ exec i s = .next (s.setPort p x)) ∧
  (∀ (p : Port) (s : State), Ready p s → ∃ x : PortCtl, exec (.status p) s = .next (s.setPort p x) ∧
    (∀ c got, (s.port p).context = .action c got → x.lastResult = .incomplete ∧ x.code = some c.code) ∧
    (∀ c n got z, (s.port p).context = .settings c n got z → x.lastResult = .incomplete ∧ x.code = some c.code) ∧
    (∀ c got, (s.port p).context = .stream c got → got ≠ [] → x.lastResult = .incomplete ∧ x.code = some c.code) ∧
    (((∃ c, (s.port p).context = .stream c []) ∨ (∃ c got n, (s.port p).context = .readParams c got n) ∨
      (∃ l m, (s.port p).context = .readCopy l m) ∨ (s.port p).context = .none) →
        x.lastResult = (s.port p).lastResult ∧ x.code = (s.port p).code)) ∧
  ((∀ (p : Port) (b : Byte) (s : State), (s.port p).resetHeld = false → cmdOf b = none →
    exec (.unknownCommand p b) s = .next ((closedAt p b s).setPort p (answeredPort .unknown b))) ∧
  (∀ b : Byte, cmdOf b = none ↔ b = 0#8 ∨ 0x2D#8 < b) ∧
  (∀ (unit kind : Byte) (s : State), (s.port .fleet).resetHeld = false → (kind = 0#8 ∨ 10#8 < kind) →
    exec (.unknownReportKind .fleet false unit kind) s = .next (answered .fleet .robotReport .range s)) ∧
  (∀ (unit kind : Byte) (s : State), (s.port .fleet).resetHeld = false → (kind = 0#8 ∨ 5#8 < kind) →
    exec (.unknownReportKind .fleet true unit kind) s = .next (answered .fleet .carrierReport .range s))) ∧
  (∀ (p : Port) (clocked : List Bool) (s : State),
    exec (.selectRelease p clocked) s = .next (s.setPort p { s.port p with partialBits := [] }))

/-- The reads of a row, a robot, a carrier, the worklist, a plan bank and a report take their copies and change nothing
else; a READ_REPORT of a queue that is not empty removes the head when its last byte has been shifted out (R1, R27, R55,
R87, R117, R173). The three bytes of a waiting successor that the manual leaves open are free values (log entry 8), and
log entry 9 says which forms of the fields the model fixes. STATUS with no command under way: its copy is the pair, the
outbound depth of the port, and the weather, freeze and round states (section 10.2, Table 11-1). A data byte of a read
shifts out the next byte of the copy, and the content of data in is ignored; with no copy under way the port shifts out
0 and discards the byte (sections 10.1, 10.2). -/
def Obligations.Reads : Prop :=
  (∀ s : State,
    (∀ (p : Port) (b : Byte), p = .plant ∨ p = .tracker → Ready p s → (s.port p).context = .none →
      exec (.readRow p [b]) s = .next (copying p (readRowCopy (tget s.rac.rows (byteRow b))
        (tget s.seu.rows (byteRow b)) s.seu.day s.seu.yDay) .nothing s)) ∧
    (∀ (p : Port) (k : Slot), p = .plant ∨ p = .fleet → Ready p s → (s.port p).context = .none →
      exec (.readRobot p [BitVec.ofNat 8 k.val]) s = .next { copying p
        (readRobotCopy k s.freeUses (tget s.fou.robots k)) .nothing s with
        freeUses := s.freeUses + if (tget s.fou.robots k).orders.successor = none then 0 else 3 }) ∧
    (∀ (p : Port) (c : CarrierIx), p = .plant ∨ p = .fleet → Ready p s → (s.port p).context = .none →
      exec (.readCarrier p [BitVec.ofNat 8 c.val]) s =
        .next (copying p (readCarrierCopy (tget s.txs.carriers c)) .nothing s)) ∧
    (Ready .plant s → s.plant.context = .none →
      exec (.readWorklist .plant) s = .next (copying .plant (readWorklistCopy s.rsc) .nothing s) ∧
      exec (.readPlan .plant [1#8]) s = .next (copying .plant
        (match s.pls.front with
          | .a => readPlanCopy .b .a s.pls.flipPending s.pls.bankB
          | .b => readPlanCopy .a .b s.pls.flipPending s.pls.bankA) .nothing s) ∧
      exec (.readPlan .plant [0#8]) s = .next (copying .plant
        (match s.pls.front with
          | .a => readPlanCopy .a .a s.pls.flipPending s.pls.bankA
          | .b => readPlanCopy .b .b s.pls.flipPending s.pls.bankB) .nothing s) ∧
      (s.rpq.queue = [] → exec (.readReport .plant) s = .next (copying .plant [0#8, 0#8, 0#8, 0#8, 0#8] .nothing s)) ∧
      (∀ h rest, s.rpq.queue = h :: rest → exec (.readReport .plant) s = .next (copying .plant
        (BitVec.ofNat 8 h.body.kindCode :: numBytes 4 h.stamp.toNat ++ recordFields h.body) .report s)))) ∧
  (∀ (p : Port) (s : State), Ready p s → (s.port p).context = .none →
    let depth :=
      match p with
      | .plant => s.rpq.queue.length
      | .tracker => s.rac.notices.length
      | .fleet => s.fou.urgentQ.length + s.fou.routineQ.length
    exec (.status p) s = .next (copying p
      [BitVec.ofNat 8 (s.port p).lastResult.code, (s.port p).code.getD 0#8, BitVec.ofNat 8 (depth / 256),
        BitVec.ofNat 8 depth, BitVec.ofNat 8 s.wxm.weather.code, BitVec.ofNat 8 s.pls.freeze.code,
        BitVec.ofNat 8 s.rsc.state.code] .nothing s)) ∧
  ((∀ (p : Port) (d b : Byte) (rest : List Byte) (m : Removal) (s : State), (s.port p).resetHeld = false → rest ≠ [] →
    (s.port p).context = .readCopy (b :: rest) m →
    exec (.readByte p d) s = .next (s.setPort p
      { s.port p with context := .readCopy rest m, partialBits := [], dataOut := b })) ∧
  (∀ (p : Port) (d b : Byte) (s : State), (s.port p).resetHeld = false → (s.port p).context = .readCopy [b] .nothing →
    exec (.readByte p d) s = .next (s.setPort p { s.port p with context := .none, partialBits := [], dataOut := b })) ∧
  (∀ (p : Port) (d : Byte) (s : State), (s.port p).resetHeld = false → (s.port p).context = .none →
    exec (.readByte p d) s = .next (s.setPort p { s.port p with partialBits := [], dataOut := 0#8 })))

/-! ### Rows (chapter 1) -/

/-- ROWMAP_WINDOW in FROZEN, outside FROZEN, and with its bounds the wrong way round (R2); that outside FROZEN STATE is
given before RANGE is the model's choice (log entry 25). The window after power-on reset, and a ROWMAP_DATA that opens on
the window and pointer where they stand, and is refused with STATE outside FROZEN. A complete entry is written to the row at
the map pointer, with the checks of R4 and R5, and the pointer advances within the window (R3 to R5, Table 11-2). The result
of the latest condition an entry meets replaces the port's, in the order capacity or length above its range, length 0 on a
row with a robot, reference set full (the order is the model's choice, log entry 15). Everything else stays. -/
def Obligations.RowMap : Prop :=
  ((∀ (a b : Byte) (s : State), Ready .plant s →
    exec (.rowmapWindow .plant [a, b]) s =
      if s.pls.freeze ≠ .frozen then .next (answered .plant .rowmapWindow .state s)
      else if b < a then .next (answered .plant .rowmapWindow .range s)
      else .next (answered .plant .rowmapWindow .ok { s with
        rac := { s.rac with winFirst := byteRow a, winLast := byteRow b, mapPtr := byteRow a } })) ∧
  (State.reset.rac.winFirst = 0 ∧ State.reset.rac.winLast = 255 ∧ State.reset.rac.mapPtr = 0) ∧
  (∀ s : State, Ready .plant s → s.pls.freeze = .frozen → exec (.rowmapData .plant) s =
    .next (s.setPort .plant { answeredPort .ok Cmd.rowmapData.code with context := .stream .rowmapData [] }))) ∧
  (∀ s : State, Ready .plant s → s.pls.freeze ≠ .frozen →
    exec (.rowmapData .plant) s = .next (answered .plant .rowmapData .state s)) ∧
  (∀ (zr : Byte) (cap : Half) (len : Byte) (s : State), s.plant.resetHeld = false →
    s.plant.context = .stream .rowmapData [] →
    let r := s.rac.mapPtr
    let x := tget s.rac.rows r
    let full := zr.getLsbD 7 = true ∧ x.reference = false ∧
      8 ≤ ((indices 256).filter (fun q => (tget s.rac.rows q).reference)).length
    let keep := len = 0#8 ∧ (x.present ≠ none ∨ x.incoming ≠ none)
    let gains := zr.getLsbD 7 = true ∧ x.reference = false ∧ ¬ full
    exec (.rowmapEntry .plant zr cap len) s = .next { s with
      rac := { s.rac with
        rows := tset s.rac.rows r { x with
          zone := ⟨zr.toNat % 16, Nat.mod_lt _ (by decide)⟩
          capacity := min 1000 cap.toNat
          length := if keep then x.length else min 63 len.toNat
          reference := zr.getLsbD 7 && decide (¬ full) }
        mapPtr := if r = s.rac.winLast then s.rac.winFirst else r + 1
        attention := !s.rac.notices.isEmpty }
      seu := { s.seu with
        rows := if gains then tset s.seu.rows r { tget s.seu.rows r with ratio := 4096 } else s.seu.rows }
      plant := { s.plant with
        context := .stream .rowmapData [], partialBits := [], dataOut := 0#8
        lastResult := if full then .full else if keep then .state
          else if 1000 < cap.toNat ∨ 63 < len.toNat then .clamped else s.plant.lastResult
        code := if full ∨ keep ∨ 1000 < cap.toNat ∨ 63 < len.toNat then some Cmd.rowmapData.code else s.plant.code } })

/-- ROW_EXCLUDE sets or clears the exclusion attribute of every row of its range, and a range the wrong way round
changes no row. The change is an event for the accumulator (R6, R26). -/
def Obligations.RowExclude : Prop :=
  ∀ (a b f : Byte) (s : State), Ready .plant s → Settled s →
    (b < a → exec (.rowExclude .plant [a, b, f]) s = .next (answered .plant .rowExclude .range s)) ∧
    (a ≤ b → ∃ t : State, exec (.rowExclude .plant [a, b, f]) s = .next (answered .plant .rowExclude .ok t) ∧
      t = { s with rac := { s.rac with rows := t.rac.rows, attention := !s.rac.notices.isEmpty } } ∧
      ∀ r : Row, tget t.rac.rows r =
        if byteRow a ≤ r ∧ r ≤ byteRow b then
          let y := { tget s.rac.rows r with excluded := decide (f ≠ 0#8) }
          if y.excluded ≠ (tget s.rac.rows r).excluded ∧ classRank y.acc < classRank (rowClass y) then
            { y with acc := rowClass y }
          else y
        else tget s.rac.rows r)

/-- R12: HOLD_REFUSED for a row in HOLD_ASKED, and in any other state. The row's requester is answered REFUSED and no notice
is queued: in a settled block nothing more follows. In any block the drain and the secured test are made at the row's change
of state (R7, R94, R148), before the answer is taken; which of them comes first is left open here. -/
def Obligations.HoldRefused : Prop :=
  (∀ (b : Byte) (s : State), Ready .tracker s → Settled s →
    let x := tget s.rac.rows (byteRow b)
    exec (.holdRefused .tracker [b]) s =
      if x.state = .holdAsked then
        .next (answered .tracker .holdRefused .ok
          (s.withRow (byteRow b) { x with state := .tracking, hold := none, holdTimer := none }))
      else .next (answered .tracker .holdRefused .state s)) ∧
  (∀ (r : Row) (w : Work), (w.row r).state ≠ .holdAsked → holdRefusedReport r w = (w, .state)) ∧
  (∀ (r : Row) (h : Hold) (w : Work), (w.row r).state = .holdAsked → (w.row r).hold = some h →
    w.entering = false →
    let t := w.toState.withRow r { w.row r with state := .tracking, hold := none, holdTimer := none }
    (holdRefusedReport r w).2 = .ok ∧
    (holdRefusedReport r w).1.toState ∈ [t.securedTested.drainTested, t.drainTested.securedTested] ∧
    ∃ more : List Msg, (holdRefusedReport r w).1.agenda = more ++ [.holdAnswer h.by_ r h.purpose .refused])

/-- R13: a cancel of a hold. In HOLD_ASKED, from the requester named, the row returns to TRACKING with a WITHDRAW placed,
and a HOLD_ASK not yet sent leaves an empty slot and no place in the list; from another requester, or in another state, it
has no effect. The drain and the secured test are made at the change of state (R7); which of them comes first is left open
here. -/
def Obligations.HoldCancel : Prop :=
  ∀ (q : Requester) (r : Row) (s : State),
    let x := tget s.rac.rows r
    let y := { x with state := RowState.tracking, hold := none, holdTimer := none }
    let t := s.withRow r
      (match x.notice with
        | some (.holdAsk _) =>
          if x.noticeRead then { y with notice := some .withdraw, noticeRead := false }
          else { y with notice := none, noticeRead := false }
        | _ => { y with notice := some .withdraw, noticeRead := false })
    let asked := x.state = .holdAsked ∧ x.hold.map (·.by_) = some q
    (asked → (cancelHold q r s.work).toState ∈ [t.securedTested.drainTested, t.drainTested.securedTested]) ∧
    (¬ asked → cancelHold q r s.work = s.work)

/-- A hold is asked (R9): where it is taken the row moves to HOLD_ASKED with its requester, purpose and timer and a HOLD_ASK
placed; where it is refused the row only counts the ask (R8), and the requester is answered REFUSED. The hold timer expires
in HOLD_ASKED: TRACKING, the requester cleared and answered TIMEOUT, and a WITHDRAW placed; otherwise the event does nothing
(section 1.4, R10). In a settled block nothing more follows. In any block the tests are made at the row's change of state
(R7, log entry 5), and no other message is sent by the ask, but that a block SECURED by it withdraws its storm alightings.
-/
def Obligations.HoldAskedAndTimedOut : Prop :=
  (∀ (q : Requester) (p : Purpose) (k : Slot) (r : Row) (s : State),
    let x := tget s.rac.rows r
    let counted := { x with
      attempts := if x.attemptsBy = some q then min 255 (x.attempts + 1) else 1
      attemptsBy := some q }
    let taken := x.state = .tracking ∧ match p with
      | .pass => x.excluded = false ∧ x.length ≠ 0 ∧ x.present = some k
      | .board => x.present = some k
      | .alight => x.excluded = false ∧ x.length ≠ 0 ∧ x.present = none ∧ ∃ v, x.incoming = some v ∧ v.robot = k
    (taken → (askHold q p k r s.work).toState = s.changedRow r (placeNotice (.holdAsk p)
        { counted with state := .holdAsked, hold := some ⟨q, p⟩, holdTimer := some s.now }) ∧
      ∀ m ∈ (askHold q p k r s.work).agenda, s.wxm.weather = .parking ∧ ∃ a row, m = .withdraw (.storm a) row) ∧
    (¬ taken → (askHold q p k r s.work).toState = s.withRow r counted ∧
      (askHold q p k r s.work).agenda = [.holdAnswer q r p .refused])) ∧
  (∀ (r : Row) (s : State), Settled s →
    let x := tget s.rac.rows r
    exec (.holdTimeout r) s =
      if x.state = .holdAsked ∧ due s.now x.holdTimer s.rac.holdTimeout = true then
        .next (s.withRow r (placeNotice .withdraw { x with state := .tracking, hold := none, holdTimer := none }))
      else .next s) ∧
  (∀ (r : Row) (h : Hold) (w : Work), (w.row r).state = .holdAsked → (w.row r).hold = some h →
    due w.now (w.row r).holdTimer w.rac.holdTimeout = true → w.entering = false →
    (expireHold r w).toState = w.toState.changedRow r
      (placeNotice .withdraw { w.row r with state := .tracking, hold := none, holdTimer := none }) ∧
    ∃ more : List Msg, (expireHold r w).agenda = more ++ [.holdAnswer h.by_ r h.purpose .timeout])

/-! ### Reads that remove (chapters 1, 2, 8, 9) -/

/-- A notice placed into a row's slot (R24, Table 1-10): none is placed in STOWED; a WITHDRAW empties a slot with a HOLD_ASK
not yet sent; a STOW_CLEAR not forced leaves a forced one; otherwise the new notice fills the slot. A row whose slot fills
joins the tail of the list, and a row whose slot empties leaves it; where a row's state changes, the drain and the secured
test are made then (R7; their order is log entry 5's). TAKE_NOTICE copies the head of the notice list, and marks the slot as
being read; a notice that fills or empties the slot clears the mark, one that changes nothing keeps it, and entry to STOWED
clears slot and mark (R17). The last byte of the copy empties the slot and takes the row off the list while the mark stands,
so not where the content was replaced meanwhile (R25; what counts as replaced is log entry 16's). An empty list gives kind
NONE. -/
def Obligations.Notices : Prop :=
  (∀ (n : Notice) (x : RowRec), (placeNotice n x).notice =
    if x.state = .stowed then x.notice
    else if (x.notice = some (.holdAsk .pass) ∨ x.notice = some (.holdAsk .board) ∨ x.notice = some (.holdAsk .alight)) ∧
      n = .withdraw ∧ x.noticeRead = false then none
    else if x.notice = some (.stowClear true) ∧ n = .stowClear false then some (.stowClear true)
    else some n) ∧
  (∀ (n : Notice) (x : RowRec), { placeNotice n x with notice := x.notice, noticeRead := x.noticeRead } = x) ∧
  (∀ (n : Notice) (x : RowRec), (placeNotice n x).noticeRead =
    if x.state = .stowed ∨ (x.notice = some (.stowClear true) ∧ n = .stowClear false) then x.noticeRead else false) ∧
  (∀ x : RowRec, (stowRow x).notice = none ∧ (stowRow x).noticeRead = false) ∧
  (∀ (r : Row) (f : RowRec → RowRec) (s : State),
    (updRow r f s.work).toState = s.changedRow r (f (tget s.rac.rows r))) ∧
  (∀ s : State, Ready .tracker s → s.tracker.context = .none → s.rac.notices = [] →
    exec (.takeNotice .tracker) s = .next (copying .tracker [0#8, 0#8, 0#8] .nothing s)) ∧
  (∀ (r : Row) (rest : List Row) (s : State), Ready .tracker s → s.tracker.context = .none → s.rac.notices = r :: rest →
    exec (.takeNotice .tracker) s = .next (copying .tracker
      (BitVec.ofNat 8 r.val ::
        match (tget s.rac.rows r).notice with
        | none => [0#8, 0#8]
        | some (.holdAsk .pass) => [1#8, 0#8]
        | some (.holdAsk .board) => [1#8, 1#8]
        | some (.holdAsk .alight) => [1#8, 2#8]
        | some .withdraw => [2#8, 0#8]
        | some .release => [3#8, 0#8]
        | some (.stowClear false) => [4#8, 0#8]
        | some (.stowClear true) => [4#8, 1#8])
      (.notice r) (s.withRow r { tget s.rac.rows r with noticeRead := true }))) ∧
  (∀ (d b : Byte) (r : Row) (s : State), s.tracker.resetHeld = false → s.tracker.context = .readCopy [b] (.notice r) →
    let x := tget s.rac.rows r
    exec (.readByte .tracker d) s =
      .next ((if x.noticeRead then s.withRow r { x with notice := none, noticeRead := false } else s).setPort .tracker
        { s.tracker with context := .none, partialBits := [], dataOut := b }))

/-- TAKE_ORDER copies the head of the fleet order queue; the last byte of the copy removes the order copied wherever it
stands, if it is still QUEUED with the tag copied: it becomes SENT, counted, with its accept timer started, and the
latest sent (R35). An empty queue gives unit FFh and kind NONE; the tag byte is a free value (log entry 8). -/
def Obligations.TakeOrder : Prop :=
  (∀ s : State, Ready .fleet s → s.fleet.context = .none → s.fou.queue = [] → ∃ free : Byte,
    exec (.takeOrder .fleet) s =
      .next { copying .fleet [0xFF#8, free, 0#8, 0#8, 0#8] .nothing s with freeUses := s.freeUses + 1 }) ∧
  (∀ (u : FleetUnit) (rest : List FleetUnit) (o : Order) (s : State), Ready .fleet s → s.fleet.context = .none →
    s.fou.queue = u :: rest → (s.fou.orders u).slot = some o →
    exec (.takeOrder .fleet) s = .next (copying .fleet
      ((match u with
        | .robot k => BitVec.ofNat 8 k.val
        | .carrier c => BitVec.ofNat 8 (32 + c.val)) :: o.tag ::
        match o.kind with
        | .pass row .dry => [1#8, BitVec.ofNat 8 row.val, 1#8]
        | .pass row .deep => [1#8, BitVec.ofNat 8 row.val, 2#8]
        | .pass row .skip => [1#8, BitVec.ofNat 8 row.val, 0#8]
        | .goHead => [2#8, 0#8, 0#8]
        | .board c => [3#8, BitVec.ofNat 8 c.val, 0#8]
        | .alight row => [4#8, BitVec.ofNat 8 row.val, 0#8]
        | .travel row => [5#8, BitVec.ofNat 8 row.val, 0#8]
        | .park => [6#8, 0#8, 0#8])
      (.order u o.tag) s)) ∧
  (∀ (d b tag : Byte) (u : FleetUnit) (s : State), s.fleet.resetHeld = false →
    s.fleet.context = .readCopy [b] (.order u tag) →
    let ended : State → State := fun t =>
      t.setPort .fleet { s.fleet with context := .none, partialBits := [], dataOut := b }
    (∀ o : Order, (s.fou.orders u).slot = some o → o.status = .queued → o.tag = tag →
      exec (.readByte .fleet d) s = .next (ended ((s.withOrders u { s.fou.orders u with
        slot := some { o with status := .sent, attempts := o.attempts + 1, acceptTimer := some s.now }
        latestSent := some (tag, o.kind.name) }).unqueued u))) ∧
    ((∀ o : Order, (s.fou.orders u).slot = some o → o.status = .queued → o.tag ≠ tag) →
      exec (.readByte .fleet d) s = .next (ended s)))

/-- READ_ACCOUNT copies a row or a zone account as it stands when the last parameter has come; with clear set, the last
byte of the copy sets the account to its values after reset, and from a counter or the recovered bucket it takes what
the copy gave (R165, R166; the form of the copied fields is log entry 9's). -/
def Obligations.ReadAccount : Prop :=
  ∀ s : State,
    (∀ index clear : Byte, Ready .plant s → s.plant.context = .none →
      let r := byteRow index
      let e := tget s.seu.rows r
      exec (.readAccount .plant [0#8, index, clear]) s = .next (copying .plant
        (rowAccountCopy (tget s.rac.rows r).zone (tget s.yac.rows r) e.fullPasses e.partPasses)
        (if clear = 0#8 then .nothing else .rowAccount r e.fullPasses e.partPasses) s)) ∧
    (∀ (z : Zone) (clear : Byte), Ready .plant s → s.plant.context = .none →
      exec (.readAccount .plant [1#8, BitVec.ofNat 8 z.val, clear]) s = .next (copying .plant
        (zoneAccountCopy (tget s.yac.zones z))
        (if clear = 0#8 then .nothing else .zoneAccount z (tget s.yac.zones z).recovered) s)) ∧
    (∀ (d b : Byte) (r : Row) (full part : Nat), s.plant.resetHeld = false →
      s.plant.context = .readCopy [b] (.rowAccount r full part) →
      let e := tget s.seu.rows r
      let left := { e with fullPasses := e.fullPasses - full, partPasses := e.partPasses - part }
      exec (.readByte .plant d) s = .next (({ s with
        yac := { s.yac with rows := tset s.yac.rows r { buckets := Buckets.reset, nodata := 0 } }
        seu := { s.seu with rows := tset s.seu.rows r left } } : State).setPort .plant
        { s.plant with context := .none, partialBits := [], dataOut := b })) ∧
    (∀ (d b : Byte) (z : Zone) (recovered : Nat), s.plant.resetHeld = false →
      s.plant.context = .readCopy [b] (.zoneAccount z recovered) →
      let left := { buckets := Buckets.reset, recovered := (tget s.yac.zones z).recovered - recovered }
      exec (.readByte .plant d) s = .next (({ s with
        yac := { s.yac with zones := tset s.yac.zones z left } } : State).setPort .plant
        { s.plant with context := .none, partialBits := [], dataOut := b }))

/-! ### Settings (sections 1.4, 2.7, 3.4, 4.1, 7.1, 9.1) -/

/-- A field of ZONE_WRITE: the zone number names the policy record of the back bank, and each later field is written into it
when its last byte has come, brought into its range with CLAMPED; a zone above 15 discards the rest with RANGE (that the
command then has ended is log entry 48's), and a mode above 2 is not written (R84, Table 4-1). The four settings commands
open with OK and wait for the first byte of their first field (section 10.2). -/
def Obligations.ZoneWrite : Prop :=
  (∀ (s : State) (n : Nat) (z0 : Zone), s.plant.resetHeld = false → s.plant.context = .settings .zoneWrite n [] z0 →
    let next : Context := if n = 8 then .none else .settings .zoneWrite (n + 1) [] z0
    let put (f : ZonePolicy → ZonePolicy) : State :=
      s.withBack (fun b => { b with zones := tset b.zones z0 (f (tget b.zones z0)) })
    (n = 0 → ∀ z : Zone, exec (.settingsField .plant [BitVec.ofNat 8 z.val]) s =
      .next (fieldTaken .zoneWrite (.settings .zoneWrite 1 [] z) none s)) ∧
    (n = 0 → ∀ b : Byte, 15#8 < b → exec (.settingsField .plant [b]) s =
      .next (fieldTaken .zoneWrite .none (some .range) s)) ∧
    (n = 1 → ∀ b : Byte, exec (.settingsField .plant [b]) s = .next (
      if b = 0#8 then fieldTaken .zoneWrite next none (put (fun x => { x with mode := .skip }))
      else if b = 1#8 then fieldTaken .zoneWrite next none (put (fun x => { x with mode := .dry }))
      else if b = 2#8 then fieldTaken .zoneWrite next none (put (fun x => { x with mode := .deep }))
      else fieldTaken .zoneWrite next (some .range) s)) ∧
    (2 ≤ n → n ≤ 8 → ∀ bytes : List Byte, bytes.length = [1, 1, 2, 2, 1, 3, 1, 1, 1].getD n 0 →
      let v := bytes.foldl (fun v b => v * 256 + b.toNat) 0
      let c := max ([0, 0, 0, 2048, 1, 0, 0, 1, 0].getD n 0) (min ([0, 0, 4096, 4096, 30, 16777215, 60, 16, 100].getD n 0) v)
      exec (.settingsField .plant bytes) s = .next (fieldTaken .zoneWrite next
        (if c = v then none else some .clamped) (put (fun x =>
          match n with
          | 2 => { x with trigger := c }
          | 3 => { x with pDry := c }
          | 4 => { x with horizon := c }
          | 5 => { x with cost := c }
          | 6 => { x with minInterval := c }
          | 7 => { x with gain := c }
          | _ => { x with minBattery := c }))))) ∧
  (∀ (i : Instr) (c : Cmd) (s : State), Ready .plant s →
    (i, c) ∈ [(Instr.zoneWrite .plant, Cmd.zoneWrite), (.roundSetup .plant, .roundSetup),
      (.timingWrite .plant, .timingWrite), (.arbiterWrite .plant, .arbiterWrite)] →
    exec i s = .next (s.setPort .plant { answeredPort .ok c.code with context := .settings c 0 [] 0 }))

/-- A field of ROUND_SETUP is written into the back bank's round parameters when its last byte has come, brought into
its range with CLAMPED; a trigger source above 2 is not written and gives RANGE (R85, Table 4-2). A field of
ARBITER_WRITE, brought into its range with CLAMPED; a jump not below the ceiling, and a ceiling not above the jump, is
not written and gives RANGE; a lowered ceiling holds every dynamic score (R68, Table 3-5). -/
def Obligations.RoundAndArbiterFields : Prop :=
  (∀ (s : State) (n : Nat) (z0 : Zone), s.plant.resetHeld = false → s.plant.context = .settings .roundSetup n [] z0 →
    let next : Context := if n = 3 then .none else .settings .roundSetup (n + 1) [] z0
    let put (f : RoundParams → RoundParams) : State := s.withBack (fun b => { b with round := f b.round })
    (n = 0 → ∀ b : Byte, exec (.settingsField .plant [b]) s = .next (
      if b = 0#8 then fieldTaken .roundSetup next none (put (fun x => { x with source := .off }))
      else if b = 1#8 then fieldTaken .roundSetup next none (put (fun x => { x with source := .period }))
      else if b = 2#8 then fieldTaken .roundSetup next none (put (fun x => { x with source := .dayClose }))
      else fieldTaken .roundSetup next (some .range) s)) ∧
    (1 ≤ n → n ≤ 3 → ∀ bytes : List Byte, bytes.length = [1, 2, 1, 2].getD n 0 →
      let v := bytes.foldl (fun v b => v * 256 + b.toNat) 0
      let c := max ([0, 10, 1, 10].getD n 0) (min ([0, 1440, 64, 720].getD n 0) v)
      exec (.settingsField .plant bytes) s = .next (fieldTaken .roundSetup next
        (if c = v then none else some .clamped) (put (fun x =>
          match n with
          | 1 => { x with period := c }
          | 2 => { x with budget := c }
          | _ => { x with limit := c }))))) ∧
  (∀ (s : State) (n : Nat) (z0 : Zone) (b : Byte), s.plant.resetHeld = false →
    s.plant.context = .settings .arbiterWrite n [] z0 → n ≤ 5 →
    let next : Context := if n = 5 then .none else .settings .arbiterWrite (n + 1) [] z0
    let c := max ([0, 0, 0, 1, 1, 15].getD n 0) (min ([7, 7, 15, 14, 15, 30].getD n 0) b.toNat)
    exec (.settingsField .plant [b]) s = .next (
      if (n = 3 ∧ s.txs.ceiling ≤ c) ∨ (n = 4 ∧ c ≤ s.txs.jump) then fieldTaken .arbiterWrite next (some .range) s
      else fieldTaken .arbiterWrite next (if c = b.toNat then none else some .clamped) { s with
        txs :=
          match n with
          | 0 => { s.txs with headHit := c }
          | 1 => { s.txs with dirBonus := c }
          | 2 => { s.txs with near := c }
          | 3 => { s.txs with jump := c }
          | 4 => { s.txs with ceiling := c, pool := s.txs.pool.map (fun q => { q with dyn := min q.dyn c }) }
          | _ => { s.txs with guardSetting := c } }))

/-- A field of TIMING_WRITE, brought into its range with CLAMPED; a watch threshold not below the storm threshold, and a
storm threshold not above the watch threshold, is not written and gives RANGE (R10, R54, R75, R80, R99, R138, R151, R168). A
timer of that field whose elapsed time has reached the new setting expires as the field is applied (R54): its expiry is that
of its own command, one after another (that it is these timers alone, and their order, are the model's, log entries 27 and
1). A threshold written is compared with the last sample (R138, R139), if there is one: from CALM a sample at the watch
threshold enters WATCH with cause THRESHOLD, shown with no round under way (the mark that this is no release is log entry
38's), in WATCH the quiet timer follows it, and in PARKING and SECURED the release timer follows the storm condition. A
sample at the storm threshold in CALM or WATCH is the storm entry's (StormEntry). -/
def Obligations.TimingFields : Prop :=
  ∀ (s : State) (n : Nat) (z0 : Zone) (bytes : List Byte), s.plant.resetHeld = false →
    s.plant.context = .settings .timingWrite n [] z0 → n ≤ 13 →
    bytes.length = [2, 1, 2, 1, 1, 2, 2, 2, 2, 2, 1, 2, 1, 1].getD n 0 →
    let next : Context := if n = 13 then .none else .settings .timingWrite (n + 1) [] z0
    let v := bytes.foldl (fun v b => v * 256 + b.toNat) 0
    let c := max ([5, 2, 10, 1, 10, 0, 0, 0, 0, 60, 5, 30, 1, 1].getD n 0)
      (min ([300, 60, 600, 20, 120, 3600, 1000, 600, 600, 3600, 120, 900, 128, 255].getD n 0) v)
    let t : State :=
      match n with
      | 0 => { s with rac := { s.rac with holdTimeout := c } }
      | 1 => { s with fou := { s.fou with acceptTimeout := c } }
      | 2 => { s with fou := { s.fou with silenceTimeout := c } }
      | 3 => { s with txs := { s.txs with secondsPerRow := c } }
      | 4 => { s with txs := { s.txs with travelSlack := c } }
      | 5 => { s with txs := { s.txs with parkDelay := c } }
      | 6 => { s with seu := { s.seu with gate := c } }
      | 7 => { s with wxm := { s.wxm with watchAt := c } }
      | 8 => { s with wxm := { s.wxm with stormAt := c } }
      | 9 => { s with wxm := { s.wxm with releaseHold := c } }
      | 10 => { s with wxm := { s.wxm with windSilence := c } }
      | 11 => { s with wxm := { s.wxm with parkingDeadline := c } }
      | 12 => { s with rpq := Rpq.judged s.now { s.rpq with threshold := c } }
      | _ => { s with rpq := Rpq.judged s.now { s.rpq with staleTime := c } }
    let reached : List Timer :=
      match n with
      | 0 => dueHolds t
      | 1 => dueAccepts t
      | 2 => dueSilences t
      | 3 | 4 => dueTravels t
      | 5 => dueParks t
      | 9 => dueReleases t
      | 10 => dueWind t
      | 11 => dueDeadline t
      | _ => []
    let expired (u : State) (m : Timer) : State :=
      match exec m.command u with
      | .next u' => u'
      | _ => u
    let written (u : State) := exec (.settingsField .plant bytes) s =
      .next (fieldTaken .timingWrite next (if c = v then none else some .clamped) u)
    ((n = 7 ∧ s.wxm.stormAt ≤ c) ∨ (n = 8 ∧ c ≤ s.wxm.watchAt) →
      exec (.settingsField .plant bytes) s = .next (fieldTaken .timingWrite next (some .range) s)) ∧
    (n ≠ 7 → n ≠ 8 → written (reached.foldl expired t)) ∧
    ((n = 7 ∧ c < s.wxm.stormAt) ∨ (n = 8 ∧ s.wxm.watchAt < c) →
      (s.wxm.lastSample = none → written t) ∧
      ∀ x, s.wxm.lastSample = some x →
        let watched := State.posted { t with wxm := { t.wxm with weather := .watch, released := false } }
          [.stormState .calm .watch .threshold (some x) s.wxm.declared (strandedCount s.work)]
        (s.wxm.weather = .calm → x < t.wxm.watchAt → x < t.wxm.stormAt → written t) ∧
        (s.wxm.weather = .calm → s.rsc.state = .none → t.wxm.watchAt ≤ x → x < t.wxm.stormAt →
          written { watched with wxm := { watched.wxm with quietTimer := none } }) ∧
        (s.wxm.weather = .watch → x < t.wxm.stormAt → written { t with wxm := { t.wxm with
          quietTimer :=
            if t.wxm.watchAt ≤ x then none
            else if s.wxm.quietTimer = none then some s.now else s.wxm.quietTimer } }) ∧
        (s.wxm.weather = .parking ∨ s.wxm.weather = .secured → written { t with wxm := { t.wxm with
          releaseTimer :=
            if t.wxm.stormAt ≤ x ∨ s.wxm.declared = true ∨ s.wxm.silenceExpired = true then none
            else if s.wxm.releaseTimer = none then some s.now else s.wxm.releaseTimer } }))

/-! ### Reports of the tracker master (sections 1.4 and 1.5) -/

/-- HELD of a row in HOLD_ASKED (R11, R18). For a worklist entry that still waits for its hold in CALM, with its robot
PARKED as the row's present robot, the PASS is issued, the row is OCCUPIED and the entry PASSING; the robot turns PASSING
from segment 0. For a request that a carrier serves (R70, R72): the BOARD to the robot PARKED at the row where its carrier
stands without a load, which is then LOADING; and the ALIGHT to the robot ABOARD a carrier that stands at the row reserved
for it, the carrier then UNLOADING; URGENT for a STORM request. For storm parking in PARKING (R147): the ALIGHT, URGENT, to
the robot ABOARD a carrier that stands at the row reserved for it; the robot is ALIGHTING and the storm alighting ends (that
its ask count is kept for one created again is R147's, and where it is kept is log entry 33's). Where no requester stands,
as in a settled block, the row returns to TRACKING with a RELEASE. In another state the report is refused. -/
def Obligations.HeldReport : Prop :=
  (∀ (b : Byte) (s : State) (n : Half) (pos : Nat) (e : Entry) (k : Slot), Ready .tracker s → s.wxm.weather = .calm →
    s.pls.freeze = .running → (∀ c, tget s.wxm.alights c = none) →
    let r := byteRow b
    let x := tget s.rac.rows r
    x.state = .holdAsked → x.hold = some ⟨.entry n pos, .pass⟩ → x.present = some k → n = s.rsc.number →
    s.rsc.worklist[pos]? = some e → e.state = .holding → e.row = r → e.robot = some k →
    (tget s.fou.robots k).state = .parked →
    let given := s.withRow r { x with state := .held, holdTimer := none }
    let gone := (given.withRobot k { tget s.fou.robots k with
      state := .passing, position := .onTable, row := some r, highest := 0, passMode := e.mode }).issued (.robot k)
        (.pass r e.mode) .routine
    let still := gone.withRow r { tget given.rac.rows r with state := .occupied }
    exec (.held .tracker [b]) s = .next (answered .tracker .held .ok { still with
      rsc := { s.rsc with worklist := s.rsc.worklist.modify pos (fun e => { e with state := .passing }) } })) ∧
  (∀ (b : Byte) (s : State) (q : Request) (c : CarrierIx), Ready .tracker s → s.wxm.weather ≠ .parking →
    s.pls.freeze ≠ .freezeAsked → (∀ c, tget s.wxm.alights c = none) →
    let r := byteRow b
    let x := tget s.rac.rows r
    let y := tget s.txs.carriers c
    let v := tget s.fou.robots q.robot
    let cls := if q.cls = .storm then OrderClass.urgent else .routine
    let given := s.withRow r { x with state := .held, holdTimer := none }
    let occupied (t : State) := t.withRow r { tget given.rac.rows r with state := .occupied }
    x.state = .holdAsked → s.work.request? q.seq = some q → q.state = .serving c →
    (x.hold = some ⟨.request q.seq, .board⟩ → x.present = some q.robot → q.fromRow = r → y.state = .toPickup →
      y.load = none → standsAt y r = true → v.state = .parked →
      exec (.held .tracker [b]) s = .next (answered .tracker .held .ok ((occupied ((given.withRobot q.robot
        { v with state := .boarding, position := .onTable }).issued (.robot q.robot) (.board c) cls)).withCarrier c
          { y with state := .loading }))) ∧
    (∀ d : CarrierIx, x.hold = some ⟨.request q.seq, .alight⟩ → x.incoming.map (·.robot) = some q.robot →
      q.legTarget = some r → y.state = .toDrop → v.state = .aboard → v.carrier = some d →
      standsAt (tget s.txs.carriers d) r = true →
      exec (.held .tracker [b]) s = .next (answered .tracker .held .ok ((occupied ((given.withRobot q.robot
        { v with state := .alighting, position := .onTable, row := some r }).issued (.robot q.robot) (.alight r)
          cls)).withCarrier c { y with state := .unloading })))) ∧
  (∀ (b : Byte) (s : State) (c d : CarrierIx) (a : StormAlight), Ready .tracker s → s.wxm.weather = .parking →
    s.pls.freeze ≠ .freezeAsked → tget s.wxm.alights c = some a → (∀ e, e ≠ c → tget s.wxm.alights e = none) →
    (∀ e, e ≠ c → (tget s.txs.carriers e).state ≠ .halted) →
    let r := byteRow b
    let x := tget s.rac.rows r
    let v := tget s.fou.robots a.robot
    a.row = r → x.state = .holdAsked → x.hold = some ⟨.storm a.robot, .alight⟩ → x.incoming.map (·.robot) = some a.robot →
    v.state = .aboard → v.carrier = some d → standsAt (tget s.txs.carriers d) r = true →
    let given := s.withRow r { x with state := .held, holdTimer := none }
    let occupied := ((given.withRobot a.robot { v with
      state := .alighting, position := .onTable, row := some r }).issued (.robot a.robot) (.alight r) .urgent).withRow r
        { tget given.rac.rows r with state := .occupied }
    exec (.held .tracker [b]) s = .next (answered .tracker .held .ok { occupied with wxm := { s.wxm with
      alights := tset s.wxm.alights c none, askKept := tset s.wxm.askKept c a.asks } })) ∧
  (∀ (b : Byte) (s : State), Ready .tracker s → Settled s →
    let r := byteRow b
    let x := tget s.rac.rows r
    let given := s.withRow r { x with state := .held, holdTimer := none }
    exec (.held .tracker [b]) s =
      if x.state = .holdAsked ∧ x.hold ≠ none then
        .next (answered .tracker .held .ok (given.withRow r (placeNotice .release
          { tget given.rac.rows r with state := .tracking, hold := none, holdTimer := none })))
      else .next (answered .tracker .held .state s))

/-- STOW_WANTED sets stow wanted in every row state, with the further effect of Table 1-4 (R15); a robot that passes on the
row is called back (URGENT). UNSTOWED clears stow wanted in every row state, with the further effect of Table 1-5, and is
refused with STATE in TRACKING, HOLD_ASKED and OCCUPIED, where stow wanted is cleared all the same (R18). Under storm
parking a row reserved STORM, which R21 exempts, returns to TRACKING (the model's reading, log entry 37). -/
def Obligations.StowWantedAndUnstowed : Prop :=
  (∀ (b : Byte) (s : State), Ready .tracker s → Settled s →
    let r := byteRow b
    let x := tget s.rac.rows r
    let y := { x with stowWanted := true }
    let cleared := placeNotice (.stowClear false)
      { y with state := .stowCleared, hold := none, holdTimer := none, lastForced := false }
    let t := s.withRow r
      (match x.state with
        | .tracking => cleared
        | .holdAsked => cleared
        | .occupied => { y with state := .stowWait }
        | .stowCleared => placeNotice (.stowClear x.lastForced) y
        | _ => y)
    let occupying :=
      if x.hold.map (·.purpose) = some .alight then x.incoming.map (·.robot) else x.present
    exec (.stowWanted .tracker [b]) s = .next (answered .tracker .stowWanted .ok
      (match occupying with
        | some k =>
          let v := tget s.fou.robots k
          if x.state = .occupied ∧ v.state = .passing then
            (t.withRobot k { v with state := .returning, position := .onTable }).issued (.robot k) .goHead .urgent
          else t
        | none => t))) ∧
  (∀ (b : Byte) (s : State), Ready .tracker s → Settled s →
    let r := byteRow b
    let x := tget s.rac.rows r
    let y := { x with stowWanted := false }
    let storm := s.wxm.weather = .parking ∨ s.wxm.weather = .secured
    x.state ≠ .held →
    exec (.unstowed .tracker [b]) s = .next (answered .tracker .unstowed
      (if x.state = .tracking ∨ x.state = .holdAsked ∨ x.state = .occupied then .state else .ok)
      (s.withRow r
        (if x.state = .stowCleared ∨ x.state = .stowed then
          if storm ∧ x.incoming.map (·.kind) ≠ some .storm then placeNotice (.stowClear false)
            { y with state := .stowCleared, hold := none, holdTimer := none, lastForced := false }
          else { y with state := .tracking }
        else if x.state = .stowWait ∧ ¬ storm then { y with state := .occupied }
        else y))))

/-- STOWED in STOW_CLEARED, and FORCED_STOW or any other STOWED (R17, R18): the row is STOWED with its slot empty. A forced
stow sets stow wanted, turns the reservation of an alighting or locked row into presence, and strands the occupying robot
unless it is PARKED (R50, R51; that the reservation a FAULT or LOST robot has on a LOCKED row becomes presence, too, is the
model's reading, log entry 50): it is STRANDED at the place it had, its orders are gone, one that was PASSING or RETURNING
hands on a partial pass and counts it, and its STRANDED record is posted (the order of its records is log entry 14's). -/
def Obligations.StowReports : Prop :=
  (∀ (b : Byte) (s : State), Ready .tracker s → Settled s →
    let r := byteRow b
    let x := tget s.rac.rows r
    x.state = .stowCleared → exec (.stowed .tracker [b]) s = .next (answered .tracker .stowed .ok (s.withRow r
      { x with state := .stowed, hold := none, holdTimer := none, notice := none, noticeRead := false }))) ∧
  (∀ (i : Instr) (c : Cmd) (b : Byte) (s : State), Ready .tracker s → Settled s →
    let r := byteRow b
    let x := tget s.rac.rows r
    (i = .forcedStow .tracker [b] ∧ c = .forcedStow) ∨
      (i = .stowed .tracker [b] ∧ c = .stowed ∧ x.state ≠ .stowCleared) →
    let alighting := x.hold.map (·.purpose) = some .alight
    let off := x.state = .occupied ∨ x.state = .stowWait
    let enters := (off ∧ alighting) ∨ x.state = .locked
    let y := { x with
      state := .stowed, stowWanted := true, hold := none, holdTimer := none, notice := none, noticeRead := false
      present := if enters ∧ x.incoming ≠ none then x.incoming.map (·.robot) else x.present
      incoming := if enters then none else x.incoming }
    let found :=
      if off then (if alighting then x.incoming.map (·.robot) else x.present)
      else if x.state = .locked then (if x.present ≠ none then x.present else x.incoming.map (·.robot))
      else none
    let t := s.withRow r y
    let stranded (k : Slot) : State := (t.strandedNow k).posted [strandedRecord k (tget s.fou.robots k) .forcedStow]
    exec i s = .next (answered .tracker c .ok
      (match found with
        | some k => if (tget s.fou.robots k).state = .parked then t else stranded k
        | none => t)))

/-! ### Orders (section 2.3) -/

/-- A new order for a unit (R33, R34, R36, Table 2-4): into an empty slot, over a QUEUED order (in its place in the queue,
but for an URGENT order over a ROUTINE one), behind a SENT order as its successor, or over an ACCEPTED one. An order placed
in the slot takes the next tag. That a ROUTINE order over a QUEUED URGENT one keeps its place in the URGENT tier is the
model's reading of Table 2-4 against R34 (log entry 17). The order in a unit's slot ends (R37, R38): it leaves slot and
queue, and a waiting successor is placed in the slot with the next tag and joins the queue, or is discarded when it is a
GO_HEAD for a PARKED robot. Discarding empties slot and successor. -/
def Obligations.OrderIssuedAndEnded : Prop :=
  (∀ (u : FleetUnit) (kind : OrderKind) (cls : OrderClass) (s : State),
    let x := s.fou.orders u
    let placed := s.withOrders u { x with
      tagCounter := x.tagCounter + 1
      slot := some { tag := x.tagCounter + 1, kind := kind, cls := cls, status := .queued, attempts := 0,
                     acceptTimer := none } }
    ((x.slot = none ∨ ∃ o, x.slot = some o ∧ o.status = .accepted) → s.issued u kind cls = placed.queued u cls) ∧
    (∀ o, x.slot = some o → o.status = .queued → ¬ (cls = .urgent ∧ o.cls = .routine) → s.issued u kind cls = placed) ∧
    (∀ o, x.slot = some o → o.status = .queued → cls = .urgent → o.cls = .routine →
      s.issued u kind cls = (placed.unqueued u).queued u .urgent) ∧
    (∀ o, x.slot = some o → o.status = .sent →
      s.issued u kind cls = s.withOrders u { x with successor := some ⟨kind, cls⟩ })) ∧
  (∀ (u : FleetUnit) (s : State),
    let x := s.fou.orders u
    let parked := match u with
      | .robot k => (tget s.fou.robots k).state = .parked
      | .carrier _ => False
    s.ordersDiscarded u = (s.withOrders u { x with slot := none, successor := none }).unqueued u ∧
    (x.successor = none → s.orderEnded u = (s.withOrders u { x with slot := none }).unqueued u) ∧
    (∀ v, x.successor = some v → v.kind = .goHead → parked →
      s.orderEnded u = (s.withOrders u { x with slot := none, successor := none }).unqueued u) ∧
    (∀ v, x.successor = some v → ¬ (v.kind = .goHead ∧ parked) →
      s.orderEnded u = ((s.withOrders u { x with
        tagCounter := x.tagCounter + 1
        slot := some { tag := x.tagCounter + 1, kind := v.kind, cls := v.cls, status := .queued, attempts := 0,
                       acceptTimer := none }
        successor := none }).unqueued u).queued u v.cls))

/-- ACCEPT of a robot or a carrier (R41, R52): with the latest sent tag on the order in the slot, that order is
ACCEPTED, leaves the queue if it stands there, and a waiting successor follows it: a GO_HEAD for a PARKED robot is discarded,
and any other takes the slot with the next tag and joins its tier (R37). On an order already replaced it has no effect; with
another tag it is refused. A robot's report sets its last report time (R40). (That an order
never sent, which has the tag again, is accepted is the model's choice, log entry 42.) -/
def Obligations.AcceptReports : Prop :=
  ∀ (i : Instr) (u : FleetUnit) (c : Cmd) (tag : Byte) (s : State), Ready .fleet s → Settled s →
    (∃ k : Slot, i = .robotAccept .fleet (BitVec.ofNat 8 k.val) [tag] ∧ u = .robot k ∧ c = .robotReport ∧
      (tget s.fou.robots k).state ≠ .empty ∧ (tget s.fou.robots k).state ≠ .lost) ∨
    (∃ k : CarrierIx, i = .carrierAccept .fleet (BitVec.ofNat 8 k.val) [tag] ∧ u = .carrier k ∧ c = .carrierReport ∧
      (tget s.txs.carriers k).state ≠ .absent) →
    let h := match u with
      | .robot k => s.heard k
      | .carrier _ => s
    let x := s.fou.orders u
    (x.latestSent.map (·.1) ≠ some tag → exec i s = .next (answered .fleet c .state h)) ∧
    (x.latestSent.map (·.1) = some tag → (∀ o, x.slot = some o → o.tag ≠ tag) →
      exec i s = .next (answered .fleet c .ok h)) ∧
    (∀ o, x.latestSent.map (·.1) = some tag → x.slot = some o → o.tag = tag → x.successor = none →
      let t := h.withOrders u { x with slot := some { o with status := .accepted, acceptTimer := none } }
      exec i s = .next (answered .fleet c .ok (if o.status = .queued then t.unqueued u else t))) ∧
    (∀ o v, x.latestSent.map (·.1) = some tag → x.slot = some o → o.tag = tag → x.successor = some v →
      let parked := match u with
        | .robot k => (tget s.fou.robots k).state = .parked
        | .carrier _ => False
      let left (t : State) := if o.status = .queued then t.unqueued u else t
      (v.kind = .goHead → parked → exec i s = .next (answered .fleet c .ok (left (h.withOrders u { x with
        slot := some { o with status := .accepted, acceptTimer := none }, successor := none })))) ∧
      (¬ (v.kind = .goHead ∧ parked) → exec i s = .next (answered .fleet c .ok ((left (h.withOrders u { x with
        tagCounter := x.tagCounter + 1
        slot := some { tag := x.tagCounter + 1, kind := v.kind, cls := v.cls, status := .queued, attempts := 0,
                       acceptTimer := none }
        successor := none })).queued u v.cls))))

/-- The accept timer of a SENT order expires (R37, R39): a successor takes its place, or it is queued again at the tail
of its tier with its tag and count, or, sent three times, its robot is LOST or its carrier HALTED. -/
def Obligations.AcceptTimeout : Prop :=
  ∀ (u : FleetUnit) (o : Order) (s : State), Settled s → (s.fou.orders u).slot = some o →
    let x := s.fou.orders u
    let expired := o.status = .sent ∧ due s.now o.acceptTimer s.fou.acceptTimeout = true
    (¬ expired → exec (.acceptTimeout u) s = .next s) ∧
    (expired → x.successor ≠ none → exec (.acceptTimeout u) s = .next (s.orderEnded u)) ∧
    (expired → x.successor = none → o.attempts < 3 → exec (.acceptTimeout u) s = .next ((s.withOrders u { x with
      slot := some { o with status := .queued, acceptTimer := none } }).queued u o.cls)) ∧
    (expired → x.successor = none → 3 ≤ o.attempts → exec (.acceptTimeout u) s = .next
      (match u with
        | .robot k => (loseRobot k s.work).toState
        | .carrier c => (halt c .noAnswer s.work).toState))

/-! ### Robots (chapter 2) -/

/-- ROBOT_ENROL puts a robot into an empty slot, PARKED, docked and unconfirmed at a row with a rail and no robot counted
against it; the slot keeps its tag counter. A command that fails a check changes nothing (R29); that the slot's state is
looked at before the row, and the row's rail before its robots, is the model's order of the checks, log entry 25. -/
def Obligations.RobotEnrolled : Prop :=
  (∀ (k : Slot) (a b row : Byte) (s : State), Ready .plant s → Settled s →
    let r := byteRow row
    let x := tget s.rac.rows r
    let v := tget s.fou.robots k
    let refused (c : Result) := exec (.robotEnrol .plant [BitVec.ofNat 8 k.val, a, b, row]) s =
      .next (answered .plant .robotEnrol c s)
    (v.state ≠ .empty → refused .state) ∧
    (v.state = .empty → x.length = 0 → refused .range) ∧
    (v.state = .empty → x.length ≠ 0 → (x.present ≠ none ∨ x.incoming ≠ none) → refused .state) ∧
    (v.state = .empty → x.length ≠ 0 → x.present = none → x.incoming = none →
      exec (.robotEnrol .plant [BitVec.ofNat 8 k.val, a, b, row]) s = .next (answered .plant .robotEnrol .ok
        ((s.withRobot k
          { serial := BitVec.ofNat 16 (a.toNat * 256 + b.toNat), state := .parked, position := .docked, row := some r,
            carrier := none, unconfirmed := true, cause := .none, highest := 0, battery := 0, lastReport := s.now
            orders := { tagCounter := v.orders.tagCounter, latestSent := none, slot := none, successor := none }
            link := none, fullPasses := 0, partPasses := 0, passMode := .dry }).withRow r
          { x with present := some k })))) ∧
  (∀ (slot a b row : Byte) (s : State), Ready .plant s → 31#8 < slot →
    exec (.robotEnrol .plant [slot, a, b, row]) s = .next (answered .plant .robotEnrol .range s))

/-- ROBOT_RETIRE of a docked robot that counts against no LOCKED row empties its slot but for the tag counter: its orders
leave the queue, its presence and then its reservations are cleared, row by row in ascending order (log entry 35), and
nothing else changes. In every other case it is refused (R30). ROBOT_RECOVERED of a robot that is FAULT, LOST or STRANDED,
or PARKED and counted against a LOCKED row, to its own row, a row reserved for it, or a row with a rail and no robot counted
against it (R31), in SECURED shown where it is no carrier's load: the robot is PARKED, docked and unconfirmed there, with
its orders and link gone, and is that row's present robot and no other's; a carrier it was the load of has no load and no
task, and is IDLE unless it is HALTED (R78); REMOVED empties the slot (whose last report time is that of the command, the
model's reading, log entry 26); no reservation is left for it, but on an OCCUPIED or STOW_WAIT row, whose reservation is the
place of a robot under way there (R7; PlaceInv rules that out for this robot; log entry 38). A LOCKED row it counts against
leaves LOCKED: to STOW_CLEARED where stow is wanted or a storm is on (a row that another robot's STORM reservation exempts
apart, log entry 37), and otherwise to TRACKING with a RELEASE; every other LOCKED, cleared or stowed row keeps its state
(R19). That the robot's state is looked at before the named row, and the row's robots before its rail, is the model's order
of the checks, log entry 25. How a row takes a reservation that is freed on it is TransferFailures' to say. -/
def Obligations.RobotLeaves : Prop :=
  let cleared (k : Slot) (s : State) := (indices 256).foldl (fun t r =>
    if (tget s.rac.rows r).present = some k then t.withRow r { tget t.rac.rows r with present := none } else t) s
  let freed (k : Slot) (s : State) := (indices 256).foldl (fun t r =>
    if (tget s.rac.rows r).incoming.map (·.robot) = some k then (freeReservation r t.work).toState else t) (cleared k s)
  (∀ (k : Slot) (s : State), Ready .plant s → Settled s →
    let v := tget s.fou.robots k
    let taken := (v.state = .parked ∨ v.state = .fault ∨ v.state = .lost) ∧ v.position = .docked ∧
      ∀ r : Row, (tget s.rac.rows r).state = .locked →
        (tget s.rac.rows r).present ≠ some k ∧ ∀ m, (tget s.rac.rows r).incoming = some m → m.robot ≠ k
    let under (r : Row) := (tget s.rac.rows r).state = .occupied ∨ (tget s.rac.rows r).state = .stowWait
    (¬ taken → exec (.robotRetire .plant [BitVec.ofNat 8 k.val]) s = .next (answered .plant .robotRetire .state s)) ∧
    (taken → ∃ t : State, exec (.robotRetire .plant [BitVec.ofNat 8 k.val]) s =
        .next (answered .plant .robotRetire .ok t) ∧
      t = { freed k s with fou := ((s.ordersDiscarded (.robot k)).withRobot k { Robot.reset with
        orders := { UnitOrders.reset with tagCounter := v.orders.tagCounter } }).fou } ∧
      ∀ r : Row, (tget t.rac.rows r).present =
          (if (tget s.rac.rows r).present = some k then none else (tget s.rac.rows r).present) ∧
        (tget t.rac.rows r).incoming =
          (if (tget s.rac.rows r).incoming.map (·.robot) = some k ∧ ¬ under r then none
            else (tget s.rac.rows r).incoming))) ∧
  ((∀ (k : Slot) (row : Option Row) (s : State), Ready .plant s → Settled s →
    let v := tget s.fou.robots k
    let counts (q : Row) := (tget s.rac.rows q).present = some k ∨ (tget s.rac.rows q).incoming.map (·.robot) = some k
    let cmd := Instr.robotRecovered .plant (BitVec.ofNat 8 k.val :: match row with
      | some r => [0#8, BitVec.ofNat 8 r.val]
      | none => [0xFF#8, 0xFF#8])
    let taken := v.state = .fault ∨ v.state = .lost ∨ v.state = .stranded ∨
      (v.state = .parked ∧ ∃ q : Row, (tget s.rac.rows q).state = .locked ∧ counts q)
    let own (r : Row) := v.row = some r ∨ (tget s.rac.rows r).incoming.map (·.robot) = some k
    let open_ (r : Row) := (tget s.rac.rows r).present = none ∧ (tget s.rac.rows r).incoming = none
    let refused (c : Result) := exec cmd s = .next (answered .plant .robotRecovered c s)
    (¬ taken → refused .state) ∧
    (taken → ∀ r : Row, row = some r → ¬ own r →
      (¬ open_ r → refused .state) ∧ (open_ r → (tget s.rac.rows r).length = 0 → refused .range)) ∧
    (taken → (s.wxm.weather ≠ .secured ∨ ∀ c, (tget s.txs.carriers c).load ≠ some k) →
      (∀ r : Row, row = some r → own r ∨ (open_ r ∧ (tget s.rac.rows r).length ≠ 0)) →
      let left (q : Row) : RowRec :=
        let x := tget s.rac.rows q
        let y : RowRec := { x with
          present := if x.present = some k then none else x.present
          incoming := if x.incoming.map (·.robot) = some k then none else x.incoming
          hold := none, holdTimer := none }
        let storm := s.wxm.weather = .secured ∧ y.incoming.map (·.kind) ≠ some .storm
        if x.stowWanted = true ∨ storm then
          placeNotice (.stowClear false) { y with state := .stowCleared, lastForced := false }
        else placeNotice .release { y with state := .tracking }
      let unlocked := (indices 256).foldl (fun t q =>
        if (tget s.rac.rows q).state = .locked ∧ counts q then t.withRow q (left q) else t) (freed k s)
      let record : Robot := match row with
        | some r => { v with
          state := .parked, position := .docked, row := some r, carrier := none, unconfirmed := true, cause := .none
          link := none, lastReport := s.now
          orders := { v.orders with latestSent := none, slot := none, successor := none } }
        | none => { Robot.reset with
          lastReport := s.now, orders := { UnitOrders.reset with tagCounter := v.orders.tagCounter } }
      let unloaded (y : Carrier) : Carrier :=
        if y.load ≠ some k then y
        else if y.state = .halted then { y with load := none, task := none }
        else { y with load := none, task := none, state := .idle, idleStart := some s.now }
      let placed := match row with
        | some r => unlocked.withRow r { tget unlocked.rac.rows r with present := some k }
        | none => unlocked
      exec cmd s = .next (answered .plant .robotRecovered .ok { placed with
          fou := ((s.ordersDiscarded (.robot k)).withRobot k record).fou
          txs := { s.txs with carriers := tmap (fun _ y => unloaded y) s.txs.carriers } }) ∧
        (∀ q : Row, (tget placed.rac.rows q).present = some k ↔ row = some q) ∧
        (∀ (q : Row) m, (tget placed.rac.rows q).incoming = some m → m.robot = k →
          (tget s.rac.rows q).state = .occupied ∨ (tget s.rac.rows q).state = .stowWait) ∧
        ∀ q : Row, let x := tget s.rac.rows q
          (x.state = .locked ∧ ¬ counts q) ∨ (x.state ≠ .locked ∧ x.state ≠ .tracking) →
            (tget placed.rac.rows q).state = x.state)) ∧
  (∀ (slot a b : Byte) (s : State), Ready .plant s → 31#8 < slot →
    exec (.robotRecovered .plant [slot, a, b]) s = .next (answered .plant .robotRecovered .range s)))

/-- ROBOT_MOVE outside RUNNING: a request with origin PLANT waits in the pool with the next sequence number, its final row
reserved and its leg target found, and the robot's task link names it; in RUNNING and CALM, with the pool empty and its
carrier GARAGED away from its row, the carrier goes to fetch it (R60, R61, R62, R64, R69). Where the serving carrier does
not reach the final row the leg target is the handover row, its span's high row below the final row and the row under its
low row above it: reserved LEG if that row is open, and PENDING if not. A robot that may not move is refused. A row that
becomes free (R60, R73), shown with one request in the pool, which is PENDING: where the carrier of its leg reaches the row
the search is made again. A request that waits for its leg target takes the final row, or the handover row if it is open,
reserved LEG, and arbitration is run for its carrier; one that is re-aimed takes the open row of the span nearest to the
failed one (which the failed row itself may be, log entry 22), and a converted one the storm target R145 gives
(StormTransfers), and a carrier in TO_DROP goes there. UNSTOWED of the handover row shows it (R18). -/
def Obligations.RobotMoved : Prop :=
  let open_ (x : RowRec) := x.state = .tracking ∧ x.length ≠ 0 ∧ x.excluded = false ∧ x.present = none ∧ x.incoming = none
  let handover (y : Carrier) (final t : Row) := ∃ low high : Row, y.span = some (low, high) ∧
    if high < final then t = high else t.val + 1 = low.val
  (∀ (k : Slot) (row : Byte) (f : Row) (c : CarrierIx) (s : State), Ready .plant s → Settled s →
    let r := byteRow row
    let v := tget s.fou.robots k
    let x := tget s.rac.rows r
    let y := tget s.txs.carriers c
    s.wxm.weather ≠ .secured → v.state = .parked → v.unconfirmed = false → v.link = none → v.row = some f → f ≠ r →
    x.length ≠ 0 → x.present = none → x.incoming = none → servingOf s.work f r = some c →
    let seq := s.txs.seqCounter + 1
    let reserved := (s.withRow r { x with incoming := some ⟨k, .final⟩ }).withRobot k { v with link := some (.request seq) }
    let q : Request :=
      { seq := seq, robot := k, fromRow := f, legTarget := some r, finalRow := r, cls := .routine, origin := .plant, leg := 1
        dyn := 0, guard := 0, pickupFails := 0, dropFails := 0, retry := none, cancelled := false, state := .waiting
        search := .leg, relocated := false, stormTarget := none, stormCrossing := false }
    let pooled (t : State) (p : Request) := exec (.robotMove .plant [BitVec.ofNat 8 k.val, row]) s =
      .next (answered .plant .robotMove .ok { t with txs := { s.txs with seqCounter := seq, pool := [p] } })
    (s.pls.freeze = .frozen → reaches y r = true → pooled reserved q) ∧
    (s.pls.freeze = .frozen → reaches y r = false → ∀ t : Row, handover y r t →
      (open_ (tget s.rac.rows t) → pooled (reserved.withRow t { tget s.rac.rows t with incoming := some ⟨k, .leg⟩ })
        { q with legTarget := some t }) ∧
      (¬ open_ (tget s.rac.rows t) → pooled reserved { q with legTarget := none })) ∧
    (s.pls.freeze = .running → s.wxm.weather = .calm → reaches y r = true → y.state = .garaged →
      standsAt y f = false → inSpan y f = true →
      let sent := { reserved with txs := { s.txs with
        seqCounter := seq, pool := [{ q with state := .serving c }]
        carriers := tset s.txs.carriers c { y with
          state := .toPickup, task := some seq, idleStart := none
          travelTimer := some (s.now, distance (posInt y) (f.val : Int)) } } }
      exec (.robotMove .plant [BitVec.ofNat 8 k.val, row]) s =
        .next (answered .plant .robotMove .ok (sent.issued (.carrier c) (.travel f) .routine)))) ∧
  (∀ (k : Slot) (row : Byte) (s : State), Ready .plant s →
    let v := tget s.fou.robots k
    (tget s.rac.rows (byteRow row)).length ≠ 0 →
    (s.wxm.weather = .parking ∨ s.wxm.weather = .secured ∨ v.state ≠ .parked ∨ v.unconfirmed = true ∨ v.link ≠ none) →
    exec (.robotMove .plant [BitVec.ofNat 8 k.val, row]) s = .next (answered .plant .robotMove .state s)) ∧
  (∀ (r : Row) (c : CarrierIx) (q : Request) (s : State), s.txs.pool = [q] → q.legTarget = none →
    (q.state = .waiting → servingOf s.work q.fromRow q.finalRow = some c) → (q.state = .waiting ∨ q.state = .serving c) →
    let y := tget s.txs.carriers c
    let row (t : Row) := tget s.rac.rows t
    let after := rowFreed r s.work
    let goes (t : State) (p : Request) := after.toState =
      if q.state = .serving c ∧ y.state = .toDrop then (goToDrop c p (t.withRequest q.seq (fun _ => p)).work).toState
      else t.withRequest q.seq (fun _ => p)
    let told := q.state = .waiting → after.agenda = [.arbitrate c]
    (reaches y r = false → after = s.work) ∧
    (reaches y r = true → q.search = .leg →
      (reaches y q.finalRow = true → goes s { q with legTarget := some q.finalRow } ∧ told) ∧
      (reaches y q.finalRow = false → ∀ t : Row, handover y q.finalRow t →
        (open_ (row t) → goes (s.withRow t { row t with incoming := some ⟨q.robot, .leg⟩ })
          { q with legTarget := some t } ∧ told) ∧
        (¬ open_ (row t) → after = s.work))) ∧
    (∀ (failed : Row) (final : Bool), reaches y r = true → q.state = .serving c → q.search = .relocate failed final →
      let suits (a : Row) := inSpan y a = true ∧ open_ (row a)
      let nearer (a b : Row) := distance (a.val : Int) (failed.val : Int) < distance (b.val : Int) (failed.val : Int) ∨
        (distance (a.val : Int) (failed.val : Int) = distance (b.val : Int) (failed.val : Int) ∧ a ≤ b)
      let kind := if q.cls = .storm then ResKind.storm else if final then .final else .leg
      ((∀ a, ¬ suits a) → after = s.work) ∧
      ∀ t, suits t → (∀ a, suits a → nearer t a) →
        goes (s.withRow t { row t with incoming := some ⟨q.robot, kind⟩ }) { q with
          legTarget := some t, search := .leg, finalRow := if final then t else q.finalRow
          relocated := q.relocated || final }) ∧
    (reaches y r = true → q.state = .serving c → q.search = .storm →
      match chooseStormTarget c q s.work with
      | (some t, v) => goes v.toState { q with legTarget := some t, finalRow := t }
      | (none, v) => after = v)) ∧
  (∀ (b : Byte) (c : CarrierIx) (q : Request) (s : State), Ready .tracker s → s.rsc.state = .none →
    (∀ c, tget s.wxm.alights c = none) → s.wxm.weather = .calm ∨ s.wxm.weather = .watch → s.pls.freeze = .frozen →
    let t := byteRow b
    let x := tget s.rac.rows t
    let y := tget s.txs.carriers c
    s.txs.pool = [q] → q.legTarget = none → q.search = .leg → q.state = .waiting → q.cls = .routine →
    servingOf s.work q.fromRow q.finalRow = some c → reaches y q.finalRow = false → handover y q.finalRow t →
    x.state = .stowCleared ∨ x.state = .stowed → open_ { x with state := .tracking } →
    exec (.unstowed .tracker [b]) s = .next (answered .tracker .unstowed .ok
      ((s.withRow t { x with
        state := .tracking, stowWanted := false, incoming := some ⟨q.robot, .leg⟩ }).withRequest q.seq (fun p =>
          { p with legTarget := some t }))))

/-- PROGRESS, BATTERY and ALIVE of a robot that is enrolled and not LOST (R40, R44): the highest segment never falls and is
held at the row's length, the level is held at 100, and each report sets the last report time. A report for an EMPTY slot,
or a slot above 31, is refused and changes nothing. Every report of a LOST robot, whatever its tag, but a DOCKED at its row
from a robot not lost aboard, puts it in FAULT with cause MISMATCH and its position kept, result OK (R49), also where R46 or
R40 would refuse the report: that R49 is taken first is the model's reading, log entry 24. -/
def Obligations.PlainRobotReports : Prop :=
  (∀ (k : Slot) (b : Byte) (s : State), Ready .fleet s → Settled s →
    let v := tget s.fou.robots k
    v.state ≠ .empty → v.state ≠ .lost →
    let len := (v.row.map (fun r => (tget s.rac.rows r).length)).getD 0
    let slot := BitVec.ofNat 8 k.val
    exec (.alive .fleet slot []) s = .next (answered .fleet .robotReport .ok (s.heard k)) ∧
    exec (.battery .fleet slot [b]) s = .next (answered .fleet .robotReport (if 100 < b.toNat then .clamped else .ok)
      (s.withRobot k { v with lastReport := s.now, battery := min 100 b.toNat })) ∧
    exec (.progress .fleet slot [b]) s = .next (
      if v.state = .passing ∨ v.state = .returning then
        answered .fleet .robotReport (if len < b.toNat then .clamped else .ok)
          (s.withRobot k { v with lastReport := s.now, highest := max v.highest (min b.toNat len) })
      else answered .fleet .robotReport .state (s.heard k))) ∧
  (∀ (i : Instr) (slot : Byte) (s : State) (k : Slot), Ready .fleet s → (tget s.fou.robots k).state = .empty →
    (i = .alive .fleet slot [] ∨ i = .robotFaultClear .fleet slot [] ∨ (∃ b : Byte, i = .robotAccept .fleet slot [b] ∨
      i = .done .fleet slot [b] ∨ i = .progress .fleet slot [b] ∨ i = .docked .fleet slot [b] ∨ i = .aboard .fleet slot [b] ∨
      i = .robotFault .fleet slot [b] ∨ i = .battery .fleet slot [b] ∨ ∃ a, i = .refuse .fleet slot [a, b])) →
    (slot = BitVec.ofNat 8 k.val → exec i s = .next (answered .fleet .robotReport .state s)) ∧
    (31#8 < slot → exec i s = .next (answered .fleet .robotReport .range s))) ∧
  (∀ (i : Instr) (k : Slot) (a b : Byte) (s : State), Ready .fleet s → Settled s →
    let v := tget s.fou.robots k
    let slot := BitVec.ofNat 8 k.val
    v.state = .lost →
    (i ∈ [.alive .fleet slot [], .robotFaultClear .fleet slot [], .robotAccept .fleet slot [b], .refuse .fleet slot [a, b],
        .done .fleet slot [b], .progress .fleet slot [b], .aboard .fleet slot [b], .robotFault .fleet slot [b],
        .battery .fleet slot [b]] ∨
      (i = .docked .fleet slot [b] ∧ (v.row ≠ some (byteRow b) ∨ v.position = .onCarrier))) →
    exec i s = .next (answered .fleet .robotReport .ok ((s.ordersDiscarded (.robot k)).withRobot k { v with
      state := .fault, cause := .mismatch, lastReport := s.now
      orders := { v.orders with slot := none, successor := none } })))

/-- REFUSE of the order in its slot by a robot (R42): with the latest sent tag, on an order SENT or QUEUED again. A PASS:
the robot is PARKED, the order ends, and the row's occupancy or wait ends. A BOARD does the same; an ALIGHT leaves the robot
ABOARD, with no row; the row keeps its present robot and its reservation. A GO_HEAD refused puts the RETURNING robot in
FAULT, cause REFUSED. With another tag, on an order ACCEPTED or replaced, or on one that does not fit the robot's state, the
report is refused. What a refusal does to a transfer request and to a worklist entry is TransferFailures' and EntryEvents'.
-/
def Obligations.OrderRefused : Prop :=
  ∀ (k : Slot) (tag reason : Byte) (o : Order) (s : State), Ready .fleet s → Settled s →
    let v := tget s.fou.robots k
    let answer := exec (.refuse .fleet (BitVec.ofNat 8 k.val) [tag, reason]) s
    let refused (t : State) := Host.Outcome.next (answered .fleet .robotReport .ok t)
    let docked := ((s.withRobot k { v with lastReport := s.now, state := .parked, position := .docked }).orderEnded
      (.robot k)).occupancyEnded v.row
    let open_ := v.orders.latestSent.map (·.1) = some tag ∧ o.tag = tag ∧
      (o.status = .sent ∨ (o.status = .queued ∧ 0 < o.attempts))
    let pass := (∃ r m, o.kind = .pass r m) ∧ (v.state = .passing ∨ v.state = .returning)
    let board := (∃ c, o.kind = .board c) ∧ v.state = .boarding
    let alight := (∃ r, o.kind = .alight r) ∧ v.state = .alighting
    let back := o.kind = .goHead ∧ v.state = .returning
    v.state ≠ .empty → v.state ≠ .lost → v.orders.slot = some o →
    (open_ → pass → answer = refused docked) ∧
    (open_ → board → answer = refused docked) ∧
    (open_ → alight → answer = refused (((s.withRobot k { v with
      lastReport := s.now, state := .aboard, position := .onCarrier, row := none }).orderEnded (.robot k)).occupancyEnded
        v.row)) ∧
    (open_ → back → answer = refused (enterFault k .refused (s.heard k).work).toState) ∧
    (¬ open_ ∨ ¬ (pass ∨ board ∨ alight ∨ back) →
      answer = .next (answered .fleet .robotReport .state (s.heard k)))

/-- A pass result at the estimator (R51, R112 to R114, R163): a complete pass raises the ratio to the post-pass ratio of
its mode and sets the last-clean day; a partial one raises it in the share of the row passed; neither lowers it. The
counter of the row rises, the recovered estimate goes to the zone, and PASS_DONE is posted. -/
def Obligations.PassResult : Prop :=
  ∀ (r : Row) (k : Slot) (mode : Mode) (complete : Bool) (p : Nat) (s : State),
    let e := tget s.seu.rows r
    let x := tget s.rac.rows r
    let bank := match s.pls.front with
      | .a => s.pls.bankA
      | .b => s.pls.bankB
    let pol := tget bank.zones x.zone
    let post := if mode = .deep then 4096 else pol.pDry
    let after :=
      if complete then max e.ratio post
      else if x.length = 0 then e.ratio
      else e.ratio + (post - e.ratio) * min p x.length / x.length
    let recovered := s.seu.yDay * x.capacity * (after - e.ratio) / 40960
    let z := tget s.yac.zones x.zone
    let e' :=
      if complete then
        { e with ratio := after, lastClean := some s.seu.day, fullPasses := min 65535 (e.fullPasses + 1) }
      else { e with ratio := after, partPasses := min 65535 (e.partPasses + 1) }
    let z' := { z with recovered := min 4294967295 (z.recovered + recovered) }
    (passResult r k mode complete p s.work).toState = State.posted { s with
      seu := { s.seu with rows := tset s.seu.rows r e' }
      yac := { s.yac with zones := tset s.yac.zones x.zone z' } }
      [.passDone r k complete (if complete then x.length else min p x.length) e.ratio after]

/-- DONE of a PASS: with the tag of the latest sent order, a PASS, from a PASSING robot, the robot is PARKED and
confirmed, its order ends, the complete pass is counted for the robot and handed on, and the occupancy ends; otherwise it
is refused (R43, R51). A DOCKED of a PASSING or RETURNING robot at its row does the same with a partial pass, at the
highest segment (R45). -/
def Obligations.PassEnds : Prop :=
  ∀ (k : Slot) (r : Row) (s : State), Ready .fleet s → Settled s →
    let v := tget s.fou.robots k
    let parked := (s.withRobot k { v with
      lastReport := s.now, unconfirmed := false, state := .parked, position := .docked }).orderEnded (.robot k)
    let counted (complete : Bool) := parked.withRobot k { tget parked.fou.robots k with
      fullPasses := if complete then min 65535 (v.fullPasses + 1) else v.fullPasses
      partPasses := if complete then v.partPasses else min 65535 (v.partPasses + 1) }
    let passed (complete : Bool) :=
      (passResult r k v.passMode complete v.highest (counted complete).work).toState.occupancyEnded (some r)
    v.row = some r →
    (∀ tag : Byte, v.orders.latestSent = some (tag, .pass) → (v.state = .passing ∨ v.state = .returning) →
      exec (.done .fleet (BitVec.ofNat 8 k.val) [tag]) s = .next (answered .fleet .robotReport .ok (passed true))) ∧
    (∀ tag : Byte, v.state ≠ .empty → v.state ≠ .lost →
      (v.orders.latestSent ≠ some (tag, .pass) ∨ (v.state ≠ .passing ∧ v.state ≠ .returning)) →
      exec (.done .fleet (BitVec.ofNat 8 k.val) [tag]) s = .next (answered .fleet .robotReport .state (s.heard k))) ∧
    ((v.state = .passing ∨ v.state = .returning) →
      exec (.docked .fleet (BitVec.ofNat 8 k.val) [BitVec.ofNat 8 r.val]) s =
        .next (answered .fleet .robotReport .ok (passed false)))

/-- DOCKED of a robot that is PARKED, LOST off its carrier or STRANDED off its carrier, at its row: PARKED, docked and
confirmed (R45, R49, Table 2-5); (the carrier made absent is log entry 18's, and a robot STRANDED on its dock log entry
30's); of a STRANDED robot at another row or on a carrier, or one in FAULT, it is refused with STATE; a BOARDING one turns
back: PARKED at its row, its order and the row's occupancy ended; an ALIGHTING one is PARKED there and its reservation is
presence; at another row than the robot's own it is a MISMATCH. A report refused still sets the last report time (R40).
ABOARD of a BOARDING robot (R46): on a carrier that stands at its row the robot is ABOARD it, its order ends, the row's
occupancy ends and its presence is cleared; on another it is a MISMATCH. Of an ALIGHTING robot: on its own carrier it turns
back, ABOARD again with no row, its order and the row's occupancy ended; on another it is a MISMATCH. Of a robot in any
other state but LOST it is refused with STATE; a carrier above 3 is refused with RANGE before that (the model's order, and
that this sets the last report time, log entry 24). Shown first in an empty pool, where the carrier takes no load and no
step (log entry 20). Then with the robot's request, the one in the pool, served by the carrier (R71, R74), where no storm
parking is on: ABOARD sets the load, clears the pickup failures and sends the carrier to the leg target; DOCKED at the final
row of an ALIGHT there ends the request with its TRANSFER_DONE: the robot is PARKED there, its reservation is presence, the
row's occupancy ends, and the carrier has neither load nor task; a FREEZE_DONE that these changes of state bring stands
ahead of the TRANSFER_DONE (R7, R28, R56, R94) (the kept ask count, cleared there, is the model's own, log entry 33; that
the leg ends there also where a conversion during the crossing has left another leg target or none is log entry 21's). -/
def Obligations.DockedAndAboard : Prop :=
  (∀ (k : Slot) (b : Byte) (s : State), Ready .fleet s → Settled s →
    let v := tget s.fou.robots k
    let here := v.row = some (byteRow b)
    let answers (t : State) := exec (.docked .fleet (BitVec.ofNat 8 k.val) [b]) s =
      .next (answered .fleet .robotReport .ok t)
    let refused := exec (.docked .fleet (BitVec.ofNat 8 k.val) [b]) s = .next (answered .fleet .robotReport .state (s.heard k))
    let parked := { v with lastReport := s.now, state := RobotState.parked, position := .docked, unconfirmed := false }
    (v.state = .parked → here → answers (s.withRobot k { v with lastReport := s.now, unconfirmed := false })) ∧
    (v.state = .lost → v.position ≠ .onCarrier → here → answers (s.withRobot k { parked with carrier := none })) ∧
    (v.state = .stranded → v.position ≠ .onCarrier → here → answers (s.withRobot k { parked with carrier := none })) ∧
    (v.state = .stranded → v.position = .onCarrier ∨ ¬ here → refused) ∧
    (v.state = .boarding → here →
      answers (((s.withRobot k parked).orderEnded (.robot k)).occupancyEnded (some (byteRow b)))) ∧
    (v.state = .alighting → here →
      answers (((s.withRobot k { parked with carrier := none }).orderEnded (.robot k)).withRow (byteRow b)
        (endOccupancyRow (stormOn s.wxm.weather) (enterReserved (tget s.rac.rows (byteRow b)))))) ∧
    (¬ here → v.state ∈ [RobotState.parked, .passing, .returning, .boarding, .aboard, .alighting, .lost] →
      answers (enterFault k .mismatch (s.heard k).work).toState) ∧
    (v.state = .fault → refused)) ∧
  (∀ (k : Slot) (b : Byte) (s : State), Ready .fleet s → Settled s →
    let v := tget s.fou.robots k
    let cmd := Instr.aboard .fleet (BitVec.ofNat 8 k.val) [b]
    let aboard := { v with lastReport := s.now, state := RobotState.aboard, position := .onCarrier, row := none }
    let mismatch := (enterFault k .mismatch (s.heard k).work).toState
    (∀ (c : CarrierIx) (r : Row), b = BitVec.ofNat 8 c.val → v.state = .boarding → v.row = some r →
      exec cmd s = .next (answered .fleet .robotReport .ok (
        if standsAt (tget s.txs.carriers c) r = true then
          ((s.withRobot k { aboard with carrier := some c }).orderEnded (.robot k)).withRow r
            { endOccupancyRow (stormOn s.wxm.weather) (tget s.rac.rows r) with present := none }
        else mismatch))) ∧
    (∀ c : CarrierIx, b = BitVec.ofNat 8 c.val → v.state = .alighting → exec cmd s = .next (answered .fleet .robotReport .ok (
      if v.carrier = some c then ((s.withRobot k aboard).orderEnded (.robot k)).occupancyEnded v.row else mismatch))) ∧
    (b < 4#8 → v.state ∈ [RobotState.parked, .passing, .returning, .aboard, .fault, .stranded] →
      exec cmd s = .next (answered .fleet .robotReport .state (s.heard k))) ∧
    (3#8 < b → v.state ≠ .empty → v.state ≠ .lost →
      exec cmd s = .next (answered .fleet .robotReport .range (s.heard k)))) ∧
  (∀ (c : CarrierIx) (q : Request) (r : Row) (s : State), Ready .fleet s → s.rsc.state = .none →
    (∀ c, tget s.wxm.alights c = none) → (s.wxm.weather = .calm ∨ s.wxm.weather = .watch) →
    let k := q.robot
    let v : Robot := tget s.fou.robots k
    let x : RowRec := tget s.rac.rows r
    let y : Carrier := tget s.txs.carriers c
    let slot := BitVec.ofNat 8 k.val
    let ended (x : RowRec) := if x.stowWanted then
        placeNotice (.stowClear false) { x with state := .stowCleared, hold := none, holdTimer := none, lastForced := false }
      else placeNotice .release { x with state := .tracking, hold := none, holdTimer := none }
    s.txs.pool = [q] → q.state = .serving c → q.stormCrossing = false → v.row = some r → v.link = some (.request q.seq) →
    x.state = .occupied →
    (∀ dest : Row, v.state = .boarding → y.state = .loading → standsAt y r = true → standsAt y dest = false →
      q.legTarget = some dest →
      let boarded := ((s.withRobot k { v with
        lastReport := s.now, state := .aboard, position := .onCarrier, carrier := some c, row := none }).orderEnded
          (.robot k)).withRow r { ended x with present := none }
      let d := if inSpan y dest = true then distance (posInt y) (dest.val : Int)
        else distance (posInt y) ((spanLow y : Int) - 1)
      let sent := { boarded with txs := { s.txs with
        pool := [{ q with pickupFails := 0 }]
        carriers := tset s.txs.carriers c { y with
          load := some k, state := .toDrop, travelTimer := some (s.now, d) } } }
      exec (.aboard .fleet slot [BitVec.ofNat 8 c.val]) s = .next (answered .fleet .robotReport .ok (sent.issued (.carrier c)
        (if inSpan y dest = true then .travel dest else .park) (if q.cls = .storm then .urgent else .routine)))) ∧
    (∀ kind : ResKind, v.state = .alighting → q.finalRow = r → q.origin = .plant ∨ q.origin = .none →
      (∀ t, q.legTarget = some t → t = r ∨ (tget s.rac.rows t).state ≠ .holdAsked) →
      x.incoming = some ⟨k, kind⟩ → (tget s.rac.rows q.fromRow).state ≠ .holdAsked →
      (∀ z : Row, z ≠ r → (tget s.rac.rows z).incoming.map (·.robot) ≠ some k) →
      let docked := ((s.changedRobot k { v with
        lastReport := s.now, state := .parked, position := .docked, carrier := none, unconfirmed := false
        link := none }).orderEnded (.robot k)).changedRow r (ended { x with present := some k, incoming := none })
      let free := State.changedCarrier { docked with
          wxm := { s.wxm with askKept := tset s.wxm.askKept c 0 }, txs := { s.txs with pool := [] } } c
        (if y.state = CarrierState.halted then { y with load := none, task := none }
          else { y with load := none, task := none, state := .idle, idleStart := some s.now })
      exec (.docked .fleet slot [BitVec.ofNat 8 r.val]) s = .next (answered .fleet .robotReport .ok (free.posted
        [.transferDone q.seq k r (some r) q.leg q.cls (if q.relocated then .relocated else .delivered)]))))

/-- FAULT and FAULT_CLEAR of a robot (R47): FAULT puts it in FAULT with the code, in FAULT only the cause is new, and in
STRANDED it is refused; FAULT_CLEAR returns a docked one to PARKED and one on a carrier to ABOARD, and elsewhere clears
the cause alone. The silence timer makes a robot LOST (R48). A robot that faults or is lost (R16, R38, R47, R48), in a
settled block: its orders are discarded, its position kept, and the row it was off its dock on is LOCKED with its hold
gone; the loss posts ROBOT_LOST. -/
def Obligations.RobotFaultsAndLosses : Prop :=
  (∀ (k : Slot) (code : Byte) (s : State), Settled s →
    let v := tget s.fou.robots k
    let slot := BitVec.ofNat 8 k.val
    (Ready .fleet s →
      (v.state ∈ [RobotState.parked, .passing, .returning, .boarding, .aboard, .alighting] →
        exec (.robotFault .fleet slot [code]) s = .next (answered .fleet .robotReport .ok
          (enterFault k (.code code) (s.heard k).work).toState)) ∧
      (v.state = .fault → exec (.robotFault .fleet slot [code]) s = .next (answered .fleet .robotReport .ok
        (s.withRobot k { v with lastReport := s.now, cause := .code code }))) ∧
      (v.state = .stranded → exec (.robotFault .fleet slot [code]) s =
        .next (answered .fleet .robotReport .state (s.heard k))) ∧
      (v.state = .fault → exec (.robotFaultClear .fleet slot []) s = .next (answered .fleet .robotReport .ok
        (s.withRobot k { v with
          lastReport := s.now, cause := .none
          state := if v.position = .docked then .parked else if v.position = .onCarrier then .aboard else .fault }))) ∧
      (v.state ≠ .fault → v.state ≠ .empty → v.state ≠ .lost → exec (.robotFaultClear .fleet slot []) s =
        .next (answered .fleet .robotReport .state (s.heard k)))) ∧
    exec (.robotSilenceTimeout k) s = .next (
      if v.state ≠ .empty ∧ v.state ≠ .lost ∧ v.state ≠ .stranded ∧
        due s.now (some v.lastReport) s.fou.silenceTimeout = true then (loseRobot k s.work).toState
      else s)) ∧
  (∀ (k : Slot) (cause : RobotCause) (s : State), Settled s →
    let v := tget s.fou.robots k
    let off := v.state = .passing ∨ v.state = .returning ∨ v.state = .boarding ∨ v.state = .alighting
    let gone (x : Robot) : State := (s.ordersDiscarded (.robot k)).withRobot k { x with
      orders := { v.orders with slot := none, successor := none } }
    let locked (t : State) : State := match v.row with
      | some r =>
        let x := tget s.rac.rows r
        if off then t.withRow r
          (if x.state = .occupied ∨ x.state = .stowWait then { x with state := .locked, hold := none, holdTimer := none }
          else x)
        else t
      | none => t
    (enterFault k cause s.work).toState = locked (gone { v with state := .fault, cause := cause }) ∧
    (loseRobot k s.work).toState = (locked (gone { v with state := .lost })).posted [.robotLost k v.row v.position])

/-! ### Carriers (chapter 3) -/

/-- CARRIER_SPANS with its seven bytes (R57): outside FROZEN it is refused with STATE, whatever its parameters (the model's
choice, log entry 25). It is refused with RANGE when the enable set is empty; when an enabled carrier other than the highest
gives NONE, a bound of 255, or one not above the bound of an enabled carrier below it; when the highest enabled carrier, or
one not in the set, gives a bound; and for a bound that is no row and not NONE (section 11.2). Passing these it is refused
with STATE when a carrier that is not ABSENT is left out or would stand outside its new span, or when a request is SERVING.
One that is taken, shown with no request in the pool, gives every carrier its enable and its span: from row 0, or from the
row above the bound of the enabled carrier below, to its bound, or to row 255; nothing else changes. -/
def Obligations.CarrierSpans : Prop :=
  ∀ (e b0 b1 b2 b3 b4 b5 : Byte) (s : State), Ready .plant s →
    let answer := exec (.carrierSpans .plant [e, b0, b1, b2, b3, b4, b5]) s
    let reply (c : Result) (t : State) := Host.Outcome.next (answered .plant .carrierSpans c t)
    let on (c : CarrierIx) := e.getLsbD c.val = true
    let bound (c : CarrierIx) : Nat :=
      if c = 0 then b0.toNat * 256 + b1.toNat else if c = 1 then b2.toNat * 256 + b3.toNat
      else if c = 2 then b4.toNat * 256 + b5.toNat else 65535
    let highest (c : CarrierIx) := on c ∧ ∀ d, on d → d ≤ c
    let range := (∀ c, ¬ on c) ∨
      (∃ c, on c ∧ ¬ highest c ∧ (bound c = 65535 ∨ bound c = 255 ∨ ∃ d, d < c ∧ on d ∧ bound c ≤ bound d)) ∨
      (∃ c, (highest c ∨ ¬ on c) ∧ bound c ≠ 65535) ∨ ∃ c, 255 < bound c ∧ bound c ≠ 65535
    let low (c : CarrierIx) : Nat :=
      ((indices 4).filter (fun d => e.getLsbD d.val && decide (d < c))).foldl (fun _ d => bound d + 1) 0
    let high (c : CarrierIx) : Nat := if highest c then 255 else bound c
    let unfit := ∃ c, (tget s.txs.carriers c).state ≠ .absent ∧
      (¬ on c ∨ ∃ r : Row, (tget s.txs.carriers c).position = .row r ∧ ¬ (low c ≤ r.val ∧ r.val ≤ high c))
    (s.pls.freeze ≠ .frozen → answer = reply .state s) ∧
    (s.pls.freeze = .frozen → range → answer = reply .range s) ∧
    (s.pls.freeze = .frozen → ¬ range → (unfit ∨ ∃ q ∈ s.txs.pool, q.state ≠ .waiting) → answer = reply .state s) ∧
    (s.pls.freeze = .frozen → ¬ range → ¬ unfit → s.txs.pool = [] → ∃ t : State, answer = reply .ok t ∧
      t = { s with txs := { s.txs with carriers := t.txs.carriers } } ∧
      ∀ c : CarrierIx, (¬ on c → tget t.txs.carriers c = { tget s.txs.carriers c with enabled := false, span := none }) ∧
        (on c → ∃ l h : Row, l.val = low c ∧ h.val = high c ∧ l ≤ h ∧
          tget t.txs.carriers c = { tget s.txs.carriers c with enabled := true, span := some (l, h) }))

/-- CARRIER_ENROL and CARRIER_RETIRE in FROZEN (R58): an enabled ABSENT carrier is GARAGED with the values after reset
but for its enable and span, and its orders and latest sent tag are gone; a free carrier with no load is ABSENT (what an
ABSENT carrier's record keeps is the model's choice, log entry 45). Every other case is refused (the order of the checks is
the model's, log entry 25). -/
def Obligations.CarrierEnrolment : Prop :=
  (∀ (c : CarrierIx) (s : State), Ready .plant s → Settled s →
    let x := tget s.txs.carriers c
    let o := s.fou.orders (.carrier c)
    let b := BitVec.ofNat 8 c.val
    exec (.carrierEnrol .plant [b]) s = .next (
      if s.pls.freeze ≠ .frozen ∨ x.state ≠ .absent then answered .plant .carrierEnrol .state s
      else if x.enabled = false then answered .plant .carrierEnrol .range s
      else answered .plant .carrierEnrol .ok (((s.withCarrier c
        { state := .garaged, enabled := true, span := x.span, position := .garage, direction := .up, load := none
          task := none, travelTimer := none, idleStart := none, cause := .none }).ordersDiscarded (.carrier c)).withOrders
            (.carrier c) { tagCounter := o.tagCounter, latestSent := none, slot := none, successor := none })) ∧
    exec (.carrierRetire .plant [b]) s = .next (
      if s.pls.freeze = .frozen ∧ (x.state = .garaged ∨ (x.state = .idle ∧ x.load = none) ∨
          (x.state = .halted ∧ x.load = none ∧ x.task = none)) then
        answered .plant .carrierRetire .ok ((s.ordersDiscarded (.carrier c)).withCarrier c
          { x with state := .absent, idleStart := none, travelTimer := none })
      else answered .plant .carrierRetire .state s)) ∧
  (∀ (b : Byte) (s : State), Ready .plant s → s.pls.freeze = .frozen → 3#8 < b →
    exec (.carrierEnrol .plant [b]) s = .next (answered .plant .carrierEnrol .range s) ∧
    exec (.carrierRetire .plant [b]) s = .next (answered .plant .carrierRetire .range s))

/-- The reports of a carrier without a request (R52, R69, R76, R77, Table 3-6): ARRIVED and GARAGED complete the order sent
for them, place the carrier and stop its travel, but that a successor's travel goes on with its timer; in HALTED they only
place it; FAULT halts it; FAULT_CLEAR returns a HALTED carrier to its garage or to IDLE. A report that completes nothing is
refused. (The position an ARRIVED gives a HALTED carrier is log entry 19's; the kept ask count is the model's own, log entry
33; the idle start of a carrier in its garage is log entry 44's.) ARRIVED of a carrier that serves a request, where the row
takes the hold (R70, R72, R77): in TO_PICKUP at the from row it asks the BOARD hold, and in TO_DROP at the leg target, with
the robot ABOARD, the ALIGHT hold, also where a successor then waits in the slot; a hold the request has there already is
not asked again (log entry 19). Every report of an ABSENT carrier is refused with STATE, and every report of a carrier above
3 with RANGE, with no effect (R52). -/
def Obligations.CarrierReports : Prop :=
  (∀ (c : CarrierIx) (s : State), Ready .fleet s → Settled s →
    let x := tget s.txs.carriers c
    let o := s.fou.orders (.carrier c)
    let b := BitVec.ofNat 8 c.val
    let sent (kind : OrderKind) := ∃ m, o.slot = some m ∧ m.kind = kind ∧ (m.status ≠ .queued ∨ 0 < m.attempts)
    let away := x.state ≠ .absent ∧ x.state ≠ .halted
    let reply (r : Result) (t : State) := Host.Outcome.next (answered .fleet .carrierReport r t)
    let timer := if o.successor = none then none else x.travelTimer
    (∀ r : Row, away → sent (.travel r) →
      exec (.arrived .fleet b [BitVec.ofNat 8 r.val]) s = reply .ok ((s.orderEnded (.carrier c)).withCarrier c { x with
        position := .row r, travelTimer := timer
        direction := if posInt x < (r.val : Int) then .up else if (r.val : Int) < posInt x then .down else x.direction })) ∧
    (∀ r : Row, away → ¬ sent (.travel r) →
      exec (.arrived .fleet b [BitVec.ofNat 8 r.val]) s = reply .state s) ∧
    (x.state = .toGarage → sent .park → x.load = none →
      exec (.garaged .fleet b []) s = reply .ok ((s.orderEnded (.carrier c)).withCarrier c { x with
        position := .garage, travelTimer := timer, state := .garaged, direction := .down, idleStart := none })) ∧
    (away → ¬ sent .park → exec (.garaged .fleet b []) s = reply .state s) ∧
    (∀ code : Byte, x.state ≠ .absent →
      exec (.carrierFault .fleet b [code]) s = reply .ok (halt c (.code code) s.work).toState) ∧
    (x.state = .halted →
      (∀ r : Row, exec (.arrived .fleet b [BitVec.ofNat 8 r.val]) s =
        if reaches x r = true then reply .ok (s.withCarrier c { x with position := .row r }) else reply .state s) ∧
      exec (.garaged .fleet b []) s = reply .ok (s.withCarrier c { x with position := .garage }) ∧
      (x.load = none → stormOn s.wxm.weather = false → exec (.carrierFaultClear .fleet b []) s = reply .ok
        (State.withCarrier { s with wxm := { s.wxm with askKept := tset s.wxm.askKept c 0 } } c
          (if x.position = .garage then { x with cause := .none, state := .garaged }
          else { x with cause := .none, state := .idle, task := none, idleStart := some s.now })))) ∧
    (away → exec (.carrierFaultClear .fleet b []) s = reply .state s)) ∧
  (∀ (c : CarrierIx) (r : Row) (q : Request) (m : Order) (s : State), Ready .fleet s → s.wxm.weather ≠ .parking →
    s.pls.freeze ≠ .freezeAsked → (∀ c, tget s.wxm.alights c = none) →
    let y := tget s.txs.carriers c
    let x := tget s.rac.rows r
    let o := s.fou.orders (.carrier c)
    let stands := (s.orderEnded (.carrier c)).withCarrier c { y with
      position := .row r, travelTimer := if o.successor = none then none else y.travelTimer
      direction := if posInt y < (r.val : Int) then .up else if (r.val : Int) < posInt y then .down else y.direction }
    let asked (p : Purpose) (t : State) := t.withRow r (placeNotice (.holdAsk p) { x with
      attempts := if x.attemptsBy = some (.request q.seq) then min 255 (x.attempts + 1) else 1
      attemptsBy := some (.request q.seq), state := .holdAsked, hold := some ⟨.request q.seq, p⟩
      holdTimer := some s.now })
    let reply (t : State) := Host.Outcome.next (answered .fleet .carrierReport .ok t)
    let arrived := exec (.arrived .fleet (BitVec.ofNat 8 c.val) [BitVec.ofNat 8 r.val]) s
    let stood := x.hold.map (·.by_) = some (.request q.seq)
    o.slot = some m → m.kind = .travel r → (m.status ≠ .queued ∨ 0 < m.attempts) →
    y.task = some q.seq → s.work.request? q.seq = some q →
    (y.state = .toPickup → q.fromRow = r → stood → arrived = reply stands) ∧
    (y.state = .toPickup → q.fromRow = r → ¬ stood → x.state = .tracking → (s.pls.freeze = .running ∨ q.cls = .storm) →
      x.present = some q.robot → arrived = reply (asked .board stands)) ∧
    (y.state = .toDrop → q.legTarget = some r → stood → arrived = reply stands) ∧
    (y.state = .toDrop → q.legTarget = some r → ¬ stood → x.state = .tracking →
      (tget s.fou.robots q.robot).state = .aboard → x.excluded = false →
      x.length ≠ 0 → x.present = none → x.incoming.map (·.robot) = some q.robot →
      arrived = reply (asked .alight { stands with txs := { stands.txs with
        pool := s.txs.pool.map (fun p => if p.seq = q.seq then { p with retry := none } else p) } }))) ∧
  (∀ (i : Instr) (carrier b : Byte) (s : State), Ready .fleet s →
    i ∈ [.carrierAccept .fleet carrier [b], .arrived .fleet carrier [b], .garaged .fleet carrier [],
      .carrierFault .fleet carrier [b], .carrierFaultClear .fleet carrier []] →
    (∀ c : CarrierIx, carrier = BitVec.ofNat 8 c.val → (tget s.txs.carriers c).state = .absent →
      exec i s = .next (answered .fleet .carrierReport .state s)) ∧
    (3#8 < carrier → exec i s = .next (answered .fleet .carrierReport .range s)))

/-- A carrier without a request halts (R75, R76): its orders are discarded, its timers stop (its idle start with them, log
entry 44) and CARRIER_HALTED is posted; one HALTED already takes the cause. The travel timeout halts it, and the park delay
sends an idle one without a load to its garage (R75, R80). -/
def Obligations.CarrierTimers : Prop :=
  ∀ (c : CarrierIx) (s : State), Settled s →
    let x := tget s.txs.carriers c
    (∀ cause : HaltCause, (halt c cause s.work).toState =
      if x.state = .halted then s.withCarrier c { x with cause := cause }
      else ((s.ordersDiscarded (.carrier c)).withCarrier c { x with
        state := .halted, cause := cause, travelTimer := none, idleStart := none }).posted
          [.carrierHalted c x.position x.load cause]) ∧
    (∀ (t : Time) (d : Nat), x.travelTimer = some (t, d) → exec (.travelTimeout c) s = .next (
      if s.txs.secondsPerRow * d + s.txs.travelSlack ≤ (s.now - t).toNat ∧ x.state ≠ .halted then
        (halt c .timeout s.work).toState
      else s)) ∧
    (x.travelTimer = none → exec (.travelTimeout c) s = .next s) ∧
    exec (.parkDelayTimeout c) s = .next (
      if x.state = .idle ∧ x.task = none ∧ x.load = none ∧ s.txs.parkDelay ≠ 0 ∧
        due s.now x.idleStart s.txs.parkDelay = true then
        s.sentToGarage c .routine
      else s)

/-- How a transfer fails (R70, R72, R73, R76, R79). A first failed pickup returns the request to WAITING and its carrier to
IDLE; a second drops it REFUSED. A failed drop is counted and asked again after ten seconds, the retry timer running while
its robot is ABOARD (shown where the row takes the ask; a timer not due, or of no request, does nothing); the third re-aims
it: its origin is told REFUSED, and it goes on, RELOCATE, to the nearest open row of the carrier's span, ties to the lower,
or waits for one (the failed row is still reserved while the row is looked for, log entry 22). A reservation freed (R23)
clears a TRACKING row under storm parking; in the WATCH that follows it the row takes a RELEASE, or the clearance when stow
is wanted (R152, log entry 38). A request that ends cancels its holds, frees its carrier's task and its robot's
reservations, leaves the pool with its TRANSFER_DONE, clears or sets the task link and tells its origin; the tests of R94
and R148 are made at each of these changes (their order is log entry 5's); one cancelled while its robot is under way is
marked. A crossing that its robot refuses fails the pickup or the drop; at a HALTED carrier nothing is counted (log entry
20). Where the storm entry came during the crossing it ends as R81 says, a boarding in the drop or the conversion of its
request and an alighting turned back in its conversion, in whatever weather it ends (log entry 41). A request converted
while its robot was ALIGHTING lets the row go when the robot turns back (log entry 21). -/
def Obligations.TransferFailures : Prop :=
  ∀ (seq : Half) (s : State), s.wxm.weather ≠ .parking → s.pls.freeze ≠ .freezeAsked → (∀ c, tget s.wxm.alights c = none) →
    (∀ (q : Request) (c : CarrierIx) (r : Row), s.work.request? seq = some q → q.state = .serving c → q.legTarget = some r →
      let x := tget s.rac.rows r
      due s.now q.retry 10 = true → (tget s.txs.carriers c).state = .toDrop → (tget s.fou.robots q.robot).state = .aboard →
      x.state = .tracking → x.excluded = false → x.length ≠ 0 → x.present = none →
      x.incoming.map (·.robot) = some q.robot →
      exec (.dropRetryTimeout seq) s = .next (State.withRow { s with
        txs := { s.txs with pool := s.txs.pool.map (fun p => if p.seq = seq then { p with retry := none } else p) } } r
        (placeNotice (.holdAsk .alight) { x with
          attempts := if x.attemptsBy = some (.request seq) then min 255 (x.attempts + 1) else 1
          attemptsBy := some (.request seq), state := .holdAsked, hold := some ⟨.request seq, .alight⟩
          holdTimer := some s.now }))) ∧
    ((∀ q, s.work.request? seq = some q → due s.now q.retry 10 = false) → exec (.dropRetryTimeout seq) s = .next s) ∧
  (∀ (c : CarrierIx) (q : Request) (s : State), s.work.request? q.seq = some q → q.state = .serving c →
    s.wxm.weather = .calm ∨ s.wxm.weather = .watch →
    let y := tget s.txs.carriers c
    let idle (t : State) := t.changedCarrier c { y with
      state := .idle, task := none, idleStart := if y.load = none then some s.now else none }
    (q.pickupFails = 0 → (pickupFail c q s.work).toState = idle (s.withRequest q.seq (fun p =>
      { p with pickupFails := 1, state := .waiting, retry := none }))) ∧
    (q.pickupFails ≠ 0 → (pickupFail c q s.work).toState =
      idle (finishRequest { q with pickupFails := 2 } .refused (q.leg - 1) [] s.work).toState)) ∧
  (∀ (c : CarrierIx) (q : Request) (t : Row) (s : State),
    let y := tget s.txs.carriers c
    let suits (r : Row) := inSpan y r = true ∧ rowOpen (tget s.rac.rows r) = true
    let nearer (a b : Row) := distance (a.val : Int) (t.val : Int) < distance (b.val : Int) (t.val : Int) ∨
      (distance (a.val : Int) (t.val : Int) = distance (b.val : Int) (t.val : Int) ∧ a ≤ b)
    let after := dropFail c q t s.work
    let final := t = q.finalRow
    let cls := if q.cls = .storm then ReqClass.storm else .relocate
    (q.dropFails < 2 → after.toState = s.withRequest q.seq (fun p => { p with
      dropFails := q.dropFails + 1, retry := if (tget s.fou.robots q.robot).state = .aboard then some s.now else none })) ∧
    (2 ≤ q.dropFails → (∀ p ∈ s.txs.pool, p.seq = q.seq → p = q) →
      (∀ n p, q.origin = .entry n p → .entryOutcome n p q.robot .refused ∈ after.agenda) ∧
      ((∀ r, ¬ suits r) → after.toState = (freeReservation t s.work).toState.withRequest q.seq (fun p => { p with
        cls := cls, origin := .none, dropFails := 0, retry := none, legTarget := none
        search := .relocate t (decide final) })) ∧
      ∀ r, suits r → (∀ a, suits a → nearer r a) →
        let kind := if q.cls = .storm then ResKind.storm else if final then .final else .leg
        let goes := { q with
          cls := cls, origin := .none, dropFails := 0, retry := none, legTarget := some r, search := .leg
          finalRow := if final then r else q.finalRow, relocated := q.relocated || decide final }
        let reserved := s.withRow r { tget s.rac.rows r with incoming := some ⟨q.robot, kind⟩ }
        after.toState = (goToDrop c goes
          ((freeReservation t reserved.work).toState.withRequest q.seq (fun _ => goes)).work).toState)) ∧
  (∀ (r : Row) (s : State),
    let x := tget s.rac.rows r
    let y := { x with incoming := none }
    let cleared := placeNotice (.stowClear false)
      { y with state := .stowCleared, hold := none, holdTimer := none, lastForced := false }
    (freeReservation r s.work).toState =
      if x.state ∈ [RowState.occupied, .stowWait, .locked] then s.withRow r x
      else if x.state ≠ .tracking ∨ x.incoming = none then s.withRow r y
      else if s.wxm.weather = .parking ∨ s.wxm.weather = .secured then s.changedRow r cleared
      else if s.wxm.weather = .watch ∧ s.wxm.released = true then
        s.changedRow r (if x.stowWanted then cleared
          else placeNotice .release { y with state := .tracking, hold := none, holdTimer := none })
      else s.withRow r y) ∧
  (∀ (q : Request) (outcome : ReqOutcome) (legs : Nat) (keep : List Row) (s : State),
    let after := finishRequest q outcome legs keep s.work
    let t := after.toState
    let link : Option TaskLink := match q.origin, outcome with
      | .entry n p, .delivered => some (.entry n p)
      | _, _ => none
    let cancelled (r : Row) (u : State) := (cancelHold (.request q.seq) r u.work).toState
    let asked := match q.legTarget with
      | some r => cancelled r (cancelled q.fromRow s)
      | none => cancelled q.fromRow s
    let left := match q.state with
      | .serving c =>
        let u := (removeAlight c asked.work).toState
        u.withCarrier c { tget u.txs.carriers c with task := none }
      | .waiting => asked
    let freed := ((indices 256).filter (fun r => reservedFor (tget left.rac.rows r) q.robot && decide (r ∉ keep))).foldl
      (fun u r => (freeReservation r u.work).toState) left
    let gone := State.posted { freed with txs := { freed.txs with
        pool := s.txs.pool.filter (fun p => decide (p.seq ≠ q.seq)) } }
      [.transferDone q.seq q.robot q.finalRow (tget s.fou.robots q.robot).row legs q.cls outcome]
    (t = if (tget s.fou.robots q.robot).link = some (.request q.seq) then
        gone.withRobot q.robot { tget s.fou.robots q.robot with link := link }
      else gone) ∧
    (∀ r : Row, r ∉ keep → reservedFor (tget t.rac.rows r) q.robot = true →
      (tget t.rac.rows r).state ∈ [RowState.occupied, .stowWait, .locked]) ∧
    (∀ n p, q.origin = .entry n p → ∃ more : List Msg, after.agenda = more ++ [.entryOutcome n p q.robot outcome])) ∧
  (∀ (c : CarrierIx) (q : Request) (s : State), s.work.request? q.seq = some q → q.state = .serving c →
    (tget s.fou.robots q.robot).link = some (.request q.seq) →
    let k := q.robot
    let y := tget s.txs.carriers c
    let entry := q.stormCrossing = true ∨ ((s.wxm.weather = .parking ∨ s.wxm.weather = .secured) ∧ q.cls ≠ .storm)
    (y.state ≠ .toPickup →
      (cancelRequest q.seq s.work).toState = s.withRequest q.seq (fun p => { p with cancelled := true })) ∧
    (¬ entry → y.state = .loading → boardingRefused k s.work = pickupFail c q s.work) ∧
    (¬ entry → y.state = .halted → (boardingRefused k s.work).toState = (s.withRequest q.seq (fun p =>
      { p with state := .waiting, retry := none })).withCarrier c { y with task := none }) ∧
    (entry → y.state = .halted → (boardingRefused k s.work).toState =
      (finishRequest q .dropped (q.leg - 1) [] s.work).toState) ∧
    (entry → ∃ v : Work, v.toState = (s.withRequest q.seq (fun p => { p with pickupFails := 0 })).withCarrier c
        { y with load := some k } ∧
      let aboard := { q with pickupFails := 0 }
      robotBoarded k c s.work = convert c aboard (stormTargetOf c aboard v).1 (stormTargetOf c aboard v).2) ∧
    ∀ t : Row,
      (entry → alightingRefused k (some t) s.work =
        convert c q (stormTargetOf c q s.work).1 (stormTargetOf c q s.work).2) ∧
      (¬ entry → q.legTarget = some t → y.state = .unloading → ∃ v : Work,
        v.toState = s.changedCarrier c { y with state := .toDrop } ∧ alightingRefused k (some t) s.work = dropFail c q t v) ∧
      (¬ entry → q.legTarget = some t → y.state ≠ .unloading → alightingRefused k (some t) s.work = s.work) ∧
      (¬ entry → q.legTarget ≠ some t → alightingRefused k (some t) s.work =
        if y.state = .unloading then goToDrop c q (freeReservation t s.work) else freeReservation t s.work))

/-- Arbitration for a carrier (R63 to R67, R69): none for a carrier that is not GARAGED or IDLE without a load. The
candidates are the WAITING requests with a leg target, of a class that is admitted (Table 3-4), whose serving span is the
carrier's, oldest first. One of them wins: the oldest STORM request; with none, the oldest whose guard count has reached the
guard setting; with none, the one of the highest score, the oldest among equals: the head-hit bonus within the near
distance, the direction bonus in the carrier's direction (UP from its garage), and the dynamic score. The winner is served:
the carrier goes to its from row, URGENT for a STORM request, or asks the BOARD hold there, the tests made at its change of
state (R56, log entry 5). The others age: the dynamic score rises by the jump to the ceiling, and at the ceiling the guard
count rises, to 30. -/
def Obligations.Arbitration : Prop :=
  ∀ (c : CarrierIx) (s : State),
    let x := tget s.txs.carriers c
    let admits (cls : ReqClass) : Bool := match cls with
      | .storm => true
      | .relocate => decide (s.pls.freeze = .running ∧ (s.wxm.weather = .calm ∨ s.wxm.weather = .watch))
      | .routine => decide (s.pls.freeze = .running ∧ s.wxm.weather = .calm)
    let l := s.txs.pool.filter (fun q => decide (q.state = .waiting ∧ q.legTarget ≠ none) && admits q.cls &&
      decide (servingOf s.work q.fromRow q.finalRow = some c))
    let free := x.state = .garaged ∨ (x.state = .idle ∧ x.load = none)
    let ahead (q : Request) :=
      if x.position = .garage ∨ x.direction = .up then posInt x ≤ (q.fromRow.val : Int)
      else (q.fromRow.val : Int) ≤ posInt x
    let score (q : Request) : Nat :=
      (if distance (q.fromRow.val : Int) (posInt x) ≤ s.txs.near then s.txs.headHit else 0) +
      (if ahead q then s.txs.dirBonus else 0) + q.dyn
    let wins (pre : List Request) (q : Request) (post : List Request) :=
      (q.cls = .storm ∧ ∀ p ∈ pre, p.cls ≠ .storm) ∨
      ((∀ p ∈ l, p.cls ≠ .storm) ∧ s.txs.guardSetting ≤ q.guard ∧ ∀ p ∈ pre, p.guard < s.txs.guardSetting) ∨
      ((∀ p ∈ l, p.cls ≠ .storm ∧ p.guard < s.txs.guardSetting) ∧ (∀ p ∈ pre, score p < score q) ∧
        ∀ p ∈ post, score p ≤ score q)
    (¬ free ∨ l = [] → arbitrate c s.work = s.work) ∧
    (l ≠ [] → ∃ (pre : List Request) (q : Request) (post : List Request), l = pre ++ q :: post ∧ wins pre q post) ∧
    (free → (s.txs.pool.map (·.seq)).Nodup → ∀ (pre : List Request) (q : Request) (post : List Request),
      l = pre ++ q :: post → wins pre q post →
      let aged (p : Request) : Request :=
        if p.dyn < s.txs.ceiling then { p with dyn := min s.txs.ceiling (p.dyn + s.txs.jump) }
        else { p with guard := min 30 (p.guard + 1) }
      let y := { x with state := CarrierState.toPickup, task := some q.seq, idleStart := none }
      let served : State := { s with txs := { s.txs with
        pool := s.txs.pool.map (fun (p : Request) =>
          if p.seq = q.seq then { p with state := .serving c } else if p ∈ l then aged p else p)
        carriers := tset s.txs.carriers c y } }
      let told := served.tested
      (standsAt x q.fromRow = true → (arbitrate c s.work).toState =
        (askHold (.request q.seq) .board q.robot q.fromRow told.work).toState) ∧
      (standsAt x q.fromRow = false → (arbitrate c s.work).toState =
        (told.withCarrier c { y with travelTimer := some (s.now,
          if inSpan x q.fromRow = true then distance (posInt x) (q.fromRow.val : Int)
          else distance (posInt x) ((spanLow x : Int) - 1)) }).issued (.carrier c)
            (if inSpan x q.fromRow = true then .travel q.fromRow else .park)
            (if q.cls = .storm then .urgent else .routine)))

/-- Transfers at the storm entry (R81, R144, R145). The storm target of a carrier's request: one still held for it or its
leg target, while the row is in TRACKING and reserved for the robot (at a HALTED carrier, the row it stands at), whose
reservation becomes STORM; failing that the open row of the span nearest to the carrier, ties to the lower row, or at a
HALTED carrier the open row it stands at, reserved STORM; or none. That a target held comes first is the model's reading,
log entry 21, and that one excluded since is kept is its choice, log entry 39. A request that is converted cancels its hold
at another leg target, frees every other reservation of its robot, and is STORM with the storm target as leg target and
final row, its failures and an earlier relocation forgotten (log entry 40); its carrier goes there, or asks the ALIGHT hold
there, unless it is HALTED. At each carrier: IDLE without a load it is sent to its garage, URGENT; going to a pickup its
request is dropped; with a load on its way, or HALTED with a load, its request is converted (what becomes of a robot
ALIGHTING there is log entry 21's). No request is left WAITING. -/
def Obligations.StormTransfers : Prop :=
  (∀ (c : CarrierIx) (q : Request) (s : State),
    let x := tget s.txs.carriers c
    let row (r : Row) := tget s.rac.rows r
    let keeps (r : Row) := (row r).state = .tracking ∧ reservedFor (row r) q.robot = true ∧
      (x.state = .halted → standsAt x r = true)
    let suits (r : Row) := inSpan x r = true ∧ rowOpen (row r) = true ∧ (x.state = .halted → standsAt x r = true)
    let nearer (a b : Row) := distance (a.val : Int) (posInt x) < distance (b.val : Int) (posInt x) ∨
      (distance (a.val : Int) (posInt x) = distance (b.val : Int) (posInt x) ∧ a ≤ b)
    let gives (r : Row) := (chooseStormTarget c q s.work).1 = some r ∧
      (chooseStormTarget c q s.work).2.toState = s.withRow r { row r with incoming := some ⟨q.robot, .storm⟩ }
    let held := ∃ r, q.stormTarget = some r ∧ keeps r
    let leg := ∃ r, q.legTarget = some r ∧ keeps r
    (∀ r, q.stormTarget = some r → keeps r → gives r) ∧
    (¬ held → ∀ r, q.legTarget = some r → keeps r → gives r) ∧
    (¬ held → ¬ leg → ∀ r, suits r → (∀ a, suits a → nearer r a) → gives r) ∧
    (¬ held → ¬ leg → (∀ r, ¬ suits r) → chooseStormTarget c q s.work = (none, s.work))) ∧
  (∀ (c : CarrierIx) (q : Request) (target : Option Row) (s : State),
    s.wxm.weather = .parking ∨ s.wxm.weather = .secured → (∀ p ∈ s.txs.pool, p.seq = q.seq → p = q) →
    let stopped := match q.legTarget with
      | some t => if some t = target then s else (cancelHold (.request q.seq) t s.work).toState
      | none => s
    let freed := ((indices 256).filter (fun r =>
        reservedFor (tget stopped.rac.rows r) q.robot && decide (some r ≠ target))).foldl
      (fun t r => (freeReservation r t.work).toState) stopped
    let v := { q with
      cls := .storm, legTarget := target, finalRow := target.getD q.finalRow, dropFails := 0, retry := none
      search := .storm, relocated := false, stormTarget := none, stormCrossing := false }
    let made := freed.withRequest q.seq (fun _ => v)
    (convert c q target s.work).toState =
      if (tget s.txs.carriers c).state = .halted then made else (goToDrop c v made.work).toState) ∧
  (∀ (c : CarrierIx) (q : Request) (s : State),
    let y := tget s.txs.carriers c
    let stands := { y with state := CarrierState.toDrop }
    let t := (s.withRequest q.seq (fun p => { p with retry := none })).withCarrier c stands
    (q.legTarget = none → (goToDrop c q s.work).toState = s.withCarrier c stands) ∧
    ∀ r, q.legTarget = some r →
      (standsAt stands r = true → (goToDrop c q s.work).toState =
        if (tget s.fou.robots q.robot).state = .aboard then (askHold (.request q.seq) .alight q.robot r t.work).toState
        else t) ∧
      (standsAt stands r = false → (goToDrop c q s.work).toState =
        (s.withCarrier c { stands with travelTimer := some (s.now,
          if inSpan y r = true then distance (posInt y) (r.val : Int)
          else distance (posInt y) ((spanLow y : Int) - 1)) }).issued (.carrier c)
            (if inSpan y r = true then .travel r else .park) (if q.cls = .storm then .urgent else .routine))) ∧
  (∀ (c : CarrierIx) (s : State),
    let y := tget s.txs.carriers c
    (y.state = .idle → y.load = none → (stormEntryCarrier c s.work).toState = s.sentToGarage c .urgent) ∧
    (y.state ∈ [CarrierState.absent, .garaged, .loading, .unloading, .toGarage] → stormEntryCarrier c s.work = s.work) ∧
    ∀ q : Request, y.task = some q.seq → s.work.request? q.seq = some q →
      (y.state = .toPickup → y.load = none → s.wxm.weather = .parking →
        (stormEntryCarrier c s.work).toState = (dropRequest q .dropped s.work).toState.sentToGarage c .urgent) ∧
      (y.state = .toDrop → stormEntryCarrier c s.work = convert c q q.stormTarget s.work) ∧
      (y.state = .halted → y.load ≠ none → stormEntryCarrier c s.work = convert c q q.stormTarget s.work) ∧
      (y.state = .halted → y.load = none → stormEntryCarrier c s.work = s.work)) ∧
  (∀ s : State, ∀ q ∈ (stormEntryTxs s.work).txs.pool, q.state ≠ .waiting)

/-! ### Plans and freeze (chapter 4) -/

/-- PLAN_RANGES empties the back bank's list and opens; a whole entry is appended, or refused with RANGE or, at 32 ranges,
with FULL (R86; that RANGE comes first is log entry 46's, and that the bank is the back bank of the moment, after a flip
too, log entry 47's). PLAN_FLIP (R89, R90, R120): with no round under way the banks change places at once, PLAN_FLIPPED is
posted and the period timer follows the new front bank; with one under way the flip waits; a second is refused. -/
def Obligations.PlanBanks : Prop :=
  ((∀ s : State, Ready .plant s → exec (.planRanges .plant) s =
    .next ((s.withBack (fun b => { b with ranges := [] })).setPort .plant
      { answeredPort .ok Cmd.planRanges.code with context := .stream .planRanges [] })) ∧
  (∀ (a b : Byte) (s : State), s.plant.resetHeld = false → s.plant.context = .stream .planRanges [] →
    let back := match s.pls.front with
      | .a => s.pls.bankB
      | .b => s.pls.bankA
    exec (.planRangeEntry .plant a b) s = .next (
      if b < a then fieldTaken .planRanges (.stream .planRanges []) (some .range) s
      else if 32 ≤ back.ranges.length then fieldTaken .planRanges (.stream .planRanges []) (some .full) s
      else fieldTaken .planRanges (.stream .planRanges []) none
        (s.withBack (fun x => { x with ranges := x.ranges ++ [(byteRow a, byteRow b)] }))))) ∧
  (∀ s : State, Ready .plant s →
    (s.pls.flipPending = true → exec (.planFlip .plant) s = .next (answered .plant .planFlip .state s)) ∧
    (s.pls.flipPending = false → s.rsc.state ≠ .none →
      exec (.planFlip .plant) s = .next (answered .plant .planFlip .ok { s with pls := { s.pls with flipPending := true } })) ∧
    (s.pls.flipPending = false → s.rsc.state = .none →
      let front : BankId := match s.pls.front with
        | .a => .b
        | .b => .a
      let bank := match s.pls.front with
        | .a => s.pls.bankB
        | .b => s.pls.bankA
      let flipped := State.posted { s with pls := { s.pls with front := front } } [.planFlipped front]
      exec (.planFlip .plant) s = .next (answered .plant .planFlip .ok { flipped with rsc := { s.rsc with
        periodTimer := if bank.round.source = .period then some (s.now, bank.round.period * 60) else none } })))

/-- FREEZE in RUNNING: FREEZE_ASKED, an ACTIVE round SUSPENDED with its entries and their holds as they are, and FROZEN at
once with FREEZE_DONE where the block is drained (R92 to R94, R132); in FREEZE_ASKED and FROZEN it is refused. THAW returns
to RUNNING from FREEZE_ASKED and from FROZEN (R96): in CALM a SUSPENDED round is ACTIVE again, and with no round under way a
due round is considered (R121): it is built as ROUND_START builds one (RoundTrigger). The assignment pass of either comes
first, and arbitration for every carrier after it (R96; that what the pass sends waits behind the carriers is log entry
5's). Where a round resumes this is shown to its end with entries at work, none of which waits or is ASSIGNED, and the pool
empty, and where one is built, with an empty worklist, which ends it at once. In another weather state a SUSPENDED round
stays so (R132) and a due round stays due; in RUNNING THAW is refused. The drain test itself, and when it is made (R28, R56,
R94): at each change of a robot's or a carrier's state, with the secured test before it (the model's choice, log entry 5);
for a row's see Notices. -/
def Obligations.FreezeThaw : Prop :=
  (∀ s : State, Ready .plant s →
    (s.pls.freeze ≠ .running → exec (.freeze .plant) s = .next (answered .plant .freeze .state s)) ∧
    (s.pls.freeze = .running → exec (.thaw .plant) s = .next (answered .plant .thaw .state s))) ∧
  (∀ s : State, Ready .plant s → s.pls.freeze = .running →
    let drained :=
      (∀ k : Slot, (tget s.fou.robots k).state ∉ [RobotState.passing, .returning, .boarding, .aboard, .alighting]) ∧
      (∀ c : CarrierIx, (tget s.txs.carriers c).state ∉ [CarrierState.loading, .toDrop, .unloading]) ∧
      ∀ r : Row, (tget s.rac.rows r).state ∉ [RowState.holdAsked, .held, .occupied]
    let suspended : State := { s with rsc := { s.rsc with
      state := if s.rsc.state = .active then .suspended else s.rsc.state } }
    (¬ drained → exec (.freeze .plant) s = .next (answered .plant .freeze .ok
      { suspended with pls := { s.pls with freeze := .freezeAsked } })) ∧
    (drained → exec (.freeze .plant) s = .next (answered .plant .freeze .ok
      (State.posted { suspended with pls := { s.pls with freeze := .frozen } } [.freezeDone])))) ∧
  (∀ s : State, s.pls.freeze ≠ .running →
    let resumes := s.rsc.state = .suspended ∧ s.wxm.weather = .calm
    let thawed : State := { s with
      pls := { s.pls with freeze := .running }
      rsc := { s.rsc with state := if resumes then .active else s.rsc.state } }
    let builds := s.rsc.state = .none ∧ s.rsc.due = true ∧ s.wxm.weather = .calm ∧ s.pls.flipPending = false
    let round := (startRound thawed.work).1.toState
    let carriers := (indices 4).map Msg.arbitrate
    let first (t : State) := (thaw s.work).1 = { t.work with agenda := .assignPass :: carriers } ∧
      cascadeStep (thaw s.work).1 = some (assignmentPass { t.work with agenda := carriers })
    (resumes → first thawed) ∧
    (builds → round.rsc.state = .active → first round) ∧
    (builds → round.rsc.state ≠ .active → (thaw s.work).1 = { round.work with agenda := carriers }) ∧
    (Ready .plant s → s.txs.pool = [] →
      (resumes → (∃ e ∈ s.rsc.worklist, e.ended = false) ∧
        ∀ e ∈ s.rsc.worklist, e.state ≠ .waiting ∧ e.state ≠ .assigned) → ¬ builds →
      exec (.thaw .plant) s = .next (answered .plant .thaw .ok thawed)) ∧
    (Ready .plant s → s.txs.pool = [] → builds → round.rsc.state ≠ .active →
      exec (.thaw .plant) s = .next (answered .plant .thaw .ok round))) ∧
  (∀ s : State,
    let drains := s.pls.freeze = .freezeAsked ∧
      (∀ k : Slot, (tget s.fou.robots k).state ∉ [RobotState.passing, .returning, .boarding, .aboard, .alighting]) ∧
      (∀ c : CarrierIx, (tget s.txs.carriers c).state ∉ [CarrierState.loading, .toDrop, .unloading]) ∧
      ∀ r : Row, (tget s.rac.rows r).state ∉ [RowState.holdAsked, .held, .occupied]
    (drains → s.drainTested = State.posted { s with pls := { s.pls with freeze := .frozen } } [.freezeDone]) ∧
    (¬ drains → s.drainTested = s) ∧
    (∀ (k : Slot) (f : Robot → Robot), (updRobot k f s.work).toState = s.changedRobot k (f (tget s.fou.robots k))) ∧
    ∀ (c : CarrierIx) (f : Carrier → Carrier),
      (updCarrier c f s.work).toState = s.changedCarrier c (f (tget s.txs.carriers c)))

/-! ### Estimation and accounts (chapters 5 and 8) -/

/-- ENERGY_OPEN, ENERGY_DATA and the values of its stream (R100 to R102). The opening command byte closes an open interval;
a window the wrong way round, and the index last closed, are refused, and a command that is both gives RANGE (the model's
order of the two checks, log entry 25). The stream opens once in an interval. A value is the reading of the row at the
pointer, FFFFh none; the window's last row closes the interval, and later values are FULL. -/
def Obligations.EnergyIntake : Prop :=
  (∀ (i0 i1 a b : Byte) (s0 : State), s0.plant.resetHeld = false →
    let s := intervalClosed s0
    let index := BitVec.ofNat 16 (i0.toNat * 256 + i1.toNat)
    exec (.energyOpen .plant [i0, i1, a, b]) s0 = .next (
      if b < a then answered .plant .energyOpen .range s
      else if s.seu.lastClosed = some index then answered .plant .energyOpen .state s
      else answered .plant .energyOpen .ok { s with seu := { s.seu with
        intervalOpen := true, openIndex := index, winFirst := byteRow a, winLast := byteRow b, pointer := some (byteRow a)
        streamSeen := false, rows := tmap (fun _ e => { e with reading := none }) s.seu.rows } })) ∧
  (∀ s : State, s.plant.resetHeld = false →
    exec (.energyData .plant) s = .next (
      if s.seu.intervalOpen = true ∧ s.seu.streamSeen = false then
        State.setPort { s with seu := { s.seu with streamSeen := true } } .plant
          { answeredPort .ok Cmd.energyData.code with context := .stream .energyData [] }
      else answered .plant .energyData .state (closedAt .plant Cmd.energyData.code s))) ∧
  (∀ (v : Half) (s : State), s.plant.resetHeld = false → s.plant.context = .stream .energyData [] →
    (∀ r : Row, s.seu.intervalOpen = true → s.seu.pointer = some r →
      let e := { tget s.seu.rows r with reading := some v.toNat }
      let t := { s with seu := { s.seu with
        rows := if v = 0xFFFF#16 then s.seu.rows else tset s.seu.rows r e
        pointer := if r = s.seu.winLast then none else some (r + 1) } }
      exec (.energyValue .plant v) s = .next (fieldTaken .energyData (.stream .energyData []) none
        (if r = s.seu.winLast then intervalClosed t else t))) ∧
    (s.seu.intervalOpen = false ∨ s.seu.pointer = none →
      exec (.energyValue .plant v) s = .next (fieldTaken .energyData (.stream .energyData []) (some .full) s)))

/-- The close of an open interval (R26, R103 to R107, R109, R110, R157): from the final classes, the valid references give
the interval yield and decide whether it is referenced; each sampled row is filtered by its zone's gain; every accumulator
starts again at the class of its row; readings are gone; each row and its zone receive the attribution of its reading, the
zone those of its rows one after another (R159); and one group is posted, the INTERVAL_CLOSED record and the CLASS_MAP
records, which give the final classes of rows 0 to 255 in runs, sixteen to a record, more to follow in all but the last
(R110, R170). The attribution of a reading (R156, R158, Table 8-3), shown where no bucket reaches its limit: E to produced,
X to expected, and what is over to surplus or what is missing to one loss bucket; the account stays in balance (R160). A
bucket at its limit sets the saturation flag. One of class NODATA adds nothing to any bucket. Every other field of the
estimator and of the row access controller is as it was. -/
def Obligations.IntervalClose : Prop :=
  (∀ s : State, s.seu.intervalOpen = true →
    let t := intervalClosed s
    let reading (r : Row) := (tget s.seu.rows r).reading
    let energy (r : Row) := (reading r).getD 0
    let row (r : Row) := tget s.rac.rows r
    let cls (r : Row) : FinalClass :=
      if reading r = none then .nodata
      else match (row r).acc with
        | .normal => if reading r = some 0 then .outage else .normal
        | .excluded => .excluded
        | .service => .service
        | .stow => .stow
    let refs := (indices 256).filter (fun r => (row r).reference && decide (cls r = .normal) && decide (0 < (row r).capacity))
    let sumE := (refs.map energy).sum
    let sumC := (refs.map (fun r => (row r).capacity)).sum
    let y := if refs = [] then 0 else sumE * 10 / sumC
    let referenced := refs ≠ [] ∧ s.seu.gate ≤ y
    let sampled (r : Row) := referenced ∧ (row r).reference = false ∧ cls r = .normal ∧ 0 < (row r).capacity
    let sample (r : Row) := min 4096 (energy r * sumC * 4096 / ((row r).capacity * sumE))
    let bank := match s.pls.front with
      | .a => s.pls.bankA
      | .b => s.pls.bankB
    let gain (r : Row) := (tget bank.zones (row r).zone).gain
    let expected (r : Row) := if referenced ∧ 0 < (row r).capacity then sumE * (row r).capacity / sumC else energy r
    t = { s with
      rac := { s.rac with rows := t.rac.rows }
      seu := { s.seu with
        intervalOpen := false, lastClosed := some s.seu.openIndex, rows := t.seu.rows
        daySum := if referenced then min 16000 (s.seu.daySum + y) else s.seu.daySum
        refCount := if referenced then min 65535 (s.seu.refCount + 1) else s.seu.refCount }
      yac := t.yac, rpq := t.rpq } ∧
    (∀ r : Row, tget t.rac.rows r = { row r with acc := rowClass (row r) }) ∧
    (∀ r : Row,
      let old := (tget s.seu.rows r).ratio
      tget t.seu.rows r = { tget s.seu.rows r with
        reading := none
        ratio := if sampled r then ((old : Int) + Int.tdiv (((sample r : Int) - (old : Int)) * (gain r : Int)) 16).toNat
          else old }) ∧
    (∀ r : Row, tget t.yac.rows r =
      if reading r = none then { tget s.yac.rows r with nodata := min 65535 ((tget s.yac.rows r).nodata + 1) }
      else { tget s.yac.rows r with buckets := attribute1 (energy r) (expected r) (cls r) (tget s.yac.rows r).buckets }) ∧
    (∀ z : Zone, tget t.yac.zones z = { tget s.yac.zones z with
      buckets := ((indices 256).filter (fun r => decide ((row r).zone = z ∧ reading r ≠ none))).foldl
        (fun b r => attribute1 (energy r) (expected r) (cls r) b) (tget s.yac.zones z).buckets }) ∧
    ∃ runs : List (FinalClass × Nat),
      runs.flatMap (fun p => List.replicate p.2 p.1) = (indices 256).map cls ∧ (∀ p ∈ runs, 0 < p.2) ∧
      (∀ (i : Nat) (p q : FinalClass × Nat), runs[i]? = some p → runs[i + 1]? = some q → p.1 ≠ q.1) ∧
      let records := (runs.length + 15) / 16
      t.rpq = (s.posted (.intervalClosed s.seu.openIndex (decide referenced) y refs.length
          ((indices 256).filter (fun r => decide (sampled r))).length ::
        (List.range records).map (fun i =>
          .classMap ((runs.drop (16 * i)).take 16) (decide (i + 1 < records))))).rpq) ∧
  (∀ (e x : Nat) (b : Buckets), attribute1 e x .nodata b = b) ∧
  (∀ (e x : Nat) (c : FinalClass) (b : Buckets), c ≠ .nodata →
    (b.produced + e ≤ 4294967295 → b.expected + x ≤ 4294967295 → b.surplus + (e - x) ≤ 4294967295 →
      b.soiling + (x - e) ≤ 4294967295 → b.service + (x - e) ≤ 4294967295 → b.stow + (x - e) ≤ 4294967295 →
      b.outage + (x - e) ≤ 4294967295 →
      attribute1 e x c b = { b with
        produced := b.produced + e, expected := b.expected + x, surplus := b.surplus + (e - x)
        soiling := if c = .normal then b.soiling + (x - e) else b.soiling
        service := if c = .service then b.service + (x - e) else b.service
        stow := if c = .stow then b.stow + (x - e) else b.stow
        outage := if c = .excluded ∨ c = .outage then b.outage + (x - e) else b.outage }) ∧
    (4294967295 < b.produced + e ∨ 4294967295 < b.expected + x → (attribute1 e x c b).saturated = true) ∧
    (b.saturated = true → (attribute1 e x c b).saturated = true) ∧
    (b.Sound → (attribute1 e x c b).Sound))

/-- DAY_CLOSE (R115, R119): the command byte has closed an open interval. The day counter rises, Y_day is the sum of the
day's referenced yields where there was one, DAY_CLOSED is posted and the sums start again; a front bank that triggers at
the day close raises a round, shown where none can be built, so that it is due. -/
def Obligations.DayClose : Prop :=
  ∀ s0 : State, s0.plant.resetHeld = false →
    let s := intervalClosed s0
    let bank := match s.pls.front with
      | .a => s.pls.bankA
      | .b => s.pls.bankB
    let yDay := if 0 < s.seu.refCount then s.seu.daySum else s.seu.yDay
    let posted := State.posted { s with seu := { s.seu with day := s.seu.day + 1, yDay := yDay } }
      [.dayClosed (s.seu.day + 1) yDay s.seu.refCount]
    let closed := { posted with seu := { posted.seu with daySum := 0, refCount := 0 } }
    (bank.round.source ≠ .dayClose → exec (.dayClose .plant) s0 = .next (answered .plant .dayClose .ok closed)) ∧
    (bank.round.source = .dayClose →
      (s.rsc.state ≠ .none ∨ s.wxm.weather ≠ .calm ∨ s.pls.freeze ≠ .running ∨ s.pls.flipPending = true) →
      exec (.dayClose .plant) s0 =
        .next (answered .plant .dayClose .ok { closed with rsc := { s.rsc with due := true } }))

/-- R167: ACCOUNTS_CLEAR, in every freeze, weather and round state. Its command byte has closed an open interval, whose
attribution is in the accounts that are cleared: every bucket, flag and no-data count of the row and zone accounts,
every recovered bucket and every pass counter of a row is 0, the result is OK, and nothing else changes. -/
def Obligations.AccountsClear : Prop :=
  ∀ s0 : State, s0.plant.resetHeld = false →
    let s := intervalClosed s0
    ∃ t : State, exec (.accountsClear .plant) s0 = .next (answered .plant .accountsClear .ok t) ∧
      t = { s with yac := t.yac, seu := { s.seu with rows := t.seu.rows } } ∧
      (∀ r : Row, tget t.yac.rows r = { buckets := Buckets.reset, nodata := 0 } ∧
        tget t.seu.rows r = { tget s.seu.rows r with fullPasses := 0, partPasses := 0 }) ∧
      (∀ z : Zone, tget t.yac.zones z = { buckets := Buckets.reset, recovered := 0 }) ∧
      Buckets.reset = { produced := 0, expected := 0, surplus := 0, soiling := 0, service := 0, stow := 0, outage := 0
                        saturated := false }

/-! ### Rounds (chapter 6) -/

/-- ROUND_START and the period timeout raise a round trigger (R119, R120, R122 to R126, R136). Where no round can be built
it is due, and the command answers STATE. Where one can, it has the next number. Of the rows that the front bank's ranges
cover, every reference row with a rail that is not excluded is taken, and of the others the candidates: a rail, not
excluded, TRACKING, a mode, the interval since the last clean passed, the ratio at most the trigger, and a benefit above the
cost. With none of either the round ends EMPTY at once, with its two records. Otherwise it is ACTIVE, its time limit runs,
ROUND_STARTED is posted and an assignment pass is the next thing made (R128); the worklist holds the reference rows in
ascending order, DEEP with score 0, then the candidates by descending score and ascending row, cut at the budget. A due
round that is considered (R121) is built in the same way where one can be, and stays due where none can. -/
def Obligations.RoundTrigger : Prop :=
  ∀ s : State, Settled s →
    let bank : Bank := match s.pls.front with
      | .a => s.pls.bankA
      | .b => s.pls.bankB
    let can := s.wxm.weather = .calm ∧ s.pls.freeze = .running ∧ s.pls.flipPending = false
    let period := if bank.round.source = .period then some (s.now, bank.round.period * 60) else none
    let n := s.rsc.number + 1
    let row (r : Row) := tget s.rac.rows r
    let policy (r : Row) : ZonePolicy := tget bank.zones (row r).zone
    let estimate (r : Row) := tget s.seu.rows r
    let covered (r : Row) := ∃ p ∈ bank.ranges, p.1 ≤ r ∧ r ≤ p.2
    let reference (r : Row) := covered r ∧ (row r).reference = true ∧ 0 < (row r).length ∧ (row r).excluded = false
    let benefit (r : Row) := (policy r).horizon * s.seu.yDay * (row r).capacity *
      ((if (policy r).mode = .deep then 4096 else (policy r).pDry) - (estimate r).ratio) / 40960
    let candidate (r : Row) := covered r ∧ (row r).reference = false ∧ 0 < (row r).length ∧ (row r).excluded = false ∧
      (row r).state = .tracking ∧ (policy r).mode ≠ .skip ∧
      (∀ d, (estimate r).lastClean = some d → (policy r).minInterval ≤ (s.seu.day - d).toNat) ∧
      (estimate r).ratio ≤ (policy r).trigger ∧ (policy r).cost < benefit r
    let score (r : Row) := benefit r - (policy r).cost
    let entry (r : Row) (mode : Mode) (score : Nat) : Entry :=
      { row := r, mode := mode, score := score, state := .waiting, robot := none, holdFails := 0, transferFails := 0
        skip := none }
    let empty := ∀ r : Row, ¬ reference r ∧ ¬ candidate r
    let started := State.posted { s with rsc := { s.rsc with
      due := false, number := n, worklist := [], periodTimer := period } } [.roundStarted n 0]
    let ended := State.posted { started with rsc := { started.rsc with lastOutcome := .empty, limitTimer := none } }
      [.roundEnded n .empty 0 0 0]
    let late := { s with rsc := { s.rsc with due := true } }
    (Ready .plant s → ¬ can → exec (.roundStart .plant) s = .next (answered .plant .roundStart .state late)) ∧
    (Ready .plant s → can → empty → exec (.roundStart .plant) s = .next (answered .plant .roundStart .ok ended)) ∧
    (dueLen s.now s.rsc.periodTimer = true → ¬ can →
      exec .periodTimeout s = .next { late with rsc := { late.rsc with periodTimer := period } }) ∧
    (dueLen s.now s.rsc.periodTimer = true → can → empty → exec .periodTimeout s = .next ended) ∧
    (dueLen s.now s.rsc.periodTimer = false → exec .periodTimeout s = .next s) ∧
    (can → ¬ empty → 0 < bank.round.budget → ∃ refs cands : List Row,
      (∀ r, r ∈ refs ↔ reference r) ∧ refs.Pairwise (· < ·) ∧ (∀ r, r ∈ cands ↔ candidate r) ∧
      cands.Pairwise (fun a b => score b < score a ∨ (score a = score b ∧ a < b)) ∧
      let list := (refs.map (fun r => entry r .deep 0) ++ cands.map (fun r => entry r (policy r).mode (score r))).take
        bank.round.budget
      let posted := State.posted { s with rsc := { s.rsc with
        state := .active, number := n, due := false, worklist := list, periodTimer := period
        limitTimer := some (s.now, bank.round.limit * 60) } } [.roundStarted n list.length]
      (startRound s.work).2 = .ok ∧ (startRound s.work).1 = { posted.work with agenda := [.assignPass] } ∧
      cascadeStep (startRound s.work).1 = some (assignmentPass posted.work)) ∧
    considerDue s.work = (if s.rsc.due = true ∧ can then (startRound s.work).1 else s.work)

/-- The assignment pass at one entry (R53, R128, R129). It acts on an entry that waits, and on one ASSIGNED whose robot is
PARKED at its row and linked to it. A row excluded or without a rail skips it EXCLUDED, a row in STOW_CLEARED or STOWED
skips it STOWED, and any other row that is not in TRACKING leaves it. In TRACKING the robot it has, PARKED there, asks its
PASS hold; failing that the lowest assignable robot docked there is linked and asks it; failing that an assignable robot is
chosen for a transfer, docked at a row of no waiting entry: one inside the span that holds the entry's row before any other,
then the nearest, then the lowest; a request is created for it where its robot has none and the row can be reserved, and the
entry is ASSIGNED. The pass is made in ACTIVE alone, at every entry in the order of the list; with no entry then at work,
those that still wait are SKIPPED(NO_ROBOT), and the round is tested (R134). -/
def Obligations.AssignmentPass : Prop :=
  (∀ (pos : Nat) (e : Entry) (s : State), s.rsc.worklist[pos]? = some e →
    let n := s.rsc.number
    let x := tget s.rac.rows e.row
    let bank : Bank := match s.pls.front with
      | .a => s.pls.bankA
      | .b => s.pls.bankB
    let robot (k : Slot) : Robot := tget s.fou.robots k
    let parked (k : Slot) := (robot k).state = .parked ∧ (robot k).row = some e.row
    let acts := e.state = .waiting ∨ (e.state = .assigned ∧
      ∃ k, e.robot = some k ∧ parked k ∧ (robot k).link = some (.entry n pos))
    let assignable (k : Slot) := (robot k).state = .parked ∧ (robot k).unconfirmed = false ∧ (robot k).link = none ∧
      (∀ r, (robot k).row = some r → (tget s.rac.rows r).state ≠ .locked) ∧
      (tget bank.zones x.zone).minBattery ≤ (robot k).battery
    let here (k : Slot) := assignable k ∧ (robot k).row = some e.row
    let free (k : Slot) := assignable k ∧ ∃ r, (robot k).row = some r ∧
      ∀ f ∈ s.rsc.worklist, f.state = .waiting → f.row ≠ r
    let away (k : Slot) := ∀ (c : CarrierIx) (r : Row), spanCarrier s.work e.row = some c → (robot k).row = some r →
      inSpan (tget s.txs.carriers c) r = false
    let steps (k : Slot) : Nat := ((robot k).row.map (fun r => distance (r.val : Int) (e.row.val : Int))).getD 0
    let preferred (j k : Slot) := (¬ away j ∧ away k) ∨
      ((away j ↔ away k) ∧ (steps j < steps k ∨ (steps j = steps k ∧ j ≤ k)))
    let asks (k : Slot) (t : State) : State := (askHold (.entry n pos) .pass k e.row
      (t.withEntry pos (fun f => { f with state := .holding, robot := some k })).work).toState
    let left := (passEntry s.work pos).toState
    (¬ acts → left = s) ∧
    (acts → x.excluded = true ∨ x.length = 0 → left = s.entryEnded pos .skipped (some .excluded)) ∧
    (acts → x.excluded = false → x.length ≠ 0 →
      (x.state = .stowCleared ∨ x.state = .stowed → left = s.entryEnded pos .skipped (some .stowed)) ∧
      (x.state ∉ [RowState.tracking, .stowCleared, .stowed] → left = s) ∧
      (x.state = .tracking →
        (∀ k, e.robot = some k → parked k → left = asks k s) ∧
        ((∀ k, e.robot = some k → ¬ parked k) →
          (∀ k, here k → (∀ j, here j → k ≤ j) →
            left = asks k (s.withRobot k { robot k with link := some (.entry n pos) })) ∧
          ((∀ k, ¬ here k) → (∀ k, ¬ free k) → left = s) ∧
          ((∀ k, ¬ here k) → ∀ k, free k → (∀ j, free j → preferred k j) →
            let can := (∀ q ∈ s.txs.pool, q.robot ≠ k) ∧ x.present = none ∧ x.incoming = none
            let made := (createRequest k e.row (.entry n pos) s.work).2.toState
            (¬ can → left = s) ∧
            (can → left = made.withEntry pos (fun f => { f with state := .assigned, robot := some k }) ∧
              ∃ q ∈ made.txs.pool, q.robot = k ∧ q.finalRow = e.row ∧ q.origin = .entry n pos)))))) ∧
  (∀ s : State, (s.rsc.state ≠ .active → assignmentPass s.work = s.work) ∧
    (s.rsc.state = .active →
      let passed := (List.range s.rsc.worklist.length).foldl passEntry s.work
      let atWork := ∃ e ∈ passed.rsc.worklist, e.state ∈ [EntryState.assigned, .holding, .passing]
      (atWork → assignmentPass s.work = testRound passed) ∧
      (¬ atWork → ∃ v : Work, assignmentPass s.work = testRound v ∧ v.rsc = { passed.rsc with
        worklist := passed.rsc.worklist.map (fun e =>
          if e.state = .waiting then { e with state := .skipped, skip := some .noRobot } else e) })))

/-- What an entry takes from the other blocks. The answer to its PASS hold (R130): HELD makes it PASSING; a hold that fails
is counted, and leaves it WAITING with its robot at the first failure and SKIPPED, after the answer, at the second;
HOLD_LOST skips it STORM under storm parking and STOWED on a row that is cleared or stowed, and counts as REFUSED elsewhere;
so does its robot's refusal of the PASS. In a round that drains a first failure skips it TIME (the model's reading, log
entry 23). A pass result, a stranding, and a robot that is gone end it (R131), and the outcome of its transfer is taken by
Table 6-6 (R129; that the second REFUSED clears the entry's robot, as the first does, is the model's reading, log entry 28):
a DELIVERED one asks its hold at once in ACTIVE. An answer for an entry in another state, or of another round, changes
nothing, but that a DELIVERED robot no entry waits for is unlinked. A pass is due after every outcome given to an entry,
also to one that has ended or is of an earlier round, and after an entry has ended, when the round is tested, too (R128,
R134). -/
def Obligations.EntryEvents : Prop :=
  (∀ (pos : Nat) (e : Entry) (s : State), s.rsc.worklist[pos]? = some e →
    let n := s.rsc.number
    let x := tget s.rac.rows e.row
    let failed (why : SkipReason) : State :=
      let t := s.withEntry pos (fun f => { f with holdFails := min 2 (f.holdFails + 1) })
      if 1 ≤ e.holdFails then t.entryEnded pos .skipped (some why)
      else if s.rsc.state = .draining then t.entryEnded pos .skipped (some .time)
      else t.withEntry pos (fun f => { f with state := .waiting })
    let answer (a : HoldAnswer) := (entryAnswer n pos e.row a s.work).toState
    let storm := s.wxm.weather = .parking ∨ s.wxm.weather = .secured
    let stow := x.state = .stowCleared ∨ x.state = .stowed
    (e.state = .holding →
      answer .held = s.withEntry pos (fun f => { f with state := .passing }) ∧
      answer .refused = failed .refused ∧ answer .timeout = failed .timeout ∧
      (storm → answer .holdLost = s.entryEnded pos .skipped (some .storm)) ∧
      (¬ storm → stow → answer .holdLost = s.entryEnded pos .skipped (some .stowed)) ∧
      (¬ storm → ¬ stow → answer .holdLost = failed .refused)) ∧
    (∀ (r : Row) (a : HoldAnswer), e.state ≠ .holding ∨ e.row ≠ r → entryAnswer n pos r a s.work = s.work) ∧
    (∀ k : Slot,
      let working := e.state = .passing ∧ e.robot = some k
      let delivered := (entryOutcome n pos k .delivered s.work).toState
      let outcome (o : ReqOutcome) := (entryOutcome n pos k o s.work).toState
      let mine := e.state = .assigned ∧ e.robot = some k
      (working →
        (entryRefused n pos k s.work).toState = failed .refused ∧
        (entryPass n pos k true s.work).toState = s.entryEnded pos .doneFull none ∧
        (entryPass n pos k false s.work).toState = s.entryEnded pos .donePart none ∧
        (entryStranded n pos k s.work).toState = s.entryEnded pos .donePart none ∧
        (∀ complete, (entryPass n pos k complete s.work).passDue = true ∧
          .testRound ∈ (entryPass n pos k complete s.work).agenda)) ∧
      (¬ working → entryRefused n pos k s.work = s.work ∧ (∀ complete, entryPass n pos k complete s.work = s.work) ∧
        entryStranded n pos k s.work = s.work) ∧
      (e.ended = false → e.robot = some k → (entryGone n pos k s.work).toState =
        (if e.state = .holding then (cancelHold (.entry n pos) e.row s.work).toState else s).entryEnded pos .skipped
          (some .fault)) ∧
      (e.ended = true ∨ e.robot ≠ some k → entryGone n pos k s.work = s.work) ∧
      (∀ o, (entryOutcome n pos k o s.work).passDue = true) ∧
      (mine →
        (s.rsc.state = .active → delivered = (askHold (.entry n pos) .pass k e.row
          (s.withEntry pos (fun f => { f with state := .holding, robot := some k })).work).toState) ∧
        (s.rsc.state ≠ .active → delivered = s) ∧
        (e.transferFails = 0 → outcome .refused = s.withEntry pos (fun f =>
          { f with state := .waiting, robot := none, transferFails := min 2 (f.transferFails + 1) })) ∧
        (e.transferFails ≠ 0 → outcome .refused = s.withEntry pos (fun f =>
          { f with state := .skipped, skip := some .refused, robot := none
                   transferFails := min 2 (f.transferFails + 1) })) ∧
        outcome .failed = s.entryEnded pos .skipped (some .fault) ∧
        outcome .dropped = s.entryEnded pos .skipped (some .fault)) ∧
      (¬ mine →
        (∀ o, o ≠ .delivered → outcome o = s) ∧
        delivered =
          if (tget s.fou.robots k).link = some (.entry n pos) then s.withRobot k { tget s.fou.robots k with link := none }
          else s))) ∧
  (∀ (n : Half) (pos : Nat) (r : Row) (k : Slot) (s : State), n ≠ s.rsc.number →
    (∀ a, entryAnswer n pos r a s.work = s.work) ∧ entryRefused n pos k s.work = s.work ∧
    (∀ complete, entryPass n pos k complete s.work = s.work) ∧ entryStranded n pos k s.work = s.work ∧
    entryGone n pos k s.work = s.work ∧
    (∀ o, o ≠ .delivered → entryOutcome n pos k o s.work = { s.work with passDue := true }) ∧
    entryOutcome n pos k .delivered s.work =
      { (if (tget s.fou.robots k).link = some (.entry n pos) then s.withRobot k { tget s.fou.robots k with link := none }
        else s).work with passDue := true })

/-- ROUND_STOP and the time limit (R133, R136), of a round in ACTIVE or SUSPENDED whose entries wait without a robot, pass
or have ended, with the pool empty: those that wait are skipped, reason TIME. With none passing the round ends STOPPED or
TIMED with its record; otherwise it is DRAINING, the time-limit timer stopped, and a ROUND_STOP with recall set asks every
passing robot back, ROUTINE. With no round under way, or one that drains, the command is refused. An entry at work is given
up too: one HOLDING cancels its hold, and one ASSIGNED cancels its request. A round that drains ends, with the outcome it
was given, when no entry passes any more, and one that does not, COMPLETE, when every entry has ended (R134). At the storm
entry (R135) every entry not yet passing is SKIPPED(STORM), a HOLDING one with its hold cancelled, one that passes is
DONE_PARTIAL, their robots are unlinked, and the round ends ABORTED. That the entries are taken in list order is the model's
reading, log entry 35. At each of these ends (R136) the record comes first; a flip that is pending is then taken, with its
own record and the period timer restarted (R90); and a due round is considered after it, under the front bank then in force
(R121), built as ROUND_START builds one (RoundTrigger) with its assignment pass the next thing made. ROUND_STOP and the time
limit are shown where no round is built at the end, or one with an empty worklist, which ends at once. -/
def Obligations.RoundGivenUp : Prop :=
  let count (l : List Entry) (st : EntryState) := (l.filter (fun e => decide (e.state = st))).length
  let flipped (s : State) : State :=
    let front : BankId := match s.pls.front with
      | .a => .b
      | .b => .a
    let bank := match s.pls.front with
      | .a => s.pls.bankB
      | .b => s.pls.bankA
    let t := State.posted { s with pls := { s.pls with front := front, flipPending := false } } [.planFlipped front]
    { t with rsc := { t.rsc with
      periodTimer := if bank.round.source = .period then some (s.now, bank.round.period * 60) else none } }
  let closed (outcome : RoundOutcome) (l : List Entry) (s : State) : State :=
    let t := State.posted { s with rsc := { s.rsc with limitTimer := none, lastOutcome := outcome, worklist := l } }
      [.roundEnded s.rsc.number outcome (count l .doneFull) (count l .donePart) (count l .skipped)]
    let ended : State := { t with rsc := { t.rsc with state := .none } }
    if s.pls.flipPending = true then flipped ended else ended
  let finished (outcome : RoundOutcome) (l : List Entry) (s : State) : State :=
    let t := closed outcome l s
    if s.rsc.due = true ∧ s.wxm.weather = .calm ∧ s.pls.freeze = .running then (startRound t.work).1.toState else t
  (∀ s : State, (s.rsc.state = .active ∨ s.rsc.state = .suspended) → s.txs.pool = [] → (∀ c, tget s.wxm.alights c = none) →
    s.wxm.weather ≠ .parking → s.pls.freeze ≠ .freezeAsked →
    (∀ e ∈ s.rsc.worklist, e.ended = true ∨ e.state = .passing ∨ (e.state = .waiting ∧ e.robot = none)) →
    let l := s.rsc.worklist.map (fun e =>
      if e.state = .waiting then { e with state := EntryState.skipped, skip := some .time } else e)
    let recalled := ((s.rsc.worklist.filter (fun e => decide (e.state = .passing))).filterMap (·.robot)).foldl
      (fun t k => t.askedBack k .routine) s
    let ends (outcome : RoundOutcome) (t : State) : State :=
      if ∃ e ∈ s.rsc.worklist, e.state = .passing then { t with rsc := { t.rsc with
        state := .draining, limitTimer := none, drainOutcome := outcome, worklist := l } }
      else finished outcome l t
    (Ready .plant s → (ends .stopped s).rsc.state ≠ .active → ∀ b : Byte, exec (.roundStop .plant [b]) s =
      .next (answered .plant .roundStop .ok (ends .stopped (if b = 0#8 then s else recalled)))) ∧
    (dueLen s.now s.rsc.limitTimer = true → (ends .timed s).rsc.state ≠ .active →
      exec .timeLimitTimeout s = .next (ends .timed s)) ∧
    (dueLen s.now s.rsc.limitTimer = false → exec .timeLimitTimeout s = .next s)) ∧
  (∀ (outcome : RoundOutcome) (s : State), let t := roundEnd outcome s.work
    t.toState = finished outcome s.rsc.worklist s ∧
      t.agenda = if t.rsc.state = .active then [.assignPass] else []) ∧
  (∀ (b : Byte) (s : State), Ready .plant s → s.rsc.state = .none ∨ s.rsc.state = .draining →
    exec (.roundStop .plant [b]) s = .next (answered .plant .roundStop .state s)) ∧
  (∀ (pos : Nat) (e : Entry) (s : State), s.rsc.worklist[pos]? = some e →
    let n := s.rsc.number
    let left := (giveUpEntry s.work pos).toState
    let link := e.robot.bind (fun k => (tget s.fou.robots k).link)
    (e.state = .waiting → left = s.entryEnded pos .skipped (some .time)) ∧
    (e.state = .holding →
      left = (cancelHold (.entry n pos) e.row s.work).toState.entryEnded pos .skipped (some .time)) ∧
    (e.state = .assigned → ∀ seq, link = some (.request seq) → ∃ v : Work,
      v.toState = s.entryEnded pos .skipped (some .time) ∧ giveUpEntry s.work pos = cancelRequest seq v) ∧
    (e.state = .assigned → (∀ seq, link ≠ some (.request seq)) → left = s.entryEnded pos .skipped (some .time)) ∧
    (e.state = .passing ∨ e.ended = true → left = s)) ∧
  (∀ s : State,
    (s.rsc.state = .draining → (testRound s.work).toState =
      if ∃ e ∈ s.rsc.worklist, e.state = .passing then s else finished s.rsc.drainOutcome s.rsc.worklist s) ∧
    (s.rsc.state = .active ∨ s.rsc.state = .suspended → (testRound s.work).toState =
      if ∀ e ∈ s.rsc.worklist, e.ended = true then finished .complete s.rsc.worklist s else s)) ∧
  (∀ s : State, s.rsc.state ≠ .none →
    let n := s.rsc.number
    let l := s.rsc.worklist.map (fun e =>
      if e.ended = true then e
      else if e.state = .passing then { e with state := EntryState.donePart, skip := none }
      else { e with state := .skipped, skip := some .storm })
    let cancelled := (List.range s.rsc.worklist.length).foldl (fun t pos =>
      match s.rsc.worklist[pos]? with
      | some e => if e.state = .holding then (cancelHold (.entry n pos) e.row t.work).toState else t
      | none => t) s
    ∃ t : State, (abortRound s.work).toState = finished .aborted l t ∧ t = { cancelled with fou := t.fou } ∧
      t.fou = { s.fou with robots := t.fou.robots } ∧ ∀ k : Slot,
        let v := tget s.fou.robots k
        let worked := ∃ (pos : Nat) (e : Entry), s.rsc.worklist[pos]? = some e ∧ e.ended = false ∧ e.robot = some k ∧
          v.link = some (.entry n pos)
        (worked → tget t.fou.robots k = { v with link := none }) ∧ (¬ worked → tget t.fou.robots k = v))

/-! ### Weather (chapter 7) -/

/-- WIND, STORM_DECLARE, STORM_CANCEL and the wind silence where no storm begins (R132, R139 to R143, R151, R153): the
sample is held at 600 and restarts the silence; from CALM a sample at the watch threshold enters WATCH (which is then no
release, the model's own mark of log entry 38), in WATCH the quiet timer follows the threshold, and in PARKING and SECURED
the release timer follows the storm condition, which a declaration or the silence makes present. At the entry to WATCH a
round that is ACTIVE or SUSPENDED is SUSPENDED, and each of its HOLDING entries, in list order (log entry 35), cancels its
hold and is WAITING again with its robot and its failures as they were (R132), shown with no request in the pool and no
storm alighting. -/
def Obligations.WindWatch : Prop :=
  ∀ s : State,
    let silent := s.wxm.silenceExpired = false ∧ s.wxm.windSilence ≤ (s.now - s.wxm.silenceStart).toNat
    let parking := s.wxm.weather = .parking ∨ s.wxm.weather = .secured
    let atWork := s.rsc.state = .active ∨ s.rsc.state = .suspended
    (Ready .tracker s → ∀ a b : Byte,
      let v := min 600 (a.toNat * 256 + b.toNat)
      let x := { s.wxm with lastSample := some v, silenceStart := s.now, silenceExpired := false }
      let reply (t : State) := exec (.wind .tracker [a, b]) s = .next (answered .tracker .wind
        (if 600 < a.toNat * 256 + b.toNat then .clamped else .ok) t)
      let quiet := if s.wxm.quietTimer = none then some s.now else s.wxm.quietTimer
      let release := if s.wxm.stormAt ≤ v ∨ s.wxm.declared = true then none
        else if s.wxm.releaseTimer = none then some s.now else s.wxm.releaseTimer
      let watched := State.posted { s with wxm := { x with weather := .watch, released := false } }
        [.stormState .calm .watch .gust (some v) s.wxm.declared (strandedCount s.work)]
      let cancelled := (List.range s.rsc.worklist.length).foldl (fun t pos =>
        match s.rsc.worklist[pos]? with
        | some e =>
          if e.state = .holding then (cancelHold (.entry s.rsc.number pos) e.row t.work).toState else t
        | none => t) watched
      (s.wxm.weather = .calm → v < s.wxm.watchAt → v < s.wxm.stormAt → reply { s with wxm := x }) ∧
      (s.wxm.weather = .calm → s.wxm.watchAt ≤ v → v < s.wxm.stormAt → ¬ atWork →
        reply { watched with wxm := { watched.wxm with quietTimer := none } }) ∧
      (s.wxm.weather = .calm → s.wxm.watchAt ≤ v → v < s.wxm.stormAt → atWork → s.txs.pool = [] →
        (∀ c, tget s.wxm.alights c = none) → s.pls.freeze ≠ .freezeAsked →
        reply { cancelled with
          wxm := { watched.wxm with quietTimer := none }
          rsc := { s.rsc with
            state := .suspended
            worklist := s.rsc.worklist.map (fun e => if e.state = .holding then { e with state := .waiting } else e) } }) ∧
      (s.wxm.weather = .watch → v < s.wxm.stormAt →
        reply { s with wxm := { x with quietTimer := if v < s.wxm.watchAt then quiet else none } }) ∧
      (parking → reply { s with wxm := { x with releaseTimer := release } })) ∧
    (Ready .plant s →
      (s.wxm.declared = true → exec (.stormDeclare .plant) s = .next (answered .plant .stormDeclare .state s)) ∧
      (s.wxm.declared = false → parking → exec (.stormDeclare .plant) s =
        .next (answered .plant .stormDeclare .ok { s with wxm := { s.wxm with declared := true, releaseTimer := none } })) ∧
      (s.wxm.declared = false → exec (.stormCancel .plant) s = .next (answered .plant .stormCancel .state s)) ∧
      (s.wxm.declared = true → ¬ parking → exec (.stormCancel .plant) s =
        .next (answered .plant .stormCancel .ok { s with wxm := { s.wxm with declared := false } })) ∧
      (s.wxm.declared = true → parking → exec (.stormCancel .plant) s =
        .next (answered .plant .stormCancel .ok { s with wxm := { s.wxm with
          declared := false
          releaseTimer :=
            if s.wxm.lastSample.any (fun v => decide (s.wxm.stormAt ≤ v)) ∨ s.wxm.silenceExpired = true then none
            else if s.wxm.releaseTimer = none then some s.now else s.wxm.releaseTimer } }))) ∧
    (¬ silent → exec .windSilenceTimeout s = .next s) ∧
    (silent → parking → exec .windSilenceTimeout s =
      .next { s with wxm := { s.wxm with silenceExpired := true, releaseTimer := none } })

/-- The entry to storm parking, from CALM or WATCH with no request in the pool and no round under way (R20, R80, R81, R138
to R146, R154, Table 1-6): a sample at the storm threshold, a threshold written that the last sample reaches, a declaration,
or the wind silence. In this order: the STORM_STATE record with its cause; PARKING with its deadline running; every row but
those reserved STORM is cleared, with its STOW_CLEAR placed in ascending order, and an occupied one waits; GO_HEAD, URGENT,
to every robot that passes or returns; PARK, URGENT, to every idle carrier without a load. Where nothing is left to secure
(R148) it is SECURED at once, with a second record: every robot PARKED, STRANDED, LOST, EMPTY or in FAULT and docked, every
carrier ABSENT, GARAGED or HALTED, and no row in STOW_WAIT once the rows are cleared (the kept ask counts, cleared then, are
the model's own, log entry 33). Nothing else changes. Later in PARKING the same test is made at each change of state (R148,
R154): where it passes, the deadline stops and storm alightings are removed, their holds withdrawn; within the entry itself
and within the deadline it is not made (R144, R149; log entry 5). That the rows, the robots and the carriers are taken in
ascending order, so the notices and the orders queue in it, is the model's reading, log entry 35. -/
def Obligations.StormEntry : Prop :=
  (∀ s : State, Settled s → s.wxm.weather = .calm ∨ s.wxm.weather = .watch →
    let stranded := ((indices 32).filter (fun k => decide ((tget s.fou.robots k).state = .stranded))).length
    let standing (x : RowRec) : RowRec :=
      if x.incoming.map (·.kind) = some .storm then x
      else match x.state with
        | .tracking | .holdAsked => placeNotice (.stowClear false)
            { x with state := .stowCleared, hold := none, holdTimer := none, lastForced := false }
        | .occupied => { x with state := .stowWait }
        | _ => x
    let secured :=
      (∀ k : Slot, (tget s.fou.robots k).state ∈ [RobotState.parked, .stranded, .lost, .empty] ∨
        ((tget s.fou.robots k).state = .fault ∧ (tget s.fou.robots k).position = .docked)) ∧
      (∀ c : CarrierIx, (tget s.txs.carriers c).state ∈ [CarrierState.absent, .garaged, .halted]) ∧
      ∀ r : Row, (standing (tget s.rac.rows r)).state ≠ .stowWait
    let enter (x : Wxm) (cause : StormCause) : State :=
      let parking := State.posted { s with wxm := { x with
          weather := .parking, quietTimer := none, releaseTimer := none, deadlineTimer := some s.now } }
        [.stormState s.wxm.weather .parking cause x.lastSample x.declared stranded]
      let cleared := (indices 256).foldl (fun t r => t.withRow r (standing (tget t.rac.rows r))) parking
      let back := (indices 32).foldl (fun t k => t.askedBack k .urgent) cleared
      let parked := (indices 4).foldl (fun t c =>
        if (tget s.txs.carriers c).state = .idle ∧ (tget s.txs.carriers c).load = none then t.sentToGarage c .urgent
        else t) back
      if secured then State.posted { parked with wxm := { parked.wxm with
          weather := .secured, deadlineTimer := none, askKept := tfill 4 0 } }
        [.stormState .parking .secured .drained x.lastSample x.declared stranded]
      else parked
    (∀ a b : Byte, Ready .tracker s →
      let v := min 600 (a.toNat * 256 + b.toNat)
      s.wxm.stormAt ≤ v → exec (.wind .tracker [a, b]) s = .next (answered .tracker .wind
        (if 600 < a.toNat * 256 + b.toNat then .clamped else .ok)
        (enter { s.wxm with lastSample := some v, silenceStart := s.now, silenceExpired := false } .stormWind))) ∧
    (Ready .plant s → s.wxm.declared = false → exec (.stormDeclare .plant) s =
      .next (answered .plant .stormDeclare .ok (enter { s.wxm with declared := true } .declared))) ∧
    (s.wxm.silenceExpired = false → s.wxm.windSilence ≤ (s.now - s.wxm.silenceStart).toNat →
      exec .windSilenceTimeout s = .next (enter { s.wxm with silenceExpired := true } .silence)) ∧
    (∀ (n : Nat) (z0 : Zone) (a b : Byte) (v : Nat), s.plant.resetHeld = false → n = 7 ∨ n = 8 →
      s.plant.context = .settings .timingWrite n [] z0 → s.wxm.lastSample = some v →
      let given := a.toNat * 256 + b.toNat
      let c := min 600 given
      let x := if n = 7 then { s.wxm with watchAt := c } else { s.wxm with stormAt := c }
      x.watchAt < x.stormAt → x.stormAt ≤ v → exec (.settingsField .plant [a, b]) s =
        .next (fieldTaken .timingWrite (.settings .timingWrite (n + 1) [] z0) (if c = given then none else some .clamped)
          (enter x .threshold)))) ∧
  (∀ s : State,
    let stranded := ((indices 32).filter (fun k => decide ((tget s.fou.robots k).state = .stranded))).length
    let passes := s.wxm.weather = .parking ∧
      (∀ k : Slot, (tget s.fou.robots k).state ∈ [RobotState.parked, .stranded, .lost, .empty] ∨
        ((tget s.fou.robots k).state = .fault ∧ (tget s.fou.robots k).position = .docked)) ∧
      (∀ c : CarrierIx, (tget s.txs.carriers c).state ∈ [CarrierState.absent, .garaged, .halted]) ∧
      ∀ r : Row, (tget s.rac.rows r).state ≠ .stowWait
    let secured := State.posted { s with wxm := { s.wxm with
        weather := .secured, deadlineTimer := none, alights := tfill 4 none, askKept := tfill 4 0 } }
      [.stormState .parking .secured .drained s.wxm.lastSample s.wxm.declared stranded]
    (passes → s.securedTested = secured ∧ (securedTest s.work).toState = secured ∧
      (securedTest s.work).agenda = (indices 4).filterMap (fun c =>
        (tget s.wxm.alights c).map (fun a => Msg.withdraw (.storm a.robot) a.row))) ∧
    (¬ passes → s.securedTested = s ∧ securedTest s.work = s.work)) ∧
  ∀ w : Work, (w.entering = true → securedTest w = w) ∧
    ∀ (q : Requester) (r : Row), takeMsg (.withdraw q r) w = cancelHold q r w

/-- The quiet and the release timers (R132, R143, R147, R151, R152): from WATCH to CALM, and from PARKING or SECURED to
WATCH, each with its record and its timers stopped (the kept ask counts and the mark of a release are the model's own, log
entries 33 and 38; that a release with no last sample starts no quiet timer is the model's reading, log entry 27). At the
return to CALM with the freeze state RUNNING a SUSPENDED round is ACTIVE again, and with no round under way a due round is
built (R121) as ROUND_START builds one (RoundTrigger); the assignment pass of either comes first, and arbitration for every
carrier after it (that what the pass sends waits behind the carriers is log entry 5's). Where a round resumes this is shown
to its end with entries at work, none of which waits or is ASSIGNED, and the pool empty, and where one is built, with an
empty worklist, which ends it at once. In another freeze state a SUSPENDED round stays so and a due round stays due. A
release removes every storm alighting and cancels its hold, in the order of the carriers (log entry 35), shown where no
request waits or is PENDING. A timer that is not due, or whose condition has gone, does nothing. -/
def Obligations.StormOver : Prop :=
  ∀ s : State,
    let x := s.wxm
    let storm := (∃ v, x.lastSample = some v ∧ x.stormAt ≤ v) ∨ x.declared = true ∨ x.silenceExpired = true
    let low := ∃ v, x.lastSample = some v ∧ v < x.watchAt
    let quiet := x.weather = .watch ∧ due s.now x.quietTimer x.releaseHold = true ∧ ¬ storm ∧ low
    let release := (x.weather = .parking ∨ x.weather = .secured) ∧ due s.now x.releaseTimer x.releaseHold = true ∧ ¬ storm
    let stranded := ((indices 32).filter (fun k => decide ((tget s.fou.robots k).state = .stranded))).length
    let resumes := s.rsc.state = .suspended ∧ s.pls.freeze = .running
    let posted := State.posted { s with wxm := { x with weather := .calm } }
      [.stormState .watch .calm .quiet x.lastSample x.declared stranded]
    let calm : State := { posted with
      wxm := { posted.wxm with quietTimer := none }
      rsc := { s.rsc with state := if resumes then .active else s.rsc.state } }
    let watch := State.posted { s with wxm := { x with weather := .watch, released := true } }
      [.stormState x.weather .watch .released x.lastSample x.declared stranded]
    let gone := (indices 4).foldl (fun t c =>
      match tget x.alights c with
      | some a => (cancelHold (.storm a.robot) a.row t.work).toState
      | none => t) watch
    let builds := s.rsc.state = .none ∧ s.rsc.due = true ∧ s.pls.freeze = .running ∧ s.pls.flipPending = false
    let round := (startRound calm.work).1.toState
    let carriers := (indices 4).map Msg.arbitrate
    let first (t : State) := expireQuiet s.work = { t.work with agenda := .assignPass :: carriers } ∧
      cascadeStep (expireQuiet s.work) = some (assignmentPass { t.work with agenda := carriers })
    (quiet → resumes → first calm) ∧
    (quiet → builds → round.rsc.state = .active → first round) ∧
    (quiet → builds → round.rsc.state ≠ .active → expireQuiet s.work = { round.work with agenda := carriers }) ∧
    (quiet → s.txs.pool = [] →
      (resumes → (∃ e ∈ s.rsc.worklist, e.ended = false) ∧
        ∀ e ∈ s.rsc.worklist, e.state ≠ .waiting ∧ e.state ≠ .assigned) → ¬ builds →
      exec .quietTimeout s = .next calm) ∧
    (quiet → s.txs.pool = [] → builds → round.rsc.state ≠ .active → exec .quietTimeout s = .next round) ∧
    (¬ quiet → exec .quietTimeout s = .next s) ∧
    (release → (∀ q ∈ s.txs.pool, q.state ≠ .waiting ∧ q.legTarget ≠ none) → s.pls.freeze ≠ .freezeAsked →
      ∃ timer : Option Time, (low → timer = some s.now) ∧ (¬ low → timer = none) ∧
      exec .releaseTimeout s = .next { gone with wxm := { watch.wxm with
        deadlineTimer := none, releaseTimer := none, quietTimer := timer, askKept := tfill 4 0
        alights := tfill 4 none } }) ∧
    (¬ release → exec .releaseTimeout s = .next s)

/-- The parking deadline (R82, R149, R154, Table 1-7), with no request in the pool and no round under way. In this order:
the rows still OCCUPIED, waiting or asked for a hold, and those reserved STORM in TRACKING, are cleared, with a forced
STOW_CLEAR (not forced for a freed reservation), an alighting robot's reservation becoming presence; the robots found off
their docks on them are STRANDED, in the order of the rows, one that was passing with a partial pass; then the robots that
are ABOARD; a STRANDED record for each, ascending; PARK, URGENT, again to every carrier on its way without a load; and the
weather is SECURED, with its record (the kept ask counts are the model's own, log entry 33; that rows, robots and carriers
are taken in ascending order is the model's reading, log entry 35). A deadline that is not due does nothing. The stale
condition is judged at its moment (R174, R175). The retry of a storm alighting (R147): ten seconds after a failed answer the
ALIGHT hold is asked again and counted, shown in PARKING with one storm alighting, of a robot ABOARD a HALTED carrier that
stands at its storm target, while the row takes the hold; a retry that is not due does nothing. A storm alighting is wanted
in PARKING at a HALTED carrier that carries a robot ABOARD and stands at the storm target of its converted request (R147,
R150): where there is none one is created, its ask count 1 or one above the count kept, and the hold asked (at a kept count
of 3 it is not, log entry 33); where one stands that is not wanted it is removed with its hold; one that is wanted stays. A
failed answer starts its retry while the count is below 3, and from then on it stays with no further ask. ARRIVED of such a
carrier shows a creation. -/
def Obligations.StormTimers : Prop :=
  (∀ s : State,
    let reached := s.wxm.weather = .parking ∧ due s.now s.wxm.deadlineTimer s.wxm.parkingDeadline = true
    (¬ reached → exec .parkingDeadline s = .next s) ∧
    (reached → s.rsc.state = .none → (∀ e ∈ s.rsc.worklist, e.ended = true) → s.txs.pool = [] →
      (∀ c, tget s.wxm.alights c = none) → s.pls.freeze ≠ .freezeAsked →
      let occupying (x : RowRec) : Option Slot :=
        if x.hold.map (·.purpose) = some .alight then x.incoming.map (·.robot) else x.present
      let off (x : RowRec) := x.state = .occupied ∨ x.state = .stowWait
      let cleared (forced : Bool) (x : RowRec) := placeNotice (.stowClear forced)
        { x with state := .stowCleared, hold := none, holdTimer := none, lastForced := forced }
      let atDeadline (x : RowRec) : RowRec :=
        if off x then cleared true (
          if x.hold.map (·.purpose) = some .alight ∧ x.incoming ≠ none then
            { x with present := x.incoming.map (·.robot), incoming := none }
          else x)
        else if x.state = .holdAsked then cleared true x
        else if x.state = .tracking ∧ x.incoming.map (·.kind) = some .storm then cleared false { x with incoming := none }
        else x
      let onTables := ((indices 256).filter (fun r => decide (off (tget s.rac.rows r)))).filterMap
        (fun r => occupying (tget s.rac.rows r))
      let rows := (indices 256).foldl (fun t r => t.withRow r (atDeadline (tget t.rac.rows r))) s
      let tables := onTables.foldl (fun t k => t.strandedNow k) rows
      let aboard := (indices 32).filter (fun k => decide ((tget tables.fou.robots k).state = .aboard))
      let all := aboard.foldl (fun t k => t.strandedNow k) tables
      let told := ((indices 32).filter (fun k => decide (k ∈ onTables ∨ k ∈ aboard))).foldl
        (fun t k => t.posted [strandedRecord k (tget t.fou.robots k) .deadline]) all
      let parked := (indices 4).foldl (fun t c =>
        if (tget s.txs.carriers c).state ∉ [CarrierState.absent, .garaged, .halted] ∧
          (tget s.txs.carriers c).load = none then t.sentToGarage c .urgent else t) told
      exec .parkingDeadline s = .next (State.posted { parked with wxm := { parked.wxm with
          weather := .secured, deadlineTimer := none, askKept := tfill 4 0 } }
        [.stormState .parking .secured .deadline s.wxm.lastSample s.wxm.declared (strandedCount parked.work)])) ∧
    exec .staleExpiry s = .next { s with rpq := Rpq.judged s.now s.rpq }) ∧
  (∀ (c : CarrierIx) (s : State),
    (∀ (a : StormAlight) (q : Request), tget s.wxm.alights c = some a → (∀ d, d ≠ c → tget s.wxm.alights d = none) →
      (∀ d, d ≠ c → (tget s.txs.carriers d).state ≠ .halted) → s.wxm.weather = .parking → s.pls.freeze ≠ .freezeAsked →
      let y := tget s.txs.carriers c
      let x := tget s.rac.rows a.row
      y.state = .halted → y.load = some a.robot → y.task = some q.seq → s.work.request? q.seq = some q →
      q.cls = .storm → q.robot = a.robot → q.legTarget = some a.row → standsAt y a.row = true →
      (tget s.fou.robots a.robot).state = .aboard → due s.now a.retry 10 = true →
      x.state = .tracking → x.excluded = false → x.length ≠ 0 → x.present = none →
      x.incoming.map (·.robot) = some a.robot →
      let counted := some { a with asks := min 3 (a.asks + 1), retry := none }
      exec (.stormAlightRetry c) s = .next (State.withRow { s with
        wxm := { s.wxm with alights := tset s.wxm.alights c counted } } a.row (placeNotice (.holdAsk .alight) { x with
          attempts := if x.attemptsBy = some (.storm a.robot) then min 255 (x.attempts + 1) else 1
          attemptsBy := some (.storm a.robot), state := .holdAsked, hold := some ⟨.storm a.robot, .alight⟩
          holdTimer := some s.now }))) ∧
    ((∀ a, tget s.wxm.alights c = some a → due s.now a.retry 10 = false) → exec (.stormAlightRetry c) s = .next s)) ∧
  (∀ (c : CarrierIx) (s : State),
    let y := tget s.txs.carriers c
    let wants (k : Slot) (r : Row) := s.wxm.weather = .parking ∧ y.state = .halted ∧ y.load = some k ∧
      (tget s.fou.robots k).state = .aboard ∧ standsAt y r = true ∧
      ∃ q : Request, y.task = some q.seq ∧ s.work.request? q.seq = some q ∧ q.cls = .storm ∧ q.robot = k ∧
        q.legTarget = some r
    let after := (syncAlight s.work c).toState
    let kept := tget s.wxm.askKept c
    let none_ : State := { s with wxm := { s.wxm with
      alights := tset s.wxm.alights c none, askKept := tset s.wxm.askKept c 0 } }
    (tget s.wxm.alights c = none → ∀ k r, wants k r →
      let a : StormAlight := { robot := k, row := r, asks := min 3 (kept + 1), retry := none }
      let made : State := { s with wxm := { s.wxm with alights := tset s.wxm.alights c (some a) } }
      after = if kept < 3 then (askHold (.storm k) .alight k r made.work).toState else made) ∧
    (tget s.wxm.alights c = none → (∀ k r, ¬ wants k r) → after = s) ∧
    ∀ a : StormAlight, tget s.wxm.alights c = some a →
      let removed := (cancelHold (.storm a.robot) a.row none_.work).toState
      (wants a.robot a.row → after = s) ∧
      ((∀ k r, ¬ wants k r) → after = removed) ∧
      (∀ k r, wants k r → ¬ (a.robot = k ∧ a.row = r) → after = (syncAlight removed.work c).toState) ∧
      ∀ ans : HoldAnswer, ans ≠ .held →
        (∀ d e, d ≠ c → tget s.wxm.alights d = some e → ¬ (e.robot = a.robot ∧ e.row = a.row)) →
        (stormAnswer a.robot a.row ans s.work).toState = if a.asks < 3 then
            { s with wxm := { s.wxm with alights := tset s.wxm.alights c (some { a with retry := some s.now }) } }
          else s) ∧
  (∀ (b : Byte) (c : CarrierIx) (q : Request) (s : State), Ready .fleet s → s.wxm.weather = .parking →
    s.pls.freeze ≠ .freezeAsked → (∀ d, tget s.wxm.alights d = none) →
    (∀ d, d ≠ c → (tget s.txs.carriers d).state ≠ .halted) →
    let r := byteRow b
    let x := tget s.rac.rows r
    let y := tget s.txs.carriers c
    let k := q.robot
    let kept := tget s.wxm.askKept c
    y.state = .halted → y.load = some k → y.task = some q.seq → s.work.request? q.seq = some q → q.cls = .storm →
    q.legTarget = some r → (tget s.fou.robots k).state = .aboard → reaches y r = true → kept < 3 →
    x.state = .tracking → x.excluded = false → x.length ≠ 0 → x.present = none → x.incoming.map (·.robot) = some k →
    let a : StormAlight := { robot := k, row := r, asks := kept + 1, retry := none }
    exec (.arrived .fleet (BitVec.ofNat 8 c.val) [b]) s = .next (answered .fleet .carrierReport .ok
      (State.withRow { s with
        wxm := { s.wxm with alights := tset s.wxm.alights c (some a) }
        txs := { s.txs with carriers := tset s.txs.carriers c { y with position := .row r } } } r
          (placeNotice (.holdAsk .alight) { x with
            attempts := if x.attemptsBy = some (.storm k) then min 255 (x.attempts + 1) else 1
            attemptsBy := some (.storm k), state := .holdAsked, hold := some ⟨.storm k, .alight⟩
            holdTimer := some s.now }))))

/-! ### Reports (chapter 9) -/

/-- A group of records is stored whole with its stamp, or refused whole and counted; a pending OVERRUN is stored when
there is a place (R171, R172). The attention is asserted while the depth has reached the threshold, the head has waited
its stale time, or a prompt record waits (R174, R175, Table 9-1). The last byte of a READ_REPORT copy removes the head
of the queue; a pending OVERRUN takes the freed place, and the attention is judged again (R172, R173, R174). -/
def Obligations.Reports : Prop :=
  ((∀ (bodies : List RecordBody) (s : State),
    let fits := s.rpq.overrun = 0 ∧ s.rpq.queue.length + bodies.length ≤ 128
    let lost := min 65535 (s.rpq.overrun + bodies.length)
    s.posted bodies = { s with rpq := Rpq.judged s.now (
      if fits then { s.rpq with queue := s.rpq.queue ++ bodies.map (fun b => { stamp := s.now, body := b }) }
      else if lost ≠ 0 ∧ s.rpq.queue.length < 128 then
        { s.rpq with queue := s.rpq.queue ++ [{ stamp := s.now, body := .overrun lost }], overrun := 0 }
      else { s.rpq with overrun := lost }) }) ∧
  (∀ (now : Time) (x : Rpq), (Rpq.judged now x).attention = true ↔
    x.threshold ≤ x.queue.length ∨ (∃ h rest, x.queue = h :: rest ∧ x.staleTime ≤ (now - h.stamp).toNat) ∨
    ∃ m ∈ x.queue, (∃ a b c d e f, m.body = .stormState a b c d e f) ∨ (∃ a b c d, m.body = .stranded a b c d) ∨
      (∃ a b c, m.body = .robotLost a b c) ∨ (∃ a b c d, m.body = .carrierHalted a b c d) ∨ m.body = .freezeDone ∨
      (∃ bank, m.body = .planFlipped bank) ∨ ∃ n, m.body = .overrun n)) ∧
  (∀ (d b : Byte) (s : State), s.plant.resetHeld = false → s.plant.context = .readCopy [b] .report →
    let rest := s.rpq.queue.tail
    let freed := s.rpq.overrun ≠ 0 ∧ rest.length < 128
    exec (.readByte .plant d) s = .next (({ s with
      rpq := Rpq.judged s.now { s.rpq with
        queue := if freed then rest ++ [{ stamp := s.now, body := .overrun s.rpq.overrun }] else rest
        overrun := if freed then 0 else s.rpq.overrun } } : State).setPort .plant
      { s.plant with context := .none, partialBits := [], dataOut := b }))

/-! ### Invariants -/

/-- Every step keeps the rows, notices, reference set and orders as the rules have them: what waits in a slot or a
queue, and the timers that run (R5, R10, R17, R24, R26, R33 to R39, R176). -/
def Obligations.RowsAndOrdersKept : Prop :=
  ∀ s t : State, NoticeInv s.rac → RowsInv s.rac → ReferenceInv s.rac → FleetInv s.fou → step s = .next t →
    NoticeInv t.rac ∧ RowsInv t.rac ∧ ReferenceInv t.rac ∧ FleetInv t.fou

/-- Every step keeps rows and robots together (PlaceInv), and with it: a row counts at most one robot (R22), and a robot off
its dock on a table, unless it is STRANDED, is counted by the row it is on, which is OCCUPIED, STOW_WAIT or LOCKED (R7). -/
def Obligations.PlacesKept : Prop :=
  (∀ s t : State, PlaceInv s.rac s.fou → step s = .next t → PlaceInv t.rac t.fou) ∧
  (∀ s : State, PlaceInv s.rac s.fou →
    (∀ (r : Row) (j k : Slot), countsAgainst (tget s.rac.rows r) j = true → countsAgainst (tget s.rac.rows r) k = true →
      j = k) ∧
    ∀ k : Slot, (tget s.fou.robots k).position = .onTable → (tget s.fou.robots k).state ≠ .stranded →
      ∃ r, (tget s.fou.robots k).row = some r ∧ countsAgainst (tget s.rac.rows r) k = true ∧
        (tget s.rac.rows r).state ∈ [RowState.occupied, .stowWait, .locked])

/-- Every step keeps the transfer pool, the round and the weather as the rules have them (R59, R67, R68, R73, R89, R122,
R126, R127, R133, R136, R138 to R144, R147 to R151). -/
def Obligations.SchedulersKept : Prop :=
  ∀ s t : State, step s = .next t →
    (PoolInv s.txs → PoolInv t.txs) ∧ (RoundInv s.pls s.rsc → RoundInv t.pls t.rsc) ∧
    (WeatherInv s.wxm → WeatherInv t.wxm)

/-- Every step keeps the report queue, the settings, the estimator and the accounts in their ranges, and every account whose
saturation flag is clear in balance (R108, R110, R155, R160, R168, R171, R172); the command under way on a port stays one of
the port's role (R178, R185), and then a stream of row map entries is open in FROZEN alone (R3, R96). -/
def Obligations.RecordsKept : Prop :=
  ∀ s t : State, step s = .next t →
    (ReportInv s.rpq → ReportInv t.rpq) ∧ (SettingsInv s → SettingsInv t) ∧
    (SettingsInv s → EstimatorInv s.seu → EstimatorInv t.seu) ∧ (AccountsInv s.yac → AccountsInv t.yac) ∧
    (RoleInv s → RoleInv t) ∧ (RoleInv s → MapStreamInv s → MapStreamInv t)

/-- The state after power-on reset meets every invariant. -/
def Obligations.ResetMeetsInvariants : Prop :=
  NoticeInv State.reset.rac ∧ RowsInv State.reset.rac ∧ ReferenceInv State.reset.rac ∧ FleetInv State.reset.fou ∧
  PoolInv State.reset.txs ∧ RoundInv State.reset.pls State.reset.rsc ∧ WeatherInv State.reset.wxm ∧
  ReportInv State.reset.rpq ∧ SettingsInv State.reset ∧ EstimatorInv State.reset.seu ∧ AccountsInv State.reset.yac ∧
  PlaceInv State.reset.rac State.reset.fou ∧ RoleInv State.reset ∧ MapStreamInv State.reset
end

