-- ==== Sys2Proof/Laws/State.lean ====
section
/-! SUPPORT. What each update leaves as it was, one lemma for each part of the state, so that no proof unfolds an update to
read a part it does not change. -/

namespace Sys2Proof.Machine

@[simp] theorem send_now (m : Msg) (w : Work) : (send m w).now = w.now := rfl
@[simp] theorem send_rac (m : Msg) (w : Work) : (send m w).rac = w.rac := rfl
@[simp] theorem send_fou (m : Msg) (w : Work) : (send m w).fou = w.fou := rfl
@[simp] theorem send_txs (m : Msg) (w : Work) : (send m w).txs = w.txs := rfl
@[simp] theorem send_pls (m : Msg) (w : Work) : (send m w).pls = w.pls := rfl
@[simp] theorem send_seu (m : Msg) (w : Work) : (send m w).seu = w.seu := rfl
@[simp] theorem send_rsc (m : Msg) (w : Work) : (send m w).rsc = w.rsc := rfl
@[simp] theorem send_wxm (m : Msg) (w : Work) : (send m w).wxm = w.wxm := rfl
@[simp] theorem send_yac (m : Msg) (w : Work) : (send m w).yac = w.yac := rfl
@[simp] theorem send_rpq (m : Msg) (w : Work) : (send m w).rpq = w.rpq := rfl
@[simp] theorem send_plant (m : Msg) (w : Work) : (send m w).plant = w.plant := rfl
@[simp] theorem send_tracker (m : Msg) (w : Work) : (send m w).tracker = w.tracker := rfl
@[simp] theorem send_fleet (m : Msg) (w : Work) : (send m w).fleet = w.fleet := rfl
@[simp] theorem send_freeUses (m : Msg) (w : Work) : (send m w).freeUses = w.freeUses := rfl
@[simp] theorem send_pending (m : Msg) (w : Work) : (send m w).pending = w.pending := rfl
@[simp] theorem send_passDue (m : Msg) (w : Work) : (send m w).passDue = w.passDue := rfl
@[simp] theorem send_told (m : Msg) (w : Work) : (send m w).told = w.told := rfl
@[simp] theorem send_entering (m : Msg) (w : Work) : (send m w).entering = w.entering := rfl

@[simp] theorem sendAll_now (ms : List Msg) (w : Work) : (sendAll ms w).now = w.now := rfl
@[simp] theorem sendAll_rac (ms : List Msg) (w : Work) : (sendAll ms w).rac = w.rac := rfl
@[simp] theorem sendAll_fou (ms : List Msg) (w : Work) : (sendAll ms w).fou = w.fou := rfl
@[simp] theorem sendAll_txs (ms : List Msg) (w : Work) : (sendAll ms w).txs = w.txs := rfl
@[simp] theorem sendAll_pls (ms : List Msg) (w : Work) : (sendAll ms w).pls = w.pls := rfl
@[simp] theorem sendAll_seu (ms : List Msg) (w : Work) : (sendAll ms w).seu = w.seu := rfl
@[simp] theorem sendAll_rsc (ms : List Msg) (w : Work) : (sendAll ms w).rsc = w.rsc := rfl
@[simp] theorem sendAll_wxm (ms : List Msg) (w : Work) : (sendAll ms w).wxm = w.wxm := rfl
@[simp] theorem sendAll_yac (ms : List Msg) (w : Work) : (sendAll ms w).yac = w.yac := rfl
@[simp] theorem sendAll_rpq (ms : List Msg) (w : Work) : (sendAll ms w).rpq = w.rpq := rfl
@[simp] theorem sendAll_plant (ms : List Msg) (w : Work) : (sendAll ms w).plant = w.plant := rfl
@[simp] theorem sendAll_tracker (ms : List Msg) (w : Work) : (sendAll ms w).tracker = w.tracker := rfl
@[simp] theorem sendAll_fleet (ms : List Msg) (w : Work) : (sendAll ms w).fleet = w.fleet := rfl
@[simp] theorem sendAll_freeUses (ms : List Msg) (w : Work) : (sendAll ms w).freeUses = w.freeUses := rfl
@[simp] theorem sendAll_pending (ms : List Msg) (w : Work) : (sendAll ms w).pending = w.pending := rfl
@[simp] theorem sendAll_passDue (ms : List Msg) (w : Work) : (sendAll ms w).passDue = w.passDue := rfl
@[simp] theorem sendAll_told (ms : List Msg) (w : Work) : (sendAll ms w).told = w.told := rfl
@[simp] theorem sendAll_entering (ms : List Msg) (w : Work) : (sendAll ms w).entering = w.entering := rfl

@[simp] theorem askPass_now (w : Work) : (askPass w).now = w.now := rfl
@[simp] theorem askPass_rac (w : Work) : (askPass w).rac = w.rac := rfl
@[simp] theorem askPass_fou (w : Work) : (askPass w).fou = w.fou := rfl
@[simp] theorem askPass_txs (w : Work) : (askPass w).txs = w.txs := rfl
@[simp] theorem askPass_pls (w : Work) : (askPass w).pls = w.pls := rfl
@[simp] theorem askPass_seu (w : Work) : (askPass w).seu = w.seu := rfl
@[simp] theorem askPass_rsc (w : Work) : (askPass w).rsc = w.rsc := rfl
@[simp] theorem askPass_wxm (w : Work) : (askPass w).wxm = w.wxm := rfl
@[simp] theorem askPass_yac (w : Work) : (askPass w).yac = w.yac := rfl
@[simp] theorem askPass_rpq (w : Work) : (askPass w).rpq = w.rpq := rfl
@[simp] theorem askPass_plant (w : Work) : (askPass w).plant = w.plant := rfl
@[simp] theorem askPass_tracker (w : Work) : (askPass w).tracker = w.tracker := rfl
@[simp] theorem askPass_fleet (w : Work) : (askPass w).fleet = w.fleet := rfl
@[simp] theorem askPass_freeUses (w : Work) : (askPass w).freeUses = w.freeUses := rfl
@[simp] theorem askPass_pending (w : Work) : (askPass w).pending = w.pending := rfl
@[simp] theorem askPass_agenda (w : Work) : (askPass w).agenda = w.agenda := rfl
@[simp] theorem askPass_told (w : Work) : (askPass w).told = w.told := rfl
@[simp] theorem askPass_entering (w : Work) : (askPass w).entering = w.entering := rfl

@[simp] theorem passAtOnce_now (w : Work) : (passAtOnce w).now = w.now := rfl
@[simp] theorem passAtOnce_rac (w : Work) : (passAtOnce w).rac = w.rac := rfl
@[simp] theorem passAtOnce_fou (w : Work) : (passAtOnce w).fou = w.fou := rfl
@[simp] theorem passAtOnce_txs (w : Work) : (passAtOnce w).txs = w.txs := rfl
@[simp] theorem passAtOnce_pls (w : Work) : (passAtOnce w).pls = w.pls := rfl
@[simp] theorem passAtOnce_seu (w : Work) : (passAtOnce w).seu = w.seu := rfl
@[simp] theorem passAtOnce_rsc (w : Work) : (passAtOnce w).rsc = w.rsc := rfl
@[simp] theorem passAtOnce_wxm (w : Work) : (passAtOnce w).wxm = w.wxm := rfl
@[simp] theorem passAtOnce_yac (w : Work) : (passAtOnce w).yac = w.yac := rfl
@[simp] theorem passAtOnce_rpq (w : Work) : (passAtOnce w).rpq = w.rpq := rfl
@[simp] theorem passAtOnce_plant (w : Work) : (passAtOnce w).plant = w.plant := rfl
@[simp] theorem passAtOnce_tracker (w : Work) : (passAtOnce w).tracker = w.tracker := rfl
@[simp] theorem passAtOnce_fleet (w : Work) : (passAtOnce w).fleet = w.fleet := rfl
@[simp] theorem passAtOnce_freeUses (w : Work) : (passAtOnce w).freeUses = w.freeUses := rfl
@[simp] theorem passAtOnce_pending (w : Work) : (passAtOnce w).pending = w.pending := rfl
@[simp] theorem passAtOnce_agenda (w : Work) : (passAtOnce w).agenda = .assignPass :: w.agenda := rfl
@[simp] theorem passAtOnce_passDue (w : Work) : (passAtOnce w).passDue = w.passDue := rfl
@[simp] theorem passAtOnce_told (w : Work) : (passAtOnce w).told = w.told := rfl
@[simp] theorem passAtOnce_entering (w : Work) : (passAtOnce w).entering = w.entering := rfl

@[simp] theorem tell_now (w : Work) : (tell w).now = w.now := rfl
@[simp] theorem tell_rac (w : Work) : (tell w).rac = w.rac := rfl
@[simp] theorem tell_fou (w : Work) : (tell w).fou = w.fou := rfl
@[simp] theorem tell_txs (w : Work) : (tell w).txs = w.txs := rfl
@[simp] theorem tell_pls (w : Work) : (tell w).pls = w.pls := rfl
@[simp] theorem tell_seu (w : Work) : (tell w).seu = w.seu := rfl
@[simp] theorem tell_rsc (w : Work) : (tell w).rsc = w.rsc := rfl
@[simp] theorem tell_wxm (w : Work) : (tell w).wxm = w.wxm := rfl
@[simp] theorem tell_yac (w : Work) : (tell w).yac = w.yac := rfl
@[simp] theorem tell_rpq (w : Work) : (tell w).rpq = w.rpq := rfl
@[simp] theorem tell_plant (w : Work) : (tell w).plant = w.plant := rfl
@[simp] theorem tell_tracker (w : Work) : (tell w).tracker = w.tracker := rfl
@[simp] theorem tell_fleet (w : Work) : (tell w).fleet = w.fleet := rfl
@[simp] theorem tell_freeUses (w : Work) : (tell w).freeUses = w.freeUses := rfl
@[simp] theorem tell_pending (w : Work) : (tell w).pending = w.pending := rfl
@[simp] theorem tell_agenda (w : Work) : (tell w).agenda = w.agenda := rfl
@[simp] theorem tell_passDue (w : Work) : (tell w).passDue = w.passDue := rfl

@[simp] theorem judgePlant_now (w : Work) : (judgePlant w).now = w.now := rfl
@[simp] theorem judgePlant_rac (w : Work) : (judgePlant w).rac = w.rac := rfl
@[simp] theorem judgePlant_fou (w : Work) : (judgePlant w).fou = w.fou := rfl
@[simp] theorem judgePlant_txs (w : Work) : (judgePlant w).txs = w.txs := rfl
@[simp] theorem judgePlant_pls (w : Work) : (judgePlant w).pls = w.pls := rfl
@[simp] theorem judgePlant_seu (w : Work) : (judgePlant w).seu = w.seu := rfl
@[simp] theorem judgePlant_rsc (w : Work) : (judgePlant w).rsc = w.rsc := rfl
@[simp] theorem judgePlant_wxm (w : Work) : (judgePlant w).wxm = w.wxm := rfl
@[simp] theorem judgePlant_yac (w : Work) : (judgePlant w).yac = w.yac := rfl
@[simp] theorem judgePlant_plant (w : Work) : (judgePlant w).plant = w.plant := rfl
@[simp] theorem judgePlant_tracker (w : Work) : (judgePlant w).tracker = w.tracker := rfl
@[simp] theorem judgePlant_fleet (w : Work) : (judgePlant w).fleet = w.fleet := rfl
@[simp] theorem judgePlant_freeUses (w : Work) : (judgePlant w).freeUses = w.freeUses := rfl
@[simp] theorem judgePlant_pending (w : Work) : (judgePlant w).pending = w.pending := rfl
@[simp] theorem judgePlant_agenda (w : Work) : (judgePlant w).agenda = w.agenda := rfl
@[simp] theorem judgePlant_passDue (w : Work) : (judgePlant w).passDue = w.passDue := rfl
@[simp] theorem judgePlant_told (w : Work) : (judgePlant w).told = w.told := rfl
@[simp] theorem judgePlant_entering (w : Work) : (judgePlant w).entering = w.entering := rfl

@[simp] theorem postGroup_now (l : List RecordBody) (w : Work) : (postGroup l w).now = w.now := rfl
@[simp] theorem postGroup_rac (l : List RecordBody) (w : Work) : (postGroup l w).rac = w.rac := rfl
@[simp] theorem postGroup_fou (l : List RecordBody) (w : Work) : (postGroup l w).fou = w.fou := rfl
@[simp] theorem postGroup_txs (l : List RecordBody) (w : Work) : (postGroup l w).txs = w.txs := rfl
@[simp] theorem postGroup_pls (l : List RecordBody) (w : Work) : (postGroup l w).pls = w.pls := rfl
@[simp] theorem postGroup_seu (l : List RecordBody) (w : Work) : (postGroup l w).seu = w.seu := rfl
@[simp] theorem postGroup_rsc (l : List RecordBody) (w : Work) : (postGroup l w).rsc = w.rsc := rfl
@[simp] theorem postGroup_wxm (l : List RecordBody) (w : Work) : (postGroup l w).wxm = w.wxm := rfl
@[simp] theorem postGroup_yac (l : List RecordBody) (w : Work) : (postGroup l w).yac = w.yac := rfl
@[simp] theorem postGroup_plant (l : List RecordBody) (w : Work) : (postGroup l w).plant = w.plant := rfl
@[simp] theorem postGroup_tracker (l : List RecordBody) (w : Work) : (postGroup l w).tracker = w.tracker := rfl
@[simp] theorem postGroup_fleet (l : List RecordBody) (w : Work) : (postGroup l w).fleet = w.fleet := rfl
@[simp] theorem postGroup_freeUses (l : List RecordBody) (w : Work) : (postGroup l w).freeUses = w.freeUses := rfl
@[simp] theorem postGroup_pending (l : List RecordBody) (w : Work) : (postGroup l w).pending = w.pending := rfl
@[simp] theorem postGroup_agenda (l : List RecordBody) (w : Work) : (postGroup l w).agenda = w.agenda := rfl
@[simp] theorem postGroup_passDue (l : List RecordBody) (w : Work) : (postGroup l w).passDue = w.passDue := rfl
@[simp] theorem postGroup_told (l : List RecordBody) (w : Work) : (postGroup l w).told = w.told := rfl
@[simp] theorem postGroup_entering (l : List RecordBody) (w : Work) : (postGroup l w).entering = w.entering := rfl

@[simp] theorem post_now (b : RecordBody) (w : Work) : (post b w).now = w.now := rfl
@[simp] theorem post_rac (b : RecordBody) (w : Work) : (post b w).rac = w.rac := rfl
@[simp] theorem post_fou (b : RecordBody) (w : Work) : (post b w).fou = w.fou := rfl
@[simp] theorem post_txs (b : RecordBody) (w : Work) : (post b w).txs = w.txs := rfl
@[simp] theorem post_pls (b : RecordBody) (w : Work) : (post b w).pls = w.pls := rfl
@[simp] theorem post_seu (b : RecordBody) (w : Work) : (post b w).seu = w.seu := rfl
@[simp] theorem post_rsc (b : RecordBody) (w : Work) : (post b w).rsc = w.rsc := rfl
@[simp] theorem post_wxm (b : RecordBody) (w : Work) : (post b w).wxm = w.wxm := rfl
@[simp] theorem post_yac (b : RecordBody) (w : Work) : (post b w).yac = w.yac := rfl
@[simp] theorem post_plant (b : RecordBody) (w : Work) : (post b w).plant = w.plant := rfl
@[simp] theorem post_tracker (b : RecordBody) (w : Work) : (post b w).tracker = w.tracker := rfl
@[simp] theorem post_fleet (b : RecordBody) (w : Work) : (post b w).fleet = w.fleet := rfl
@[simp] theorem post_freeUses (b : RecordBody) (w : Work) : (post b w).freeUses = w.freeUses := rfl
@[simp] theorem post_pending (b : RecordBody) (w : Work) : (post b w).pending = w.pending := rfl
@[simp] theorem post_agenda (b : RecordBody) (w : Work) : (post b w).agenda = w.agenda := rfl
@[simp] theorem post_passDue (b : RecordBody) (w : Work) : (post b w).passDue = w.passDue := rfl
@[simp] theorem post_told (b : RecordBody) (w : Work) : (post b w).told = w.told := rfl
@[simp] theorem post_entering (b : RecordBody) (w : Work) : (post b w).entering = w.entering := rfl

@[simp] theorem removeReport_now (w : Work) : (removeReport w).now = w.now := rfl
@[simp] theorem removeReport_rac (w : Work) : (removeReport w).rac = w.rac := rfl
@[simp] theorem removeReport_fou (w : Work) : (removeReport w).fou = w.fou := rfl
@[simp] theorem removeReport_txs (w : Work) : (removeReport w).txs = w.txs := rfl
@[simp] theorem removeReport_pls (w : Work) : (removeReport w).pls = w.pls := rfl
@[simp] theorem removeReport_seu (w : Work) : (removeReport w).seu = w.seu := rfl
@[simp] theorem removeReport_rsc (w : Work) : (removeReport w).rsc = w.rsc := rfl
@[simp] theorem removeReport_wxm (w : Work) : (removeReport w).wxm = w.wxm := rfl
@[simp] theorem removeReport_yac (w : Work) : (removeReport w).yac = w.yac := rfl
@[simp] theorem removeReport_plant (w : Work) : (removeReport w).plant = w.plant := rfl
@[simp] theorem removeReport_tracker (w : Work) : (removeReport w).tracker = w.tracker := rfl
@[simp] theorem removeReport_fleet (w : Work) : (removeReport w).fleet = w.fleet := rfl
@[simp] theorem removeReport_freeUses (w : Work) : (removeReport w).freeUses = w.freeUses := rfl
@[simp] theorem removeReport_pending (w : Work) : (removeReport w).pending = w.pending := rfl
@[simp] theorem removeReport_agenda (w : Work) : (removeReport w).agenda = w.agenda := rfl
@[simp] theorem removeReport_passDue (w : Work) : (removeReport w).passDue = w.passDue := rfl
@[simp] theorem removeReport_told (w : Work) : (removeReport w).told = w.told := rfl
@[simp] theorem removeReport_entering (w : Work) : (removeReport w).entering = w.entering := rfl

@[simp] theorem drainTest_now (w : Work) : (drainTest w).now = w.now := by
  unfold drainTest; split <;> rfl
@[simp] theorem drainTest_rac (w : Work) : (drainTest w).rac = w.rac := by
  unfold drainTest; split <;> rfl
@[simp] theorem drainTest_fou (w : Work) : (drainTest w).fou = w.fou := by
  unfold drainTest; split <;> rfl
@[simp] theorem drainTest_txs (w : Work) : (drainTest w).txs = w.txs := by
  unfold drainTest; split <;> rfl
@[simp] theorem drainTest_seu (w : Work) : (drainTest w).seu = w.seu := by
  unfold drainTest; split <;> rfl
@[simp] theorem drainTest_rsc (w : Work) : (drainTest w).rsc = w.rsc := by
  unfold drainTest; split <;> rfl
@[simp] theorem drainTest_wxm (w : Work) : (drainTest w).wxm = w.wxm := by
  unfold drainTest; split <;> rfl
@[simp] theorem drainTest_yac (w : Work) : (drainTest w).yac = w.yac := by
  unfold drainTest; split <;> rfl
@[simp] theorem drainTest_plant (w : Work) : (drainTest w).plant = w.plant := by
  unfold drainTest; split <;> rfl
@[simp] theorem drainTest_tracker (w : Work) : (drainTest w).tracker = w.tracker := by
  unfold drainTest; split <;> rfl
@[simp] theorem drainTest_fleet (w : Work) : (drainTest w).fleet = w.fleet := by
  unfold drainTest; split <;> rfl
@[simp] theorem drainTest_freeUses (w : Work) : (drainTest w).freeUses = w.freeUses := by
  unfold drainTest; split <;> rfl
@[simp] theorem drainTest_pending (w : Work) : (drainTest w).pending = w.pending := by
  unfold drainTest; split <;> rfl
@[simp] theorem drainTest_passDue (w : Work) : (drainTest w).passDue = w.passDue := by
  unfold drainTest; split <;> rfl
@[simp] theorem drainTest_entering (w : Work) : (drainTest w).entering = w.entering := by
  unfold drainTest; split <;> rfl

@[simp] theorem dropAlights_now (w : Work) : (dropAlights w).now = w.now := rfl
@[simp] theorem dropAlights_rac (w : Work) : (dropAlights w).rac = w.rac := rfl
@[simp] theorem dropAlights_fou (w : Work) : (dropAlights w).fou = w.fou := rfl
@[simp] theorem dropAlights_txs (w : Work) : (dropAlights w).txs = w.txs := rfl
@[simp] theorem dropAlights_pls (w : Work) : (dropAlights w).pls = w.pls := rfl
@[simp] theorem dropAlights_seu (w : Work) : (dropAlights w).seu = w.seu := rfl
@[simp] theorem dropAlights_rsc (w : Work) : (dropAlights w).rsc = w.rsc := rfl
@[simp] theorem dropAlights_yac (w : Work) : (dropAlights w).yac = w.yac := rfl
@[simp] theorem dropAlights_rpq (w : Work) : (dropAlights w).rpq = w.rpq := rfl
@[simp] theorem dropAlights_plant (w : Work) : (dropAlights w).plant = w.plant := rfl
@[simp] theorem dropAlights_tracker (w : Work) : (dropAlights w).tracker = w.tracker := rfl
@[simp] theorem dropAlights_fleet (w : Work) : (dropAlights w).fleet = w.fleet := rfl
@[simp] theorem dropAlights_freeUses (w : Work) : (dropAlights w).freeUses = w.freeUses := rfl
@[simp] theorem dropAlights_pending (w : Work) : (dropAlights w).pending = w.pending := rfl
@[simp] theorem dropAlights_passDue (w : Work) : (dropAlights w).passDue = w.passDue := rfl
@[simp] theorem dropAlights_entering (w : Work) : (dropAlights w).entering = w.entering := rfl

@[simp] theorem securedTest_now (w : Work) : (securedTest w).now = w.now := by
  unfold securedTest; split <;> rfl
@[simp] theorem securedTest_rac (w : Work) : (securedTest w).rac = w.rac := by
  unfold securedTest; split <;> rfl
@[simp] theorem securedTest_fou (w : Work) : (securedTest w).fou = w.fou := by
  unfold securedTest; split <;> rfl
@[simp] theorem securedTest_txs (w : Work) : (securedTest w).txs = w.txs := by
  unfold securedTest; split <;> rfl
@[simp] theorem securedTest_pls (w : Work) : (securedTest w).pls = w.pls := by
  unfold securedTest; split <;> rfl
@[simp] theorem securedTest_seu (w : Work) : (securedTest w).seu = w.seu := by
  unfold securedTest; split <;> rfl
@[simp] theorem securedTest_rsc (w : Work) : (securedTest w).rsc = w.rsc := by
  unfold securedTest; split <;> rfl
@[simp] theorem securedTest_yac (w : Work) : (securedTest w).yac = w.yac := by
  unfold securedTest; split <;> rfl
@[simp] theorem securedTest_plant (w : Work) : (securedTest w).plant = w.plant := by
  unfold securedTest; split <;> rfl
@[simp] theorem securedTest_tracker (w : Work) : (securedTest w).tracker = w.tracker := by
  unfold securedTest; split <;> rfl
@[simp] theorem securedTest_fleet (w : Work) : (securedTest w).fleet = w.fleet := by
  unfold securedTest; split <;> rfl
@[simp] theorem securedTest_freeUses (w : Work) : (securedTest w).freeUses = w.freeUses := by
  unfold securedTest; split <;> rfl
@[simp] theorem securedTest_pending (w : Work) : (securedTest w).pending = w.pending := by
  unfold securedTest; split <;> rfl
@[simp] theorem securedTest_passDue (w : Work) : (securedTest w).passDue = w.passDue := by
  unfold securedTest; split <;> rfl
@[simp] theorem securedTest_entering (w : Work) : (securedTest w).entering = w.entering := by
  unfold securedTest; split <;> rfl

@[simp] theorem stateChanged_now (b : Bool) (w : Work) : (stateChanged b w).now = w.now := by
  cases b <;> simp [stateChanged, tell]
@[simp] theorem stateChanged_rac (b : Bool) (w : Work) : (stateChanged b w).rac = w.rac := by
  cases b <;> simp [stateChanged, tell]
@[simp] theorem stateChanged_fou (b : Bool) (w : Work) : (stateChanged b w).fou = w.fou := by
  cases b <;> simp [stateChanged, tell]
@[simp] theorem stateChanged_txs (b : Bool) (w : Work) : (stateChanged b w).txs = w.txs := by
  cases b <;> simp [stateChanged, tell]
@[simp] theorem stateChanged_seu (b : Bool) (w : Work) : (stateChanged b w).seu = w.seu := by
  cases b <;> simp [stateChanged, tell]
@[simp] theorem stateChanged_rsc (b : Bool) (w : Work) : (stateChanged b w).rsc = w.rsc := by
  cases b <;> simp [stateChanged, tell]
@[simp] theorem stateChanged_yac (b : Bool) (w : Work) : (stateChanged b w).yac = w.yac := by
  cases b <;> simp [stateChanged, tell]
@[simp] theorem stateChanged_plant (b : Bool) (w : Work) : (stateChanged b w).plant = w.plant := by
  cases b <;> simp [stateChanged, tell]
@[simp] theorem stateChanged_tracker (b : Bool) (w : Work) : (stateChanged b w).tracker = w.tracker := by
  cases b <;> simp [stateChanged, tell]
@[simp] theorem stateChanged_fleet (b : Bool) (w : Work) : (stateChanged b w).fleet = w.fleet := by
  cases b <;> simp [stateChanged, tell]
@[simp] theorem stateChanged_freeUses (b : Bool) (w : Work) : (stateChanged b w).freeUses = w.freeUses := by
  cases b <;> simp [stateChanged, tell]
@[simp] theorem stateChanged_pending (b : Bool) (w : Work) : (stateChanged b w).pending = w.pending := by
  cases b <;> simp [stateChanged, tell]
@[simp] theorem stateChanged_passDue (b : Bool) (w : Work) : (stateChanged b w).passDue = w.passDue := by
  cases b <;> simp [stateChanged, tell]
@[simp] theorem stateChanged_entering (b : Bool) (w : Work) : (stateChanged b w).entering = w.entering := by
  cases b <;> simp [stateChanged, tell]

@[simp] theorem putRow_now (r : Row) (f : RowRec → RowRec) (w : Work) : (putRow r f w).now = w.now := rfl
@[simp] theorem putRow_fou (r : Row) (f : RowRec → RowRec) (w : Work) : (putRow r f w).fou = w.fou := rfl
@[simp] theorem putRow_txs (r : Row) (f : RowRec → RowRec) (w : Work) : (putRow r f w).txs = w.txs := rfl
@[simp] theorem putRow_pls (r : Row) (f : RowRec → RowRec) (w : Work) : (putRow r f w).pls = w.pls := rfl
@[simp] theorem putRow_seu (r : Row) (f : RowRec → RowRec) (w : Work) : (putRow r f w).seu = w.seu := rfl
@[simp] theorem putRow_rsc (r : Row) (f : RowRec → RowRec) (w : Work) : (putRow r f w).rsc = w.rsc := rfl
@[simp] theorem putRow_wxm (r : Row) (f : RowRec → RowRec) (w : Work) : (putRow r f w).wxm = w.wxm := rfl
@[simp] theorem putRow_yac (r : Row) (f : RowRec → RowRec) (w : Work) : (putRow r f w).yac = w.yac := rfl
@[simp] theorem putRow_rpq (r : Row) (f : RowRec → RowRec) (w : Work) : (putRow r f w).rpq = w.rpq := rfl
@[simp] theorem putRow_plant (r : Row) (f : RowRec → RowRec) (w : Work) : (putRow r f w).plant = w.plant := rfl
@[simp] theorem putRow_tracker (r : Row) (f : RowRec → RowRec) (w : Work) : (putRow r f w).tracker = w.tracker := rfl
@[simp] theorem putRow_fleet (r : Row) (f : RowRec → RowRec) (w : Work) : (putRow r f w).fleet = w.fleet := rfl
@[simp] theorem putRow_freeUses (r : Row) (f : RowRec → RowRec) (w : Work) : (putRow r f w).freeUses = w.freeUses := rfl
@[simp] theorem putRow_pending (r : Row) (f : RowRec → RowRec) (w : Work) : (putRow r f w).pending = w.pending := rfl
@[simp] theorem putRow_entering (r : Row) (f : RowRec → RowRec) (w : Work) : (putRow r f w).entering = w.entering := rfl
@[simp] theorem putRow_told (r : Row) (f : RowRec → RowRec) (w : Work) : (putRow r f w).told = w.told := rfl

@[simp] theorem updRow_now (r : Row) (f : RowRec → RowRec) (w : Work) : (updRow r f w).now = w.now := by
  simp [updRow]
@[simp] theorem updRow_rac (r : Row) (f : RowRec → RowRec) (w : Work) : (updRow r f w).rac = (putRow r f w).rac := by
  simp [updRow]
@[simp] theorem updRow_fou (r : Row) (f : RowRec → RowRec) (w : Work) : (updRow r f w).fou = w.fou := by
  simp [updRow]
@[simp] theorem updRow_txs (r : Row) (f : RowRec → RowRec) (w : Work) : (updRow r f w).txs = w.txs := by
  simp [updRow]
@[simp] theorem updRow_seu (r : Row) (f : RowRec → RowRec) (w : Work) : (updRow r f w).seu = w.seu := by
  simp [updRow]
@[simp] theorem updRow_rsc (r : Row) (f : RowRec → RowRec) (w : Work) : (updRow r f w).rsc = w.rsc := by
  simp [updRow]
@[simp] theorem updRow_yac (r : Row) (f : RowRec → RowRec) (w : Work) : (updRow r f w).yac = w.yac := by
  simp [updRow]
@[simp] theorem updRow_plant (r : Row) (f : RowRec → RowRec) (w : Work) : (updRow r f w).plant = w.plant := by
  simp [updRow]
@[simp] theorem updRow_tracker (r : Row) (f : RowRec → RowRec) (w : Work) : (updRow r f w).tracker = w.tracker := by
  simp [updRow]
@[simp] theorem updRow_fleet (r : Row) (f : RowRec → RowRec) (w : Work) : (updRow r f w).fleet = w.fleet := by
  simp [updRow]
@[simp] theorem updRow_freeUses (r : Row) (f : RowRec → RowRec) (w : Work) : (updRow r f w).freeUses = w.freeUses := by
  simp [updRow]
@[simp] theorem updRow_pending (r : Row) (f : RowRec → RowRec) (w : Work) : (updRow r f w).pending = w.pending := by
  simp [updRow]
@[simp] theorem updRow_entering (r : Row) (f : RowRec → RowRec) (w : Work) : (updRow r f w).entering = w.entering := by
  simp [updRow]

@[simp] theorem putAllRows_now (f : Row → RowRec → RowRec) (w : Work) : (putAllRows f w).now = w.now := by simp only [putAllRows]
@[simp] theorem putAllRows_fou (f : Row → RowRec → RowRec) (w : Work) : (putAllRows f w).fou = w.fou := by simp only [putAllRows]
@[simp] theorem putAllRows_txs (f : Row → RowRec → RowRec) (w : Work) : (putAllRows f w).txs = w.txs := by simp only [putAllRows]
@[simp] theorem putAllRows_pls (f : Row → RowRec → RowRec) (w : Work) : (putAllRows f w).pls = w.pls := by simp only [putAllRows]
@[simp] theorem putAllRows_seu (f : Row → RowRec → RowRec) (w : Work) : (putAllRows f w).seu = w.seu := by simp only [putAllRows]
@[simp] theorem putAllRows_rsc (f : Row → RowRec → RowRec) (w : Work) : (putAllRows f w).rsc = w.rsc := by simp only [putAllRows]
@[simp] theorem putAllRows_wxm (f : Row → RowRec → RowRec) (w : Work) : (putAllRows f w).wxm = w.wxm := by simp only [putAllRows]
@[simp] theorem putAllRows_yac (f : Row → RowRec → RowRec) (w : Work) : (putAllRows f w).yac = w.yac := by simp only [putAllRows]
@[simp] theorem putAllRows_rpq (f : Row → RowRec → RowRec) (w : Work) : (putAllRows f w).rpq = w.rpq := by simp only [putAllRows]
@[simp] theorem putAllRows_plant (f : Row → RowRec → RowRec) (w : Work) : (putAllRows f w).plant = w.plant := by simp only [putAllRows]
@[simp] theorem putAllRows_tracker (f : Row → RowRec → RowRec) (w : Work) : (putAllRows f w).tracker = w.tracker := by simp only [putAllRows]
@[simp] theorem putAllRows_fleet (f : Row → RowRec → RowRec) (w : Work) : (putAllRows f w).fleet = w.fleet := by simp only [putAllRows]
@[simp] theorem putAllRows_freeUses (f : Row → RowRec → RowRec) (w : Work) : (putAllRows f w).freeUses = w.freeUses := by simp only [putAllRows]
@[simp] theorem putAllRows_pending (f : Row → RowRec → RowRec) (w : Work) : (putAllRows f w).pending = w.pending := by simp only [putAllRows]
@[simp] theorem putAllRows_entering (f : Row → RowRec → RowRec) (w : Work) : (putAllRows f w).entering = w.entering := by simp only [putAllRows]
@[simp] theorem putAllRows_told (f : Row → RowRec → RowRec) (w : Work) : (putAllRows f w).told = w.told := by simp only [putAllRows]

@[simp] theorem updAllRows_now (f : Row → RowRec → RowRec) (w : Work) : (updAllRows f w).now = w.now := by
  simp [updAllRows]
@[simp] theorem updAllRows_rac (f : Row → RowRec → RowRec) (w : Work) : (updAllRows f w).rac = (putAllRows f w).rac := by
  simp [updAllRows]
@[simp] theorem updAllRows_fou (f : Row → RowRec → RowRec) (w : Work) : (updAllRows f w).fou = w.fou := by
  simp [updAllRows]
@[simp] theorem updAllRows_txs (f : Row → RowRec → RowRec) (w : Work) : (updAllRows f w).txs = w.txs := by
  simp [updAllRows]
@[simp] theorem updAllRows_seu (f : Row → RowRec → RowRec) (w : Work) : (updAllRows f w).seu = w.seu := by
  simp [updAllRows]
@[simp] theorem updAllRows_rsc (f : Row → RowRec → RowRec) (w : Work) : (updAllRows f w).rsc = w.rsc := by
  simp [updAllRows]
@[simp] theorem updAllRows_yac (f : Row → RowRec → RowRec) (w : Work) : (updAllRows f w).yac = w.yac := by
  simp [updAllRows]
@[simp] theorem updAllRows_plant (f : Row → RowRec → RowRec) (w : Work) : (updAllRows f w).plant = w.plant := by
  simp [updAllRows]
@[simp] theorem updAllRows_tracker (f : Row → RowRec → RowRec) (w : Work) : (updAllRows f w).tracker = w.tracker := by
  simp [updAllRows]
@[simp] theorem updAllRows_fleet (f : Row → RowRec → RowRec) (w : Work) : (updAllRows f w).fleet = w.fleet := by
  simp [updAllRows]
@[simp] theorem updAllRows_freeUses (f : Row → RowRec → RowRec) (w : Work) : (updAllRows f w).freeUses = w.freeUses := by
  simp [updAllRows]
@[simp] theorem updAllRows_pending (f : Row → RowRec → RowRec) (w : Work) : (updAllRows f w).pending = w.pending := by
  simp [updAllRows]
@[simp] theorem updAllRows_entering (f : Row → RowRec → RowRec) (w : Work) : (updAllRows f w).entering = w.entering := by
  simp [updAllRows]

@[simp] theorem putRobot_now (k : Slot) (f : Robot → Robot) (w : Work) : (putRobot k f w).now = w.now := rfl
@[simp] theorem putRobot_rac (k : Slot) (f : Robot → Robot) (w : Work) : (putRobot k f w).rac = w.rac := rfl
@[simp] theorem putRobot_txs (k : Slot) (f : Robot → Robot) (w : Work) : (putRobot k f w).txs = w.txs := rfl
@[simp] theorem putRobot_pls (k : Slot) (f : Robot → Robot) (w : Work) : (putRobot k f w).pls = w.pls := rfl
@[simp] theorem putRobot_seu (k : Slot) (f : Robot → Robot) (w : Work) : (putRobot k f w).seu = w.seu := rfl
@[simp] theorem putRobot_rsc (k : Slot) (f : Robot → Robot) (w : Work) : (putRobot k f w).rsc = w.rsc := rfl
@[simp] theorem putRobot_wxm (k : Slot) (f : Robot → Robot) (w : Work) : (putRobot k f w).wxm = w.wxm := rfl
@[simp] theorem putRobot_yac (k : Slot) (f : Robot → Robot) (w : Work) : (putRobot k f w).yac = w.yac := rfl
@[simp] theorem putRobot_rpq (k : Slot) (f : Robot → Robot) (w : Work) : (putRobot k f w).rpq = w.rpq := rfl
@[simp] theorem putRobot_plant (k : Slot) (f : Robot → Robot) (w : Work) : (putRobot k f w).plant = w.plant := rfl
@[simp] theorem putRobot_tracker (k : Slot) (f : Robot → Robot) (w : Work) : (putRobot k f w).tracker = w.tracker := rfl
@[simp] theorem putRobot_fleet (k : Slot) (f : Robot → Robot) (w : Work) : (putRobot k f w).fleet = w.fleet := rfl
@[simp] theorem putRobot_freeUses (k : Slot) (f : Robot → Robot) (w : Work) : (putRobot k f w).freeUses = w.freeUses := rfl
@[simp] theorem putRobot_pending (k : Slot) (f : Robot → Robot) (w : Work) : (putRobot k f w).pending = w.pending := rfl
@[simp] theorem putRobot_agenda (k : Slot) (f : Robot → Robot) (w : Work) : (putRobot k f w).agenda = w.agenda := rfl
@[simp] theorem putRobot_entering (k : Slot) (f : Robot → Robot) (w : Work) : (putRobot k f w).entering = w.entering := rfl
@[simp] theorem putRobot_told (k : Slot) (f : Robot → Robot) (w : Work) : (putRobot k f w).told = w.told := rfl

@[simp] theorem updRobot_now (k : Slot) (f : Robot → Robot) (w : Work) : (updRobot k f w).now = w.now := by
  simp [updRobot]
@[simp] theorem updRobot_rac (k : Slot) (f : Robot → Robot) (w : Work) : (updRobot k f w).rac = w.rac := by
  simp [updRobot]
@[simp] theorem updRobot_fou (k : Slot) (f : Robot → Robot) (w : Work) : (updRobot k f w).fou = (putRobot k f w).fou := by
  simp [updRobot]
@[simp] theorem updRobot_txs (k : Slot) (f : Robot → Robot) (w : Work) : (updRobot k f w).txs = w.txs := by
  simp [updRobot]
@[simp] theorem updRobot_seu (k : Slot) (f : Robot → Robot) (w : Work) : (updRobot k f w).seu = w.seu := by
  simp [updRobot]
@[simp] theorem updRobot_rsc (k : Slot) (f : Robot → Robot) (w : Work) : (updRobot k f w).rsc = w.rsc := by
  simp [updRobot]
@[simp] theorem updRobot_yac (k : Slot) (f : Robot → Robot) (w : Work) : (updRobot k f w).yac = w.yac := by
  simp [updRobot]
@[simp] theorem updRobot_plant (k : Slot) (f : Robot → Robot) (w : Work) : (updRobot k f w).plant = w.plant := by
  simp [updRobot]
@[simp] theorem updRobot_tracker (k : Slot) (f : Robot → Robot) (w : Work) : (updRobot k f w).tracker = w.tracker := by
  simp [updRobot]
@[simp] theorem updRobot_fleet (k : Slot) (f : Robot → Robot) (w : Work) : (updRobot k f w).fleet = w.fleet := by
  simp [updRobot]
@[simp] theorem updRobot_freeUses (k : Slot) (f : Robot → Robot) (w : Work) : (updRobot k f w).freeUses = w.freeUses := by
  simp [updRobot]
@[simp] theorem updRobot_pending (k : Slot) (f : Robot → Robot) (w : Work) : (updRobot k f w).pending = w.pending := by
  simp [updRobot]
@[simp] theorem updRobot_entering (k : Slot) (f : Robot → Robot) (w : Work) : (updRobot k f w).entering = w.entering := by
  simp [updRobot]

@[simp] theorem setQueue_now (a b : List FleetUnit) (w : Work) : (setQueue a b w).now = w.now := rfl
@[simp] theorem setQueue_rac (a b : List FleetUnit) (w : Work) : (setQueue a b w).rac = w.rac := rfl
@[simp] theorem setQueue_txs (a b : List FleetUnit) (w : Work) : (setQueue a b w).txs = w.txs := rfl
@[simp] theorem setQueue_pls (a b : List FleetUnit) (w : Work) : (setQueue a b w).pls = w.pls := rfl
@[simp] theorem setQueue_seu (a b : List FleetUnit) (w : Work) : (setQueue a b w).seu = w.seu := rfl
@[simp] theorem setQueue_rsc (a b : List FleetUnit) (w : Work) : (setQueue a b w).rsc = w.rsc := rfl
@[simp] theorem setQueue_wxm (a b : List FleetUnit) (w : Work) : (setQueue a b w).wxm = w.wxm := rfl
@[simp] theorem setQueue_yac (a b : List FleetUnit) (w : Work) : (setQueue a b w).yac = w.yac := rfl
@[simp] theorem setQueue_rpq (a b : List FleetUnit) (w : Work) : (setQueue a b w).rpq = w.rpq := rfl
@[simp] theorem setQueue_plant (a b : List FleetUnit) (w : Work) : (setQueue a b w).plant = w.plant := rfl
@[simp] theorem setQueue_tracker (a b : List FleetUnit) (w : Work) : (setQueue a b w).tracker = w.tracker := rfl
@[simp] theorem setQueue_fleet (a b : List FleetUnit) (w : Work) : (setQueue a b w).fleet = w.fleet := rfl
@[simp] theorem setQueue_freeUses (a b : List FleetUnit) (w : Work) : (setQueue a b w).freeUses = w.freeUses := rfl
@[simp] theorem setQueue_pending (a b : List FleetUnit) (w : Work) : (setQueue a b w).pending = w.pending := rfl
@[simp] theorem setQueue_agenda (a b : List FleetUnit) (w : Work) : (setQueue a b w).agenda = w.agenda := rfl
@[simp] theorem setQueue_passDue (a b : List FleetUnit) (w : Work) : (setQueue a b w).passDue = w.passDue := rfl
@[simp] theorem setQueue_told (a b : List FleetUnit) (w : Work) : (setQueue a b w).told = w.told := rfl
@[simp] theorem setQueue_entering (a b : List FleetUnit) (w : Work) : (setQueue a b w).entering = w.entering := rfl

@[simp] theorem leaveQueue_now (u : FleetUnit) (w : Work) : (leaveQueue u w).now = w.now := rfl
@[simp] theorem leaveQueue_rac (u : FleetUnit) (w : Work) : (leaveQueue u w).rac = w.rac := rfl
@[simp] theorem leaveQueue_txs (u : FleetUnit) (w : Work) : (leaveQueue u w).txs = w.txs := rfl
@[simp] theorem leaveQueue_pls (u : FleetUnit) (w : Work) : (leaveQueue u w).pls = w.pls := rfl
@[simp] theorem leaveQueue_seu (u : FleetUnit) (w : Work) : (leaveQueue u w).seu = w.seu := rfl
@[simp] theorem leaveQueue_rsc (u : FleetUnit) (w : Work) : (leaveQueue u w).rsc = w.rsc := rfl
@[simp] theorem leaveQueue_wxm (u : FleetUnit) (w : Work) : (leaveQueue u w).wxm = w.wxm := rfl
@[simp] theorem leaveQueue_yac (u : FleetUnit) (w : Work) : (leaveQueue u w).yac = w.yac := rfl
@[simp] theorem leaveQueue_rpq (u : FleetUnit) (w : Work) : (leaveQueue u w).rpq = w.rpq := rfl
@[simp] theorem leaveQueue_plant (u : FleetUnit) (w : Work) : (leaveQueue u w).plant = w.plant := rfl
@[simp] theorem leaveQueue_tracker (u : FleetUnit) (w : Work) : (leaveQueue u w).tracker = w.tracker := rfl
@[simp] theorem leaveQueue_fleet (u : FleetUnit) (w : Work) : (leaveQueue u w).fleet = w.fleet := rfl
@[simp] theorem leaveQueue_freeUses (u : FleetUnit) (w : Work) : (leaveQueue u w).freeUses = w.freeUses := rfl
@[simp] theorem leaveQueue_pending (u : FleetUnit) (w : Work) : (leaveQueue u w).pending = w.pending := rfl
@[simp] theorem leaveQueue_agenda (u : FleetUnit) (w : Work) : (leaveQueue u w).agenda = w.agenda := rfl
@[simp] theorem leaveQueue_passDue (u : FleetUnit) (w : Work) : (leaveQueue u w).passDue = w.passDue := rfl
@[simp] theorem leaveQueue_told (u : FleetUnit) (w : Work) : (leaveQueue u w).told = w.told := rfl
@[simp] theorem leaveQueue_entering (u : FleetUnit) (w : Work) : (leaveQueue u w).entering = w.entering := rfl

@[simp] theorem joinQueue_now (u : FleetUnit) (c : OrderClass) (w : Work) : (joinQueue u c w).now = w.now := by unfold joinQueue; split <;> rfl
@[simp] theorem joinQueue_rac (u : FleetUnit) (c : OrderClass) (w : Work) : (joinQueue u c w).rac = w.rac := by unfold joinQueue; split <;> rfl
@[simp] theorem joinQueue_txs (u : FleetUnit) (c : OrderClass) (w : Work) : (joinQueue u c w).txs = w.txs := by unfold joinQueue; split <;> rfl
@[simp] theorem joinQueue_pls (u : FleetUnit) (c : OrderClass) (w : Work) : (joinQueue u c w).pls = w.pls := by unfold joinQueue; split <;> rfl
@[simp] theorem joinQueue_seu (u : FleetUnit) (c : OrderClass) (w : Work) : (joinQueue u c w).seu = w.seu := by unfold joinQueue; split <;> rfl
@[simp] theorem joinQueue_rsc (u : FleetUnit) (c : OrderClass) (w : Work) : (joinQueue u c w).rsc = w.rsc := by unfold joinQueue; split <;> rfl
@[simp] theorem joinQueue_wxm (u : FleetUnit) (c : OrderClass) (w : Work) : (joinQueue u c w).wxm = w.wxm := by unfold joinQueue; split <;> rfl
@[simp] theorem joinQueue_yac (u : FleetUnit) (c : OrderClass) (w : Work) : (joinQueue u c w).yac = w.yac := by unfold joinQueue; split <;> rfl
@[simp] theorem joinQueue_rpq (u : FleetUnit) (c : OrderClass) (w : Work) : (joinQueue u c w).rpq = w.rpq := by unfold joinQueue; split <;> rfl
@[simp] theorem joinQueue_plant (u : FleetUnit) (c : OrderClass) (w : Work) : (joinQueue u c w).plant = w.plant := by unfold joinQueue; split <;> rfl
@[simp] theorem joinQueue_tracker (u : FleetUnit) (c : OrderClass) (w : Work) : (joinQueue u c w).tracker = w.tracker := by unfold joinQueue; split <;> rfl
@[simp] theorem joinQueue_fleet (u : FleetUnit) (c : OrderClass) (w : Work) : (joinQueue u c w).fleet = w.fleet := by unfold joinQueue; split <;> rfl
@[simp] theorem joinQueue_freeUses (u : FleetUnit) (c : OrderClass) (w : Work) : (joinQueue u c w).freeUses = w.freeUses := by unfold joinQueue; split <;> rfl
@[simp] theorem joinQueue_pending (u : FleetUnit) (c : OrderClass) (w : Work) : (joinQueue u c w).pending = w.pending := by unfold joinQueue; split <;> rfl
@[simp] theorem joinQueue_agenda (u : FleetUnit) (c : OrderClass) (w : Work) : (joinQueue u c w).agenda = w.agenda := by unfold joinQueue; split <;> rfl
@[simp] theorem joinQueue_passDue (u : FleetUnit) (c : OrderClass) (w : Work) : (joinQueue u c w).passDue = w.passDue := by unfold joinQueue; split <;> rfl
@[simp] theorem joinQueue_told (u : FleetUnit) (c : OrderClass) (w : Work) : (joinQueue u c w).told = w.told := by unfold joinQueue; split <;> rfl
@[simp] theorem joinQueue_entering (u : FleetUnit) (c : OrderClass) (w : Work) : (joinQueue u c w).entering = w.entering := by unfold joinQueue; split <;> rfl

@[simp] theorem updOrders_now (u : FleetUnit) (f : UnitOrders → UnitOrders) (w : Work) : (updOrders u f w).now = w.now := by unfold updOrders; split <;> rfl
@[simp] theorem updOrders_rac (u : FleetUnit) (f : UnitOrders → UnitOrders) (w : Work) : (updOrders u f w).rac = w.rac := by unfold updOrders; split <;> rfl
@[simp] theorem updOrders_txs (u : FleetUnit) (f : UnitOrders → UnitOrders) (w : Work) : (updOrders u f w).txs = w.txs := by unfold updOrders; split <;> rfl
@[simp] theorem updOrders_pls (u : FleetUnit) (f : UnitOrders → UnitOrders) (w : Work) : (updOrders u f w).pls = w.pls := by unfold updOrders; split <;> rfl
@[simp] theorem updOrders_seu (u : FleetUnit) (f : UnitOrders → UnitOrders) (w : Work) : (updOrders u f w).seu = w.seu := by unfold updOrders; split <;> rfl
@[simp] theorem updOrders_rsc (u : FleetUnit) (f : UnitOrders → UnitOrders) (w : Work) : (updOrders u f w).rsc = w.rsc := by unfold updOrders; split <;> rfl
@[simp] theorem updOrders_wxm (u : FleetUnit) (f : UnitOrders → UnitOrders) (w : Work) : (updOrders u f w).wxm = w.wxm := by unfold updOrders; split <;> rfl
@[simp] theorem updOrders_yac (u : FleetUnit) (f : UnitOrders → UnitOrders) (w : Work) : (updOrders u f w).yac = w.yac := by unfold updOrders; split <;> rfl
@[simp] theorem updOrders_rpq (u : FleetUnit) (f : UnitOrders → UnitOrders) (w : Work) : (updOrders u f w).rpq = w.rpq := by unfold updOrders; split <;> rfl
@[simp] theorem updOrders_plant (u : FleetUnit) (f : UnitOrders → UnitOrders) (w : Work) : (updOrders u f w).plant = w.plant := by unfold updOrders; split <;> rfl
@[simp] theorem updOrders_tracker (u : FleetUnit) (f : UnitOrders → UnitOrders) (w : Work) : (updOrders u f w).tracker = w.tracker := by unfold updOrders; split <;> rfl
@[simp] theorem updOrders_fleet (u : FleetUnit) (f : UnitOrders → UnitOrders) (w : Work) : (updOrders u f w).fleet = w.fleet := by unfold updOrders; split <;> rfl
@[simp] theorem updOrders_freeUses (u : FleetUnit) (f : UnitOrders → UnitOrders) (w : Work) : (updOrders u f w).freeUses = w.freeUses := by unfold updOrders; split <;> rfl
@[simp] theorem updOrders_pending (u : FleetUnit) (f : UnitOrders → UnitOrders) (w : Work) : (updOrders u f w).pending = w.pending := by unfold updOrders; split <;> rfl
@[simp] theorem updOrders_agenda (u : FleetUnit) (f : UnitOrders → UnitOrders) (w : Work) : (updOrders u f w).agenda = w.agenda := by unfold updOrders; split <;> rfl
@[simp] theorem updOrders_passDue (u : FleetUnit) (f : UnitOrders → UnitOrders) (w : Work) : (updOrders u f w).passDue = w.passDue := by unfold updOrders; split <;> rfl
@[simp] theorem updOrders_told (u : FleetUnit) (f : UnitOrders → UnitOrders) (w : Work) : (updOrders u f w).told = w.told := by unfold updOrders; split <;> rfl
@[simp] theorem updOrders_entering (u : FleetUnit) (f : UnitOrders → UnitOrders) (w : Work) : (updOrders u f w).entering = w.entering := by unfold updOrders; split <;> rfl

@[simp] theorem putCarrier_now (c : CarrierIx) (f : Carrier → Carrier) (w : Work) : (putCarrier c f w).now = w.now := rfl
@[simp] theorem putCarrier_rac (c : CarrierIx) (f : Carrier → Carrier) (w : Work) : (putCarrier c f w).rac = w.rac := rfl
@[simp] theorem putCarrier_fou (c : CarrierIx) (f : Carrier → Carrier) (w : Work) : (putCarrier c f w).fou = w.fou := rfl
@[simp] theorem putCarrier_pls (c : CarrierIx) (f : Carrier → Carrier) (w : Work) : (putCarrier c f w).pls = w.pls := rfl
@[simp] theorem putCarrier_seu (c : CarrierIx) (f : Carrier → Carrier) (w : Work) : (putCarrier c f w).seu = w.seu := rfl
@[simp] theorem putCarrier_rsc (c : CarrierIx) (f : Carrier → Carrier) (w : Work) : (putCarrier c f w).rsc = w.rsc := rfl
@[simp] theorem putCarrier_wxm (c : CarrierIx) (f : Carrier → Carrier) (w : Work) : (putCarrier c f w).wxm = w.wxm := rfl
@[simp] theorem putCarrier_yac (c : CarrierIx) (f : Carrier → Carrier) (w : Work) : (putCarrier c f w).yac = w.yac := rfl
@[simp] theorem putCarrier_rpq (c : CarrierIx) (f : Carrier → Carrier) (w : Work) : (putCarrier c f w).rpq = w.rpq := rfl
@[simp] theorem putCarrier_plant (c : CarrierIx) (f : Carrier → Carrier) (w : Work) : (putCarrier c f w).plant = w.plant := rfl
@[simp] theorem putCarrier_tracker (c : CarrierIx) (f : Carrier → Carrier) (w : Work) : (putCarrier c f w).tracker = w.tracker := rfl
@[simp] theorem putCarrier_fleet (c : CarrierIx) (f : Carrier → Carrier) (w : Work) : (putCarrier c f w).fleet = w.fleet := rfl
@[simp] theorem putCarrier_freeUses (c : CarrierIx) (f : Carrier → Carrier) (w : Work) : (putCarrier c f w).freeUses = w.freeUses := rfl
@[simp] theorem putCarrier_pending (c : CarrierIx) (f : Carrier → Carrier) (w : Work) : (putCarrier c f w).pending = w.pending := rfl
@[simp] theorem putCarrier_agenda (c : CarrierIx) (f : Carrier → Carrier) (w : Work) : (putCarrier c f w).agenda = w.agenda := rfl
@[simp] theorem putCarrier_entering (c : CarrierIx) (f : Carrier → Carrier) (w : Work) : (putCarrier c f w).entering = w.entering := rfl
@[simp] theorem putCarrier_passDue (c : CarrierIx) (f : Carrier → Carrier) (w : Work) : (putCarrier c f w).passDue = w.passDue := rfl
@[simp] theorem putCarrier_told (c : CarrierIx) (f : Carrier → Carrier) (w : Work) : (putCarrier c f w).told = w.told := rfl

@[simp] theorem updCarrier_now (c : CarrierIx) (f : Carrier → Carrier) (w : Work) : (updCarrier c f w).now = w.now := by
  simp [updCarrier]
@[simp] theorem updCarrier_rac (c : CarrierIx) (f : Carrier → Carrier) (w : Work) : (updCarrier c f w).rac = w.rac := by
  simp [updCarrier]
@[simp] theorem updCarrier_fou (c : CarrierIx) (f : Carrier → Carrier) (w : Work) : (updCarrier c f w).fou = w.fou := by
  simp [updCarrier]
@[simp] theorem updCarrier_txs (c : CarrierIx) (f : Carrier → Carrier) (w : Work) : (updCarrier c f w).txs = (putCarrier c f w).txs := by
  simp [updCarrier]
@[simp] theorem updCarrier_seu (c : CarrierIx) (f : Carrier → Carrier) (w : Work) : (updCarrier c f w).seu = w.seu := by
  simp [updCarrier]
@[simp] theorem updCarrier_rsc (c : CarrierIx) (f : Carrier → Carrier) (w : Work) : (updCarrier c f w).rsc = w.rsc := by
  simp [updCarrier]
@[simp] theorem updCarrier_yac (c : CarrierIx) (f : Carrier → Carrier) (w : Work) : (updCarrier c f w).yac = w.yac := by
  simp [updCarrier]
@[simp] theorem updCarrier_plant (c : CarrierIx) (f : Carrier → Carrier) (w : Work) : (updCarrier c f w).plant = w.plant := by
  simp [updCarrier]
@[simp] theorem updCarrier_tracker (c : CarrierIx) (f : Carrier → Carrier) (w : Work) : (updCarrier c f w).tracker = w.tracker := by
  simp [updCarrier]
@[simp] theorem updCarrier_fleet (c : CarrierIx) (f : Carrier → Carrier) (w : Work) : (updCarrier c f w).fleet = w.fleet := by
  simp [updCarrier]
@[simp] theorem updCarrier_freeUses (c : CarrierIx) (f : Carrier → Carrier) (w : Work) : (updCarrier c f w).freeUses = w.freeUses := by
  simp [updCarrier]
@[simp] theorem updCarrier_pending (c : CarrierIx) (f : Carrier → Carrier) (w : Work) : (updCarrier c f w).pending = w.pending := by
  simp [updCarrier]
@[simp] theorem updCarrier_entering (c : CarrierIx) (f : Carrier → Carrier) (w : Work) : (updCarrier c f w).entering = w.entering := by
  simp [updCarrier]
@[simp] theorem updCarrier_passDue (c : CarrierIx) (f : Carrier → Carrier) (w : Work) : (updCarrier c f w).passDue = w.passDue := by
  simp [updCarrier]

@[simp] theorem setPool_now (l : List Request) (w : Work) : (setPool l w).now = w.now := rfl
@[simp] theorem setPool_rac (l : List Request) (w : Work) : (setPool l w).rac = w.rac := rfl
@[simp] theorem setPool_fou (l : List Request) (w : Work) : (setPool l w).fou = w.fou := rfl
@[simp] theorem setPool_pls (l : List Request) (w : Work) : (setPool l w).pls = w.pls := rfl
@[simp] theorem setPool_seu (l : List Request) (w : Work) : (setPool l w).seu = w.seu := rfl
@[simp] theorem setPool_rsc (l : List Request) (w : Work) : (setPool l w).rsc = w.rsc := rfl
@[simp] theorem setPool_wxm (l : List Request) (w : Work) : (setPool l w).wxm = w.wxm := rfl
@[simp] theorem setPool_yac (l : List Request) (w : Work) : (setPool l w).yac = w.yac := rfl
@[simp] theorem setPool_rpq (l : List Request) (w : Work) : (setPool l w).rpq = w.rpq := rfl
@[simp] theorem setPool_plant (l : List Request) (w : Work) : (setPool l w).plant = w.plant := rfl
@[simp] theorem setPool_tracker (l : List Request) (w : Work) : (setPool l w).tracker = w.tracker := rfl
@[simp] theorem setPool_fleet (l : List Request) (w : Work) : (setPool l w).fleet = w.fleet := rfl
@[simp] theorem setPool_freeUses (l : List Request) (w : Work) : (setPool l w).freeUses = w.freeUses := rfl
@[simp] theorem setPool_pending (l : List Request) (w : Work) : (setPool l w).pending = w.pending := rfl
@[simp] theorem setPool_agenda (l : List Request) (w : Work) : (setPool l w).agenda = w.agenda := rfl
@[simp] theorem setPool_passDue (l : List Request) (w : Work) : (setPool l w).passDue = w.passDue := rfl
@[simp] theorem setPool_told (l : List Request) (w : Work) : (setPool l w).told = w.told := rfl
@[simp] theorem setPool_entering (l : List Request) (w : Work) : (setPool l w).entering = w.entering := rfl

@[simp] theorem updRequest_now (q : Half) (f : Request → Request) (w : Work) : (updRequest q f w).now = w.now := rfl
@[simp] theorem updRequest_rac (q : Half) (f : Request → Request) (w : Work) : (updRequest q f w).rac = w.rac := rfl
@[simp] theorem updRequest_fou (q : Half) (f : Request → Request) (w : Work) : (updRequest q f w).fou = w.fou := rfl
@[simp] theorem updRequest_pls (q : Half) (f : Request → Request) (w : Work) : (updRequest q f w).pls = w.pls := rfl
@[simp] theorem updRequest_seu (q : Half) (f : Request → Request) (w : Work) : (updRequest q f w).seu = w.seu := rfl
@[simp] theorem updRequest_rsc (q : Half) (f : Request → Request) (w : Work) : (updRequest q f w).rsc = w.rsc := rfl
@[simp] theorem updRequest_wxm (q : Half) (f : Request → Request) (w : Work) : (updRequest q f w).wxm = w.wxm := rfl
@[simp] theorem updRequest_yac (q : Half) (f : Request → Request) (w : Work) : (updRequest q f w).yac = w.yac := rfl
@[simp] theorem updRequest_rpq (q : Half) (f : Request → Request) (w : Work) : (updRequest q f w).rpq = w.rpq := rfl
@[simp] theorem updRequest_plant (q : Half) (f : Request → Request) (w : Work) : (updRequest q f w).plant = w.plant := rfl
@[simp] theorem updRequest_tracker (q : Half) (f : Request → Request) (w : Work) : (updRequest q f w).tracker = w.tracker := rfl
@[simp] theorem updRequest_fleet (q : Half) (f : Request → Request) (w : Work) : (updRequest q f w).fleet = w.fleet := rfl
@[simp] theorem updRequest_freeUses (q : Half) (f : Request → Request) (w : Work) : (updRequest q f w).freeUses = w.freeUses := rfl
@[simp] theorem updRequest_pending (q : Half) (f : Request → Request) (w : Work) : (updRequest q f w).pending = w.pending := rfl
@[simp] theorem updRequest_agenda (q : Half) (f : Request → Request) (w : Work) : (updRequest q f w).agenda = w.agenda := rfl
@[simp] theorem updRequest_passDue (q : Half) (f : Request → Request) (w : Work) : (updRequest q f w).passDue = w.passDue := rfl
@[simp] theorem updRequest_told (q : Half) (f : Request → Request) (w : Work) : (updRequest q f w).told = w.told := rfl
@[simp] theorem updRequest_entering (q : Half) (f : Request → Request) (w : Work) : (updRequest q f w).entering = w.entering := rfl

@[simp] theorem updEntry_now (i : Nat) (f : Entry → Entry) (w : Work) : (updEntry i f w).now = w.now := rfl
@[simp] theorem updEntry_rac (i : Nat) (f : Entry → Entry) (w : Work) : (updEntry i f w).rac = w.rac := rfl
@[simp] theorem updEntry_fou (i : Nat) (f : Entry → Entry) (w : Work) : (updEntry i f w).fou = w.fou := rfl
@[simp] theorem updEntry_txs (i : Nat) (f : Entry → Entry) (w : Work) : (updEntry i f w).txs = w.txs := rfl
@[simp] theorem updEntry_pls (i : Nat) (f : Entry → Entry) (w : Work) : (updEntry i f w).pls = w.pls := rfl
@[simp] theorem updEntry_seu (i : Nat) (f : Entry → Entry) (w : Work) : (updEntry i f w).seu = w.seu := rfl
@[simp] theorem updEntry_wxm (i : Nat) (f : Entry → Entry) (w : Work) : (updEntry i f w).wxm = w.wxm := rfl
@[simp] theorem updEntry_yac (i : Nat) (f : Entry → Entry) (w : Work) : (updEntry i f w).yac = w.yac := rfl
@[simp] theorem updEntry_rpq (i : Nat) (f : Entry → Entry) (w : Work) : (updEntry i f w).rpq = w.rpq := rfl
@[simp] theorem updEntry_plant (i : Nat) (f : Entry → Entry) (w : Work) : (updEntry i f w).plant = w.plant := rfl
@[simp] theorem updEntry_tracker (i : Nat) (f : Entry → Entry) (w : Work) : (updEntry i f w).tracker = w.tracker := rfl
@[simp] theorem updEntry_fleet (i : Nat) (f : Entry → Entry) (w : Work) : (updEntry i f w).fleet = w.fleet := rfl
@[simp] theorem updEntry_freeUses (i : Nat) (f : Entry → Entry) (w : Work) : (updEntry i f w).freeUses = w.freeUses := rfl
@[simp] theorem updEntry_pending (i : Nat) (f : Entry → Entry) (w : Work) : (updEntry i f w).pending = w.pending := rfl
@[simp] theorem updEntry_agenda (i : Nat) (f : Entry → Entry) (w : Work) : (updEntry i f w).agenda = w.agenda := rfl
@[simp] theorem updEntry_passDue (i : Nat) (f : Entry → Entry) (w : Work) : (updEntry i f w).passDue = w.passDue := rfl
@[simp] theorem updEntry_told (i : Nat) (f : Entry → Entry) (w : Work) : (updEntry i f w).told = w.told := rfl
@[simp] theorem updEntry_entering (i : Nat) (f : Entry → Entry) (w : Work) : (updEntry i f w).entering = w.entering := rfl

@[simp] theorem updBack_now (f : Bank → Bank) (w : Work) : (updBack f w).now = w.now := by unfold updBack; split <;> rfl
@[simp] theorem updBack_rac (f : Bank → Bank) (w : Work) : (updBack f w).rac = w.rac := by unfold updBack; split <;> rfl
@[simp] theorem updBack_fou (f : Bank → Bank) (w : Work) : (updBack f w).fou = w.fou := by unfold updBack; split <;> rfl
@[simp] theorem updBack_txs (f : Bank → Bank) (w : Work) : (updBack f w).txs = w.txs := by unfold updBack; split <;> rfl
@[simp] theorem updBack_seu (f : Bank → Bank) (w : Work) : (updBack f w).seu = w.seu := by unfold updBack; split <;> rfl
@[simp] theorem updBack_rsc (f : Bank → Bank) (w : Work) : (updBack f w).rsc = w.rsc := by unfold updBack; split <;> rfl
@[simp] theorem updBack_wxm (f : Bank → Bank) (w : Work) : (updBack f w).wxm = w.wxm := by unfold updBack; split <;> rfl
@[simp] theorem updBack_yac (f : Bank → Bank) (w : Work) : (updBack f w).yac = w.yac := by unfold updBack; split <;> rfl
@[simp] theorem updBack_rpq (f : Bank → Bank) (w : Work) : (updBack f w).rpq = w.rpq := by unfold updBack; split <;> rfl
@[simp] theorem updBack_plant (f : Bank → Bank) (w : Work) : (updBack f w).plant = w.plant := by unfold updBack; split <;> rfl
@[simp] theorem updBack_tracker (f : Bank → Bank) (w : Work) : (updBack f w).tracker = w.tracker := by unfold updBack; split <;> rfl
@[simp] theorem updBack_fleet (f : Bank → Bank) (w : Work) : (updBack f w).fleet = w.fleet := by unfold updBack; split <;> rfl
@[simp] theorem updBack_freeUses (f : Bank → Bank) (w : Work) : (updBack f w).freeUses = w.freeUses := by unfold updBack; split <;> rfl
@[simp] theorem updBack_pending (f : Bank → Bank) (w : Work) : (updBack f w).pending = w.pending := by unfold updBack; split <;> rfl
@[simp] theorem updBack_agenda (f : Bank → Bank) (w : Work) : (updBack f w).agenda = w.agenda := by unfold updBack; split <;> rfl
@[simp] theorem updBack_passDue (f : Bank → Bank) (w : Work) : (updBack f w).passDue = w.passDue := by unfold updBack; split <;> rfl
@[simp] theorem updBack_told (f : Bank → Bank) (w : Work) : (updBack f w).told = w.told := by unfold updBack; split <;> rfl
@[simp] theorem updBack_entering (f : Bank → Bank) (w : Work) : (updBack f w).entering = w.entering := by unfold updBack; split <;> rfl

/-- A change that leaves the state of a row, robot or carrier makes no test. -/
theorem updRow_same (r : Row) (f : RowRec → RowRec) (w : Work) (h : (f (w.row r)).state = (w.row r).state) :
    updRow r f w = putRow r f w := by
  unfold Work.row at h
  simp [updRow, stateChanged, h]

theorem updAllRows_same (f : Row → RowRec → RowRec) (w : Work) (h : ∀ r, (f r (w.row r)).state = (w.row r).state) :
    updAllRows f w = putAllRows f w := by
  unfold Work.row at h
  simp [updAllRows, stateChanged, h]

theorem updRobot_same (k : Slot) (f : Robot → Robot) (w : Work) (h : (f (w.robot k)).state = (w.robot k).state) :
    updRobot k f w = putRobot k f w := by
  unfold Work.robot at h
  simp [updRobot, stateChanged, h]

theorem updCarrier_same (c : CarrierIx) (f : Carrier → Carrier) (w : Work)
    (h : (f (w.carrier c)).state = (w.carrier c).state) : updCarrier c f w = putCarrier c f w := by
  unfold Work.carrier at h
  simp [updCarrier, stateChanged, h]

@[simp] theorem updPort_now (p : Port) (g : PortCtl → PortCtl) (w : Work) : (updPort p g w).now = w.now := by cases p <;> rfl
@[simp] theorem setContext_now (p : Port) (c : Context) (w : Work) : (setContext p c w).now = w.now := by cases p <;> rfl
@[simp] theorem setResult_now (p : Port) (r : Result) (c : Byte) (w : Work) : (setResult p r c w).now = w.now := by cases p <;> rfl
@[simp] theorem updPort_rac (p : Port) (g : PortCtl → PortCtl) (w : Work) : (updPort p g w).rac = w.rac := by cases p <;> rfl
@[simp] theorem setContext_rac (p : Port) (c : Context) (w : Work) : (setContext p c w).rac = w.rac := by cases p <;> rfl
@[simp] theorem setResult_rac (p : Port) (r : Result) (c : Byte) (w : Work) : (setResult p r c w).rac = w.rac := by cases p <;> rfl
@[simp] theorem updPort_fou (p : Port) (g : PortCtl → PortCtl) (w : Work) : (updPort p g w).fou = w.fou := by cases p <;> rfl
@[simp] theorem setContext_fou (p : Port) (c : Context) (w : Work) : (setContext p c w).fou = w.fou := by cases p <;> rfl
@[simp] theorem setResult_fou (p : Port) (r : Result) (c : Byte) (w : Work) : (setResult p r c w).fou = w.fou := by cases p <;> rfl
@[simp] theorem updPort_txs (p : Port) (g : PortCtl → PortCtl) (w : Work) : (updPort p g w).txs = w.txs := by cases p <;> rfl
@[simp] theorem setContext_txs (p : Port) (c : Context) (w : Work) : (setContext p c w).txs = w.txs := by cases p <;> rfl
@[simp] theorem setResult_txs (p : Port) (r : Result) (c : Byte) (w : Work) : (setResult p r c w).txs = w.txs := by cases p <;> rfl
@[simp] theorem updPort_pls (p : Port) (g : PortCtl → PortCtl) (w : Work) : (updPort p g w).pls = w.pls := by cases p <;> rfl
@[simp] theorem setContext_pls (p : Port) (c : Context) (w : Work) : (setContext p c w).pls = w.pls := by cases p <;> rfl
@[simp] theorem setResult_pls (p : Port) (r : Result) (c : Byte) (w : Work) : (setResult p r c w).pls = w.pls := by cases p <;> rfl
@[simp] theorem updPort_seu (p : Port) (g : PortCtl → PortCtl) (w : Work) : (updPort p g w).seu = w.seu := by cases p <;> rfl
@[simp] theorem setContext_seu (p : Port) (c : Context) (w : Work) : (setContext p c w).seu = w.seu := by cases p <;> rfl
@[simp] theorem setResult_seu (p : Port) (r : Result) (c : Byte) (w : Work) : (setResult p r c w).seu = w.seu := by cases p <;> rfl
@[simp] theorem updPort_rsc (p : Port) (g : PortCtl → PortCtl) (w : Work) : (updPort p g w).rsc = w.rsc := by cases p <;> rfl
@[simp] theorem setContext_rsc (p : Port) (c : Context) (w : Work) : (setContext p c w).rsc = w.rsc := by cases p <;> rfl
@[simp] theorem setResult_rsc (p : Port) (r : Result) (c : Byte) (w : Work) : (setResult p r c w).rsc = w.rsc := by cases p <;> rfl
@[simp] theorem updPort_wxm (p : Port) (g : PortCtl → PortCtl) (w : Work) : (updPort p g w).wxm = w.wxm := by cases p <;> rfl
@[simp] theorem setContext_wxm (p : Port) (c : Context) (w : Work) : (setContext p c w).wxm = w.wxm := by cases p <;> rfl
@[simp] theorem setResult_wxm (p : Port) (r : Result) (c : Byte) (w : Work) : (setResult p r c w).wxm = w.wxm := by cases p <;> rfl
@[simp] theorem updPort_yac (p : Port) (g : PortCtl → PortCtl) (w : Work) : (updPort p g w).yac = w.yac := by cases p <;> rfl
@[simp] theorem setContext_yac (p : Port) (c : Context) (w : Work) : (setContext p c w).yac = w.yac := by cases p <;> rfl
@[simp] theorem setResult_yac (p : Port) (r : Result) (c : Byte) (w : Work) : (setResult p r c w).yac = w.yac := by cases p <;> rfl
@[simp] theorem updPort_rpq (p : Port) (g : PortCtl → PortCtl) (w : Work) : (updPort p g w).rpq = w.rpq := by cases p <;> rfl
@[simp] theorem setContext_rpq (p : Port) (c : Context) (w : Work) : (setContext p c w).rpq = w.rpq := by cases p <;> rfl
@[simp] theorem setResult_rpq (p : Port) (r : Result) (c : Byte) (w : Work) : (setResult p r c w).rpq = w.rpq := by cases p <;> rfl
@[simp] theorem updPort_freeUses (p : Port) (g : PortCtl → PortCtl) (w : Work) : (updPort p g w).freeUses = w.freeUses := by cases p <;> rfl
@[simp] theorem setContext_freeUses (p : Port) (c : Context) (w : Work) : (setContext p c w).freeUses = w.freeUses := by cases p <;> rfl
@[simp] theorem setResult_freeUses (p : Port) (r : Result) (c : Byte) (w : Work) : (setResult p r c w).freeUses = w.freeUses := by cases p <;> rfl
@[simp] theorem updPort_pending (p : Port) (g : PortCtl → PortCtl) (w : Work) : (updPort p g w).pending = w.pending := by cases p <;> rfl
@[simp] theorem setContext_pending (p : Port) (c : Context) (w : Work) : (setContext p c w).pending = w.pending := by cases p <;> rfl
@[simp] theorem setResult_pending (p : Port) (r : Result) (c : Byte) (w : Work) : (setResult p r c w).pending = w.pending := by cases p <;> rfl
@[simp] theorem updPort_agenda (p : Port) (g : PortCtl → PortCtl) (w : Work) : (updPort p g w).agenda = w.agenda := by cases p <;> rfl
@[simp] theorem setContext_agenda (p : Port) (c : Context) (w : Work) : (setContext p c w).agenda = w.agenda := by cases p <;> rfl
@[simp] theorem setResult_agenda (p : Port) (r : Result) (c : Byte) (w : Work) : (setResult p r c w).agenda = w.agenda := by cases p <;> rfl
@[simp] theorem updPort_passDue (p : Port) (g : PortCtl → PortCtl) (w : Work) : (updPort p g w).passDue = w.passDue := by cases p <;> rfl
@[simp] theorem setContext_passDue (p : Port) (c : Context) (w : Work) : (setContext p c w).passDue = w.passDue := by cases p <;> rfl
@[simp] theorem setResult_passDue (p : Port) (r : Result) (c : Byte) (w : Work) : (setResult p r c w).passDue = w.passDue := by cases p <;> rfl
@[simp] theorem updPort_told (p : Port) (g : PortCtl → PortCtl) (w : Work) : (updPort p g w).told = w.told := by cases p <;> rfl
@[simp] theorem setContext_told (p : Port) (c : Context) (w : Work) : (setContext p c w).told = w.told := by cases p <;> rfl
@[simp] theorem setResult_told (p : Port) (r : Result) (c : Byte) (w : Work) : (setResult p r c w).told = w.told := by cases p <;> rfl

@[simp] theorem updPort_entering (p : Port) (g : PortCtl → PortCtl) (w : Work) : (updPort p g w).entering = w.entering := by
  cases p <;> rfl
@[simp] theorem setContext_entering (p : Port) (c : Context) (w : Work) : (setContext p c w).entering = w.entering := by
  cases p <;> rfl
@[simp] theorem setResult_entering (p : Port) (r : Result) (c : Byte) (w : Work) :
    (setResult p r c w).entering = w.entering := by cases p <;> rfl

@[simp] theorem work_toState (s : State) : s.work.toState = s := rfl
@[simp] theorem work_agenda (s : State) : s.work.agenda = [] := rfl
@[simp] theorem work_passDue (s : State) : s.work.passDue = false := rfl
@[simp] theorem work_told (s : State) : s.work.told = false := rfl
@[simp] theorem work_entering (s : State) : s.work.entering = false := rfl

/-- Reading the port that was changed. -/
@[simp] theorem updPort_port_same (p : Port) (g : PortCtl → PortCtl) (w : Work) :
    (updPort p g w).toState.port p = g (w.toState.port p) := by cases p <;> rfl

/-- Reading another port than the one changed. -/
theorem updPort_port_other (p q : Port) (g : PortCtl → PortCtl) (w : Work) (h : q ≠ p) :
    (updPort p g w).toState.port q = w.toState.port q := by cases p <;> cases q <;> first | rfl | exact absurd rfl h

@[simp] theorem setContext_port_same (p : Port) (c : Context) (w : Work) :
    (setContext p c w).toState.port p = { w.toState.port p with context := c } := by cases p <;> rfl

@[simp] theorem setResult_port_same (p : Port) (r : Result) (c : Byte) (w : Work) :
    (setResult p r c w).toState.port p = { w.toState.port p with lastResult := r, code := some c } := by cases p <;> rfl

/-! ### Tables -/

@[simp] theorem tget_tset_same {n : Nat} {α : Type} (v : Table n α) (i : Fin n) (x : α) : tget (tset v i x) i = x := by
  simp [tget, tset]

theorem tget_tset_other {n : Nat} {α : Type} (v : Table n α) (i j : Fin n) (x : α) (h : j ≠ i) :
    tget (tset v i x) j = tget v j := by
  simp only [tget, tset]
  exact Vector.getElem_set_ne _ _ (fun e => h (Fin.ext e.symm))

theorem tget_tset {n : Nat} {α : Type} (v : Table n α) (i j : Fin n) (x : α) :
    tget (tset v i x) j = if j = i then x else tget v j := by
  by_cases h : j = i
  · subst h; simp
  · simp [h, tget_tset_other _ _ _ _ h]

@[simp] theorem tget_tmap {n : Nat} {α β : Type} (f : Fin n → α → β) (v : Table n α) (i : Fin n) :
    tget (tmap f v) i = f i (tget v i) := by simp [tget, tmap]

@[simp] theorem tget_tfill (n : Nat) {α : Type} (x : α) (i : Fin n) : tget (tfill n x) i = x := by simp [tget, tfill]

@[simp] theorem tset_tget {n : Nat} {α : Type} (v : Table n α) (i : Fin n) : tset v i (tget v i) = v := by
  simp [tset, tget]

theorem table_ext {n : Nat} {α : Type} {a b : Table n α} (h : ∀ i, tget a i = tget b i) : a = b := by
  apply Vector.ext
  intro i hi
  exact h ⟨i, hi⟩

@[simp] theorem mem_indices (n : Nat) (i : Fin n) : i ∈ indices n := List.mem_finRange i

end Sys2Proof.Machine
end

