-- ==== Sys2Proof/Laws/Events.lean ====
section
/-! SUPPORT. Events that set nothing off: when the cascade of an event is at rest it changes nothing, and what a command is
when the blocks come to rest between its bytes. -/

namespace Sys2Proof.Machine

/-- The event has nothing left to do. -/
structure Work.Still (w : Work) : Prop where
  agenda : w.agenda = []
  passDue : w.passDue = false
  told : w.told = false
  entering : w.entering = false

theorem cascade_of_none (n : Nat) (w : Work) (h : cascadeStep w = none) : cascade n w = w := by
  cases n with
  | zero => rfl
  | succ n => simp [cascade, h]

theorem cascadeStep_still (w : Work) (h : w.Still) : cascadeStep w = none := by
  simp [cascadeStep, h.agenda, h.passDue, h.told]

/-- The end of an event that has nothing left to do. -/
theorem settle_still (w : Work) (h : w.Still) : settle w = w := by
  have e : cascade Config.cascadeLimit w = w := cascade_of_none _ _ (cascadeStep_still w h)
  obtain ⟨a, b, c, d⟩ := h
  cases w
  simp only [settle, e] at *
  simp_all

theorem settle_isStill (w : Work) : (settle w).Still := ⟨rfl, rfl, rfl, rfl⟩

theorem work_still (s : State) : s.work.Still := ⟨rfl, rfl, rfl, rfl⟩

/-- Between events a work is the state it holds. -/
theorem Work.Still.eq_work {w : Work} (h : w.Still) : w.toState.work = w := by
  obtain ⟨a, b, c, d⟩ := h
  cases w
  simp_all [State.work]

@[simp] theorem settle_settle (w : Work) : settle (settle w) = settle w := settle_still _ (settle_isStill w)

/-- Only the port controllers differ from a work at rest. -/
theorem Work.Still.updPort {w : Work} (h : w.Still) (p : Port) (f : PortCtl → PortCtl) : (updPort p f w).Still :=
  ⟨by simp [h.agenda], by simp [h.passDue], by simp [h.told], by simp [h.entering]⟩

theorem Work.Still.setContext {w : Work} (h : w.Still) (p : Port) (c : Context) : (setContext p c w).Still :=
  h.updPort p _

theorem Work.Still.setResult {w : Work} (h : w.Still) (p : Port) (r : Result) (b : Byte) : (setResult p r b w).Still :=
  h.updPort p _

theorem dataBytes_nil (p : Port) (w : Work) : dataBytes p [] w = w := rfl

theorem dataBytes_cons (p : Port) (b : Byte) (bs : List Byte) (w : Work) :
    dataBytes p (b :: bs) w = dataBytes p bs (settle (dataByte p b w)) := rfl

/-- A port whose reset input is asserted takes no data byte (R183). -/
theorem dataBytes_held (p : Port) (bs : List Byte) (w : Work) (h : w.Still) (hr : (w.port p).resetHeld = true) :
    dataBytes p bs w = w := by
  induction bs with
  | nil => rfl
  | cons b bs ih => rw [dataBytes_cons, dataByte, if_pos hr, settle_still w h, ih]

/-- A port whose reset input is asserted takes no command (R183). -/
theorem sendCommand_held (p : Port) (c : Cmd) (bs : List Byte) (w : Work) (h : w.Still)
    (hr : (w.port p).resetHeld = true) : sendCommand p c bs w = w := by
  rw [sendCommand, commandByte, if_pos hr, settle_still w h, dataBytes_held p bs w h hr]

end Sys2Proof.Machine
end

