-- ==== Sys2Proof/Laws/Commands.lean ====
section
/-! SUPPORT. A command of a port's role, sent whole: the command byte opens it, the parameter bytes only wait in the context, and
the action is made once, with all of them. -/

namespace Sys2Proof.Machine

/-- The work a command finds when its command byte has been taken: the command under way has ended (R182) and, on the plant
port, an open interval is closed unless the byte is its stream command (R101). -/
def opened (p : Port) (c : Cmd) (w : Work) : Work := closeAtCommand p c.code (endCommand p w)

theorem cmdOf_code (c : Cmd) : cmdOf c.code = some c := by cases c <;> decide

theorem closeInterval_still {w : Work} (h : w.Still) : (closeInterval w).Still := by
  obtain ⟨a, b, c, d⟩ := h
  exact ⟨by simp [closeInterval, a], by simp [closeInterval, b], by simp [closeInterval, c], by simp [closeInterval, d]⟩

theorem closeOpen_still {w : Work} (h : w.Still) : (closeOpen w).Still := by
  unfold closeOpen; split
  · exact closeInterval_still h
  · exact h

theorem endCommand_still {w : Work} (h : w.Still) (p : Port) : (endCommand p w).Still := by
  unfold endCommand
  simp only
  split
  · exact (h.setResult p _ _).updPort p _
  · exact h.updPort p _

theorem closeAtCommand_still {w : Work} (h : w.Still) (p : Port) (b : Byte) : (closeAtCommand p b w).Still := by
  cases p
  · simp only [closeAtCommand]; split
    · exact h
    · exact closeOpen_still h
  · exact h
  · exact h

theorem opened_still {w : Work} (h : w.Still) (p : Port) (c : Cmd) : (opened p c w).Still :=
  closeAtCommand_still (endCommand_still h p) p _

@[simp] theorem closeOpen_port (p : Port) (w : Work) : (closeOpen w).toState.port p = w.toState.port p := by
  unfold closeOpen; split
  · cases p <;> simp [closeInterval, State.port]
  · rfl

@[simp] theorem closeAtCommand_port (q p : Port) (b : Byte) (w : Work) :
    (closeAtCommand q b w).toState.port p = w.toState.port p := by
  cases q
  · simp only [closeAtCommand]; split
    · rfl
    · simp
  · rfl
  · rfl

theorem endCommand_port (p : Port) (w : Work) :
    ((endCommand p w).toState.port p).context = .none ∧ ((endCommand p w).toState.port p).partialBits = [] ∧
      ((endCommand p w).toState.port p).dataOut = 0#8 ∧
      ((endCommand p w).toState.port p).resetHeld = (w.toState.port p).resetHeld := by
  unfold endCommand
  simp only
  split <;> simp

theorem opened_port (p : Port) (c : Cmd) (w : Work) :
    ((opened p c w).toState.port p).context = .none ∧ ((opened p c w).toState.port p).partialBits = [] ∧
      ((opened p c w).toState.port p).dataOut = 0#8 ∧
      ((opened p c w).toState.port p).resetHeld = (w.toState.port p).resetHeld := by
  unfold opened
  rw [closeAtCommand_port]
  exact endCommand_port p w

/-- A change of a port that changes nothing. -/
theorem updPort_eq_self (p : Port) (f : PortCtl → PortCtl) (w : Work) (h : f (w.toState.port p) = w.toState.port p) :
    updPort p f w = w := by
  cases p <;> simp_all [updPort, State.port]

theorem updPort_updPort (p : Port) (f g : PortCtl → PortCtl) (w : Work) :
    updPort p f (updPort p g w) = updPort p (fun x => f (g x)) w := by cases p <;> rfl

theorem updPort_congr (p : Port) (f g : PortCtl → PortCtl) (w : Work) (h : f (w.toState.port p) = g (w.toState.port p)) :
    updPort p f w = updPort p g w := by
  cases p <;> simp_all [updPort, State.port]

/-- A command byte of the port's role. -/
theorem commandByte_role (p : Port) (c : Cmd) (w : Work) (hr : (w.toState.port p).resetHeld = false)
    (hp : c.onPort p = true) : commandByte p c.code w = openCommand p c (opened p c w) := by
  simp [commandByte, hr, cmdOf_code, hp, opened]

/-- A command byte of another port's role (R178, R185). -/
theorem commandByte_wrong (p : Port) (c : Cmd) (w : Work) (hr : (w.toState.port p).resetHeld = false)
    (hp : c.onPort p = false) : commandByte p c.code w = setResult p .role c.code (opened p c w) := by
  simp [commandByte, hr, cmdOf_code, hp, opened]

/-- How many parameter bytes an action takes, given the bytes it is sent with (R178, Table 11-3). -/
def need (c : Cmd) (bs : List Byte) : Nat := c.params + (kindFields c (nth bs 1)).getD 0

/-- The parameter bytes of an action arrive one after another; the last one executes it. -/
theorem dataBytes_action (p : Port) (c : Cmd) (w : Work) (h : w.Still) (hr : (w.toState.port p).resetHeld = false)
    (hctx : (w.toState.port p).context = .none) (hpb : (w.toState.port p).partialBits = [])
    (hdo : (w.toState.port p).dataOut = 0#8) (all : List Byte) (hk : kindFields c (nth all 1) ≠ none)
    (hc : c.params ≤ 2 ∨ ∀ k, kindFields c k = some 0) (hlen : all.length = need c all) :
    ∀ (bs got : List Byte), got ++ bs = all → bs ≠ [] →
      dataBytes p bs (setContext p (.action c got) w) =
        settle (setResult p (runAction c all w).2 c.code (runAction c all w).1) := by
  intro bs
  induction bs with
  | nil => intro got _ hne; exact absurd rfl hne
  | cons b rest ih =>
    intro got hall _
    have hsplit : (got ++ [b]) ++ rest = all := by simpa using hall
    have hclean : updPort p (fun x => { x with partialBits := [], dataOut := 0#8 }) (setContext p (.action c got) w) =
        setContext p (.action c got) w := by
      apply updPort_eq_self
      rw [setContext_port_same]
      simp [hpb, hdo]
    have hstep : dataByte p b (setContext p (.action c got) w) =
        actionByte p c (got ++ [b]) (setContext p (.action c got) w) := by
      unfold dataByte
      rw [if_neg (by simp [setContext_port_same, hr]), hclean]
      simp [setContext_port_same]
    have hset : ∀ d, setContext p d (setContext p (.action c got) w) = setContext p d w := by
      intro d
      unfold setContext
      rw [updPort_updPort]
    have hnone : setContext p .none w = w := by
      apply updPort_eq_self
      rw [← hctx]
    have hlen' : (got ++ [b]).length + rest.length = all.length := by rw [← hsplit]; simp; omega
    -- the kind byte is the same in every longer list
    have hnth : 2 ≤ (got ++ [b]).length → nth (got ++ [b]) 1 = nth all 1 := by
      intro h2
      rw [← hsplit]
      unfold nth
      rw [List.getD_append (got ++ [b]) rest _ _ (by omega)]
    rw [dataBytes_cons, hstep]
    unfold actionByte
    have hfields : (if (got ++ [b]).length = 2 then kindFields c (nth (got ++ [b]) 1) else some 0) ≠ none := by
      split
      · rename_i h2
        rw [hnth (by omega)]; exact hk
      · simp
    rw [if_neg hfields]
    cases rest with
    | nil =>
      have hgb : got ++ [b] = all := by simpa using hsplit
      rw [hgb]
      have hneed : c.params + ((kindFields c (nth all 1)).getD 0) ≤ all.length ∧ c.params ≤ all.length := by
        rw [hlen]; exact ⟨Nat.le_refl _, by unfold need; omega⟩
      rw [if_pos hneed, hset, hnone]
      rfl
    | cons d rest =>
      have hmore : ¬ (c.params + ((kindFields c (nth (got ++ [b]) 1)).getD 0) ≤ (got ++ [b]).length ∧
          c.params ≤ (got ++ [b]).length) := by
        intro hh
        have hr' : (got ++ [b]).length < all.length := by simp at hlen' ⊢; omega
        rcases hc with hc | hc
        · by_cases h2 : 2 ≤ (got ++ [b]).length
          · rw [hnth h2] at hh
            unfold need at hlen; omega
          · have h1 : (got ++ [b]).length = 1 := by simp at h2 ⊢; omega
            have hp1 : c.params = 0 ∨ c.params = 1 := by omega
            have hsome : kindFields c (nth all 1) = some 0 := by
              cases c <;> simp_all [Cmd.params, kindFields]
            unfold need at hlen
            rw [hsome] at hlen
            simp at hlen; omega
        · unfold need at hlen
          rw [hc] at hlen hh
          simp only [Option.getD_some, Nat.add_zero] at hlen hh
          omega
      rw [if_neg hmore, hset, settle_still _ (h.setContext p _)]
      exact ih (got ++ [b]) hsplit (by simp)

/-- An action of the port's role sent with the parameter bytes it takes: it is executed once, with all of them, and its result
is set (R178, R179). -/
theorem sendCommand_action (p : Port) (c : Cmd) (bs : List Byte) (w : Work) (h : w.Still)
    (hr : (w.toState.port p).resetHeld = false) (hp : c.onPort p = true) (hkind : c.kind = .action)
    (hk : kindFields c (nth bs 1) ≠ none) (hlen : bs.length = need c bs) :
    sendCommand p c bs w =
      settle (setResult p (runAction c bs (opened p c w)).2 c.code (runAction c bs (opened p c w)).1) := by
  have ho := opened_still h p c
  obtain ⟨h1, h2, h3, h4⟩ := opened_port p c w
  unfold sendCommand
  rw [commandByte_role p c w hr hp]
  unfold openCommand
  rw [hkind]
  simp only
  by_cases hz : c.params = 0
  · rw [if_pos hz]
    have hb : bs = [] := by
      have : need c bs = 0 := by
        have hs : kindFields c (nth bs 1) = some 0 := by cases c <;> simp_all [Cmd.params, kindFields]
        unfold need; rw [hs, hz]; rfl
      exact List.length_eq_zero_iff.mp (by omega)
    subst hb
    rfl
  · rw [if_neg hz, settle_still _ (ho.setContext p _)]
    apply dataBytes_action p c (opened p c w) ho (by rw [h4]; exact hr) h1 h2 h3 bs hk _ hlen bs [] rfl
    · intro hb
      subst hb
      simp [need] at hlen; omega
    · cases c <;> simp_all [Cmd.params, kindFields]

end Sys2Proof.Machine
end

