-- ==== Sys2Proof/Laws/Orders.lean ====
section
/-! SUPPORT. What the order protocol may do to the fleet order unit: each operation on a unit's orders keeps the order queue and
the order sides of the units as the rules keep them (R33 to R39). -/

namespace Sys2Proof.Machine

/-! ### Reading the order side -/

@[simp] theorem work_orders_eq (w : Work) (u : FleetUnit) : w.orders u = w.fou.orders u := by cases u <;> rfl

@[simp] theorem updOrders_orders_same (u : FleetUnit) (f : UnitOrders → UnitOrders) (w : Work) :
    (updOrders u f w).fou.orders u = f (w.fou.orders u) := by cases u <;> simp [updOrders, Fou.orders]

theorem updOrders_orders_other (u v : FleetUnit) (f : UnitOrders → UnitOrders) (w : Work) (h : v ≠ u) :
    (updOrders u f w).fou.orders v = w.fou.orders v := by
  cases u with
  | robot k =>
    cases v with
    | robot j =>
      have e : j ≠ k := fun e => h (by rw [e])
      simp [updOrders, Fou.orders, tget_tset_other _ _ _ _ e]
    | carrier c => rfl
  | carrier c =>
    cases v with
    | robot j => rfl
    | carrier d =>
      have e : d ≠ c := fun e => h (by rw [e])
      simp [updOrders, Fou.orders, tget_tset_other _ _ _ _ e]

@[simp] theorem updOrders_urgentQ (u : FleetUnit) (f : UnitOrders → UnitOrders) (w : Work) :
    (updOrders u f w).fou.urgentQ = w.fou.urgentQ := by cases u <;> rfl
@[simp] theorem updOrders_routineQ (u : FleetUnit) (f : UnitOrders → UnitOrders) (w : Work) :
    (updOrders u f w).fou.routineQ = w.fou.routineQ := by cases u <;> rfl
@[simp] theorem updOrders_attention (u : FleetUnit) (f : UnitOrders → UnitOrders) (w : Work) :
    (updOrders u f w).fou.attention = w.fou.attention := by cases u <;> rfl
@[simp] theorem updOrders_acceptTimeout (u : FleetUnit) (f : UnitOrders → UnitOrders) (w : Work) :
    (updOrders u f w).fou.acceptTimeout = w.fou.acceptTimeout := by cases u <;> rfl
@[simp] theorem updOrders_silenceTimeout (u : FleetUnit) (f : UnitOrders → UnitOrders) (w : Work) :
    (updOrders u f w).fou.silenceTimeout = w.fou.silenceTimeout := by cases u <;> rfl

/-- A change of a unit's orders leaves the rest of the robot records. -/
theorem updOrders_robot (u : FleetUnit) (f : UnitOrders → UnitOrders) (w : Work) (k : Slot) :
    ∃ o, tget (updOrders u f w).fou.robots k = { tget w.fou.robots k with orders := o } := by
  cases u with
  | robot j =>
    by_cases e : k = j
    · subst e; exact ⟨f (tget w.fou.robots k).orders, by simp [updOrders]⟩
    · exact ⟨(tget w.fou.robots k).orders, by simp [updOrders, tget_tset_other _ _ _ _ e]⟩
  | carrier c => exact ⟨(tget w.fou.robots k).orders, rfl⟩

@[simp] theorem updOrders_state (u : FleetUnit) (f : UnitOrders → UnitOrders) (w : Work) (k : Slot) :
    (tget (updOrders u f w).fou.robots k).state = (tget w.fou.robots k).state := by
  obtain ⟨o, e⟩ := updOrders_robot u f w k; rw [e]

@[simp] theorem updOrders_serial (u : FleetUnit) (f : UnitOrders → UnitOrders) (w : Work) (k : Slot) :
    (tget (updOrders u f w).fou.robots k).serial = (tget w.fou.robots k).serial := by
  obtain ⟨o, e⟩ := updOrders_robot u f w k; rw [e]

/-! ### The queue -/

@[simp] theorem setQueue_robots (a b : List FleetUnit) (w : Work) : (setQueue a b w).fou.robots = w.fou.robots := rfl
@[simp] theorem setQueue_orders (a b : List FleetUnit) (w : Work) (u : FleetUnit) :
    (setQueue a b w).fou.orders u = w.fou.orders u := by cases u <;> rfl
@[simp] theorem setQueue_urgentQ (a b : List FleetUnit) (w : Work) : (setQueue a b w).fou.urgentQ = a := rfl
@[simp] theorem setQueue_routineQ (a b : List FleetUnit) (w : Work) : (setQueue a b w).fou.routineQ = b := rfl
@[simp] theorem setQueue_attention (a b : List FleetUnit) (w : Work) :
    (setQueue a b w).fou.attention = !(setQueue a b w).fou.queue.isEmpty := rfl
@[simp] theorem setQueue_acceptTimeout (a b : List FleetUnit) (w : Work) :
    (setQueue a b w).fou.acceptTimeout = w.fou.acceptTimeout := rfl
@[simp] theorem setQueue_silenceTimeout (a b : List FleetUnit) (w : Work) :
    (setQueue a b w).fou.silenceTimeout = w.fou.silenceTimeout := rfl

@[simp] theorem leaveQueue_robots (u : FleetUnit) (w : Work) : (leaveQueue u w).fou.robots = w.fou.robots := rfl
@[simp] theorem leaveQueue_orders (u v : FleetUnit) (w : Work) : (leaveQueue u w).fou.orders v = w.fou.orders v := by
  cases v <;> rfl
@[simp] theorem leaveQueue_acceptTimeout (u : FleetUnit) (w : Work) :
    (leaveQueue u w).fou.acceptTimeout = w.fou.acceptTimeout := rfl
@[simp] theorem leaveQueue_silenceTimeout (u : FleetUnit) (w : Work) :
    (leaveQueue u w).fou.silenceTimeout = w.fou.silenceTimeout := rfl
@[simp] theorem leaveQueue_attention (u : FleetUnit) (w : Work) :
    (leaveQueue u w).fou.attention = !(leaveQueue u w).fou.queue.isEmpty := rfl

@[simp] theorem joinQueue_robots (u : FleetUnit) (c : OrderClass) (w : Work) :
    (joinQueue u c w).fou.robots = w.fou.robots := by cases c <;> rfl
@[simp] theorem joinQueue_orders (u v : FleetUnit) (c : OrderClass) (w : Work) :
    (joinQueue u c w).fou.orders v = w.fou.orders v := by cases c <;> cases v <;> rfl
@[simp] theorem joinQueue_acceptTimeout (u : FleetUnit) (c : OrderClass) (w : Work) :
    (joinQueue u c w).fou.acceptTimeout = w.fou.acceptTimeout := by cases c <;> rfl
@[simp] theorem joinQueue_silenceTimeout (u : FleetUnit) (c : OrderClass) (w : Work) :
    (joinQueue u c w).fou.silenceTimeout = w.fou.silenceTimeout := by cases c <;> rfl
@[simp] theorem joinQueue_attention (u : FleetUnit) (c : OrderClass) (w : Work) :
    (joinQueue u c w).fou.attention = !(joinQueue u c w).fou.queue.isEmpty := by cases c <;> rfl

theorem mem_leaveQueue (u v : FleetUnit) (w : Work) : v ∈ (leaveQueue u w).fou.queue ↔ v ∈ w.fou.queue ∧ v ≠ u := by
  simp only [leaveQueue, Fou.queue, setQueue_urgentQ, setQueue_routineQ, List.mem_append, List.mem_filter, decide_eq_true_eq]
  tauto

theorem mem_leaveQueue_urgent (u v : FleetUnit) (w : Work) :
    v ∈ (leaveQueue u w).fou.urgentQ ↔ v ∈ w.fou.urgentQ ∧ v ≠ u := by
  simp [leaveQueue]

theorem leaveQueue_once (u : FleetUnit) (w : Work) (h : w.fou.queue.Nodup) : (leaveQueue u w).fou.queue.Nodup := by
  have e : (leaveQueue u w).fou.queue = w.fou.queue.filter (fun x => decide (x ≠ u)) := by
    simp [leaveQueue, Fou.queue, List.filter_append]
  rw [e]; exact h.filter _

theorem mem_joinQueue (u v : FleetUnit) (c : OrderClass) (w : Work) :
    v ∈ (joinQueue u c w).fou.queue ↔ v ∈ w.fou.queue ∨ v = u := by
  cases c <;> simp [joinQueue, Fou.queue] <;> tauto

theorem mem_joinQueue_urgent (u v : FleetUnit) (c : OrderClass) (w : Work) :
    v ∈ (joinQueue u c w).fou.urgentQ ↔ v ∈ w.fou.urgentQ ∨ (v = u ∧ c = .urgent) := by
  cases c <;> simp [joinQueue]

theorem joinQueue_once (u : FleetUnit) (c : OrderClass) (w : Work) (h : w.fou.queue.Nodup) (g : u ∉ w.fou.queue) :
    (joinQueue u c w).fou.queue.Nodup := by
  unfold Fou.queue at *
  rw [List.nodup_append] at h
  simp only [List.mem_append, not_or] at g
  cases c with
  | routine =>
    simp only [joinQueue, setQueue_urgentQ, setQueue_routineQ, List.nodup_append, List.mem_append, List.mem_singleton]
    refine ⟨h.1, ⟨h.2.1, by simp, fun a ha b hb e => g.2 (by rw [← hb, ← e]; exact ha)⟩, fun a ha b hb => ?_⟩
    rcases hb with hb | hb
    · exact h.2.2 a ha b hb
    · intro e; exact g.1 (by rw [← hb, ← e]; exact ha)
  | urgent =>
    simp only [joinQueue, setQueue_urgentQ, setQueue_routineQ, List.nodup_append, List.mem_append, List.mem_singleton]
    refine ⟨⟨h.1, by simp, fun a ha b hb e => g.1 (by rw [← hb, ← e]; exact ha)⟩, h.2.1, fun a ha b hb => ?_⟩
    rcases ha with ha | ha
    · exact h.2.2 a ha b hb
    · intro e; exact g.2 (by rw [← ha, e]; exact hb)

/-! ### One unit changed -/

/-- The unit's orders and its place in the queue have changed, and nothing of another unit. -/
theorem FleetInv.change {a b : Fou} (u : FleetUnit) (i : FleetInv a) (others : ∀ v, v ≠ u → b.orders v = a.orders v)
    (states : ∀ k, (tget b.robots k).state = (tget a.robots k).state) (own : UnitInv (b.orders u))
    (once : b.queue.Nodup) (mem : ∀ v, v ≠ u → (v ∈ b.queue ↔ v ∈ a.queue))
    (urg : ∀ v, v ≠ u → v ∈ a.urgentQ → v ∈ b.urgentQ) (here : u ∈ b.queue ↔ (b.orders u).waits)
    (ahead : ∀ o, (b.orders u).slot = some o → o.status = .queued → o.cls = .urgent → u ∈ b.urgentQ)
    (att : b.attention = !b.queue.isEmpty)
    (empty : ∀ k, u = .robot k → (tget a.robots k).state = .empty → (b.orders u).slot = none) : FleetInv b where
  once := once
  waiting := fun v => by
    by_cases e : v = u
    · subst e; exact here
    · rw [mem v e, others v e]; exact i.waiting v
  urgent := fun v o h1 h2 h3 => by
    by_cases e : v = u
    · subst e; exact ahead o h1 h2 h3
    · rw [others v e] at h1; exact urg v e (i.urgent v o h1 h2 h3)
  attention := att
  units := fun v => by
    by_cases e : v = u
    · subst e; exact own
    · rw [others v e]; exact i.units v
  empty := fun k h => by
    rw [states] at h
    by_cases e : (FleetUnit.robot k) = u
    · have := empty k e.symm h
      rw [← e] at this; exact this
    · have h1 := others _ e
      simp only [Fou.orders] at h1
      rw [h1]; exact i.empty k h

/-- What an operation on orders leaves and keeps: no robot's state, serial or slot is changed by it. -/
structure OrderStep (a b : Fou) : Prop where
  timeouts : b.acceptTimeout = a.acceptTimeout ∧ b.silenceTimeout = a.silenceTimeout
  robots : ∀ k, ∃ o, tget b.robots k = { tget a.robots k with orders := o }
  inv : FleetInv a → FleetInv b

theorem OrderStep.refl (a : Fou) : OrderStep a a := ⟨⟨rfl, rfl⟩, fun k => ⟨(tget a.robots k).orders, rfl⟩, id⟩

theorem OrderStep.trans {a b c : Fou} (h : OrderStep a b) (g : OrderStep b c) : OrderStep a c :=
  ⟨⟨g.timeouts.1.trans h.timeouts.1, g.timeouts.2.trans h.timeouts.2⟩,
    fun k => by
      obtain ⟨o, e⟩ := h.robots k
      obtain ⟨p, f⟩ := g.robots k
      exact ⟨p, by rw [f, e]⟩,
    fun i => g.inv (h.inv i)⟩

/-- A unit that can be given an order: a carrier, or a robot whose slot is not EMPTY. -/
def Fou.enrolled (x : Fou) (u : FleetUnit) : Prop := ∀ k, u = .robot k → (tget x.robots k).state ≠ .empty

theorem placeOrder_unit (kind : OrderKind) (cls : OrderClass) (x : UnitOrders) (h : x.successor = none) :
    UnitInv (placeOrder kind cls x) := by
  constructor <;> simp [placeOrder, h]

theorem successor_none {x : UnitOrders} (i : UnitInv x) (h : ∀ o, x.slot = some o → o.status ≠ .sent) :
    x.successor = none := by
  cases e : x.successor with
  | none => rfl
  | some s =>
    obtain ⟨o, h1, h2⟩ := i.successor (by simp [e])
    exact absurd h2 (h o h1)

/-- An order is placed for a unit that is not in the queue (R33, R34, R36). -/
theorem place_inv (u : FleetUnit) (kind : OrderKind) (cls : OrderClass) (g : UnitOrders → UnitOrders) (w : Work) (a : Fou)
    (i : FleetInv a) (hg : UnitInv (g (w.fou.orders u))) (slot : (g (w.fou.orders u)).slot =
      some { tag := (g (w.fou.orders u)).tagCounter, kind := kind, cls := cls, status := .queued, attempts := 0,
             acceptTimer := none })
    (others : ∀ v, v ≠ u → w.fou.orders v = a.orders v)
    (states : ∀ k, (tget w.fou.robots k).state = (tget a.robots k).state)
    (once : w.fou.queue.Nodup) (out : u ∉ w.fou.queue) (mem : ∀ v, v ≠ u → (v ∈ w.fou.queue ↔ v ∈ a.queue))
    (urg : ∀ v, v ≠ u → v ∈ a.urgentQ → v ∈ w.fou.urgentQ) (enr : a.enrolled u) :
    FleetInv (joinQueue u cls (updOrders u g w)).fou := by
  refine i.change u ?_ ?_ ?_ ?_ ?_ ?_ ?_ ?_ (joinQueue_attention _ _ _) ?_
  · intro v e; rw [joinQueue_orders, updOrders_orders_other _ _ _ _ e, others v e]
  · intro k; rw [joinQueue_robots, updOrders_state, states]
  · simpa using hg
  · apply joinQueue_once
    · simpa [Fou.queue] using once
    · simpa [Fou.queue] using out
  · intro v e; rw [mem_joinQueue]; simpa [Fou.queue, e] using mem v e
  · intro v e h; rw [mem_joinQueue_urgent]; exact .inl (by simpa using urg v e h)
  · rw [mem_joinQueue]; simp [UnitOrders.waits, slot]
  · intro o h1 _ h3
    rw [mem_joinQueue_urgent]
    simp only [joinQueue_orders, updOrders_orders_same, slot, Option.some.injEq] at h1
    subst h1
    exact .inr ⟨rfl, h3⟩
  · intro k e h; exact absurd h (enr k e)

/-! ### Issuing (R36) -/

theorem issueOrder_step (u : FleetUnit) (kind : OrderKind) (cls : OrderClass) (w : Work) (enr : w.fou.enrolled u) :
    OrderStep w.fou (issueOrder u kind cls w).fou := by
  unfold issueOrder
  simp only [work_orders_eq]
  split
  · rename_i hs
    refine ⟨by simp, fun k => by rw [joinQueue_robots]; exact updOrders_robot _ _ _ _, fun i => ?_⟩
    have hn := successor_none (i.units u) (by simp [hs])
    exact place_inv u kind cls _ w w.fou i (placeOrder_unit _ _ _ hn) rfl (fun _ _ => rfl) (fun _ => rfl) i.once
      (by rw [i.waiting]; simp [UnitOrders.waits, hs]) (fun _ _ => Iff.rfl) (fun _ _ h => h) enr
  · rename_i o hs
    split
    · rename_i hq
      have hn : FleetInv w.fou → (w.fou.orders u).successor = none :=
        fun i => successor_none (i.units u) (by intro p hp; rw [hs] at hp; cases hp; rw [hq]; simp)
      split
      · rename_i hc
        refine ⟨by simp, fun k => ?_, fun i => ?_⟩
        · rw [joinQueue_robots, leaveQueue_robots]; exact updOrders_robot _ _ _ _
        · refine i.change u ?_ ?_ ?_ ?_ ?_ ?_ ?_ ?_ (joinQueue_attention _ _ _) (fun k e h => absurd h (enr k e))
          · intro v e; rw [joinQueue_orders, leaveQueue_orders, updOrders_orders_other _ _ _ _ e]
          · intro k; rw [joinQueue_robots, leaveQueue_robots, updOrders_state]
          · simpa using placeOrder_unit kind cls _ (hn i)
          · apply joinQueue_once
            · exact leaveQueue_once _ _ (by simpa [Fou.queue] using i.once)
            · rw [mem_leaveQueue]; simp
          · intro v e; rw [mem_joinQueue, mem_leaveQueue]; simp [Fou.queue, e]
          · intro v e h; rw [mem_joinQueue_urgent, mem_leaveQueue_urgent]; exact .inl ⟨by simpa using h, e⟩
          · rw [mem_joinQueue]; simp [UnitOrders.waits, placeOrder]
          · intro p _ _ _; rw [mem_joinQueue_urgent]; exact .inr ⟨rfl, rfl⟩
      · rename_i hc
        refine ⟨by simp, fun k => updOrders_robot _ _ _ _, fun i => ?_⟩
        have hin : u ∈ w.fou.queue := by rw [i.waiting]; exact ⟨o, hs, hq⟩
        refine i.change u ?_ (by simp) ?_ ?_ ?_ ?_ ?_ ?_ ?_ (fun k e h => absurd h (enr k e))
        · intro v e; rw [updOrders_orders_other _ _ _ _ e]
        · simpa using placeOrder_unit kind cls _ (hn i)
        · simpa [Fou.queue] using i.once
        · intro v _; simp [Fou.queue]
        · intro v _ h; simpa using h
        · have : (updOrders u (placeOrder kind cls) w).fou.queue = w.fou.queue := by simp [Fou.queue]
          rw [this]; simp [UnitOrders.waits, placeOrder, hin]
        · intro p h1 _ h3
          simp only [updOrders_orders_same, placeOrder, Option.some.injEq] at h1
          subst h1
          simp only at h3
          have ho : o.cls = .urgent := by
            cases hcl : o.cls with
            | routine => exact absurd ⟨h3, hcl⟩ hc
            | urgent => rfl
          simpa using i.urgent u o hs hq ho
        · simpa [Fou.queue] using i.attention
    · rename_i hq
      refine ⟨by simp, fun k => updOrders_robot _ _ _ _, fun i => ?_⟩
      have hu := i.units u
      have hout : ¬ (w.fou.orders u).waits := by
        rintro ⟨p, h1, h2⟩; rw [hs] at h1; cases h1; rw [hq] at h2; cases h2
      refine i.change u ?_ (by simp) ?_ ?_ ?_ ?_ ?_ ?_ ?_ (fun k e h => absurd h (enr k e))
      · intro v e; rw [updOrders_orders_other _ _ _ _ e]
      · rw [updOrders_orders_same]
        exact ⟨hu.tag, hu.timer, hu.sent, hu.attempts, fun _ => ⟨o, hs, hq⟩⟩
      · simpa [Fou.queue] using i.once
      · intro v _; simp [Fou.queue]
      · intro v _ h; simpa using h
      · have e : (updOrders u (fun x => { x with successor := some ⟨kind, cls⟩ }) w).fou.queue = w.fou.queue := by
          simp [Fou.queue]
        rw [e, i.waiting]; simp [UnitOrders.waits]
      · intro p h1 h2 _
        simp only [updOrders_orders_same] at h1
        exact absurd ⟨p, h1, h2⟩ hout
      · simpa [Fou.queue] using i.attention
    · rename_i hq
      refine ⟨by simp, fun k => by rw [joinQueue_robots]; exact updOrders_robot _ _ _ _, fun i => ?_⟩
      have hn := successor_none (i.units u) (by intro p hp; rw [hs] at hp; cases hp; rw [hq]; simp)
      refine place_inv u kind cls _ w w.fou i (placeOrder_unit _ _ _ hn) rfl (fun _ _ => rfl) (fun _ => rfl) i.once ?_
        (fun _ _ => Iff.rfl) (fun _ _ h => h) enr
      rw [i.waiting]
      rintro ⟨p, h1, h2⟩
      rw [hs] at h1; cases h1; rw [hq] at h2; cases h2

/-! ### Discarding and ending (R37, R38) -/

theorem discardOrders_step (u : FleetUnit) (w : Work) : OrderStep w.fou (discardOrders u w).fou := by
  unfold discardOrders
  refine ⟨by simp, fun k => by rw [leaveQueue_robots]; exact updOrders_robot _ _ _ _, fun i => ?_⟩
  refine i.change u ?_ (by simp) ?_ ?_ ?_ ?_ ?_ ?_ (leaveQueue_attention _ _) (by simp)
  · intro v e; rw [leaveQueue_orders, updOrders_orders_other _ _ _ _ e]
  · rw [leaveQueue_orders, updOrders_orders_same]; constructor <;> simp
  · exact leaveQueue_once _ _ (by simpa [Fou.queue] using i.once)
  · intro v e; rw [mem_leaveQueue]; simp [Fou.queue, e]
  · intro v e h; rw [mem_leaveQueue_urgent]; exact ⟨by simpa using h, e⟩
  · rw [mem_leaveQueue]; simp [UnitOrders.waits]
  · simp

/-- After the orders of a unit are discarded it has none. -/
theorem discardOrders_none (u : FleetUnit) (w : Work) :
    ((discardOrders u w).fou.orders u).slot = none ∧ ((discardOrders u w).fou.orders u).successor = none := by
  simp [discardOrders]

/-- A promotion for a unit whose order has left the queue: the slot is empty, or ACCEPTED. -/
theorem promote_inv (u : FleetUnit) (w : Work) (a : Fou) (i : FleetInv a)
    (others : ∀ v, v ≠ u → w.fou.orders v = a.orders v)
    (states : ∀ k, (tget w.fou.robots k).state = (tget a.robots k).state)
    (once : w.fou.queue.Nodup) (out : u ∉ w.fou.queue) (mem : ∀ v, v ≠ u → (v ∈ w.fou.queue ↔ v ∈ a.queue))
    (urg : ∀ v, v ≠ u → v ∈ a.urgentQ → v ∈ w.fou.urgentQ) (att : w.fou.attention = !w.fou.queue.isEmpty)
    (quiet : ∀ o, (w.fou.orders u).slot = some o → o.status = .accepted)
    (clear : UnitInv { w.fou.orders u with successor := none })
    (enr : (w.fou.orders u).successor.isSome = true ∨ (w.fou.orders u).slot.isSome = true → a.enrolled u) :
    FleetInv (promote u w).fou := by
  have still : ∀ b : Fou, (∀ v, v ≠ u → b.orders v = w.fou.orders v) →
      (∀ k, (tget b.robots k).state = (tget w.fou.robots k).state) → b.urgentQ = w.fou.urgentQ → b.routineQ = w.fou.routineQ →
      b.attention = w.fou.attention → b.orders u = { w.fou.orders u with successor := none } → FleetInv b := by
    intro b h1 h2 h3 h4 h5 h6
    have hq : b.queue = w.fou.queue := by simp [Fou.queue, h3, h4]
    refine i.change u (fun v e => (h1 v e).trans (others v e)) (fun k => (h2 k).trans (states k)) (by rw [h6]; exact clear)
      (by rw [hq]; exact once) (fun v e => by rw [hq]; exact mem v e) (fun v e h => by rw [h3]; exact urg v e h) ?_ ?_
      (by rw [h5, hq]; exact att) ?_
    · rw [hq, h6]
      constructor
      · intro h; exact absurd h out
      · rintro ⟨o, g1, g2⟩; have := quiet o g1; rw [g2] at this; cases this
    · intro o g1 g2; rw [h6] at g1; have := quiet o g1; rw [g2] at this; cases this
    · intro k e h
      rw [h6]
      by_cases g : (w.fou.orders u).slot.isSome = true
      · exact absurd h (enr (.inr g) k e)
      · simpa using g
  unfold promote
  simp only [work_orders_eq]
  split
  · rename_i hs
    exact still _ (fun _ _ => rfl) (fun _ => rfl) rfl rfl rfl (by rw [← hs])
  · rename_i s hs
    split
    · exact still _ (fun v e => updOrders_orders_other _ _ _ _ e) (by simp) (by simp) (by simp) (by simp) (by simp)
    · refine place_inv u s.kind s.cls _ w a i ?_ rfl others states once out mem urg (enr (.inl (by simp [hs])))
      constructor <;> simp [placeOrder]

theorem promote_robots (u : FleetUnit) (w : Work) (k : Slot) :
    ∃ o, tget (promote u w).fou.robots k = { tget w.fou.robots k with orders := o } := by
  unfold promote
  split
  · exact ⟨(tget w.fou.robots k).orders, rfl⟩
  · split
    · exact updOrders_robot _ _ _ _
    · rw [joinQueue_robots]; exact updOrders_robot _ _ _ _

@[simp] theorem promote_timeouts (u : FleetUnit) (w : Work) :
    (promote u w).fou.acceptTimeout = w.fou.acceptTimeout ∧ (promote u w).fou.silenceTimeout = w.fou.silenceTimeout := by
  unfold promote
  split
  · exact ⟨rfl, rfl⟩
  · split <;> simp

theorem endOrder_step (u : FleetUnit) (w : Work) : OrderStep w.fou (endOrder u w).fou := by
  unfold endOrder
  refine ⟨by simp, fun k => ?_, fun i => ?_⟩
  · obtain ⟨o, e⟩ := promote_robots u (leaveQueue u (updOrders u (fun x => { x with slot := none }) w)) k
    obtain ⟨p, f⟩ := updOrders_robot u (fun x => { x with slot := none }) w k
    exact ⟨o, by rw [e, leaveQueue_robots, f]⟩
  · refine promote_inv u _ w.fou i ?_ (by simp) ?_ ?_ ?_ ?_ (leaveQueue_attention _ _) (by simp) ?_ ?_
    · intro v e; rw [leaveQueue_orders, updOrders_orders_other _ _ _ _ e]
    · exact leaveQueue_once _ _ (by simpa [Fou.queue] using i.once)
    · rw [mem_leaveQueue]; simp
    · intro v e; rw [mem_leaveQueue]; simp [Fou.queue, e]
    · intro v e h; rw [mem_leaveQueue_urgent]; exact ⟨by simpa using h, e⟩
    · constructor <;> simp
    · simp only [leaveQueue_orders, updOrders_orders_same, Option.isSome_none, Bool.false_eq_true, or_false]
      intro h k e g
      subst e
      obtain ⟨o, h1, _⟩ := (i.units (.robot k)).successor h
      have := i.empty k g
      simp only [Fou.orders] at h1
      rw [this] at h1; cases h1

/-! ### Reading, accepting, expiring (R35, R39, R41) -/

theorem finishOrderRead_step (u : FleetUnit) (tag : Byte) (w : Work) : OrderStep w.fou (finishOrderRead u tag w).fou := by
  unfold finishOrderRead
  simp only [work_orders_eq]
  split
  · exact OrderStep.refl _
  · rename_i o hs
    split
    · rename_i h
      refine ⟨by simp, fun k => by rw [leaveQueue_robots]; exact updOrders_robot _ _ _ _, fun i => ?_⟩
      have hu := i.units u
      have hn := successor_none hu (by intro p hp; rw [hs] at hp; cases hp; rw [h.1]; simp)
      have ha := (hu.attempts o hs).2 h.1
      refine i.change u ?_ (by simp) ?_ ?_ ?_ ?_ ?_ ?_ (leaveQueue_attention _ _) ?_
      · intro v e; rw [leaveQueue_orders, updOrders_orders_other _ _ _ _ e]
      · rw [leaveQueue_orders, updOrders_orders_same]
        refine ⟨?_, ?_, ?_, ?_, ?_⟩
        · intro p hp; cases hp; exact hu.tag o hs
        · intro p hp; cases hp; simp
        · intro p hp _; cases hp; rfl
        · intro p hp; cases hp; exact ⟨by simp only; omega, by simp⟩
        · intro g; simp [hn] at g
      · exact leaveQueue_once _ _ (by simpa [Fou.queue] using i.once)
      · intro v e; rw [mem_leaveQueue]; simp [Fou.queue, e]
      · intro v e g; rw [mem_leaveQueue_urgent]; exact ⟨by simpa using g, e⟩
      · rw [mem_leaveQueue]; simp [UnitOrders.waits]
      · intro p hp h2; simp at hp; subst hp; cases h2
      · intro k e g
        subst e
        have := i.empty k g
        simp only [Fou.orders] at hs
        rw [this] at hs; cases hs
    · exact OrderStep.refl _

theorem acceptOrder_step (u : FleetUnit) (tag : Byte) (w : Work) : OrderStep w.fou (acceptOrder u tag w).2.fou := by
  unfold acceptOrder
  simp only [work_orders_eq]
  split
  · exact OrderStep.refl _
  · split
    · exact OrderStep.refl _
    · rename_i o hs
      split
      · exact OrderStep.refl _
      · rename_i ht
        simp only
        have enr : FleetInv w.fou → w.fou.enrolled u := by
          intro i k e g
          subst e
          have := i.empty k g
          simp only [Fou.orders] at hs
          rw [this] at hs; cases hs
        have unit : FleetInv w.fou → UnitInv { w.fou.orders u with
            slot := some { o with status := .accepted, acceptTimer := none }, successor := none } := by
          intro i
          have hu := i.units u
          refine ⟨?_, ?_, ?_, ?_, by simp⟩
          · intro p hp; cases hp; exact hu.tag o hs
          · intro p hp; cases hp; simp
          · intro p hp h; cases hp; cases h
          · intro p hp; cases hp; exact ⟨(hu.attempts o hs).1, by simp⟩
        split
        · refine ⟨by simp, fun k => ?_, fun i => ?_⟩
          · obtain ⟨p, e⟩ := promote_robots u (leaveQueue u (updOrders u (fun y => { y with
              slot := some { o with status := .accepted, acceptTimer := none } }) w)) k
            obtain ⟨q, f⟩ := updOrders_robot u (fun y => { y with
              slot := some { o with status := .accepted, acceptTimer := none } }) w k
            exact ⟨p, by rw [e, leaveQueue_robots, f]⟩
          · refine promote_inv u _ w.fou i ?_ (by simp) ?_ ?_ ?_ ?_ (leaveQueue_attention _ _) (by simp) ?_
              (fun _ => enr i)
            · intro v e; rw [leaveQueue_orders, updOrders_orders_other _ _ _ _ e]
            · exact leaveQueue_once _ _ (by simpa [Fou.queue] using i.once)
            · rw [mem_leaveQueue]; simp
            · intro v e; rw [mem_leaveQueue]; simp [Fou.queue, e]
            · intro v e h; rw [mem_leaveQueue_urgent]; exact ⟨by simpa using h, e⟩
            · simpa using unit i
        · rename_i hq
          refine ⟨by simp, fun k => ?_, fun i => ?_⟩
          · obtain ⟨p, e⟩ := promote_robots u (updOrders u (fun y => { y with
              slot := some { o with status := .accepted, acceptTimer := none } }) w) k
            obtain ⟨q, f⟩ := updOrders_robot u (fun y => { y with
              slot := some { o with status := .accepted, acceptTimer := none } }) w k
            exact ⟨p, by rw [e, f]⟩
          · refine promote_inv u _ w.fou i ?_ (by simp) ?_ ?_ ?_ ?_ ?_ (by simp) ?_ (fun _ => enr i)
            · intro v e; rw [updOrders_orders_other _ _ _ _ e]
            · simpa [Fou.queue] using i.once
            · have e : ∀ f, (updOrders u f w).fou.queue = w.fou.queue := by intro f; simp [Fou.queue]
              rw [e, i.waiting]
              rintro ⟨p, h1, h2⟩
              rw [hs] at h1; cases h1; exact hq h2
            · intro v _; simp [Fou.queue]
            · intro v _ h; simpa using h
            · simpa [Fou.queue] using i.attention
            · simpa using unit i

theorem expireAccept_step (u : FleetUnit) (w : Work) : OrderStep w.fou (expireAccept u w).2.fou := by
  unfold expireAccept
  simp only [work_orders_eq]
  split
  · exact OrderStep.refl _
  · rename_i o hs
    split
    · rename_i h
      split
      · exact endOrder_step u w
      · rename_i hn
        split
        · rename_i ha
          refine ⟨by simp, fun k => by rw [joinQueue_robots]; exact updOrders_robot _ _ _ _, fun i => ?_⟩
          have hu := i.units u
          have hout : u ∉ w.fou.queue := by
            rw [i.waiting]; rintro ⟨p, h1, h2⟩; rw [hs] at h1; cases h1; rw [h.1] at h2; cases h2
          refine i.change u ?_ ?_ ?_ ?_ ?_ ?_ ?_ ?_ (joinQueue_attention _ _ _) ?_
          · intro v e; rw [joinQueue_orders, updOrders_orders_other _ _ _ _ e]
          · intro k; rw [joinQueue_robots, updOrders_state]
          · rw [joinQueue_orders, updOrders_orders_same]
            refine ⟨?_, ?_, ?_, ?_, ?_⟩
            · intro p hp; cases hp; exact hu.tag o hs
            · intro p hp; cases hp; simp
            · intro p hp g; cases hp; cases g
            · intro p hp; cases hp; exact ⟨(hu.attempts o hs).1, fun _ => by simp only; omega⟩
            · intro g; exact absurd g hn
          · apply joinQueue_once
            · simpa [Fou.queue] using i.once
            · simpa [Fou.queue] using hout
          · intro v e; rw [mem_joinQueue]; simp [Fou.queue, e]
          · intro v e g; rw [mem_joinQueue_urgent]; exact .inl (by simpa using g)
          · rw [mem_joinQueue]; simp [UnitOrders.waits]
          · intro p hp _ g
            rw [mem_joinQueue_urgent]
            simp at hp; subst hp
            exact .inr ⟨rfl, g⟩
          · intro k e g
            subst e
            have := i.empty k g
            simp only [Fou.orders] at hs
            rw [this] at hs; cases hs
        · exact OrderStep.refl _
    · exact OrderStep.refl _

end Sys2Proof.Machine
end

