-- ==== Sys2Proof/Laws/Rows.lean ====
section
/-! SUPPORT. What each change of a row record keeps: the map's fields, the accumulator, and the conditions of `RowInv`. -/

namespace Sys2Proof.Machine

theorem mapSame_refl (x : RowRec) : MapSame x x := ⟨rfl, rfl, rfl, rfl, rfl⟩

theorem MapSame.trans {x y z : RowRec} (h : MapSame x y) (g : MapSame y z) : MapSame x z := by
  obtain ⟨a, b, c, d, e⟩ := h
  obtain ⟨a', b', c', d', e'⟩ := g
  exact ⟨a'.trans a, b'.trans b, c'.trans c, d'.trans d, e'.trans e⟩

theorem rowStep_refl (x : RowRec) : RowStep x x := ⟨mapSame_refl x, rfl, id⟩

theorem RowStep.trans {x y z : RowRec} (h : RowStep x y) (g : RowStep y z) : RowStep x z :=
  ⟨h.map.trans g.map, g.acc.trans h.acc, fun i => g.inv (h.inv i)⟩

/-- A notice placed changes only the slot. -/
theorem placeNotice_fields (n : Notice) (x : RowRec) :
    (placeNotice n x).zone = x.zone ∧ (placeNotice n x).capacity = x.capacity ∧ (placeNotice n x).length = x.length ∧
      (placeNotice n x).reference = x.reference ∧ (placeNotice n x).excluded = x.excluded ∧
      (placeNotice n x).acc = x.acc ∧ (placeNotice n x).state = x.state ∧ (placeNotice n x).holdTimer = x.holdTimer ∧
      (placeNotice n x).hold = x.hold ∧ (placeNotice n x).attempts = x.attempts ∧
      (placeNotice n x).present = x.present ∧ (placeNotice n x).incoming = x.incoming ∧
      (placeNotice n x).stowWanted = x.stowWanted := by
  unfold placeNotice
  split
  · simp
  · split
    · split <;> simp
    · simp
    · simp

theorem placeNotice_slot (n : Notice) (x : RowRec) (h : x.state ≠ .stowed) :
    (placeNotice n x).noticeRead = true → (placeNotice n x).notice.isSome = true := by
  unfold placeNotice
  rw [if_neg h]
  split
  · split <;> simp
  · rename_i e; intro _; rw [e]; rfl
  · simp

/-- A notice placed in a row that is not STOWED, after a change that is right but for the slot. -/
theorem placeNotice_inv (n : Notice) (x : RowRec) (h : x.state ≠ .stowed)
    (timer : x.holdTimer.isSome = true ↔ x.state = .holdAsked)
    (hold : x.hold.isSome = true ↔ x.state = .holdAsked ∨ x.state = .held ∨ x.state = .occupied ∨ x.state = .stowWait)
    (attempts : x.attempts ≤ 255) (capacity : x.capacity ≤ 1000) (length : x.length ≤ 63) : RowInv (placeNotice n x) := by
  obtain ⟨_, hc, hl, _, _, _, hs, ht, hh, ha, _, _, _⟩ := placeNotice_fields n x
  exact
    { stowed := fun e => absurd (hs ▸ e) h
      timer := by rw [ht, hs]; exact timer
      hold := by rw [hh, hs]; exact hold
      attempts := by rw [ha]; exact attempts
      read := placeNotice_slot n x h
      capacity := by rw [hc]; exact capacity
      length := by rw [hl]; exact length }

theorem placeNotice_step (n : Notice) (x y : RowRec) (hm : MapSame x y) (ha : y.acc = x.acc)
    (hi : RowInv x → RowInv (placeNotice n y)) : RowStep x (placeNotice n y) := by
  obtain ⟨h1, h2, h3, h4, h5, h6, _⟩ := placeNotice_fields n y
  obtain ⟨g1, g2, g3, g4, g5⟩ := hm
  exact ⟨⟨h1.trans g1, h2.trans g2, h3.trans g3, h4.trans g4, h5.trans g5⟩, h6.trans ha, hi⟩

theorem clearRow_step (forced : Bool) (x : RowRec) : RowStep x (clearRow forced x) := by
  refine placeNotice_step _ _ _ ⟨rfl, rfl, rfl, rfl, rfl⟩ rfl (fun i => ?_)
  apply placeNotice_inv <;> simp [dropHold, i.attempts, i.capacity, i.length]

theorem trackWith_step (n : Notice) (x : RowRec) : RowStep x (trackWith n x) := by
  refine placeNotice_step _ _ _ ⟨rfl, rfl, rfl, rfl, rfl⟩ rfl (fun i => ?_)
  apply placeNotice_inv <;> simp [dropHold, i.attempts, i.capacity, i.length]

theorem stowRow_step (x : RowRec) : RowStep x (stowRow x) := by
  refine ⟨⟨rfl, rfl, rfl, rfl, rfl⟩, rfl, fun i => ?_⟩
  constructor <;> simp [stowRow, dropHold, i.attempts, i.capacity, i.length]

theorem dropHoldTracking_step (x : RowRec) : RowStep x { dropHold x with state := .tracking } := by
  refine ⟨⟨rfl, rfl, rfl, rfl, rfl⟩, rfl, fun i => ?_⟩
  constructor <;> simp [dropHold, i.attempts, i.capacity, i.length]
  exact i.read

/-- A change of presence, reservation or stow wanted alone. -/
theorem place_step (x : RowRec) (p : Option Slot) (v : Option Reservation) (s : Bool) :
    RowStep x { x with present := p, incoming := v, stowWanted := s } :=
  ⟨⟨rfl, rfl, rfl, rfl, rfl⟩, rfl, fun i => ⟨i.stowed, i.timer, i.hold, i.attempts, i.read, i.capacity, i.length⟩⟩

theorem enterReserved_step (x : RowRec) : RowStep x (enterReserved x) := by
  unfold enterReserved
  split
  · exact place_step x _ _ x.stowWanted
  · exact rowStep_refl x

theorem countAsk_step (q : Requester) (x : RowRec) : RowStep x (countAsk q x) := by
  unfold countAsk
  split
  · exact ⟨⟨rfl, rfl, rfl, rfl, rfl⟩, rfl, fun i =>
      ⟨i.stowed, i.timer, i.hold, Nat.min_le_left _ _, i.read, i.capacity, i.length⟩⟩
  · exact ⟨⟨rfl, rfl, rfl, rfl, rfl⟩, rfl, fun i =>
      ⟨i.stowed, i.timer, i.hold, by simp, i.read, i.capacity, i.length⟩⟩

theorem clearOrTrack_step (storm : Bool) (x : RowRec) : RowStep x (clearOrTrack storm x) := by
  unfold clearOrTrack
  split
  · exact clearRow_step _ x
  · exact trackWith_step _ x

theorem endOccupancyRow_step (storm : Bool) (x : RowRec) : RowStep x (endOccupancyRow storm x) := by
  unfold endOccupancyRow
  split
  · exact clearOrTrack_step storm x
  · exact clearRow_step _ x
  · exact rowStep_refl x

theorem lockRowRec_step (x : RowRec) : RowStep x (lockRowRec x) := by
  unfold lockRowRec
  split
  · refine ⟨⟨rfl, rfl, rfl, rfl, rfl⟩, rfl, fun i => ?_⟩
    constructor <;> simp [dropHold, i.attempts, i.capacity, i.length]
    exact i.read
  · exact rowStep_refl x

/-- An OCCUPIED row becomes STOW_WAIT, or a STOW_WAIT row OCCUPIED again. -/
theorem occupiedWait_step (x : RowRec) (st : RowState) (h : x.state = .occupied ∨ x.state = .stowWait)
    (g : st = .occupied ∨ st = .stowWait) : RowStep x { x with state := st } := by
  refine ⟨⟨rfl, rfl, rfl, rfl, rfl⟩, rfl, fun i => ?_⟩
  have ht := i.timer
  have hh := i.hold
  rcases h with h | h <;> rcases g with g | g <;> subst g <;> rw [h] at ht hh <;>
    exact ⟨by simp, by simpa using ht, by simpa using hh, i.attempts, i.read, i.capacity, i.length⟩

theorem standingClear_step (x : RowRec) : RowStep x (standingClear x) := by
  unfold standingClear
  split
  · exact rowStep_refl x
  · split
    · exact clearRow_step _ x
    · exact clearRow_step _ x
    · rename_i h; exact occupiedWait_step x _ (.inl h) (.inr rfl)
    · exact rowStep_refl x

theorem freeReservationRow_step (storm after : Bool) (x : RowRec) :
    RowStep x (freeReservationRow storm after x) := by
  unfold freeReservationRow
  have h := place_step x x.present none x.stowWanted
  split
  · split
    · split
      · exact h.trans (clearRow_step _ _)
      · split
        · exact h.trans (clearOrTrack_step _ _)
        · exact h
    · exact h
  all_goals first
    | exact h
    | exact rowStep_refl x

theorem unlockRow_step (storm : Bool) (k : Slot) (x : RowRec) : RowStep x (unlockRow storm k x) := by
  unfold unlockRow
  split
  · split
    · exact (place_step x x.present none x.stowWanted).trans (clearOrTrack_step _ _)
    · exact clearOrTrack_step _ _
  · exact rowStep_refl x

/-- The row of a hold ask that is taken (R9). -/
theorem askRow_step (q : Requester) (p : Purpose) (now : Time) (x : RowRec) :
    RowStep x (placeNotice (.holdAsk p)
      { countAsk q x with state := .holdAsked, hold := some ⟨q, p⟩, holdTimer := some now }) := by
  have h := countAsk_step q x
  refine placeNotice_step _ _ _ ?_ ?_ (fun i => ?_)
  · exact ⟨h.map.1, h.map.2.1, h.map.2.2.1, h.map.2.2.2.1, h.map.2.2.2.2⟩
  · exact h.acc
  · have j := h.inv i
    apply placeNotice_inv <;> simp [j.attempts, j.capacity, j.length]

/-- The row enters HELD (R11). -/
theorem heldRow_step (x : RowRec) (h : x.state = .holdAsked) :
    RowStep x { x with state := .held, holdTimer := none } := by
  refine ⟨⟨rfl, rfl, rfl, rfl, rfl⟩, rfl, fun i => ?_⟩
  have hh := i.hold
  rw [h] at hh
  exact ⟨by simp, by simp, by simpa using hh, i.attempts, i.read, i.capacity, i.length⟩

/-- The row becomes OCCUPIED (R11). -/
theorem occupiedRow_step (x : RowRec) (h : x.state = .held) : RowStep x { x with state := .occupied } := by
  refine ⟨⟨rfl, rfl, rfl, rfl, rfl⟩, rfl, fun i => ?_⟩
  have ht := i.timer
  have hh := i.hold
  rw [h] at ht hh
  exact ⟨by simp, by simpa using ht, by simpa using hh, i.attempts, i.read, i.capacity, i.length⟩

theorem stowWantedRow_step (x : RowRec) : RowStep x (stowWantedRow x) := by
  unfold stowWantedRow
  have h := place_step x x.present x.incoming true
  simp only
  split
  · exact h.trans (clearRow_step _ _)
  · exact h.trans (clearRow_step _ _)
  · rename_i e; exact h.trans (occupiedWait_step _ _ (.inl e) (.inr rfl))
  · rename_i e
    refine placeNotice_step _ _ _ h.map h.acc (fun i => ?_)
    have j := h.inv i
    apply placeNotice_inv
    · rw [e]; simp
    · exact j.timer
    · exact j.hold
    · exact j.attempts
    · exact j.capacity
    · exact j.length
  all_goals exact h

theorem forcedStowRow_step (x : RowRec) : RowStep x (forcedStowRow x) := by
  unfold forcedStowRow
  simp only
  refine RowStep.trans ?_ (stowRow_step _)
  split
  · exact (enterReserved_step x).trans (place_step _ _ _ true)
  · exact place_step x _ _ true

theorem unstowedRow_step (storm : Bool) (x : RowRec) : RowStep x (unstowedRow storm x) := by
  unfold unstowedRow
  have h := place_step x x.present x.incoming false
  simp only
  have hfree : x.state = .stowCleared ∨ x.state = .stowed →
      RowStep x { x with stowWanted := false, state := .tracking } := by
    intro e
    refine ⟨⟨rfl, rfl, rfl, rfl, rfl⟩, rfl, fun i => ?_⟩
    have ht := i.timer
    have hh := i.hold
    rcases e with e | e <;> rw [e] at ht hh <;>
      exact ⟨by simp, by simpa using ht, by simpa using hh, i.attempts, i.read, i.capacity, i.length⟩
  split
  · rename_i e
    split
    · exact h.trans (clearRow_step _ _)
    · exact hfree (.inl e)
  · rename_i e
    split
    · exact h.trans (clearRow_step _ _)
    · exact hfree (.inr e)
  · rename_i e
    split
    · exact h
    · exact h.trans (occupiedWait_step _ _ (.inr e) (.inl rfl))
  all_goals exact h

theorem deadlineRow_step (x : RowRec) : RowStep x (deadlineRow x) := by
  unfold deadlineRow
  split
  · refine RowStep.trans ?_ (clearRow_step _ _)
    split
    · exact enterReserved_step x
    · exact rowStep_refl x
  · refine RowStep.trans ?_ (clearRow_step _ _)
    split
    · exact enterReserved_step x
    · exact rowStep_refl x
  · exact clearRow_step _ x
  · split
    · exact (place_step x x.present none x.stowWanted).trans (clearRow_step _ _)
    · exact rowStep_refl x
  · exact rowStep_refl x

/-- A read of the notice begins, or ends with the slot emptied (R25). -/
theorem readRow_step (x : RowRec) (h : x.notice.isSome = true) : RowStep x { x with noticeRead := true } :=
  ⟨⟨rfl, rfl, rfl, rfl, rfl⟩, rfl, fun i => ⟨i.stowed, i.timer, i.hold, i.attempts, fun _ => h, i.capacity, i.length⟩⟩

theorem emptySlotRow_step (x : RowRec) : RowStep x { x with notice := none, noticeRead := false } :=
  ⟨⟨rfl, rfl, rfl, rfl, rfl⟩, rfl, fun i => ⟨fun _ => rfl, i.timer, i.hold, i.attempts, by simp, i.capacity, i.length⟩⟩

/-- The accumulator keeps its condition through every change (R26). -/
theorem raiseAcc_inv (x y : RowRec) (hi : AccInv x) (ha : y.acc = x.acc) : AccInv (raiseAcc x y) := by
  unfold raiseAcc
  split
  · unfold AccInv rowClass
    exact Nat.le_refl _
  · rename_i h
    unfold AccInv at *
    by_cases hc : x.state ≠ y.state ∨ x.excluded ≠ y.excluded
    · have : ¬ classRank y.acc < classRank (rowClass y) := fun g => h ⟨hc, g⟩
      omega
    · have e : rowClass y = rowClass x := by
        simp only [not_or, not_not] at hc
        simp [rowClass, hc.1, hc.2]
      rw [e, ha]; exact hi

/-- Raising the accumulator leaves the other fields. -/
theorem raiseAcc_inv_row (x y : RowRec) (h : RowInv y) : RowInv (raiseAcc x y) := by
  unfold raiseAcc
  split
  · exact ⟨h.stowed, h.timer, h.hold, h.attempts, h.read, h.capacity, h.length⟩
  · exact h

theorem raiseAcc_mapSame (x y : RowRec) (h : MapSame x y) : MapSame x (raiseAcc x y) := by
  unfold raiseAcc
  split
  · exact h
  · exact h

end Sys2Proof.Machine
end

