-- ==== Sys2Proof/Laws/Parts.lean ====
section
/-! SUPPORT. What the shared operations may do to each functional block, said once for each block: the fields they never touch and
the conditions they keep. -/

namespace Sys2Proof.Machine

/-! ### The rows -/

/-- What a change of rows by the blocks leaves and keeps. -/
structure RacStep (a b : Rac) : Prop where
  windows : b.winFirst = a.winFirst ∧ b.winLast = a.winLast ∧ b.mapPtr = a.mapPtr ∧ b.holdTimeout = a.holdTimeout
  map : ∀ r, MapSame (tget a.rows r) (tget b.rows r)
  acc : ∀ r, classRank (tget a.rows r).acc ≤ classRank (tget b.rows r).acc
  rows : RowsInv a → RowsInv b
  notices : NoticeInv a → NoticeInv b

theorem RacStep.refl (a : Rac) : RacStep a a := ⟨⟨rfl, rfl, rfl, rfl⟩, fun _ => mapSame_refl _, fun _ => Nat.le_refl _, id, id⟩

theorem RacStep.trans {a b c : Rac} (h : RacStep a b) (g : RacStep b c) : RacStep a c :=
  ⟨⟨g.windows.1.trans h.windows.1, g.windows.2.1.trans h.windows.2.1, g.windows.2.2.1.trans h.windows.2.2.1,
    g.windows.2.2.2.trans h.windows.2.2.2⟩, fun r => (h.map r).trans (g.map r), fun r => (h.acc r).trans (g.acc r),
    fun i => g.rows (h.rows i), fun i => g.notices (h.notices i)⟩

theorem raiseAcc_notice (x y : RowRec) : (raiseAcc x y).notice = y.notice := by unfold raiseAcc; split <;> rfl

theorem raiseAcc_state (x y : RowRec) : (raiseAcc x y).state = y.state := by unfold raiseAcc; split <;> rfl

theorem raiseAcc_rank (x y : RowRec) (h : y.acc = x.acc) : classRank x.acc ≤ classRank (raiseAcc x y).acc := by
  unfold raiseAcc
  split
  · rename_i g; rw [← h]; exact Nat.le_of_lt g.2
  · rw [h]

/-- The notice list after one row's slot has changed (R24). -/
theorem syncNotices_inv (rows : Table 256 RowRec) (l : List Row) (r : Row) (new : RowRec) (once : l.Nodup)
    (full : ∀ q : Row, q ∈ l ↔ (tget rows q).notice.isSome = true) :
    (syncNotices r (tget rows r) new l).Nodup ∧
      ∀ q : Row, q ∈ syncNotices r (tget rows r) new l ↔ (tget (tset rows r new) q).notice.isSome = true := by
  unfold syncNotices
  split
  · rename_i h
    simp only [Bool.and_eq_true] at h
    have hr : r ∉ l := by rw [full]; cases hx : (tget rows r).notice <;> simp_all
    refine ⟨by simpa [List.nodup_append, hr] using ⟨once, fun a ha e => hr (e ▸ ha)⟩, fun q => ?_⟩
    by_cases e : q = r
    · subst e; simp [h.2]
    · simp [e, tget_tset_other _ _ _ _ e, full]
  · rename_i h
    split
    · rename_i g
      simp only [Bool.and_eq_true] at g
      refine ⟨once.filter _, fun q => ?_⟩
      by_cases e : q = r
      · subst e; cases hx : new.notice <;> simp_all
      · simp [e, tget_tset_other _ _ _ _ e, full]
    · rename_i g
      refine ⟨once, fun q => ?_⟩
      by_cases e : q = r
      · subst e
        rw [full, tget_tset_same]
        cases hx : new.notice <;> cases hy : (tget rows q).notice <;> simp_all
      · simp [tget_tset_other _ _ _ _ e, full]

/-- One row changed by `putRow`, where the change leaves the row's record as the rules keep it. -/
theorem putRow_racStep (r : Row) (f : RowRec → RowRec) (w : Work) (h : RowStep (w.row r) (f (w.row r))) :
    RacStep w.rac (putRow r f w).rac where
  windows := ⟨rfl, rfl, rfl, rfl⟩
  map := fun q => by
    by_cases e : q = r
    · subst e; simpa [putRow, Work.row] using raiseAcc_mapSame _ _ h.map
    · simpa [putRow, tget_tset_other _ _ _ _ e] using mapSame_refl _
  acc := fun q => by
    by_cases e : q = r
    · subst e; simpa [putRow, Work.row] using raiseAcc_rank _ _ h.acc
    · simp [putRow, tget_tset_other _ _ _ _ e]
  rows := fun i q => by
    by_cases e : q = r
    · subst e
      simpa [putRow] using ⟨raiseAcc_inv_row _ _ (h.inv (i q).1), raiseAcc_inv _ _ (i q).2 h.acc⟩
    · simpa [putRow, tget_tset_other _ _ _ _ e] using i q
  notices := fun i => by
    have := syncNotices_inv w.rac.rows w.rac.notices r (raiseAcc (tget w.rac.rows r) (f (tget w.rac.rows r))) i.once i.full
    exact ⟨this.1, this.2, rfl⟩

theorem putAllRows_rows (f : Row → RowRec → RowRec) (w : Work) :
    (putAllRows f w).rac.rows = tmap (fun r x => raiseAcc x (f r x)) w.rac.rows := by simp only [putAllRows]

theorem putAllRows_attention (f : Row → RowRec → RowRec) (w : Work) :
    (putAllRows f w).rac.attention = !(putAllRows f w).rac.notices.isEmpty := by simp only [putAllRows]

theorem putAllRows_windows (f : Row → RowRec → RowRec) (w : Work) :
    (putAllRows f w).rac.winFirst = w.rac.winFirst ∧ (putAllRows f w).rac.winLast = w.rac.winLast ∧
      (putAllRows f w).rac.mapPtr = w.rac.mapPtr ∧ (putAllRows f w).rac.holdTimeout = w.rac.holdTimeout := by
  simp only [putAllRows, and_self]

/-- The notice list after a change of every row (R24). -/
theorem putAllRows_notices (f : Row → RowRec → RowRec) (w : Work) (i : NoticeInv w.rac) :
    NoticeInv (putAllRows f w).rac := by
  refine ⟨?_, fun q => ?_, putAllRows_attention f w⟩
  · simp only [putAllRows, tget_tmap]
    refine List.Nodup.append (i.once.filter _) ((List.nodup_finRange 256).filter _) (fun q h1 h2 => ?_)
    simp only [List.mem_filter, Bool.and_eq_true] at h1 h2
    have := (i.full q).1 h1.1
    cases hx : (tget w.rac.rows q).notice <;> simp_all
  · simp only [putAllRows, tget_tmap, List.mem_append, List.mem_filter, mem_indices, true_and, i.full]
    cases hx : (tget w.rac.rows q).notice <;>
      cases hy : (raiseAcc (tget w.rac.rows q) (f q (tget w.rac.rows q))).notice <;> simp_all

/-- Every row changed by `putAllRows`. -/
theorem putAllRows_racStep (f : Row → RowRec → RowRec) (w : Work) (h : ∀ r, RowStep (w.row r) (f r (w.row r))) :
    RacStep w.rac (putAllRows f w).rac where
  windows := putAllRows_windows f w
  map := fun q => by rw [putAllRows_rows, tget_tmap]; exact raiseAcc_mapSame _ _ (h q).map
  acc := fun q => by rw [putAllRows_rows, tget_tmap]; exact raiseAcc_rank _ _ (h q).acc
  rows := fun i q => by
    rw [putAllRows_rows, tget_tmap]
    exact ⟨raiseAcc_inv_row _ _ ((h q).inv (i q).1), raiseAcc_inv _ _ (i q).2 (h q).acc⟩
  notices := putAllRows_notices f w

theorem updRow_racStep (r : Row) (f : RowRec → RowRec) (w : Work) (h : RowStep (w.row r) (f (w.row r))) :
    RacStep w.rac (updRow r f w).rac := by rw [updRow_rac]; exact putRow_racStep r f w h

theorem updAllRows_racStep (f : Row → RowRec → RowRec) (w : Work) (h : ∀ r, RowStep (w.row r) (f r (w.row r))) :
    RacStep w.rac (updAllRows f w).rac := by rw [updAllRows_rac]; exact putAllRows_racStep f w h

/-! ### The report queue -/

/-- What a post leaves and keeps. -/
structure RpqStep (a b : Rpq) : Prop where
  settings : b.threshold = a.threshold ∧ b.staleTime = a.staleTime
  inv : ReportInv a → ReportInv b

theorem RpqStep.refl (a : Rpq) : RpqStep a a := ⟨⟨rfl, rfl⟩, id⟩

theorem RpqStep.trans {a b c : Rpq} (h : RpqStep a b) (g : RpqStep b c) : RpqStep a c :=
  ⟨⟨g.settings.1.trans h.settings.1, g.settings.2.trans h.settings.2⟩, fun i => g.inv (h.inv i)⟩

theorem storeOverrun_settings (now : Time) (q : Rpq) :
    (storeOverrun now q).threshold = q.threshold ∧ (storeOverrun now q).staleTime = q.staleTime := by
  unfold storeOverrun; split <;> exact ⟨rfl, rfl⟩

theorem storeGroup_settings (now : Time) (l : List RecordBody) (q : Rpq) :
    (storeGroup now l q).threshold = q.threshold ∧ (storeGroup now l q).staleTime = q.staleTime := by
  unfold storeGroup; split
  · exact ⟨rfl, rfl⟩
  · exact storeOverrun_settings _ _

/-- The attention judged afresh meets its condition. -/
theorem judge_attention (now : Time) (q : Rpq) :
    q.threshold ≤ q.queue.length ∨ q.queue.any (fun r => prompt r.body) = true → plantAttention now q = true := by
  intro h
  unfold plantAttention
  rcases h with h | h
  · simp [h]
  · rw [h]; simp

theorem storeOverrun_counts (now : Time) (q : Rpq) (h1 : q.queue.length ≤ Config.reportPlaces)
    (h2 : q.overrun ≤ Config.countLimit) :
    (storeOverrun now q).queue.length ≤ Config.reportPlaces ∧
      ((storeOverrun now q).overrun ≠ 0 → (storeOverrun now q).queue.length = Config.reportPlaces) ∧
      (storeOverrun now q).overrun ≤ Config.countLimit := by
  unfold storeOverrun
  split
  · rename_i h
    refine ⟨?_, fun e => absurd rfl e, Nat.zero_le _⟩
    simp; omega
  · rename_i h
    refine ⟨h1, fun e => ?_, h2⟩
    by_contra g
    exact h ⟨e, by omega⟩

theorem postGroup_rpqStep (l : List RecordBody) (w : Work) : RpqStep w.rpq (postGroup l w).rpq where
  settings := storeGroup_settings _ _ _
  inv := fun i => by
    have key : (storeGroup w.now l w.rpq).queue.length ≤ Config.reportPlaces ∧
        ((storeGroup w.now l w.rpq).overrun ≠ 0 → (storeGroup w.now l w.rpq).queue.length = Config.reportPlaces) ∧
        (storeGroup w.now l w.rpq).overrun ≤ Config.countLimit := by
      unfold storeGroup
      split
      · rename_i h
        exact ⟨by simpa using h.2, fun e => absurd h.1 e, i.count⟩
      · exact storeOverrun_counts _ _ i.places (Nat.min_le_left _ _)
    exact ⟨key.1, key.2.1, key.2.2, judge_attention w.now _⟩

theorem post_rpqStep (b : RecordBody) (w : Work) : RpqStep w.rpq (post b w).rpq := postGroup_rpqStep [b] w

theorem judgePlant_rpqStep (w : Work) : RpqStep w.rpq (judgePlant w).rpq :=
  ⟨⟨rfl, rfl⟩, fun i => ⟨i.places, i.overrun, i.count, judge_attention w.now w.rpq⟩⟩

theorem removeReport_rpqStep (w : Work) : RpqStep w.rpq (removeReport w).rpq where
  settings := storeOverrun_settings _ _
  inv := fun i => by
    have h := storeOverrun_counts w.now { w.rpq with queue := w.rpq.queue.tail }
      (by simp; have := i.places; omega) i.count
    exact ⟨h.1, h.2.1, h.2.2, judge_attention w.now _⟩

end Sys2Proof.Machine
end

