-- ==== Sys2Proof/Laws/Lower.lean ====
section
/-! SUPPORT. What the row, order and transfer operations may do to the block within an event, said once: `Lower` lists everything
they leave and every condition they keep, and each of them is shown to stay within it. -/

namespace Sys2Proof.Machine

/-! ### Robots, carriers and requests -/

/-- What the operations within an event leave and keep of the fleet order unit. -/
structure FouStep (a b : Fou) : Prop where
  timeouts : b.acceptTimeout = a.acceptTimeout ∧ b.silenceTimeout = a.silenceTimeout
  slots : ∀ k, ((tget b.robots k).state = .empty ↔ (tget a.robots k).state = .empty) ∧
    (tget b.robots k).serial = (tget a.robots k).serial
  inv : FleetInv a → FleetInv b

theorem FouStep.refl (a : Fou) : FouStep a a := ⟨⟨rfl, rfl⟩, fun _ => ⟨Iff.rfl, rfl⟩, id⟩

theorem FouStep.trans {a b c : Fou} (h : FouStep a b) (g : FouStep b c) : FouStep a c :=
  ⟨⟨g.timeouts.1.trans h.timeouts.1, g.timeouts.2.trans h.timeouts.2⟩,
    fun k => ⟨(g.slots k).1.trans (h.slots k).1, (g.slots k).2.trans (h.slots k).2⟩, fun i => g.inv (h.inv i)⟩

theorem OrderStep.fouStep {a b : Fou} (h : OrderStep a b) : FouStep a b :=
  ⟨h.timeouts, fun k => by obtain ⟨o, e⟩ := h.robots k; rw [e]; exact ⟨Iff.rfl, rfl⟩, h.inv⟩

/-- The settings of the transfer scheduler. -/
def TxsSame (a b : Txs) : Prop :=
  b = { a with carriers := b.carriers, pool := b.pool, seqCounter := b.seqCounter }

/-- What the operations within an event leave and keep of the transfer scheduler. -/
structure TxsStep (a b : Txs) : Prop where
  settings : TxsSame a b
  spans : ∀ c, (tget b.carriers c).enabled = (tget a.carriers c).enabled ∧
    (tget b.carriers c).span = (tget a.carriers c).span
  inv : PoolInv a → PoolInv b

theorem TxsStep.refl (a : Txs) : TxsStep a a := ⟨rfl, fun _ => ⟨rfl, rfl⟩, id⟩

theorem TxsStep.trans {a b c : Txs} (h : TxsStep a b) (g : TxsStep b c) : TxsStep a c := by
  refine ⟨?_, fun k => ⟨(g.spans k).1.trans (h.spans k).1, (g.spans k).2.trans (h.spans k).2⟩, fun i => g.inv (h.inv i)⟩
  have h1 := h.settings
  have g1 := g.settings
  unfold TxsSame at *
  cases a; cases b; cases c
  simp only [Txs.mk.injEq] at *
  simp_all

/-- A freeze may drain, and nothing else of the plan store changes (R94). -/
structure PlsStep (a b : Pls) : Prop where
  same : b = { a with freeze := b.freeze }
  freeze : b.freeze = a.freeze ∨ (a.freeze = .freezeAsked ∧ b.freeze = .frozen)

theorem PlsStep.refl (a : Pls) : PlsStep a a := ⟨rfl, .inl rfl⟩

/-- Two steps of the freeze state are one. -/
theorem freeze_trans {a b c : FreezeState} (h : b = a ∨ (a = .freezeAsked ∧ b = .frozen))
    (g : c = b ∨ (b = .freezeAsked ∧ c = .frozen)) : c = a ∨ (a = .freezeAsked ∧ c = .frozen) := by
  rcases h with rfl | ⟨rfl, rfl⟩
  · exact g
  · rcases g with rfl | ⟨g, _⟩
    · exact .inr ⟨rfl, rfl⟩
    · cases g

theorem PlsStep.trans {a b c : Pls} (h : PlsStep a b) (g : PlsStep b c) : PlsStep a c := by
  refine ⟨?_, freeze_trans h.freeze g.freeze⟩
  have h1 := h.same
  have g1 := g.same
  cases a; cases b; cases c
  simp only [Pls.mk.injEq] at *
  simp_all

/-- The banks and the flip are what they were. -/
theorem PlsStep.banks {a b : Pls} (h : PlsStep a b) :
    b.bankA = a.bankA ∧ b.bankB = a.bankB ∧ b.front = a.front ∧ b.flipPending = a.flipPending := by
  rw [h.same]; exact ⟨rfl, rfl, rfl, rfl⟩

theorem PlsStep.roundInv {a b : Pls} (h : PlsStep a b) (x : Rsc) (i : RoundInv a x) : RoundInv b x := by
  rw [h.same]; exact ⟨i.flip, i.rows, i.length, i.limit, i.entries, i.budgets⟩

/-- Storm alightings may be withdrawn, and the block may come to be secured, which removes them all (R147, R148); nothing else
of the weather monitor changes. -/
structure WxmStep (a b : Wxm) : Prop where
  same : b = { a with
    weather := b.weather, deadlineTimer := b.deadlineTimer, alights := b.alights, askKept := b.askKept }
  weather : (b.weather = a.weather ∧ b.deadlineTimer = a.deadlineTimer) ∨
    (a.weather = .parking ∧ b.weather = .secured ∧ b.deadlineTimer = none ∧ ∀ c, tget b.alights c = none)
  alights : ∀ c, tget b.alights c = tget a.alights c ∨ tget b.alights c = none

theorem WxmStep.refl (a : Wxm) : WxmStep a a := ⟨rfl, .inl ⟨rfl, rfl⟩, fun _ => .inl rfl⟩

theorem WxmStep.trans {a b c : Wxm} (h : WxmStep a b) (g : WxmStep b c) : WxmStep a c := by
  refine ⟨?_, ?_, fun k => ?_⟩
  · have h1 := h.same
    have g1 := g.same
    cases a; cases b; cases c
    simp only [Wxm.mk.injEq] at *
    simp_all
  · rcases h.weather with ⟨e1, e2⟩ | ⟨e1, e2, e3, e4⟩
    · rw [← e1, ← e2]; exact g.weather
    · refine .inr ⟨e1, ?_⟩
      rcases g.weather with ⟨f1, f2⟩ | ⟨f1, _⟩
      · refine ⟨f1.trans e2, f2.trans e3, fun k => ?_⟩
        rcases g.alights k with f | f
        · rw [f]; exact e4 k
        · exact f
      · rw [e2] at f1; cases f1
  · rcases g.alights k with e | e
    · rw [e]; exact h.alights k
    · exact .inr e

/-! ### The relation -/

/-- What the row, order and transfer operations leave and keep. -/
structure Lower (s t : State) : Prop where
  now : t.now = s.now
  plant : t.plant = s.plant
  tracker : t.tracker = s.tracker
  fleet : t.fleet = s.fleet
  freeUses : t.freeUses = s.freeUses
  pending : t.pending = s.pending
  seu : t.seu = s.seu
  yac : t.yac = s.yac
  pls : PlsStep s.pls t.pls
  rsc : t.rsc = s.rsc
  rac : RacStep s.rac t.rac
  fou : FouStep s.fou t.fou
  txs : TxsStep s.txs t.txs
  wxm : WxmStep s.wxm t.wxm
  rpq : RpqStep s.rpq t.rpq

theorem Lower.refl (s : State) : Lower s s :=
  ⟨rfl, rfl, rfl, rfl, rfl, rfl, rfl, rfl, .refl _, rfl, .refl _, .refl _, .refl _, .refl _, .refl _⟩

theorem Lower.trans {s t u : State} (h : Lower s t) (g : Lower t u) : Lower s u :=
  ⟨g.now.trans h.now, g.plant.trans h.plant, g.tracker.trans h.tracker, g.fleet.trans h.fleet,
    g.freeUses.trans h.freeUses, g.pending.trans h.pending, g.seu.trans h.seu, g.yac.trans h.yac, h.pls.trans g.pls,
    g.rsc.trans h.rsc, h.rac.trans g.rac, h.fou.trans g.fou, h.txs.trans g.txs, h.wxm.trans g.wxm, h.rpq.trans g.rpq⟩

theorem Lower.foldl {α : Type} (f : Work → α → Work) (hf : ∀ v x, Lower v.toState (f v x).toState) (l : List α) :
    ∀ w : Work, Lower w.toState (l.foldl f w).toState := by
  induction l with
  | nil => exact fun w => Lower.refl _
  | cons x l ih => exact fun w => (hf w x).trans (ih (f w x))

/-- Both ways of a choice. -/
theorem Lower.ite {c : Prop} [Decidable c] {s : State} {a b : Work} (ha : c → Lower s a.toState)
    (hb : ¬ c → Lower s b.toState) : Lower s (if c then a else b).toState := by
  split
  · rename_i h; exact ha h
  · rename_i h; exact hb h

/-- Only the rows have changed. -/
theorem Lower.ofRac {s t : State} (e : t = { s with rac := t.rac }) (h : RacStep s.rac t.rac) : Lower s t := by
  rw [e]
  exact ⟨rfl, rfl, rfl, rfl, rfl, rfl, rfl, rfl, .refl _, rfl, h, .refl _, .refl _, .refl _, .refl _⟩

/-- Only the fleet order unit has changed. -/
theorem Lower.ofFou {s t : State} (e : t = { s with fou := t.fou }) (h : FouStep s.fou t.fou) : Lower s t := by
  rw [e]
  exact ⟨rfl, rfl, rfl, rfl, rfl, rfl, rfl, rfl, .refl _, rfl, .refl _, h, .refl _, .refl _, .refl _⟩

/-- Only the transfer scheduler has changed. -/
theorem Lower.ofTxs {s t : State} (e : t = { s with txs := t.txs }) (h : TxsStep s.txs t.txs) : Lower s t := by
  rw [e]
  exact ⟨rfl, rfl, rfl, rfl, rfl, rfl, rfl, rfl, .refl _, rfl, .refl _, .refl _, h, .refl _, .refl _⟩

/-- Only the report queue has changed. -/
theorem Lower.ofRpq {s t : State} (e : t = { s with rpq := t.rpq }) (h : RpqStep s.rpq t.rpq) : Lower s t := by
  rw [e]
  exact ⟨rfl, rfl, rfl, rfl, rfl, rfl, rfl, rfl, .refl _, rfl, .refl _, .refl _, .refl _, .refl _, h⟩

/-- Only the storm alightings have changed. -/
theorem Lower.ofWxm {s t : State} (e : t = { s with wxm := t.wxm }) (h : WxmStep s.wxm t.wxm) : Lower s t := by
  rw [e]
  exact ⟨rfl, rfl, rfl, rfl, rfl, rfl, rfl, rfl, .refl _, rfl, .refl _, .refl _, .refl _, h, .refl _⟩

/-! ### Messages and records -/

theorem send_lower (m : Msg) (w : Work) : Lower w.toState (send m w).toState := Lower.refl _
theorem sendAll_lower (ms : List Msg) (w : Work) : Lower w.toState (sendAll ms w).toState := Lower.refl _
theorem askPass_lower (w : Work) : Lower w.toState (askPass w).toState := Lower.refl _

theorem passAtOnce_lower (w : Work) : Lower w.toState (passAtOnce w).toState := Lower.refl _
theorem tell_lower (w : Work) : Lower w.toState (tell w).toState := Lower.refl _
theorem arbitrateAll_lower (w : Work) : Lower w.toState (arbitrateAll w).toState := Lower.refl _

theorem postGroup_lower (l : List RecordBody) (w : Work) : Lower w.toState (postGroup l w).toState :=
  Lower.ofRpq rfl (postGroup_rpqStep l w)

theorem post_lower (b : RecordBody) (w : Work) : Lower w.toState (post b w).toState := postGroup_lower [b] w

/-! ### The tests at a change of state (R94, R148) -/

theorem drainTest_lower (w : Work) : Lower w.toState (drainTest w).toState := by
  unfold drainTest
  split
  · rename_i h
    refine Lower.trans ?_ (post_lower _ _)
    exact ⟨rfl, rfl, rfl, rfl, rfl, rfl, rfl, rfl, ⟨rfl, .inr ⟨h.1, rfl⟩⟩, rfl, .refl _, .refl _, .refl _, .refl _, .refl _⟩
  · exact Lower.refl _

theorem securedTest_lower (w : Work) : Lower w.toState (securedTest w).toState := by
  unfold securedTest
  split
  · rename_i h
    refine ⟨rfl, rfl, rfl, rfl, rfl, rfl, rfl, rfl, .refl _, rfl, .refl _, .refl _, .refl _, ?_, post_rpqStep _ _⟩
    exact ⟨rfl, .inr ⟨h.2.1, rfl, rfl, fun c => tget_tfill 4 _ c⟩, fun c => .inr (tget_tfill 4 _ c)⟩
  · exact Lower.refl _

theorem stateChanged_lower (b : Bool) (w : Work) : Lower w.toState (stateChanged b w).toState := by
  unfold stateChanged
  split
  · exact (securedTest_lower (tell w)).trans (drainTest_lower _)
  · exact Lower.refl _

/-! ### Rows -/

theorem updRow_lower (r : Row) (f : RowRec → RowRec) (w : Work) (h : RowStep (w.row r) (f (w.row r))) :
    Lower w.toState (updRow r f w).toState :=
  (Lower.ofRac (t := (putRow r f w).toState) rfl (putRow_racStep r f w h)).trans (stateChanged_lower _ _)

theorem putAllRows_toState (f : Row → RowRec → RowRec) (w : Work) :
    (putAllRows f w).toState = { w.toState with rac := (putAllRows f w).rac } := by simp only [putAllRows]

theorem updAllRows_lower (f : Row → RowRec → RowRec) (w : Work) (h : ∀ r, RowStep (w.row r) (f r (w.row r))) :
    Lower w.toState (updAllRows f w).toState :=
  (Lower.ofRac (putAllRows_toState f w) (putAllRows_racStep f w h)).trans (stateChanged_lower _ _)

theorem answerHold_lower (r : Row) (h : Option Hold) (a : HoldAnswer) (w : Work) :
    Lower w.toState (answerHold r h a w).toState := by
  unfold answerHold; split <;> exact Lower.refl _

theorem askHold_lower (q : Requester) (p : Purpose) (k : Slot) (r : Row) (w : Work) :
    Lower w.toState (askHold q p k r w).toState := by
  unfold askHold
  split
  · exact updRow_lower _ _ _ (askRow_step _ _ _ _)
  · exact updRow_lower _ _ _ (countAsk_step _ _)

theorem cancelHold_lower (q : Requester) (r : Row) (w : Work) : Lower w.toState (cancelHold q r w).toState := by
  unfold cancelHold
  simp only
  split
  · exact updRow_lower _ _ _ (trackWith_step _ _)
  · exact Lower.refl _

theorem expireHold_lower (r : Row) (w : Work) : Lower w.toState (expireHold r w).toState := by
  unfold expireHold
  simp only
  split
  · exact (updRow_lower _ _ _ (trackWith_step _ _)).trans (answerHold_lower _ _ _ _)
  · exact Lower.refl _

theorem endOccupancy_lower (r : Row) (w : Work) : Lower w.toState (endOccupancy r w).toState :=
  updRow_lower _ _ _ (endOccupancyRow_step _ _)

theorem lockRow_lower (r : Row) (w : Work) : Lower w.toState (lockRow r w).toState :=
  updRow_lower _ _ _ (lockRowRec_step _)

theorem standingClearance_lower (w : Work) : Lower w.toState (standingClearance w).toState := by
  unfold standingClearance
  exact (updAllRows_lower _ _ (fun _ => standingClear_step _)).trans
    (Lower.foldl _ (fun v r => answerHold_lower _ _ _ _) _ _)

theorem incoming_step (x : RowRec) (v : Option Reservation) : RowStep x { x with incoming := v } :=
  place_step x x.present v x.stowWanted

theorem present_step (x : RowRec) (p : Option Slot) : RowStep x { x with present := p } :=
  place_step x p x.incoming x.stowWanted

theorem reserve_lower (r : Row) (k : Slot) (kind : ResKind) (w : Work) :
    Lower w.toState (reserve r k kind w).2.toState := by
  unfold reserve
  split
  · exact updRow_lower _ _ _ (incoming_step _ _)
  · exact Lower.refl _

theorem setKind_lower (r : Row) (kind : ResKind) (w : Work) : Lower w.toState (setKind r kind w).toState :=
  updRow_lower _ _ _ (incoming_step _ _)

theorem freeReservation_lower (r : Row) (w : Work) : Lower w.toState (freeReservation r w).toState :=
  updRow_lower _ _ _ (freeReservationRow_step _ _ _)

theorem freeReservations_lower (k : Slot) (keep : List Row) (w : Work) :
    Lower w.toState (freeReservations k keep w).toState :=
  Lower.foldl _ (fun v r => freeReservation_lower r v) _ _

theorem enterPresent_lower (r : Row) (k : Slot) (w : Work) : Lower w.toState (enterPresent r k w).toState :=
  updRow_lower _ _ _ (present_step _ _)

theorem clearPresence_lower (k : Slot) (w : Work) : Lower w.toState (clearPresence k w).toState :=
  Lower.foldl _ (fun v r => updRow_lower r _ v (present_step _ _)) _ _

theorem recoverRows_lower (k : Slot) (w : Work) : Lower w.toState (recoverRows k w).toState := by
  unfold recoverRows
  exact ((clearPresence_lower k w).trans (freeReservations_lower k [] _)).trans
    (Lower.foldl _ (fun v r => updRow_lower r _ v (unlockRow_step _ _ _)) _ _)

/-! ### Robots and orders -/

/-- A change of a robot record that leaves its slot's enrolment and its orders. -/
theorem putRobot_fouStep (k : Slot) (f : Robot → Robot) (w : Work)
    (hs : (f (w.robot k)).state = .empty ↔ (w.robot k).state = .empty) (hn : (f (w.robot k)).serial = (w.robot k).serial)
    (ho : (f (w.robot k)).orders = (w.robot k).orders) : FouStep w.fou (putRobot k f w).fou := by
  have horders : ∀ u, (putRobot k f w).fou.orders u = w.fou.orders u := by
    intro u
    cases u with
    | robot j =>
      by_cases e : j = k
      · subst e; simpa [putRobot, Fou.orders, Work.robot] using ho
      · simp [putRobot, Fou.orders, tget_tset_other _ _ _ _ e]
    | carrier c => rfl
  have hslots : ∀ j, ((tget (putRobot k f w).fou.robots j).state = .empty ↔ (tget w.fou.robots j).state = .empty) ∧
      (tget (putRobot k f w).fou.robots j).serial = (tget w.fou.robots j).serial := by
    intro j
    by_cases e : j = k
    · subst e; simpa [putRobot, Work.robot] using ⟨hs, hn⟩
    · simp [putRobot, tget_tset_other _ _ _ _ e]
  refine ⟨⟨rfl, rfl⟩, hslots, fun i => ?_⟩
  refine ⟨i.once, fun u => ?_, fun u o h1 h2 h3 => ?_, i.attention, fun u => ?_, fun j h => ?_⟩
  · rw [horders]; exact i.waiting u
  · rw [horders] at h1; exact i.urgent u o h1 h2 h3
  · rw [horders]; exact i.units u
  · have h1 := horders (.robot j)
    simp only [Fou.orders] at h1
    rw [h1]; exact i.empty j ((hslots j).1.1 h)

theorem updRobot_lower (k : Slot) (f : Robot → Robot) (w : Work)
    (hs : (f (w.robot k)).state = .empty ↔ (w.robot k).state = .empty) (hn : (f (w.robot k)).serial = (w.robot k).serial)
    (ho : (f (w.robot k)).orders = (w.robot k).orders) : Lower w.toState (updRobot k f w).toState :=
  (Lower.ofFou (t := (putRobot k f w).toState) rfl (putRobot_fouStep k f w hs hn ho)).trans (stateChanged_lower _ _)

@[simp] theorem withState_state (st : RobotState) (x : Robot) : (withState st x).state = st := by cases st <;> rfl
@[simp] theorem withState_serial (st : RobotState) (x : Robot) : (withState st x).serial = x.serial := by cases st <;> rfl
@[simp] theorem withState_orders (st : RobotState) (x : Robot) : (withState st x).orders = x.orders := by cases st <;> rfl
@[simp] theorem withState_row (st : RobotState) (x : Robot) : (withState st x).row = x.row := by cases st <;> rfl
@[simp] theorem withState_link (st : RobotState) (x : Robot) : (withState st x).link = x.link := by cases st <;> rfl
@[simp] theorem withState_carrier (st : RobotState) (x : Robot) : (withState st x).carrier = x.carrier := by cases st <;> rfl

/-- Only the fleet order unit is touched by these. -/
theorem orders_toState (u : FleetUnit) (f : UnitOrders → UnitOrders) (w : Work) :
    (updOrders u f w).toState = { w.toState with fou := (updOrders u f w).fou } := by cases u <;> rfl

theorem joinQueue_toState (u : FleetUnit) (c : OrderClass) (w : Work) :
    (joinQueue u c w).toState = { w.toState with fou := (joinQueue u c w).fou } := by cases c <;> rfl

theorem leaveQueue_toState (u : FleetUnit) (w : Work) :
    (leaveQueue u w).toState = { w.toState with fou := (leaveQueue u w).fou } := rfl

theorem issueOrder_toState (u : FleetUnit) (kind : OrderKind) (cls : OrderClass) (w : Work) :
    (issueOrder u kind cls w).toState = { w.toState with fou := (issueOrder u kind cls w).fou } := by
  unfold issueOrder
  split
  · rw [joinQueue_toState, orders_toState]
  · split
    · split
      · rw [joinQueue_toState, leaveQueue_toState, orders_toState]
      · rw [orders_toState]
    · rw [orders_toState]
    · rw [joinQueue_toState, orders_toState]

theorem promote_toState (u : FleetUnit) (w : Work) : (promote u w).toState = { w.toState with fou := (promote u w).fou } := by
  unfold promote
  split
  · rfl
  · split
    · rw [orders_toState]
    · rw [joinQueue_toState, orders_toState]

theorem endOrder_toState (u : FleetUnit) (w : Work) :
    (endOrder u w).toState = { w.toState with fou := (endOrder u w).fou } := by
  unfold endOrder; rw [promote_toState, leaveQueue_toState, orders_toState]

theorem discardOrders_toState (u : FleetUnit) (w : Work) :
    (discardOrders u w).toState = { w.toState with fou := (discardOrders u w).fou } := by
  unfold discardOrders; rw [leaveQueue_toState, orders_toState]

theorem finishOrderRead_toState (u : FleetUnit) (tag : Byte) (w : Work) :
    (finishOrderRead u tag w).toState = { w.toState with fou := (finishOrderRead u tag w).fou } := by
  unfold finishOrderRead
  split
  · rfl
  · split
    · rw [leaveQueue_toState, orders_toState]
    · rfl

theorem acceptOrder_toState (u : FleetUnit) (tag : Byte) (w : Work) :
    (acceptOrder u tag w).2.toState = { w.toState with fou := (acceptOrder u tag w).2.fou } := by
  unfold acceptOrder
  simp only
  split
  · rfl
  · split
    · rfl
    · split
      · rfl
      · simp only
        split
        · rw [promote_toState, leaveQueue_toState, orders_toState]
        · rw [promote_toState, orders_toState]

theorem expireAccept_toState (u : FleetUnit) (w : Work) :
    (expireAccept u w).2.toState = { w.toState with fou := (expireAccept u w).2.fou } := by
  unfold expireAccept
  split
  · rfl
  · split
    · split
      · exact endOrder_toState u w
      · split
        · rw [joinQueue_toState, orders_toState]
        · rfl
    · rfl

theorem issueOrder_lower (u : FleetUnit) (kind : OrderKind) (cls : OrderClass) (w : Work) (h : w.fou.enrolled u) :
    Lower w.toState (issueOrder u kind cls w).toState :=
  Lower.ofFou (issueOrder_toState u kind cls w) (issueOrder_step u kind cls w h).fouStep

theorem endOrder_lower (u : FleetUnit) (w : Work) : Lower w.toState (endOrder u w).toState :=
  Lower.ofFou (endOrder_toState u w) (endOrder_step u w).fouStep

theorem discardOrders_lower (u : FleetUnit) (w : Work) : Lower w.toState (discardOrders u w).toState :=
  Lower.ofFou (discardOrders_toState u w) (discardOrders_step u w).fouStep

theorem finishOrderRead_lower (u : FleetUnit) (tag : Byte) (w : Work) :
    Lower w.toState (finishOrderRead u tag w).toState :=
  Lower.ofFou (finishOrderRead_toState u tag w) (finishOrderRead_step u tag w).fouStep

theorem acceptOrder_lower (u : FleetUnit) (tag : Byte) (w : Work) : Lower w.toState (acceptOrder u tag w).2.toState :=
  Lower.ofFou (acceptOrder_toState u tag w) (acceptOrder_step u tag w).fouStep

theorem expireAccept_lower (u : FleetUnit) (w : Work) : Lower w.toState (expireAccept u w).2.toState :=
  Lower.ofFou (expireAccept_toState u w) (expireAccept_step u w).fouStep

theorem carrier_enrolled (x : Fou) (c : CarrierIx) : x.enrolled (.carrier c) := by intro k h; cases h

theorem robot_enrolled (w : Work) (k : Slot) (h : (w.robot k).state ≠ .empty) : w.fou.enrolled (.robot k) := by
  intro j e; cases e; exact h

/-- A robot's record after a change of it. -/
@[simp] theorem updRobot_robot_same (k : Slot) (f : Robot → Robot) (w : Work) :
    (updRobot k f w).robot k = f (w.robot k) := by simp [putRobot, Work.robot]

theorem updRobot_robot_other (k j : Slot) (f : Robot → Robot) (w : Work) (h : j ≠ k) :
    (updRobot k f w).robot j = w.robot j := by simp [putRobot, Work.robot, tget_tset_other _ _ _ _ h]

/-- A robot that is enrolled is put in a state. -/
theorem putState_lower (k : Slot) (f : Robot → Robot) (w : Work) (hne : (w.robot k).state ≠ .empty)
    (hs : (f (w.robot k)).state ≠ .empty) (hn : (f (w.robot k)).serial = (w.robot k).serial)
    (ho : (f (w.robot k)).orders = (w.robot k).orders) : Lower w.toState (updRobot k f w).toState :=
  updRobot_lower k f w (by simp [hne, hs]) hn ho

theorem askGoHead_lower (k : Slot) (cls : OrderClass) (w : Work) : Lower w.toState (askGoHead k cls w).toState := by
  unfold askGoHead
  simp only
  split
  · rename_i h
    refine (putState_lower k _ w (by rw [h]; simp) (by simp) (by simp) (by simp)).trans (issueOrder_lower _ _ _ _ ?_)
    exact robot_enrolled _ _ (by simp)
  · rename_i h
    split
    · split
      · exact issueOrder_lower _ _ _ _ (robot_enrolled _ _ (by rw [h]; simp))
      · exact Lower.refl _
    · exact Lower.refl _
  · exact Lower.refl _

theorem issueHoldOrder_lower (p : Purpose) (k : Slot) (r : Row) (m : Mode) (c : CarrierIx) (cls : OrderClass) (w : Work)
    (h : (w.robot k).state ≠ .empty) : Lower w.toState (issueHoldOrder p k r m c cls w).toState := by
  unfold issueHoldOrder
  split
  · exact (putState_lower k _ w h (by simp) (by simp) (by simp)).trans
      (issueOrder_lower _ _ _ _ (robot_enrolled _ _ (by simp)))
  · exact (putState_lower k _ w h (by simp) (by simp) (by simp)).trans
      (issueOrder_lower _ _ _ _ (robot_enrolled _ _ (by simp)))
  · exact (putState_lower k _ w h (by simp) (by simp) (by simp)).trans
      (issueOrder_lower _ _ _ _ (robot_enrolled _ _ (by simp)))

theorem parkRobot_lower (k : Slot) (f : Robot → Robot) (w : Work) (h : (w.robot k).state ≠ .empty)
    (hn : (f (w.robot k)).serial = (w.robot k).serial) (ho : (f (w.robot k)).orders = (w.robot k).orders) :
    Lower w.toState (parkRobot k f w).toState :=
  (putState_lower k _ w h (by simp) (by simpa using hn) (by simpa using ho)).trans (endOrder_lower _ _)

/-! ### Carriers and the pool -/

theorem updCarrier_lower (c : CarrierIx) (f : Carrier → Carrier) (w : Work)
    (he : (f (w.carrier c)).enabled = (w.carrier c).enabled) (hs : (f (w.carrier c)).span = (w.carrier c).span) :
    Lower w.toState (updCarrier c f w).toState := by
  refine (Lower.ofTxs (t := (putCarrier c f w).toState) rfl
    ⟨rfl, fun d => ?_, fun i => ⟨i.robots, i.requests⟩⟩).trans (stateChanged_lower _ _)
  by_cases e : d = c
  · subst e; simpa [putCarrier, Work.carrier] using ⟨he, hs⟩
  · simp [putCarrier, tget_tset_other _ _ _ _ e]

theorem setPool_lower (l : List Request) (w : Work) (h : PoolInv w.txs → PoolInv { w.txs with pool := l }) :
    Lower w.toState (setPool l w).toState := Lower.ofTxs rfl ⟨rfl, fun _ => ⟨rfl, rfl⟩, h⟩

theorem map_robots (l : List Request) (g : Request → Request) (h : ∀ q, (g q).robot = q.robot) :
    (l.map g).map (·.robot) = l.map (·.robot) := by
  rw [List.map_map]; exact List.map_congr_left (fun q _ => h q)

/-- The requests are changed one by one, each for the same robot and still as the rules keep it. -/
theorem mapPool_inv (x : Txs) (g : Request → Request) (hr : ∀ q, (g q).robot = q.robot)
    (hi : ∀ q ∈ x.pool, RequestInv x.ceiling q → RequestInv x.ceiling (g q)) :
    PoolInv x → PoolInv { x with pool := x.pool.map g } := by
  intro i
  refine ⟨?_, fun q hq => ?_⟩
  · rw [map_robots _ _ hr]; exact i.robots
  · obtain ⟨p, hp, e⟩ := List.mem_map.1 hq
    subst e
    exact hi p hp (i.requests p hp)

theorem updRequest_lower (seq : Half) (f : Request → Request) (w : Work) (hr : ∀ q, (f q).robot = q.robot)
    (hi : ∀ q, RequestInv w.txs.ceiling q → RequestInv w.txs.ceiling (f q)) :
    Lower w.toState (updRequest seq f w).toState := by
  refine setPool_lower _ _ (mapPool_inv _ _ (fun q => ?_) (fun q _ g => ?_))
  · by_cases e : q.seq = seq <;> simp [e, hr]
  · by_cases e : q.seq = seq
    · simpa [e] using hi q g
    · simpa [e] using g

theorem filterPool_lower (p : Request → Bool) (w : Work) : Lower w.toState (setPool (w.txs.pool.filter p) w).toState := by
  refine setPool_lower _ _ (fun i => ⟨?_, fun q hq => i.requests q (List.mem_of_mem_filter hq)⟩)
  exact i.robots.sublist (List.filter_sublist.map _)

end Sys2Proof.Machine
end

