-- ==== Sys2Proof/Laws/Transfers.lean ====
section
/-! SUPPORT. The transfer scheduler stays within `Lower`: one lemma for each of its operations. -/

namespace Sys2Proof.Machine

/-! ### Searches -/

theorem reserve_txs (r : Row) (k : Slot) (kind : ResKind) (w : Work) : (reserve r k kind w).2.txs = w.txs := by
  unfold reserve; split
  · exact updRow_txs _ _ _
  · rfl

theorem findLegTarget_lower (q : Request) (w : Work) : Lower w.toState (findLegTarget q w).2.toState := by
  unfold findLegTarget
  split
  · exact Lower.refl _
  · split
    · exact Lower.refl _
    · split
      · exact Lower.refl _
      · split
        · exact reserve_lower _ _ _ _
        · exact Lower.refl _

theorem findLegTarget_txs (q : Request) (w : Work) : (findLegTarget q w).2.txs = w.txs := by
  unfold findLegTarget
  split
  · rfl
  · split
    · rfl
    · split
      · rfl
      · split
        · exact reserve_txs _ _ _ _
        · rfl

theorem chooseStormTarget_lower (c : CarrierIx) (q : Request) (w : Work) :
    Lower w.toState (chooseStormTarget c q w).2.toState := by
  unfold chooseStormTarget
  simp only
  split
  · exact setKind_lower _ _ _
  · split
    · exact Lower.refl _
    · exact reserve_lower _ _ _ _

/-! ### Storm alightings, travels and parking -/

theorem removeAlight_lower (c : CarrierIx) (w : Work) : Lower w.toState (removeAlight c w).toState := by
  unfold removeAlight
  have h : Lower w.toState { w.toState with wxm := { w.wxm with
      alights := tset w.wxm.alights c none, askKept := tset w.wxm.askKept c 0 } } := by
    refine Lower.ofWxm rfl ⟨rfl, .inl ⟨rfl, rfl⟩, fun d => ?_⟩
    by_cases e : d = c
    · subst e; simp
    · simp [tget_tset_other _ _ _ _ e]
  simp only
  split
  · exact h
  · exact Lower.trans h (cancelHold_lower _ _ { w with wxm := { w.wxm with
      alights := tset w.wxm.alights c none, askKept := tset w.wxm.askKept c 0 } })

theorem travel_lower (c : CarrierIx) (r : Row) (cls : OrderClass) (w : Work) :
    Lower w.toState (travel c r cls w).toState := by
  unfold travel
  exact (updCarrier_lower c _ w rfl rfl).trans (issueOrder_lower _ _ _ _ (carrier_enrolled _ _))

theorem parkCarrier_lower (c : CarrierIx) (cls : OrderClass) (w : Work) :
    Lower w.toState (parkCarrier c cls w).toState := by
  unfold parkCarrier
  exact (updCarrier_lower c _ w rfl rfl).trans (issueOrder_lower _ _ _ _ (carrier_enrolled _ _))

theorem setIdle_lower (c : CarrierIx) (w : Work) : Lower w.toState (setIdle c w).toState := by
  unfold setIdle
  simp only
  split
  · split
    · exact (updCarrier_lower c _ w rfl rfl).trans (parkCarrier_lower _ _ _)
    · exact (updCarrier_lower c _ w rfl rfl).trans (send_lower _ _)
  · exact updCarrier_lower c _ w rfl rfl

/-! ### Ends of requests -/

/-- A change of a request that leaves its robot and its scores and counts. -/
theorem updRequest_same_lower (seq : Half) (f : Request → Request) (w : Work)
    (h : ∀ q, (f q).robot = q.robot ∧ (f q).dyn = q.dyn ∧ (f q).guard = q.guard ∧ (f q).pickupFails = q.pickupFails ∧
      (f q).dropFails = q.dropFails) : Lower w.toState (updRequest seq f w).toState := by
  refine updRequest_lower seq f w (fun q => (h q).1) (fun q i => ?_)
  obtain ⟨_, h1, h2, h3, h4⟩ := h q
  exact ⟨h1 ▸ i.dyn, h2 ▸ i.guard, h3 ▸ i.pickup, h4 ▸ i.drop⟩

theorem finishRequest_lower (q : Request) (o : ReqOutcome) (legs : Nat) (keep : List Row) (w : Work) :
    Lower w.toState (finishRequest q o legs keep w).toState := by
  unfold finishRequest
  simp only
  -- the hold is cancelled, the reservations are freed, the request leaves, the record is posted
  have h2 : ∀ v : Work, Lower v.toState (match q.legTarget with
      | some t => cancelHold (.request q.seq) t v
      | none => v).toState := by
    intro v; split
    · exact cancelHold_lower _ _ _
    · exact Lower.refl _
  have h3 : ∀ v : Work, Lower v.toState (match q.state with
      | .serving c => updCarrier c (fun y => { y with task := none }) (removeAlight c v)
      | .waiting => v).toState := by
    intro v; split
    · exact (removeAlight_lower _ _).trans (updCarrier_lower _ _ _ rfl rfl)
    · exact Lower.refl _
  have h7 : ∀ v : Work, ∀ l : Option TaskLink, Lower v.toState (if (v.robot q.robot).link = some (.request q.seq) then
      updRobot q.robot (fun x => { x with link := l }) v else v).toState := by
    intro v l; split
    · exact updRobot_lower _ _ _ Iff.rfl rfl rfl
    · exact Lower.refl _
  have chain := ((((cancelHold_lower (.request q.seq) q.fromRow w).trans (h2 _)).trans (h3 _)).trans
    (freeReservations_lower q.robot keep _)).trans (filterPool_lower (fun p => decide (p.seq ≠ q.seq)) _)
  split
  · exact Lower.trans ((chain.trans (post_lower _ _)).trans (h7 _ _)) (send_lower _ _)
  · exact (chain.trans (post_lower _ _)).trans (h7 _ _)
  · exact (chain.trans (post_lower _ _)).trans (h7 _ _)

theorem dropRequest_lower (q : Request) (o : ReqOutcome) (w : Work) : Lower w.toState (dropRequest q o w).toState :=
  finishRequest_lower _ _ _ _ _

theorem returnWaiting_lower (c : CarrierIx) (q : Request) (w : Work) :
    Lower w.toState (returnWaiting c q w).toState := by
  unfold returnWaiting
  exact (updRequest_same_lower q.seq (fun p => { p with state := .waiting, retry := none }) w
    (fun _ => ⟨rfl, rfl, rfl, rfl, rfl⟩)).trans (updCarrier_lower _ _ _ rfl rfl)

/-! ### Steps of a leg -/

theorem boardStep_lower (c : CarrierIx) (q : Request) (w : Work) : Lower w.toState (boardStep c q w).toState := by
  unfold boardStep
  split
  · exact (returnWaiting_lower _ _ _).trans (setIdle_lower _ _)
  · exact askHold_lower _ _ _ _ _

theorem pickupFail_lower (c : CarrierIx) (q : Request) (w : Work) : Lower w.toState (pickupFail c q w).toState := by
  unfold pickupFail
  split
  · exact (dropRequest_lower _ _ _).trans (setIdle_lower _ _)
  · rename_i h
    refine (Lower.trans ?_ (returnWaiting_lower _ _ _)).trans (setIdle_lower _ _)
    exact updRequest_lower _ _ _ (fun _ => rfl) (fun p i => ⟨i.dyn, i.guard, by simp only; omega, i.drop⟩)

theorem alightStep_lower (q : Request) (t : Row) (w : Work) : Lower w.toState (alightStep q t w).toState := by
  unfold alightStep
  have h := updRequest_same_lower q.seq (fun p => { p with retry := none }) w (fun _ => ⟨rfl, rfl, rfl, rfl, rfl⟩)
  simp only
  split
  · exact h.trans (askHold_lower _ _ _ _ _)
  · exact h

theorem goToDrop_lower (c : CarrierIx) (q : Request) (w : Work) : Lower w.toState (goToDrop c q w).toState := by
  unfold goToDrop
  have h := updCarrier_lower c (fun y => { y with state := .toDrop }) w rfl rfl
  simp only
  split
  · exact h
  · split
    · exact h.trans (alightStep_lower _ _ _)
    · exact h.trans (travel_lower _ _ _ _)

theorem reAimed_inv (failed : Row) (b : Bool) (n : Nat) (q : Request) (i : RequestInv n q) :
    RequestInv n (reAimed failed b q) := ⟨i.dyn, i.guard, i.pickup, Nat.zero_le _⟩

theorem relocateTo_inv (t : Row) (b : Bool) (n : Nat) (q : Request) (i : RequestInv n q) :
    RequestInv n (relocateTo t b q) := ⟨i.dyn, i.guard, i.pickup, i.drop⟩

theorem reAim_lower (c : CarrierIx) (q : Request) (failed : Row) (w : Work) :
    Lower w.toState (reAim c q failed w).toState := by
  unfold reAim
  simp only
  have h1 : Lower w.toState (match q.origin with
      | .entry n p => send (.entryOutcome n p q.robot .refused) w
      | .plant => w
      | .none => w).toState := by split <;> exact Lower.refl _
  split
  · exact (h1.trans (freeReservation_lower _ _)).trans
      (updRequest_lower _ _ _ (fun _ => rfl) (fun p i => reAimed_inv _ _ _ p i))
  · refine Lower.trans (Lower.trans ?_ (updRequest_lower q.seq (fun p => relocateTo _ (decide (failed = q.finalRow))
      (reAimed failed (decide (failed = q.finalRow)) p)) _ (fun _ => rfl)
      (fun p i => relocateTo_inv _ _ _ _ (reAimed_inv _ _ _ p i)))) (goToDrop_lower _ _ _)
    exact (h1.trans (reserve_lower _ _ _ _)).trans (freeReservation_lower _ _)

theorem dropFail_lower (c : CarrierIx) (q : Request) (t : Row) (w : Work) :
    Lower w.toState (dropFail c q t w).toState := by
  unfold dropFail
  split
  · exact updRequest_lower _ _ _ (fun _ => rfl) (fun p i => ⟨i.dyn, i.guard, i.pickup, by simp only; omega⟩)
  · exact reAim_lower _ _ _ _

theorem convert_lower (c : CarrierIx) (q : Request) (target : Option Row) (w : Work) :
    Lower w.toState (convert c q target w).toState := by
  unfold convert
  simp only
  have h1 : Lower w.toState (match q.legTarget with
      | some t => if some t = target then w else cancelHold (.request q.seq) t w
      | none => w).toState := by
    split
    · split
      · exact Lower.refl _
      · exact cancelHold_lower _ _ _
    · exact Lower.refl _
  have h3 := ((h1.trans (freeReservations_lower q.robot target.toList _)).trans
    (updRequest_lower q.seq (converted target) _ (fun _ => rfl)
      (fun p i => ⟨i.dyn, i.guard, i.pickup, Nat.zero_le _⟩))).trans (tell_lower _)
  exact Lower.ite (fun _ => h3) (fun _ => h3.trans (goToDrop_lower _ _ _))

theorem stormTargetOf_lower (c : CarrierIx) (q : Request) (w : Work) :
    Lower w.toState (stormTargetOf c q w).2.toState := by
  unfold stormTargetOf
  simp only
  split
  · exact Lower.refl _
  · exact chooseStormTarget_lower _ _ _

/-! ### Dispatch -/

theorem serve_lower (c : CarrierIx) (q : Request) (w : Work) : Lower w.toState (serve c q w).toState := by
  unfold serve
  simp only
  have h := (updRequest_same_lower q.seq (fun p => { p with state := .serving c }) w
    (fun _ => ⟨rfl, rfl, rfl, rfl, rfl⟩)).trans (updCarrier_lower c (fun y => { y with
      state := .toPickup, task := some q.seq, idleStart := none }) _ rfl rfl)
  split
  · exact h.trans (boardStep_lower _ _ _)
  · exact h.trans (travel_lower _ _ _ _)

theorem age_inv (t : Txs) (q : Request) (i : RequestInv t.ceiling q) : RequestInv t.ceiling (age t q) := by
  unfold age
  split
  · exact ⟨Nat.min_le_left _ _, i.guard, i.pickup, i.drop⟩
  · exact ⟨i.dyn, Nat.min_le_left _ _, i.pickup, i.drop⟩

theorem age_robot (t : Txs) (q : Request) : (age t q).robot = q.robot := by unfold age; split <;> rfl

theorem arbitrate_lower (c : CarrierIx) (w : Work) : Lower w.toState (arbitrate c w).toState := by
  unfold arbitrate
  simp only
  split
  · split
    · exact Lower.refl _
    · rename_i q _
      refine Lower.trans ?_ (serve_lower _ _ _)
      split
      · refine setPool_lower _ _ (mapPool_inv _ _ (fun p => ?_) (fun p _ i => ?_))
        · split
          · exact age_robot _ _
          · rfl
        · split
          · exact age_inv _ _ i
          · exact i
      · exact Lower.refl _
  · exact Lower.refl _

theorem arbitrateFor_lower (q : Request) (w : Work) : Lower w.toState (arbitrateFor q w).toState := by
  unfold arbitrateFor
  split
  · exact arbitrate_lower _ _
  · exact Lower.refl _

theorem createRequest_lower (k : Slot) (r : Row) (o : Origin) (w : Work) :
    Lower w.toState (createRequest k r o w).2.toState := by
  unfold createRequest
  simp only
  split
  · exact Lower.refl _
  · rename_i hn
    split
    · have hfree : ∀ p ∈ w.txs.pool, p.robot ≠ k := by
        intro p hp e
        refine hn (.inl ?_)
        unfold Work.requestOf?
        rw [List.find?_isSome]
        exact ⟨p, hp, by simp [e]⟩
      refine Lower.trans ?_ (arbitrateFor_lower _ _)
      refine Lower.trans ?_ (updRobot_lower k _ _ Iff.rfl rfl rfl)
      refine ((reserve_lower r k .final w).trans (findLegTarget_lower _ _)).trans (Lower.ofTxs rfl ⟨rfl, fun _ => ⟨rfl, rfl⟩, ?_⟩)
      rw [findLegTarget_txs, reserve_txs]
      intro i
      refine ⟨?_, fun p hp => ?_⟩
      · simp only [List.map_append, List.map_cons, List.map_nil]
        rw [List.nodup_append]
        refine ⟨i.robots, by simp, fun a ha b hb e => ?_⟩
        obtain ⟨p, hp, rfl⟩ := List.mem_map.1 ha
        simp only [List.mem_singleton] at hb
        exact hfree p hp (e.trans hb)
      · rcases List.mem_append.1 hp with hp | hp
        · exact i.requests p hp
        · simp only [List.mem_singleton] at hp
          subst hp
          exact ⟨Nat.zero_le _, Nat.zero_le _, Nat.zero_le _, Nat.zero_le _⟩
    · exact Lower.refl _

/-! ### A row becomes free -/

theorem search_lower (q : Request) (w : Work) : Lower w.toState (search q w).2.toState := by
  unfold search
  split
  · exact Lower.refl _
  · exact findLegTarget_lower _ _
  · split
    · exact Lower.refl _
    · exact reserve_lower _ _ _ _
  · exact chooseStormTarget_lower _ _ _

/-- What a search finds changes a request for the same robot, within its counts. -/
theorem search_finds (q : Request) (w : Work) (f : Request → Request) (h : (search q w).1 = some f) :
    (∀ p, (f p).robot = p.robot) ∧ ∀ n p, RequestInv n p → RequestInv n (f p) := by
  unfold search at h
  split at h
  · cases h
  · simp only [Option.map_eq_some_iff] at h
    obtain ⟨t, _, rfl⟩ := h
    exact ⟨fun _ => rfl, fun n p i => ⟨i.dyn, i.guard, i.pickup, i.drop⟩⟩
  · split at h
    · cases h
    · simp only [Option.some.injEq] at h
      subst h
      exact ⟨fun _ => rfl, fun n p i => relocateTo_inv _ _ _ p i⟩
  · simp only [Option.map_eq_some_iff] at h
    obtain ⟨t, _, rfl⟩ := h
    exact ⟨fun _ => rfl, fun n p i => ⟨i.dyn, i.guard, i.pickup, i.drop⟩⟩

theorem found_lower (q : Request) (f : Request → Request) (w : Work) (hr : ∀ p, (f p).robot = p.robot)
    (hi : ∀ n p, RequestInv n p → RequestInv n (f p)) : Lower w.toState (found q f w).toState := by
  unfold found
  have h1 := (updRequest_lower q.seq f w hr (hi _)).trans (tell_lower _)
  simp only
  split
  · split
    · exact h1.trans (send_lower _ _)
    · exact h1
  · exact Lower.ite (fun _ => h1.trans (goToDrop_lower _ _ _)) (fun _ => h1)

theorem searchAgain_lower (q : Request) (w : Work) : Lower w.toState (searchAgain q w).toState := by
  unfold searchAgain
  simp only
  split
  · exact search_lower _ _
  · rename_i f h
    exact (search_lower _ _).trans (found_lower _ _ _ (search_finds q w f h).1 (search_finds q w f h).2)

theorem rowFreed_lower (r : Row) (w : Work) : Lower w.toState (rowFreed r w).toState := by
  unfold rowFreed
  refine Lower.foldl _ (fun v seq => ?_) _ _
  split
  · exact Lower.refl _
  · split
    · split
      · exact searchAgain_lower _ _
      · exact Lower.refl _
    · exact Lower.refl _

/-! ### Answers of the RAC -/

theorem requestAnswer_lower (seq : Half) (r : Row) (p : Purpose) (a : HoldAnswer) (w : Work) :
    Lower w.toState (requestAnswer seq r p a w).toState := by
  unfold requestAnswer
  split
  · exact Lower.refl _
  · split
    · exact Lower.refl _
    · split
      · split
        · split
          · exact updCarrier_lower _ _ _ rfl rfl
          · exact pickupFail_lower _ _ _
        · exact Lower.refl _
      · split
        · split
          · exact updCarrier_lower _ _ _ rfl rfl
          · exact dropFail_lower _ _ _ _
        · exact Lower.refl _
      · exact Lower.refl _

/-! ### Robot events -/

theorem robotBoarded_lower (k : Slot) (c : CarrierIx) (w : Work) : Lower w.toState (robotBoarded k c w).toState := by
  unfold robotBoarded
  split
  · exact Lower.refl _
  · rename_i q _
    split
    · have h1 := (updRequest_lower q.seq (fun p => { p with pickupFails := 0 }) w (fun _ => rfl)
        (fun p i => ⟨i.dyn, i.guard, Nat.zero_le _, i.drop⟩)).trans
        (updCarrier_lower c (fun y => { y with load := some k }) _ rfl rfl)
      simp only
      split
      · exact (h1.trans (stormTargetOf_lower _ _ _)).trans (convert_lower _ _ _ _)
      · split
        · exact h1.trans (goToDrop_lower _ _ _)
        · exact h1
    · exact Lower.refl _

theorem boardingRefused_lower (k : Slot) (w : Work) : Lower w.toState (boardingRefused k w).toState := by
  unfold boardingRefused
  split
  · exact Lower.refl _
  · split
    · exact Lower.refl _
    · split
      · split
        · exact (dropRequest_lower _ _ _).trans (setIdle_lower _ _)
        · exact pickupFail_lower _ _ _
      · split
        · split
          · exact dropRequest_lower _ _ _
          · exact returnWaiting_lower _ _ _
        · exact Lower.refl _

theorem unloadingBack_lower (c : CarrierIx) (q : Request) (w : Work) :
    Lower w.toState (unloadingBack c q w).toState := by
  unfold unloadingBack
  split
  · exact goToDrop_lower _ _ _
  · exact Lower.refl _

theorem alightingRefused_lower (k : Slot) (row : Option Row) (w : Work) :
    Lower w.toState (alightingRefused k row w).toState := by
  unfold alightingRefused
  split
  · exact Lower.refl _
  · split
    · exact Lower.refl _
    · split
      · exact (stormTargetOf_lower _ _ _).trans (convert_lower _ _ _ _)
      · split
        · exact unloadingBack_lower _ _ _
        · split
          · split
            · exact (updCarrier_lower _ _ _ rfl rfl).trans (dropFail_lower _ _ _ _)
            · exact Lower.refl _
          · exact (freeReservation_lower _ _).trans (unloadingBack_lower _ _ _)

theorem goOnward_lower (t : Row) (q : Request) (w : Work) : Lower w.toState (goOnward t q w).toState := by
  unfold goOnward
  have h1 := (updRequest_lower q.seq (nextLeg t) w (fun _ => rfl)
    (fun p i => ⟨Nat.zero_le _, Nat.zero_le _, Nat.zero_le _, Nat.zero_le _⟩)).trans
    (findLegTarget_lower (nextLeg t q) _)
  have h2 := h1.trans (updRequest_same_lower q.seq (fun p => { p with
    legTarget := (findLegTarget (nextLeg t q) (updRequest q.seq (nextLeg t) w)).1 }) _ (fun _ => ⟨rfl, rfl, rfl, rfl, rfl⟩))
  simp only
  split
  · exact h2.trans (send_lower _ _)
  · exact h2

theorem robotAlighted_lower (k : Slot) (r : Row) (w : Work) : Lower w.toState (robotAlighted k r w).toState := by
  unfold robotAlighted
  split
  · exact Lower.refl _
  · rename_i q _
    split
    · exact Lower.refl _
    · rename_i c _
      simp only
      have h0 := (removeAlight_lower c w).trans
        (updCarrier_lower c (fun y => { y with load := none, task := none }) _ rfl rfl)
      have h1 : Lower w.toState (if ((updCarrier c (fun y => { y with load := none, task := none })
          (removeAlight c w)).carrier c).state = .halted then
            updCarrier c (fun y => { y with load := none, task := none }) (removeAlight c w)
          else setIdle c (updCarrier c (fun y => { y with load := none, task := none }) (removeAlight c w))).toState := by
        split
        · exact h0
        · exact h0.trans (setIdle_lower _ _)
      split
      · exact h1.trans (finishRequest_lower _ _ _ _ _)
      · split
        · exact h1.trans (finishRequest_lower _ _ _ _ _)
        · split
          · exact h1.trans (finishRequest_lower _ _ _ _ _)
          · exact h1.trans (goOnward_lower _ _ _)

theorem robotOut_lower (k : Slot) (prev : RobotState) (w : Work) : Lower w.toState (robotOut k prev w).toState := by
  unfold robotOut
  split
  · exact Lower.refl _
  · split
    · exact dropRequest_lower _ _ _
    · split
      · refine Lower.trans ?_ (removeAlight_lower _ _)
        exact updRequest_same_lower _ _ _ (fun _ => ⟨rfl, rfl, rfl, rfl, rfl⟩)
      · split
        · exact finishRequest_lower _ _ _ _ _
        · simp only
          split
          · exact (dropRequest_lower _ _ _).trans (setIdle_lower _ _)
          · exact dropRequest_lower _ _ _

theorem robotStranded_lower (k : Slot) (prev : RobotState) (w : Work) :
    Lower w.toState (robotStranded k prev w).toState := by
  unfold robotStranded
  split
  · exact Lower.refl _
  · rename_i q _
    have h1 := dropRequest_lower q .failed w
    simp only
    split
    · exact h1
    · rename_i c _
      have h2 : Lower w.toState (if prev = .alighting then
          updCarrier c (fun y => { y with load := none }) (dropRequest q .failed w) else dropRequest q .failed w).toState := by
        split
        · exact h1.trans (updCarrier_lower _ _ _ rfl rfl)
        · exact h1
      exact Lower.ite (fun _ => h2) (fun _ => h2.trans (setIdle_lower _ _))

theorem robotBack_lower (k : Slot) (w : Work) : Lower w.toState (robotBack k w).toState := by
  unfold robotBack
  split
  · exact Lower.refl _
  · split
    · split
      · exact updRequest_same_lower _ _ _ (fun _ => ⟨rfl, rfl, rfl, rfl, rfl⟩)
      · exact Lower.refl _
    · exact Lower.refl _

theorem robotRetired_lower (k : Slot) (w : Work) : Lower w.toState (robotRetired k w).toState := by
  unfold robotRetired
  split
  · exact Lower.refl _
  · simp only
    split
    · exact dropRequest_lower _ _ _
    · split
      · exact (dropRequest_lower _ _ _).trans (setIdle_lower _ _)
      · exact dropRequest_lower _ _ _

theorem robotRecovered_lower (k : Slot) (w : Work) : Lower w.toState (robotRecovered k w).toState := by
  unfold robotRecovered
  simp only
  refine Lower.trans ?_ (Lower.foldl _ (fun v c => ?_) _ _)
  · split
    · exact Lower.refl _
    · exact robotRetired_lower _ _
  · have h := updCarrier_lower c (fun y => { y with load := none, task := none }) v rfl rfl
    exact Lower.ite (fun _ => h) (fun _ => h.trans (setIdle_lower _ _))

theorem cancelRequest_lower (seq : Half) (w : Work) : Lower w.toState (cancelRequest seq w).toState := by
  unfold cancelRequest
  split
  · exact Lower.refl _
  · split
    · exact dropRequest_lower _ _ _
    · split
      · exact (dropRequest_lower _ _ _).trans (setIdle_lower _ _)
      · exact updRequest_same_lower _ _ _ (fun _ => ⟨rfl, rfl, rfl, rfl, rfl⟩)

/-! ### Halts and carrier reports -/

theorem halt_lower (c : CarrierIx) (cause : HaltCause) (w : Work) : Lower w.toState (halt c cause w).toState := by
  unfold halt
  simp only
  split
  · exact updCarrier_lower _ _ _ rfl rfl
  · have h3 := ((discardOrders_lower (.carrier c) w).trans (updCarrier_lower c (fun y => { y with
      state := .halted, cause := cause, travelTimer := none, idleStart := none }) _ rfl rfl)).trans
      (post_lower (.carrierHalted c (w.carrier c).position (w.carrier c).load cause) _)
    split
    · exact h3
    · rename_i q _
      have h5 : ∀ v : Work, Lower v.toState (match q.legTarget with
          | some t => cancelHold (.request q.seq) t v
          | none => v).toState := by
        intro v; split
        · exact cancelHold_lower _ _ _
        · exact Lower.refl _
      have h6 := ((h3.trans (cancelHold_lower (.request q.seq) q.fromRow _)).trans (h5 _)).trans
        (updRequest_same_lower q.seq (fun p => { p with retry := none }) _ (fun _ => ⟨rfl, rfl, rfl, rfl, rfl⟩))
      split
      · exact h6.trans (returnWaiting_lower _ _ _)
      · exact h6

theorem expireTravel_lower (c : CarrierIx) (w : Work) : Lower w.toState (expireTravel c w).toState := by
  unfold expireTravel
  simp only
  split
  · exact Lower.refl _
  · split
    · exact halt_lower _ _ _
    · exact Lower.refl _

theorem expireRetry_lower (seq : Half) (w : Work) : Lower w.toState (expireRetry seq w).toState := by
  unfold expireRetry
  split
  · exact Lower.refl _
  · split
    · split
      · exact alightStep_lower _ _ _
      · exact Lower.refl _
    · exact Lower.refl _

theorem expirePark_lower (c : CarrierIx) (w : Work) : Lower w.toState (expirePark c w).toState := by
  unfold expirePark
  simp only
  split
  · exact parkCarrier_lower _ _ _
  · exact Lower.refl _

theorem setPosition_lower (c : CarrierIx) (p : CarrierPos) (w : Work) : Lower w.toState (setPosition c p w).toState := by
  unfold setPosition
  refine updCarrier_lower _ _ _ ?_ ?_
  · simp only; split
    · rfl
    · split <;> rfl
  · simp only; split
    · rfl
    · split <;> rfl

theorem stopTravel_lower (c : CarrierIx) (w : Work) : Lower w.toState (stopTravel c w).toState := by
  unfold stopTravel
  split
  · exact Lower.refl _
  · exact updCarrier_lower _ _ _ rfl rfl

theorem arriveStep_lower (c : CarrierIx) (w : Work) : Lower w.toState (arriveStep c w).toState := by
  unfold arriveStep
  split
  · exact Lower.refl _
  · split
    · split
      · exact boardStep_lower _ _ _
      · exact Lower.refl _
    · split
      · exact alightStep_lower _ _ _
      · exact Lower.refl _
    · exact Lower.refl _

theorem arrivedReport_lower (c : CarrierIx) (r : Row) (w : Work) : Lower w.toState (arrivedReport c r w).1.toState := by
  unfold arrivedReport
  split
  · split
    · exact (updCarrier_lower c (fun y => { y with position := .row r }) w rfl rfl).trans (tell_lower _)
    · exact Lower.refl _
  · split
    · dsimp only
      exact (((endOrder_lower _ _).trans (setPosition_lower _ _ _)).trans (stopTravel_lower _ _)).trans
        (arriveStep_lower _ _)
    · exact Lower.refl _

theorem restInGarage_lower (c : CarrierIx) (w : Work) : Lower w.toState (restInGarage c w).toState :=
  (updCarrier_lower c (fun y => { y with state := .garaged, direction := .down, idleStart := none }) w rfl rfl).trans
    (send_lower _ _)

theorem garagedReport_lower (c : CarrierIx) (w : Work) : Lower w.toState (garagedReport c w).1.toState := by
  unfold garagedReport
  split
  · exact (updCarrier_lower c (fun y => { y with position := .garage }) w rfl rfl).trans (tell_lower _)
  · split
    · have h1 := ((endOrder_lower (.carrier c) w).trans (setPosition_lower c .garage _)).trans (stopTravel_lower c _)
      simp only
      split
      · exact h1.trans (restInGarage_lower _ _)
      · split
        · exact h1.trans (restInGarage_lower _ _)
        · exact h1
      · dsimp only; exact h1.trans (arriveStep_lower _ _)
    · exact Lower.refl _

theorem carrierClearReport_lower (c : CarrierIx) (w : Work) : Lower w.toState (carrierClearReport c w).1.toState := by
  unfold carrierClearReport
  split
  · have h1 := (removeAlight_lower c w).trans (updCarrier_lower c (fun y => { y with cause := .none }) _ rfl rfl)
    simp only
    split
    · split
      · dsimp only; exact h1.trans (updCarrier_lower _ _ _ rfl rfl)
      · dsimp only; exact h1.trans (updCarrier_lower _ _ _ rfl rfl)
      · exact h1.trans (goToDrop_lower _ _ _)
    · split
      · exact h1.trans (setIdle_lower _ _)
      · split
        · exact (h1.trans (updCarrier_lower c (fun y => { y with state := .garaged }) _ rfl rfl)).trans (send_lower _ _)
        · exact h1.trans (setIdle_lower _ _)
  · exact Lower.refl _

/-! ### Storm parking at the carriers -/

theorem chooseStormTargets_lower (w : Work) : Lower w.toState (chooseStormTargets w).toState := by
  unfold chooseStormTargets
  refine Lower.foldl _ (fun v c => ?_) _ _
  simp only
  split
  · exact Lower.refl _
  · refine Lower.trans ?_ (updRequest_same_lower _ _ _ (fun _ => ⟨rfl, rfl, rfl, rfl, rfl⟩))
    split
    · exact chooseStormTarget_lower _ _ _
    · exact Lower.refl _

theorem stormEntryCarrier_lower (c : CarrierIx) (w : Work) : Lower w.toState (stormEntryCarrier c w).toState := by
  unfold stormEntryCarrier
  simp only
  split
  · split
    · exact parkCarrier_lower _ _ _
    · exact Lower.refl _
  · exact (dropRequest_lower _ _ _).trans (setIdle_lower _ _)
  · exact convert_lower _ _ _ _
  · split
    · exact convert_lower _ _ _ _
    · exact Lower.refl _
  · exact Lower.refl _

theorem stormEntryTxs_lower (w : Work) : Lower w.toState (stormEntryTxs w).toState := by
  unfold stormEntryTxs
  exact (Lower.foldl _ (fun v q => dropRequest_lower q .dropped v) _ w).trans
    (Lower.foldl _ (fun v c => stormEntryCarrier_lower c v) _ _)

theorem deadlineTxs_lower (out freed : List Slot) (w : Work) : Lower w.toState (deadlineTxs out freed w).toState := by
  unfold deadlineTxs
  refine (Lower.foldl _ (fun v q => ?_) _ w).trans (Lower.foldl _ (fun v c => ?_) _ _)
  · simp only
    split
    · exact dropRequest_lower _ _ _
    · split
      · exact (dropRequest_lower q .failed v).trans (updCarrier_lower _ _ _ rfl rfl)
      · exact dropRequest_lower _ _ _
  · exact Lower.ite (fun _ => parkCarrier_lower _ _ _) (fun _ => Lower.refl _)

/-! ### Transfers asked by the plant -/

theorem moveRobot_lower (k : Slot) (r : Row) (w : Work) : Lower w.toState (moveRobot k r w).1.toState := by
  unfold moveRobot
  simp only
  split
  · exact Lower.refl _
  · split
    · exact Lower.refl _
    · split
      · exact createRequest_lower _ _ _ _
      · exact Lower.refl _
      · exact Lower.refl _

theorem retireCarrier_lower (c : CarrierIx) (w : Work) : Lower w.toState (retireCarrier c w).1.toState := by
  unfold retireCarrier
  simp only
  split
  · exact (discardOrders_lower _ _).trans (updCarrier_lower _ _ _ rfl rfl)
  · exact Lower.refl _

end Sys2Proof.Machine
end

