-- ==== Sys2Proof/Laws/Rounds.lean ====
section
/-! SUPPORT. The round scheduler stays within `Inner`: what `Lower` leaves and keeps, but for the round itself and the plan flip that
its end may take. -/

namespace Sys2Proof.Machine

/-- What the operations of the round leave and keep. -/
structure Inner (s t : State) : Prop where
  now : t.now = s.now
  plant : t.plant = s.plant
  tracker : t.tracker = s.tracker
  fleet : t.fleet = s.fleet
  freeUses : t.freeUses = s.freeUses
  pending : t.pending = s.pending
  seu : t.seu = s.seu
  yac : t.yac = s.yac
  banks : t.pls.bankA = s.pls.bankA ∧ t.pls.bankB = s.pls.bankB
  freeze : t.pls.freeze = s.pls.freeze ∨ (s.pls.freeze = .freezeAsked ∧ t.pls.freeze = .frozen)
  round : RoundInv s.pls s.rsc → RoundInv t.pls t.rsc
  rac : RacStep s.rac t.rac
  fou : FouStep s.fou t.fou
  txs : TxsStep s.txs t.txs
  wxm : WxmStep s.wxm t.wxm
  rpq : RpqStep s.rpq t.rpq

theorem Lower.inner {s t : State} (h : Lower s t) : Inner s t :=
  ⟨h.now, h.plant, h.tracker, h.fleet, h.freeUses, h.pending, h.seu, h.yac, ⟨h.pls.banks.1, h.pls.banks.2.1⟩,
    h.pls.freeze, fun i => by rw [h.rsc]; exact h.pls.roundInv _ i, h.rac, h.fou, h.txs, h.wxm, h.rpq⟩

theorem Inner.refl (s : State) : Inner s s := (Lower.refl s).inner

theorem Inner.trans {s t u : State} (h : Inner s t) (g : Inner t u) : Inner s u :=
  ⟨g.now.trans h.now, g.plant.trans h.plant, g.tracker.trans h.tracker, g.fleet.trans h.fleet,
    g.freeUses.trans h.freeUses, g.pending.trans h.pending, g.seu.trans h.seu, g.yac.trans h.yac,
    ⟨g.banks.1.trans h.banks.1, g.banks.2.trans h.banks.2⟩, freeze_trans h.freeze g.freeze, fun i => g.round (h.round i),
    h.rac.trans g.rac, h.fou.trans g.fou, h.txs.trans g.txs, h.wxm.trans g.wxm, h.rpq.trans g.rpq⟩

theorem Inner.lower {s t u : State} (h : Inner s t) (g : Lower t u) : Inner s u := h.trans g.inner

theorem Inner.foldl {α : Type} (f : Work → α → Work) (hf : ∀ v x, Inner v.toState (f v x).toState) (l : List α) :
    ∀ w : Work, Inner w.toState (l.foldl f w).toState := by
  induction l with
  | nil => exact fun w => Inner.refl _
  | cons x l ih => exact fun w => (hf w x).trans (ih (f w x))

theorem Inner.ite {c : Prop} [Decidable c] {s : State} {a b : Work} (ha : c → Inner s a.toState)
    (hb : ¬ c → Inner s b.toState) : Inner s (if c then a else b).toState := by
  split
  · rename_i h; exact ha h
  · rename_i h; exact hb h

/-- Only the round and the plan store have changed, and not what the banks hold. -/
theorem Inner.ofRound {s t : State} (e : t = { s with rsc := t.rsc, pls := t.pls })
    (banks : t.pls.bankA = s.pls.bankA ∧ t.pls.bankB = s.pls.bankB) (freeze : t.pls.freeze = s.pls.freeze)
    (round : RoundInv s.pls s.rsc → RoundInv t.pls t.rsc) : Inner s t := by
  rw [e]
  exact ⟨rfl, rfl, rfl, rfl, rfl, rfl, rfl, rfl, banks, .inl freeze, round, .refl _, .refl _, .refl _, .refl _, .refl _⟩

/-! ### The worklist -/

theorem modify_rows (l : List Entry) (pos : Nat) (f : Entry → Entry) (h : ∀ e, l[pos]? = some e → (f e).row = e.row) :
    (l.modify pos f).map (·.row) = l.map (·.row) := by
  apply List.ext_getElem?
  intro j
  simp only [List.getElem?_map, List.getElem?_modify]
  cases hj : l[j]? with
  | none => rfl
  | some e =>
    by_cases g : pos = j
    · subst g; simp [h e hj]
    · simp [g]

theorem mem_modify (l : List Entry) (pos : Nat) (f : Entry → Entry) (e : Entry) (h : e ∈ l.modify pos f) :
    e ∈ l ∨ ∃ d, l[pos]? = some d ∧ d ∈ l ∧ e = f d := by
  obtain ⟨j, hj⟩ := List.getElem?_of_mem h
  rw [List.getElem?_modify] at hj
  cases hl : l[j]? with
  | none => rw [hl] at hj; simp at hj
  | some d =>
    rw [hl] at hj
    by_cases g : pos = j
    · subst g
      simp at hj
      exact .inr ⟨d, hl, List.mem_of_getElem? hl, hj.symm⟩
    · simp [g] at hj
      subst hj
      exact .inl (List.mem_of_getElem? hl)

/-- An entry is changed, still for its row and as the rules keep it. -/
theorem updEntry_inner (pos : Nat) (f : Entry → Entry) (w : Work)
    (h : ∀ e, w.entry? pos = some e → (f e).row = e.row ∧ (EntryInv e → EntryInv (f e))) :
    Inner w.toState (updEntry pos f w).toState := by
  refine Inner.ofRound rfl ⟨rfl, rfl⟩ rfl (fun i => ⟨i.flip, ?_, ?_, i.limit, ?_, i.budgets⟩)
  · show ((w.rsc.worklist.modify pos f).map (·.row)).Nodup
    rw [modify_rows _ _ _ (fun e he => (h e he).1)]; exact i.rows
  · show (w.rsc.worklist.modify pos f).length ≤ 64
    rw [List.length_modify]; exact i.length
  · intro e he
    rcases mem_modify _ _ _ _ he with g | ⟨d, h1, h2, rfl⟩
    · exact i.entries e g
    · exact (h d h1).2 (i.entries d h2)

theorem askPass_inner (w : Work) : Inner w.toState (askPass w).toState := Inner.refl _

theorem passAtOnce_inner (w : Work) : Inner w.toState (passAtOnce w).toState := Inner.refl _
theorem send_inner (m : Msg) (w : Work) : Inner w.toState (send m w).toState := Inner.refl _

/-! ### Building a worklist -/

theorem newEntry_inv (r : Row) (m : Mode) (n : Nat) : EntryInv (newEntry r m n) := by
  constructor <;> simp [newEntry]

theorem insertEntry_perm (e : Entry) (l : List Entry) : (insertEntry e l).Perm (e :: l) := by
  induction l with
  | nil => exact List.Perm.refl _
  | cons f l ih =>
    unfold insertEntry
    split
    · exact List.Perm.refl _
    · exact (ih.cons f).trans (List.Perm.swap e f l)

theorem insertAll_perm (l : List Entry) : ∀ acc, (l.foldl (fun a e => insertEntry e a) acc).Perm (l ++ acc) := by
  induction l with
  | nil => exact fun acc => List.Perm.refl _
  | cons e l ih =>
    intro acc
    refine (ih (insertEntry e acc)).trans ?_
    exact ((insertEntry_perm e acc).append_left l).trans List.perm_middle

theorem buildWorklist_rows (w : Work) : ((buildWorklist w).map (·.row)).Nodup := by
  unfold buildWorklist
  simp only
  rw [List.map_take]
  refine List.Nodup.sublist (List.take_sublist _ _) ?_
  rw [List.map_append]
  refine List.Nodup.append ?_ ?_ ?_
  · rw [List.map_map]
    refine List.Nodup.map (fun a b e => e) ?_
    exact ((List.nodup_finRange 256).filter _).filter _
  · refine ((insertAll_perm _ []).map (·.row)).nodup_iff.2 ?_
    rw [List.append_nil, List.map_map]
    refine List.Nodup.map (fun a b e => e) ?_
    exact ((List.nodup_finRange 256).filter _).filter _
  · intro r h1 h2
    have h3 := ((insertAll_perm ((((indices 256).filter (covered w.pls.frontBank.ranges)).filter (isCandidate w)).map
      (fun r => newEntry r (w.policy r).mode (rowBenefit w r - (w.policy r).cost))) []).map (·.row)).mem_iff.1 h2
    simp only [List.map_map, List.mem_map, List.mem_filter, List.append_nil, Function.comp_apply] at h1 h3
    obtain ⟨a, ⟨_, ha⟩, rfl⟩ := h1
    obtain ⟨b, ⟨_, hb⟩, e⟩ := h3
    simp only [newEntry] at e
    subst e
    simp [isReferenceTaken] at ha
    simp [isCandidate] at hb
    simp_all

theorem buildWorklist_entries (w : Work) : ∀ e ∈ buildWorklist w, EntryInv e := by
  intro e he
  unfold buildWorklist at he
  have := List.mem_of_mem_take he
  rcases List.mem_append.1 this with h | h
  · obtain ⟨r, _, rfl⟩ := List.mem_map.1 h
    exact newEntry_inv _ _ _
  · have := (insertAll_perm _ []).mem_iff.1 h
    rw [List.append_nil] at this
    obtain ⟨r, _, rfl⟩ := List.mem_map.1 this
    exact newEntry_inv _ _ _

theorem buildWorklist_length (w : Work) : (buildWorklist w).length ≤ w.pls.frontBank.round.budget := by
  unfold buildWorklist
  rw [List.length_take]; exact Nat.min_le_left _ _

/-! ### Round end and flips -/

theorem restartPeriod_inner (w : Work) : Inner w.toState (restartPeriod w).toState :=
  Inner.ofRound rfl ⟨rfl, rfl⟩ rfl (fun i => ⟨i.flip, i.rows, i.length, i.limit, i.entries, i.budgets⟩)

theorem takeFlip_inner (w : Work) : Inner w.toState (takeFlip w).toState := by
  unfold takeFlip
  simp only
  refine Inner.trans ?_ (restartPeriod_inner _)
  refine Inner.trans ?_ (post_lower _ _).inner
  exact Inner.ofRound rfl ⟨rfl, rfl⟩ rfl
    (fun i => ⟨fun h => (Bool.false_ne_true h).elim, i.rows, i.length, i.limit, i.entries, i.budgets⟩)

theorem takeFlip_flip (w : Work) : (takeFlip w).pls.flipPending = false := rfl

theorem takeFlip_rsc (w : Work) : (takeFlip w).rsc.state = w.rsc.state ∧ (takeFlip w).rsc.worklist = w.rsc.worklist ∧
    (takeFlip w).rsc.limitTimer = w.rsc.limitTimer := ⟨rfl, rfl, rfl⟩

theorem roundEndCore_inner (o : RoundOutcome) (w : Work) : Inner w.toState (roundEndCore o w).toState := by
  have e : (roundEndCore o w).toState =
      { w.toState with
        rsc := (roundEndCore o w).rsc, pls := (roundEndCore o w).pls, rpq := (roundEndCore o w).rpq } := by
    unfold roundEndCore; simp only; split <;> rfl
  have hb : (roundEndCore o w).pls.bankA = w.pls.bankA ∧ (roundEndCore o w).pls.bankB = w.pls.bankB := by
    unfold roundEndCore; simp only; split <;> exact ⟨rfl, rfl⟩
  have hf : (roundEndCore o w).pls.freeze = w.pls.freeze := by
    unfold roundEndCore; simp only; split <;> rfl
  have hp : (roundEndCore o w).pls.flipPending = false := by
    unfold roundEndCore; simp only; split
    · rfl
    · rename_i h; simpa using h
  have hr : (roundEndCore o w).rsc.state = .none ∧ (roundEndCore o w).rsc.worklist = w.rsc.worklist ∧
      (roundEndCore o w).rsc.limitTimer = none := by
    unfold roundEndCore; simp only; split <;> exact ⟨rfl, rfl, rfl⟩
  have hq : RpqStep w.rpq (roundEndCore o w).rpq := by
    unfold roundEndCore; simp only; split
    · exact (post_rpqStep _ _).trans (post_rpqStep _ _)
    · exact post_rpqStep _ _
  rw [e]
  refine ⟨rfl, rfl, rfl, rfl, rfl, rfl, rfl, rfl, hb, .inl hf, fun i => ?_, .refl _, .refl _, .refl _, .refl _, hq⟩
  refine ⟨fun h => ?_, ?_, ?_, ?_, ?_, ?_⟩
  · simp only at h; rw [hp] at h; cases h
  · simp only; rw [hr.2.1]; exact i.rows
  · simp only; rw [hr.2.1]; exact i.length
  · simp only; rw [hr.2.2, hr.1]; simp
  · simp only; rw [hr.2.1]; exact i.entries
  · simp only; rw [hb.1, hb.2]; exact i.budgets

theorem frontBank_budget {p : Pls} {x : Rsc} (i : RoundInv p x) : p.frontBank.round.budget ≤ 64 := by
  unfold Pls.frontBank; split
  · exact i.budgets.1
  · exact i.budgets.2

theorem buildRound_inner (w : Work) : Inner w.toState (buildRound w).toState := by
  unfold buildRound
  simp only
  by_cases hl : (buildWorklist w).isEmpty = true
  · rw [if_pos hl, if_pos hl]
    refine Inner.trans ?_ (roundEndCore_inner _ _)
    refine Inner.trans ?_ (post_lower _ _).inner
    refine Inner.ofRound rfl ⟨rfl, rfl⟩ rfl (fun i => ⟨i.flip, ?_, ?_, i.limit, ?_, i.budgets⟩)
    · exact buildWorklist_rows w
    · exact (buildWorklist_length w).trans (frontBank_budget i)
    · exact buildWorklist_entries w
  · rw [if_neg hl, if_neg hl]
    refine Inner.trans ?_ (passAtOnce_inner _)
    refine Inner.trans (post_lower (.roundStarted (w.rsc.number + 1) (buildWorklist w).length) w).inner ?_
    refine Inner.ofRound rfl ⟨rfl, rfl⟩ rfl (fun i => ⟨fun _ => by simp, ?_, ?_, ?_, ?_, i.budgets⟩)
    · exact buildWorklist_rows w
    · exact (buildWorklist_length w).trans (frontBank_budget i)
    · simp
    · exact buildWorklist_entries w

theorem considerDue_inner (w : Work) : Inner w.toState (considerDue w).toState :=
  Inner.ite (fun _ => buildRound_inner w) (fun _ => Inner.refl _)

theorem trigger_inner (w : Work) : Inner w.toState (trigger w).2.toState := by
  unfold trigger
  split
  · exact buildRound_inner w
  · exact Inner.ofRound rfl ⟨rfl, rfl⟩ rfl (fun i => ⟨i.flip, i.rows, i.length, i.limit, i.entries, i.budgets⟩)

theorem roundEnd_inner (o : RoundOutcome) (w : Work) : Inner w.toState (roundEnd o w).toState :=
  (roundEndCore_inner o w).trans (considerDue_inner _)

theorem testRound_inner (w : Work) : Inner w.toState (testRound w).toState := by
  unfold testRound
  split
  · exact Inner.refl _
  · exact Inner.ite (fun _ => roundEnd_inner _ _) (fun _ => Inner.refl _)
  · exact Inner.ite (fun _ => roundEnd_inner _ _) (fun _ => Inner.refl _)
  · exact Inner.ite (fun _ => roundEnd_inner _ _) (fun _ => Inner.refl _)

/-! ### Entries -/

theorem unlink_inner (k : Slot) (pos : Nat) (w : Work) : Inner w.toState (unlink k pos w).toState :=
  Inner.ite (fun _ => (updRobot_lower _ _ _ Iff.rfl rfl rfl).inner) (fun _ => Inner.refl _)

theorem unlinkEntry_inner (pos : Nat) (w : Work) : Inner w.toState (unlinkEntry pos w).toState := by
  unfold unlinkEntry
  split
  · exact unlink_inner _ _ _
  · exact Inner.refl _

/-- An entry ends: its state is an ended one, with a skip reason for SKIPPED alone. -/
theorem endEntry_inner (pos : Nat) (st : EntryState) (why : Option SkipReason) (w : Work)
    (h : (st = .skipped ∧ why.isSome = true) ∨ ((st = .doneFull ∨ st = .donePart) ∧ why = none)) :
    Inner w.toState (endEntry pos st why w).toState := by
  unfold endEntry
  refine Inner.trans ?_ (askPass_inner _)
  refine Inner.trans ?_ (send_inner _ _)
  refine Inner.trans ?_ (unlinkEntry_inner _ _)
  refine updEntry_inner _ _ _ (fun e _ => ⟨rfl, fun i => ?_⟩)
  rcases h with ⟨rfl, h⟩ | ⟨rfl | rfl, rfl⟩
  · exact ⟨by simp [h], by simp, i.fails⟩
  · exact ⟨by simp, by simp, i.fails⟩
  · exact ⟨by simp, by simp, i.fails⟩

theorem skipEntry_inner (pos : Nat) (why : SkipReason) (w : Work) : Inner w.toState (skipEntry pos why w).toState :=
  endEntry_inner _ _ _ _ (.inl ⟨rfl, rfl⟩)

/-- An entry that has not been skipped returns to WAITING. -/
theorem keepWaiting_inner (pos : Nat) (w : Work) (h : ∀ e, w.entry? pos = some e → e.state ≠ .skipped) :
    Inner w.toState (keepWaiting pos w).toState := by
  unfold keepWaiting
  refine Inner.trans ?_ (askPass_inner _)
  refine updEntry_inner _ _ _ (fun e he => ⟨rfl, fun i => ⟨?_, by simp, i.fails⟩⟩)
  have : e.skip.isSome = false := by
    have h1 := i.skip
    cases hs : e.skip.isSome
    · rfl
    · exact absurd (h1.1 hs) (h e he)
  simp [this]

theorem cancelEntryHold_inner (pos : Nat) (w : Work) : Inner w.toState (cancelEntryHold pos w).toState := by
  unfold cancelEntryHold
  split
  · exact (cancelHold_lower _ _ _).inner
  · exact Inner.refl _

theorem cancelHold_rsc (q : Requester) (r : Row) (w : Work) : (cancelHold q r w).rsc = w.rsc := by
  unfold cancelHold; simp only; split
  · exact updRow_rsc _ _ _
  · rfl

theorem cancelEntryHold_rsc (pos : Nat) (w : Work) : (cancelEntryHold pos w).rsc = w.rsc := by
  unfold cancelEntryHold; split
  · exact cancelHold_rsc _ _ _
  · rfl

/-! ### The assignment pass -/

/-- An entry that is not skipped asks its hold. -/
theorem askEntryHold_inner (pos : Nat) (k : Slot) (r : Row) (w : Work)
    (h : ∀ e, w.entry? pos = some e → e.state ≠ .skipped) : Inner w.toState (askEntryHold pos k r w).toState := by
  unfold askEntryHold
  refine Inner.trans ?_ (askHold_lower _ _ _ _ _).inner
  refine updEntry_inner _ _ _ (fun e he => ⟨rfl, fun i => ⟨?_, by simp, i.fails⟩⟩)
  have : e.skip.isSome = false := by
    cases hs : e.skip.isSome
    · rfl
    · exact absurd (i.skip.1 hs) (h e he)
  simp [this]

theorem actsOn_state (w : Work) (pos : Nat) (e : Entry) (h : actsOn w pos e = true) : e.state ≠ .skipped := by
  intro g; simp [actsOn, g] at h

theorem assignEntry_inner (pos : Nat) (e : Entry) (w : Work) (he : w.entry? pos = some e) (h : e.state ≠ .skipped) :
    Inner w.toState (assignEntry pos e w).toState := by
  have hs : ∀ d, w.entry? pos = some d → d.state ≠ .skipped := by intro d hd; rw [he] at hd; cases hd; exact h
  unfold assignEntry
  split
  · exact askEntryHold_inner _ _ _ _ hs
  · split
    · refine Inner.trans (updRobot_lower _ _ _ Iff.rfl rfl rfl).inner (askEntryHold_inner _ _ _ _ (by simpa [Work.entry?] using hs))
    · split
      · exact Inner.refl _
      · rename_i k _
        simp only
        split
        · have hc := createRequest_lower k e.row (.entry w.rsc.number pos) w
          refine Inner.trans hc.inner (updEntry_inner _ _ _ (fun d hd => ⟨rfl, fun i => ⟨?_, by simp, i.fails⟩⟩))
          have hd' : w.entry? pos = some d := by
            unfold Work.entry? at hd ⊢
            rw [hc.rsc] at hd; exact hd
          have : d.skip.isSome = false := by
            cases hk : d.skip.isSome
            · rfl
            · exact absurd (i.skip.1 hk) (hs d hd')
          simp [this]
        · exact Inner.refl _
        · exact Inner.refl _

theorem passEntry_inner (w : Work) (pos : Nat) : Inner w.toState (passEntry w pos).toState := by
  unfold passEntry
  split
  · exact Inner.refl _
  · rename_i e he
    split
    · rename_i ha
      simp only
      split
      · exact skipEntry_inner _ _ _
      · split
        · exact skipEntry_inner _ _ _
        · exact skipEntry_inner _ _ _
        · exact assignEntry_inner _ _ _ he (actsOn_state _ _ _ ha)
        · exact Inner.refl _
    · exact Inner.refl _

theorem noRobotLeft_inner (w : Work) : Inner w.toState (noRobotLeft w).toState := by
  unfold noRobotLeft
  refine Inner.ite (fun _ => Inner.refl _) (fun _ => ?_)
  exact Inner.foldl _ (fun v pos => Inner.ite (fun _ => skipEntry_inner _ _ _) (fun _ => Inner.refl _)) _ _

theorem assignmentPass_inner (w : Work) : Inner w.toState (assignmentPass w).toState := by
  unfold assignmentPass
  refine Inner.ite (fun _ => ?_) (fun _ => Inner.refl _)
  exact ((Inner.foldl _ (fun v pos => passEntry_inner v pos) _ w).trans (noRobotLeft_inner _)).trans (testRound_inner _)

/-! ### Answers and events at an entry -/

theorem entryOf_eq {n : Half} {pos : Nat} {w : Work} {e : Entry} (h : entryOf n pos w = some e) : w.entry? pos = some e := by
  unfold entryOf at h
  split at h
  · exact h
  · cases h

theorem entryFail_inner (pos : Nat) (e : Entry) (why : SkipReason) (w : Work) (he : w.entry? pos = some e)
    (h : e.state ≠ .skipped) : Inner w.toState (entryFail pos e why w).toState := by
  unfold entryFail
  have h1 : Inner w.toState (updEntry pos (fun f => { f with holdFails := min 2 (f.holdFails + 1) }) w).toState :=
    updEntry_inner _ _ _ (fun d _ => ⟨rfl, fun i => ⟨i.skip, i.robot, Nat.min_le_left _ _, i.fails.2⟩⟩)
  simp only
  split
  · exact h1.trans (skipEntry_inner _ _ _)
  · split
    · exact h1.trans (skipEntry_inner _ _ _)
    · refine h1.trans (keepWaiting_inner _ _ (fun d hd => ?_))
      unfold Work.entry? at he hd
      simp only [updEntry, List.getElem?_modify_eq, he, Option.map_eq_map, Option.map_some, Option.some.injEq] at hd
      subst hd
      exact h

theorem entryAnswer_inner (n : Half) (pos : Nat) (r : Row) (a : HoldAnswer) (w : Work) :
    Inner w.toState (entryAnswer n pos r a w).toState := by
  unfold entryAnswer
  split
  · exact Inner.refl _
  · rename_i e he
    have he' := entryOf_eq he
    split
    · rename_i hh
      have hs : e.state ≠ .skipped := by rw [hh.1]; simp
      split
      · refine updEntry_inner _ _ _ (fun d hd => ⟨rfl, fun i => ⟨?_, fun _ => ?_, i.fails⟩⟩)
        · rw [he'] at hd; cases hd
          have : e.skip.isSome = false := by
            cases hk : e.skip.isSome
            · rfl
            · exact absurd (i.skip.1 hk) hs
          simp [this]
        · rw [he'] at hd; cases hd
          exact i.robot (.inr (.inl hh.1))
      · exact entryFail_inner _ _ _ _ he' hs
      · exact entryFail_inner _ _ _ _ he' hs
      · split
        · exact skipEntry_inner _ _ _
        · split
          · exact skipEntry_inner _ _ _
          · exact entryFail_inner _ _ _ _ he' hs
    · exact Inner.refl _

theorem entryRefused_inner (n : Half) (pos : Nat) (k : Slot) (w : Work) :
    Inner w.toState (entryRefused n pos k w).toState := by
  unfold entryRefused
  split
  · exact Inner.refl _
  · rename_i e he
    refine Inner.ite (fun h => ?_) (fun _ => Inner.refl _)
    exact entryFail_inner _ _ _ _ (entryOf_eq he) (by rw [h.1]; simp)

theorem entryPass_inner (n : Half) (pos : Nat) (k : Slot) (c : Bool) (w : Work) :
    Inner w.toState (entryPass n pos k c w).toState := by
  unfold entryPass
  split
  · exact Inner.refl _
  · refine Inner.ite (fun _ => endEntry_inner _ _ _ _ (.inr ⟨?_, rfl⟩)) (fun _ => Inner.refl _)
    cases c <;> simp

theorem entryStranded_inner (n : Half) (pos : Nat) (k : Slot) (w : Work) :
    Inner w.toState (entryStranded n pos k w).toState := entryPass_inner _ _ _ _ _

theorem entryGone_inner (n : Half) (pos : Nat) (k : Slot) (w : Work) : Inner w.toState (entryGone n pos k w).toState := by
  unfold entryGone
  split
  · exact Inner.refl _
  · refine Inner.ite (fun _ => ?_) (fun _ => Inner.refl _)
    refine Inner.trans ?_ (skipEntry_inner _ _ _)
    exact Inner.ite (fun _ => cancelEntryHold_inner _ _) (fun _ => Inner.refl _)

theorem entryOutcome_inner (n : Half) (pos : Nat) (k : Slot) (o : ReqOutcome) (w : Work) :
    Inner w.toState (entryOutcome n pos k o w).toState := by
  unfold entryOutcome
  refine Inner.trans ?_ (askPass_inner _)
  split
  · rename_i e he
    rw [Option.filter_eq_some_iff] at he
    obtain ⟨he, hp⟩ := he
    simp only [Bool.and_eq_true, decide_eq_true_eq] at hp
    have he' := entryOf_eq he
    split
    · refine Inner.ite (fun _ => ?_) (fun _ => Inner.refl _)
      exact askEntryHold_inner _ _ _ _ (fun d hd => by rw [he'] at hd; cases hd; simp [hp.1])
    · exact Inner.refl _
    · exact Inner.refl _
    · have h1 : ∀ d, w.entry? pos = some d → d = e := by intro d hd; rw [he'] at hd; cases hd; rfl
      by_cases g : 2 ≤ e.transferFails + 1
      · rw [if_pos g]
        -- the entry is skipped at once, so that it is never at work without a robot
        unfold skipEntry endEntry
        refine Inner.trans ?_ (askPass_inner _)
        refine Inner.trans ?_ (send_inner _ _)
        refine Inner.trans ?_ (unlinkEntry_inner _ _)
        have e2 : updEntry pos (fun f => { f with state := .skipped, skip := some .refused })
            (updEntry pos (fun f => { f with robot := none, transferFails := min 2 (f.transferFails + 1) }) w) =
            updEntry pos (fun f =>
              { f with robot := none, transferFails := min 2 (f.transferFails + 1), state := .skipped,
                       skip := some .refused }) w := by
          simp [updEntry, List.modify_modify_eq, Function.comp_def]
        rw [e2]
        exact updEntry_inner _ _ _ (fun d _ => ⟨rfl, fun i => ⟨by simp, by simp, i.fails.1, Nat.min_le_left _ _⟩⟩)
      · rw [if_neg g]
        unfold keepWaiting
        refine Inner.trans ?_ (askPass_inner _)
        have e2 : updEntry pos (fun f => { f with state := .waiting })
            (updEntry pos (fun f => { f with robot := none, transferFails := min 2 (f.transferFails + 1) }) w) =
            updEntry pos (fun f =>
              { f with robot := none, transferFails := min 2 (f.transferFails + 1), state := .waiting }) w := by
          simp [updEntry, List.modify_modify_eq, Function.comp_def]
        rw [e2]
        refine updEntry_inner _ _ _ (fun d hd => ⟨rfl, fun i => ⟨?_, by simp, i.fails.1, Nat.min_le_left _ _⟩⟩)
        have : d.skip.isSome = false := by
          cases hk : d.skip.isSome
          · rfl
          · have := i.skip.1 hk
            rw [h1 d hd, hp.1] at this; cases this
        simp [this]
    · exact skipEntry_inner _ _ _
    · exact skipEntry_inner _ _ _
  · exact Inner.ite (fun _ => (updRobot_lower _ _ _ Iff.rfl rfl rfl).inner) (fun _ => Inner.refl _)

/-! ### Suspension, giving up, abort -/

theorem suspendRound_inner (w : Work) : Inner w.toState (suspendRound w).toState := by
  unfold suspendRound
  refine Inner.ite (fun h => ?_) (fun _ => Inner.refl _)
  refine Inner.ofRound rfl ⟨rfl, rfl⟩ rfl (fun i => ⟨fun _ => by simp, i.rows, i.length, ?_, i.entries, i.budgets⟩)
  have := i.limit
  simp only [h] at this
  simpa using this

theorem withdrawHolds_inner (w : Work) : Inner w.toState (withdrawHolds w).toState := by
  unfold withdrawHolds
  refine Inner.foldl _ (fun v pos => ?_) _ _
  refine Inner.ite (fun h => ?_) (fun _ => Inner.refl _)
  refine (cancelEntryHold_inner pos v).trans (keepWaiting_inner _ _ (fun e he => ?_))
  unfold Work.entry? at he h
  rw [cancelEntryHold_rsc] at he
  rw [he] at h
  simp only [Option.map_some, Option.some.injEq] at h
  rw [h]; simp

theorem watchRound_inner (w : Work) : Inner w.toState (watchRound w).toState := by
  unfold watchRound
  split
  · exact (suspendRound_inner w).trans (withdrawHolds_inner _)
  · exact withdrawHolds_inner _
  · exact Inner.refl _
  · exact Inner.refl _

theorem resumeRound_inner (w : Work) : Inner w.toState (resumeRound w).toState := by
  unfold resumeRound
  refine Inner.ite (fun h => ?_) (fun _ => considerDue_inner _)
  refine Inner.trans ?_ (passAtOnce_inner _)
  refine Inner.ofRound rfl ⟨rfl, rfl⟩ rfl (fun i => ⟨fun _ => by simp, i.rows, i.length, ?_, i.entries, i.budgets⟩)
  have := i.limit
  simp only [h.1] at this
  simpa using this

theorem giveUpEntry_inner (w : Work) (pos : Nat) : Inner w.toState (giveUpEntry w pos).toState := by
  unfold giveUpEntry
  split
  · exact Inner.refl _
  · split
    · exact skipEntry_inner _ _ _
    · exact (cancelEntryHold_inner _ _).trans (skipEntry_inner _ _ _)
    · simp only
      split
      · exact (skipEntry_inner _ _ _).lower (cancelRequest_lower _ _)
      · exact skipEntry_inner _ _ _
    · exact Inner.refl _

theorem giveUp_inner (o : RoundOutcome) (w : Work) : Inner w.toState (giveUp o w).toState := by
  unfold giveUp
  simp only
  have h1 : Inner w.toState ((List.range w.rsc.worklist.length).foldl giveUpEntry w).toState :=
    Inner.foldl _ (fun v pos => giveUpEntry_inner v pos) _ _
  refine Inner.ite (fun _ => h1.trans (roundEnd_inner _ _)) (fun _ => h1.trans ?_)
  exact Inner.ofRound rfl ⟨rfl, rfl⟩ rfl
    (fun i => ⟨fun _ => by simp, i.rows, i.length, by simp, i.entries, i.budgets⟩)

theorem recallPasses_inner (w : Work) : Inner w.toState (recallPasses w).toState := by
  unfold recallPasses
  refine Inner.foldl _ (fun v e => ?_) _ _
  split
  · exact (askGoHead_lower _ _ _).inner
  · exact Inner.refl _

theorem stopRound_inner (b : Bool) (w : Work) : Inner w.toState (stopRound b w).1.toState := by
  unfold stopRound
  split
  · refine Inner.trans ?_ (giveUp_inner _ _)
    exact Inner.ite (fun _ => recallPasses_inner _) (fun _ => Inner.refl _)
  · exact Inner.refl _

theorem abortEntry_inner (w : Work) (pos : Nat) : Inner w.toState (abortEntry w pos).toState := by
  unfold abortEntry
  split
  · exact Inner.refl _
  · split
    · exact skipEntry_inner _ _ _
    · exact skipEntry_inner _ _ _
    · exact (cancelEntryHold_inner _ _).trans (skipEntry_inner _ _ _)
    · exact endEntry_inner _ _ _ _ (.inr ⟨.inr rfl, rfl⟩)
    · exact Inner.refl _

theorem abortRound_inner (w : Work) : Inner w.toState (abortRound w).toState := by
  unfold abortRound
  refine Inner.ite (fun _ => Inner.refl _) (fun _ => ?_)
  exact (Inner.foldl _ (fun v pos => abortEntry_inner v pos) _ w).trans (roundEnd_inner _ _)

theorem expirePeriod_inner (w : Work) : Inner w.toState (expirePeriod w).toState := by
  unfold expirePeriod
  exact Inner.ite (fun _ => (trigger_inner _).trans (restartPeriod_inner _)) (fun _ => Inner.refl _)

theorem expireLimit_inner (w : Work) : Inner w.toState (expireLimit w).toState := by
  unfold expireLimit
  exact Inner.ite (fun _ => giveUp_inner _ _) (fun _ => Inner.refl _)

theorem startRound_inner (w : Work) : Inner w.toState (startRound w).1.toState := trigger_inner w

theorem planFlip_inner (w : Work) : Inner w.toState (planFlip w).1.toState := by
  unfold planFlip
  split
  · exact Inner.refl _
  · split
    · exact takeFlip_inner _
    · rename_i h
      exact Inner.ofRound rfl ⟨rfl, rfl⟩ rfl
        (fun i => ⟨fun _ => h, i.rows, i.length, i.limit, i.entries, i.budgets⟩)

end Sys2Proof.Machine
end

