-- ==== Sys2Proof/Laws/Weather.lean ====
section
/-! SUPPORT. What the cascade of an event leaves and keeps, said once: `Within`. -/

namespace Sys2Proof.Machine

/-- What a cascade leaves and keeps of the weather monitor: its inputs and settings stay, and the weather state can only go from
PARKING to SECURED. -/
structure WxmWithin (a b : Wxm) : Prop where
  settings : b.watchAt = a.watchAt ∧ b.stormAt = a.stormAt ∧ b.releaseHold = a.releaseHold ∧
    b.windSilence = a.windSilence ∧ b.parkingDeadline = a.parkingDeadline
  inputs : b.lastSample = a.lastSample ∧ b.declared = a.declared ∧ b.silenceStart = a.silenceStart ∧
    b.silenceExpired = a.silenceExpired
  weather : b.weather = a.weather ∨ (a.weather = .parking ∧ b.weather = .secured)
  inv : WeatherInv a → WeatherInv b

/-- The weather after the block is secured, by the test or at the deadline: no storm alighting stands. -/
theorem secured_inv (a b : Wxm) (h : b = { a with weather := .secured, deadlineTimer := none, alights := b.alights,
                                                  askKept := b.askKept })
    (hn : ∀ c, tget b.alights c = none) (hw : a.weather = .parking) (i : WeatherInv a) : WeatherInv b := by
  have hq := i.quiet
  have hr := i.release
  rw [hw] at hq hr
  rw [h]
  refine ⟨i.thresholds, by simp, by simp [stormOn], by simp, by simpa using hq, ?_, fun c hc => ?_⟩
  · simpa [stormOn, stormCondition] using hr
  · simp only at hc; rw [hn c] at hc; cases hc

theorem WxmStep.weatherInv {a b : Wxm} (h : WxmStep a b) (i : WeatherInv a) : WeatherInv b := by
  obtain ⟨same, weather, al⟩ := h
  rcases weather with ⟨e1, e2⟩ | ⟨e1, e2, e3, e4⟩
  · have hal : ∀ c, (tget b.alights c).isSome = true → (tget a.alights c).isSome = true := by
      intro c hc
      rcases al c with e | e
      · rw [← e]; exact hc
      · rw [e] at hc; cases hc
    rw [same, e1, e2]
    exact ⟨i.thresholds, i.calm, i.clear, i.deadline, i.quiet, i.release, fun c hc => i.alights c (hal c hc)⟩
  · exact secured_inv a b (by rw [same, e2, e3]) e4 e1 i

theorem WxmStep.within {a b : Wxm} (h : WxmStep a b) : WxmWithin a b := by
  have e := h.same
  refine ⟨?_, ?_, ?_, h.weatherInv⟩
  · rw [e]; exact ⟨rfl, rfl, rfl, rfl, rfl⟩
  · rw [e]; exact ⟨rfl, rfl, rfl, rfl⟩
  · rcases h.weather with g | g
    · exact .inl g.1
    · exact .inr ⟨g.1, g.2.1⟩

theorem WxmWithin.trans {a b c : Wxm} (h : WxmWithin a b) (g : WxmWithin b c) : WxmWithin a c := by
  obtain ⟨⟨a1, a2, a3, a4, a5⟩, ⟨b1, b2, b3, b4⟩, w1, i1⟩ := h
  obtain ⟨⟨c1, c2, c3, c4, c5⟩, ⟨d1, d2, d3, d4⟩, w2, i2⟩ := g
  refine ⟨⟨c1.trans a1, c2.trans a2, c3.trans a3, c4.trans a4, c5.trans a5⟩,
    ⟨d1.trans b1, d2.trans b2, d3.trans b3, d4.trans b4⟩, ?_, fun i => i2 (i1 i)⟩
  rcases w1 with e | ⟨e1, e2⟩
  · rw [← e]; exact w2
  · rcases w2 with f | ⟨f1, _⟩
    · exact .inr ⟨e1, f.trans e2⟩
    · rw [e2] at f1; cases f1

/-- What the cascade of an event leaves and keeps. -/
structure Within (s t : State) : Prop where
  now : t.now = s.now
  plant : t.plant = s.plant
  tracker : t.tracker = s.tracker
  fleet : t.fleet = s.fleet
  freeUses : t.freeUses = s.freeUses
  pending : t.pending = s.pending
  seu : t.seu = s.seu
  yac : t.yac = s.yac
  banks : t.pls.bankA = s.pls.bankA ∧ t.pls.bankB = s.pls.bankB
  freeze : t.pls.freeze = s.pls.freeze ∨ (s.pls.freeze = .freezeAsked ∧ t.pls.freeze = .frozen)
  round : RoundInv s.pls s.rsc → RoundInv t.pls t.rsc
  rac : RacStep s.rac t.rac
  fou : FouStep s.fou t.fou
  txs : TxsStep s.txs t.txs
  wxm : WxmWithin s.wxm t.wxm
  rpq : RpqStep s.rpq t.rpq

theorem Inner.within {s t : State} (h : Inner s t) : Within s t :=
  ⟨h.now, h.plant, h.tracker, h.fleet, h.freeUses, h.pending, h.seu, h.yac, h.banks, h.freeze, h.round, h.rac,
    h.fou, h.txs, h.wxm.within, h.rpq⟩

theorem Lower.within {s t : State} (h : Lower s t) : Within s t := h.inner.within

theorem Within.refl (s : State) : Within s s := (Lower.refl s).within

theorem Within.trans {s t u : State} (h : Within s t) (g : Within t u) : Within s u := by
  exact ⟨g.now.trans h.now, g.plant.trans h.plant, g.tracker.trans h.tracker, g.fleet.trans h.fleet,
    g.freeUses.trans h.freeUses, g.pending.trans h.pending, g.seu.trans h.seu, g.yac.trans h.yac,
    ⟨g.banks.1.trans h.banks.1, g.banks.2.trans h.banks.2⟩, freeze_trans h.freeze g.freeze, fun i => g.round (h.round i),
    h.rac.trans g.rac, h.fou.trans g.fou, h.txs.trans g.txs, h.wxm.trans g.wxm, h.rpq.trans g.rpq⟩

theorem Within.foldl {α : Type} (f : Work → α → Work) (hf : ∀ v x, Within v.toState (f v x).toState) (l : List α) :
    ∀ w : Work, Within w.toState (l.foldl f w).toState := by
  induction l with
  | nil => exact fun w => Within.refl _
  | cons x l ih => exact fun w => (hf w x).trans (ih (f w x))

theorem Within.ite {c : Prop} [Decidable c] {s : State} {a b : Work} (ha : c → Within s a.toState)
    (hb : ¬ c → Within s b.toState) : Within s (if c then a else b).toState := by
  split
  · rename_i h; exact ha h
  · rename_i h; exact hb h

/-- Only the weather monitor has changed. -/
theorem Within.ofWxm {s t : State} (e : t = { s with wxm := t.wxm }) (h : WxmWithin s.wxm t.wxm) : Within s t := by
  rw [e]
  exact ⟨rfl, rfl, rfl, rfl, rfl, rfl, rfl, rfl, ⟨rfl, rfl⟩, .inl rfl, id, .refl _, .refl _, .refl _, h, .refl _⟩

/-! ### Storm alightings (R147) -/

/-- The storm alightings are set, in PARKING where one is set afresh. -/
theorem setAlights_within (a : Table 4 (Option StormAlight)) (k : Table 4 Nat) (w : Work)
    (h : WeatherInv w.wxm → ∀ c, (tget a c).isSome = true → w.wxm.weather = .parking) :
    Within w.toState { w.toState with wxm := { w.wxm with alights := a, askKept := k } } :=
  Within.ofWxm rfl ⟨⟨rfl, rfl, rfl, rfl, rfl⟩, ⟨rfl, rfl, rfl, rfl⟩, .inl rfl, fun i =>
    ⟨i.thresholds, i.calm, i.clear, i.deadline, i.quiet, i.release, h i⟩⟩

theorem setAlight_within (c : CarrierIx) (a : Option StormAlight) (w : Work)
    (h : a.isSome = true → w.wxm.weather = .parking ∨ (tget w.wxm.alights c).isSome = true) :
    Within w.toState (setAlight c a w).toState := by
  refine setAlights_within _ _ w (fun i d hd => ?_)
  by_cases e : d = c
  · subst e
    rw [tget_tset_same] at hd
    rcases h hd with g | g
    · exact g
    · exact i.alights d g
  · rw [tget_tset_other _ _ _ _ e] at hd; exact i.alights d hd

theorem alightWanted_parking (w : Work) (c : CarrierIx) (p : Slot × Row) (h : alightWanted w c = some p) :
    w.wxm.weather = .parking := by
  unfold alightWanted at h
  simp only at h
  split at h
  · rename_i g; exact g.1
  · cases h

theorem createAlight_within (c : CarrierIx) (k : Slot) (r : Row) (w : Work) (h : w.wxm.weather = .parking) :
    Within w.toState (createAlight c k r w).toState := by
  unfold createAlight
  have h1 := setAlight_within c (some { robot := k, row := r, asks := min 3 (tget w.wxm.askKept c + 1), retry := none }) w
    (fun _ => .inl h)
  exact Within.ite (fun _ => h1.trans (askHold_lower _ _ _ _ _).within) (fun _ => h1)

theorem removeAlight_within (c : CarrierIx) (w : Work) : Within w.toState (removeAlight c w).toState :=
  (removeAlight_lower c w).within

theorem alightWanted_aboard (w : Work) (c : CarrierIx) (p : Slot × Row) (h : alightWanted w c = some p) :
    (w.robot p.1).state = .aboard := by
  unfold alightWanted at h
  simp only at h
  split at h
  · split at h
    · split at h
      · split at h
        · rename_i g; cases h; exact g.2.2.1
        · cases h
      · cases h
    · cases h
  · cases h

/-- A robot aboard keeps the block from being secured (R148). -/
theorem securedTest_aboard (w : Work) (k : Slot) (h : (w.robot k).state = .aboard) : securedTest w = w := by
  have e : secured w.rac.rows w.fou.robots w.txs.carriers = false := by
    unfold secured
    have : (indices 32).all (fun k => decide ((tget w.fou.robots k).state ∈
        [RobotState.parked, .stranded, .lost, .empty]) || (decide ((tget w.fou.robots k).state = .fault) &&
          decide ((tget w.fou.robots k).position = .docked))) = false := by
      rw [List.all_eq_false]
      exact ⟨k, mem_indices 32 k, by unfold Work.robot at h; simp [h]⟩
    rw [this]; rfl
  unfold securedTest
  rw [if_neg (by simp [e])]

theorem removeAlight_weather (c : CarrierIx) (w : Work) (k : Slot) (h : (w.robot k).state = .aboard) :
    (removeAlight c w).wxm.weather = w.wxm.weather := by
  have hc : ∀ (q : Requester) (r : Row) (v : Work), (v.robot k).state = .aboard → (cancelHold q r v).wxm = v.wxm := by
    intro q r v hv
    unfold cancelHold updRow stateChanged
    simp only
    split
    · split
      · have e : securedTest (tell (putRow r (trackWith .withdraw) v)) = tell (putRow r (trackWith .withdraw) v) :=
          securedTest_aboard _ k (by simpa [tell, Work.robot] using hv)
        rw [e]; simp [tell]
      · simp
    · rfl
  unfold removeAlight
  simp only
  split
  · rfl
  · rw [hc]
    exact h

theorem syncAlight_within (w : Work) (c : CarrierIx) : Within w.toState (syncAlight w c).toState := by
  unfold syncAlight
  split
  · exact Within.refl _
  · rename_i h
    exact createAlight_within _ _ _ _ (alightWanted_parking _ _ _ h)
  · exact removeAlight_within _ _
  · rename_i h
    refine Within.ite (fun _ => Within.refl _) (fun _ => ?_)
    refine (removeAlight_within c w).trans (createAlight_within _ _ _ _ ?_)
    rw [removeAlight_weather c w _ (alightWanted_aboard _ _ _ h)]
    exact alightWanted_parking _ _ _ h

theorem stormAnswer_within (k : Slot) (r : Row) (a : HoldAnswer) (w : Work) :
    Within w.toState (stormAnswer k r a w).toState := by
  unfold stormAnswer
  split
  · exact Within.refl _
  · rename_i c _
    split
    · exact Within.refl _
    · rename_i al ha
      split
      · refine (setAlight_within c none w (by simp)).trans ?_
        exact setAlights_within _ _ _ (fun i d hd => i.alights d hd)
      · refine Within.ite (fun _ => ?_) (fun _ => Within.refl _)
        exact setAlight_within _ _ _ (fun _ => .inr (by rw [ha]; rfl))

theorem expireAlightRetry_within (c : CarrierIx) (w : Work) : Within w.toState (expireAlightRetry c w).toState := by
  unfold expireAlightRetry
  split
  · exact Within.refl _
  · rename_i a ha
    refine Within.ite (fun _ => ?_) (fun _ => Within.refl _)
    exact (setAlight_within c _ w (fun _ => .inr (by rw [ha]; rfl))).trans (askHold_lower _ _ _ _ _).within

/-! ### Every storm alighting is removed -/

theorem removeAlight_none (c : CarrierIx) (w : Work) : tget (removeAlight c w).wxm.alights c = none := by
  have h : ∀ (q : Requester) (r : Row) (v : Work), tget v.wxm.alights c = none →
      tget (cancelHold q r v).wxm.alights c = none := by
    intro q r v hv
    rcases (cancelHold_lower q r v).wxm.alights c with e | e
    · rw [e]; exact hv
    · exact e
  unfold removeAlight
  simp only
  split
  · simp
  · exact h _ _ _ (by simp)

theorem removeAlights_lower (w : Work) : Lower w.toState (removeAlights w).toState :=
  Lower.foldl _ (fun v c => removeAlight_lower c v) _ _

theorem removeAlights_none (w : Work) (c : CarrierIx) : tget (removeAlights w).wxm.alights c = none := by
  have key : ∀ (l : List CarrierIx) (v : Work), (c ∈ l ∨ tget v.wxm.alights c = none) →
      tget (l.foldl (fun v c => removeAlight c v) v).wxm.alights c = none := by
    intro l
    induction l with
    | nil => intro v h; rcases h with h | h
             · cases h
             · exact h
    | cons d l ih =>
      intro v h
      refine ih _ ?_
      by_cases e : c = d
      · subst e; exact .inr (removeAlight_none c v)
      · rcases h with h | h
        · rcases List.mem_cons.1 h with h | h
          · exact absurd h e
          · exact .inl h
        · refine .inr ?_
          rcases (removeAlight_lower d v).wxm.alights c with g | g
          · rw [g]; exact h
          · exact g
  exact key _ _ (.inl (mem_indices 4 c))

/-! ### The weather record (R154) -/

theorem changeWeather_rest (new : Weather) (cause : StormCause) (w : Work) :
    (changeWeather new cause w).toState =
      { w.toState with
        wxm := { w.wxm with
          weather := new, released := if new = .watch then stormOn w.wxm.weather else w.wxm.released }
        rpq := (changeWeather new cause w).rpq } := rfl

theorem changeWeather_rpqStep (new : Weather) (cause : StormCause) (w : Work) :
    RpqStep w.rpq (changeWeather new cause w).rpq :=
  post_rpqStep _ { w with wxm := { w.wxm with
    weather := new, released := if new = .watch then stormOn w.wxm.weather else w.wxm.released } }

theorem drainTest_within (w : Work) : Within w.toState (drainTest w).toState := (drainTest_lower w).within

theorem securedTest_within (w : Work) : Within w.toState (securedTest w).toState := (securedTest_lower w).within

/-- The storm alightings after a change of state (R147). -/
theorem keepAlights_within (w : Work) : Within w.toState (keepAlights w).toState := Within.foldl _ syncAlight_within _ w

/-! ### The cascade -/

theorem takeMsg_within (m : Msg) (w : Work) : Within w.toState (takeMsg m w).toState := by
  unfold takeMsg
  split
  · exact (entryAnswer_inner _ _ _ _ _).within
  · exact (requestAnswer_lower _ _ _ _ _).within
  · exact stormAnswer_within _ _ _ _
  · exact (rowFreed_lower _ _).within
  · exact (arbitrate_lower _ _).within
  · exact (entryGone_inner _ _ _ _).within
  · exact (entryStranded_inner _ _ _ _).within
  · exact (entryPass_inner _ _ _ _ _).within
  · exact (entryRefused_inner _ _ _ _).within
  · exact (entryOutcome_inner _ _ _ _ _).within
  · exact (testRound_inner _).within
  · exact (assignmentPass_inner { w with passDue := false }).within
  · exact (cancelHold_lower _ _ _).within

theorem cascadeStep_within (w v : Work) (h : cascadeStep w = some v) : Within w.toState v.toState := by
  unfold cascadeStep at h
  split at h
  · rename_i m rest _
    simp only [Option.some.injEq] at h
    subst h
    exact takeMsg_within m { w with agenda := rest }
  · split at h
    · simp only [Option.some.injEq] at h
      subst h
      exact (assignmentPass_inner { w with passDue := false }).within
    · split at h
      · simp only [Option.some.injEq] at h
        subst h
        exact keepAlights_within { w with told := false }
      · cases h

theorem cascade_within (n : Nat) : ∀ w : Work, Within w.toState (cascade n w).toState := by
  induction n with
  | zero => exact fun w => Within.refl _
  | succ n ih =>
    intro w
    unfold cascade
    split
    · exact Within.refl _
    · rename_i v h
      exact (cascadeStep_within w v h).trans (ih v)

/-- Whatever an event sets off, the cascade leaves and keeps this much. -/
theorem settle_within (w : Work) : Within w.toState (settle w).toState := cascade_within _ w

end Sys2Proof.Machine
end

