-- ==== Sys2Proof/Laws/Core.lean ====
section
/-! SUPPORT. The conditions every event keeps, one relation for all of them but the weather's: `Core`. -/

namespace Sys2Proof.Machine

/-- The queue of commands stays, and each condition of the block that held before holds after. -/
structure Core (s t : State) : Prop where
  pending : t.pending = s.pending
  rows : NoticeInv s.rac → RowsInv s.rac → RowsInv t.rac
  notices : NoticeInv s.rac → NoticeInv t.rac
  reference : ReferenceInv s.rac → ReferenceInv t.rac
  fleetInv : FleetInv s.fou → FleetInv t.fou
  pool : PoolInv s.txs → PoolInv t.txs
  round : RoundInv s.pls s.rsc → RoundInv t.pls t.rsc
  reports : ReportInv s.rpq → ReportInv t.rpq
  settings : SettingsInv s → SettingsInv t
  estimator : SettingsInv s → EstimatorInv s.seu → EstimatorInv t.seu
  accounts : AccountsInv s.yac → AccountsInv t.yac
  ports : t.plant = s.plant ∧ t.tracker = s.tracker ∧ t.fleet = s.fleet
  frozen : s.pls.freeze = .frozen → t.pls.freeze = .frozen

theorem Core.refl (s : State) : Core s s :=
  ⟨rfl, fun _ => id, id, id, id, id, id, id, id, fun _ => id, id, ⟨rfl, rfl, rfl⟩, id⟩

theorem Core.trans {s t u : State} (h : Core s t) (g : Core t u) : Core s u :=
  ⟨g.pending.trans h.pending, fun i j => g.rows (h.notices i) (h.rows i j), fun i => g.notices (h.notices i),
    fun i => g.reference (h.reference i), fun i => g.fleetInv (h.fleetInv i), fun i => g.pool (h.pool i),
    fun i => g.round (h.round i), fun i => g.reports (h.reports i), fun i => g.settings (h.settings i),
    fun i j => g.estimator (h.settings i) (h.estimator i j), fun i => g.accounts (h.accounts i),
    ⟨g.ports.1.trans h.ports.1, g.ports.2.1.trans h.ports.2.1, g.ports.2.2.trans h.ports.2.2⟩,
    fun i => g.frozen (h.frozen i)⟩

theorem Core.ite {c : Prop} [Decidable c] {s : State} {a b : Work} (ha : c → Core s a.toState)
    (hb : ¬ c → Core s b.toState) : Core s (if c then a else b).toState := by
  split
  · rename_i h; exact ha h
  · rename_i h; exact hb h

theorem Core.foldl {α : Type} (f : Work → α → Work) (hf : ∀ v x, Core v.toState (f v x).toState) (l : List α) :
    ∀ w : Work, Core w.toState (l.foldl f w).toState := by
  induction l with
  | nil => exact fun w => Core.refl _
  | cons x l ih => exact fun w => (hf w x).trans (ih (f w x))

/-- The reference set follows the reference attributes alone (R5). -/
theorem reference_same {a b : Rac} (h : ∀ r, (tget b.rows r).reference = (tget a.rows r).reference) :
    ReferenceInv a → ReferenceInv b := by
  unfold ReferenceInv
  intro i
  have e : (indices 256).filter (fun r => (tget b.rows r).reference) =
      (indices 256).filter (fun r => (tget a.rows r).reference) := List.filter_congr (fun r _ => h r)
  rw [e]; exact i

/-- The settings are in their ranges when they are what they were. -/
theorem settings_same {s t : State} (i : SettingsInv s) (hA : BankInv t.pls.bankA) (hB : BankInv t.pls.bankB)
    (h1 : t.rac.holdTimeout = s.rac.holdTimeout) (h2 : t.fou.acceptTimeout = s.fou.acceptTimeout)
    (h3 : t.fou.silenceTimeout = s.fou.silenceTimeout) (h4 : TxsSame s.txs t.txs) (h5 : t.seu.gate = s.seu.gate)
    (h6 : t.wxm.watchAt = s.wxm.watchAt ∧ t.wxm.stormAt = s.wxm.stormAt ∧ t.wxm.releaseHold = s.wxm.releaseHold ∧
      t.wxm.windSilence = s.wxm.windSilence ∧ t.wxm.parkingDeadline = s.wxm.parkingDeadline)
    (h7 : t.rpq.threshold = s.rpq.threshold ∧ t.rpq.staleTime = s.rpq.staleTime) : SettingsInv t := by
  obtain ⟨g1, g2, g3, g4, g5⟩ := h6
  have e := h4
  unfold TxsSame at e
  refine ⟨hA, hB, by rw [h1]; exact i.hold, by rw [h2]; exact i.accept, by rw [h3]; exact i.silence, ?_, ?_, ?_, ?_, ?_, ?_,
    by rw [h5]; exact i.gate, by rw [g1, g2]; exact i.wind, by rw [g3]; exact i.releaseHold,
    by rw [g4]; exact i.windSilence, by rw [g5]; exact i.parking, by rw [h7.1]; exact i.threshold,
    by rw [h7.2]; exact i.stale⟩
  · rw [e]; exact i.perRow
  · rw [e]; exact i.slack
  · rw [e]; exact i.park
  · rw [e]; exact i.arbiter
  · rw [e]; exact i.jump
  · rw [e]; exact i.guard

/-- What a cascade keeps. -/
theorem Within.core {s t : State} (h : Within s t) : Core s t where
  pending := h.pending
  rows := fun _ i => h.rac.rows i
  notices := h.rac.notices
  reference := reference_same (fun r => (h.rac.map r).2.2.2.1)
  fleetInv := h.fou.inv
  pool := h.txs.inv
  round := h.round
  reports := h.rpq.inv
  settings := fun i => settings_same i (h.banks.1 ▸ i.bankA) (h.banks.2 ▸ i.bankB) h.rac.windows.2.2.2 h.fou.timeouts.1
    h.fou.timeouts.2 h.txs.settings (by rw [h.seu]) h.wxm.settings h.rpq.settings
  estimator := fun _ i => by rw [h.seu]; exact i
  accounts := fun i => by rw [h.yac]; exact i
  ports := ⟨h.plant, h.tracker, h.fleet⟩
  frozen := fun e => by
    rcases h.freeze with g | ⟨g, _⟩
    · exact g.trans e
    · rw [e] at g; cases g

theorem Inner.core {s t : State} (h : Inner s t) : Core s t := h.within.core
theorem Lower.core {s t : State} (h : Lower s t) : Core s t := h.within.core

/-- Only the fleet order unit has changed, and not its timeouts. -/
theorem Core.ofFou {s t : State} (e : t = { s with fou := t.fou })
    (ht : t.fou.acceptTimeout = s.fou.acceptTimeout ∧ t.fou.silenceTimeout = s.fou.silenceTimeout)
    (h : FleetInv s.fou → FleetInv t.fou) : Core s t := by
  rw [e]
  exact ⟨rfl, fun _ => id, id, id, h, id, id, id, fun i => settings_same i i.bankA i.bankB rfl ht.1 ht.2 rfl rfl
    ⟨rfl, rfl, rfl, rfl, rfl⟩ ⟨rfl, rfl⟩, fun _ => id, id, ⟨rfl, rfl, rfl⟩, id⟩

/-- Only the estimator has changed, and not its gate. -/
theorem Core.ofSeu {s t : State} (e : t = { s with seu := t.seu }) (hg : t.seu.gate = s.seu.gate)
    (h : SettingsInv s → EstimatorInv s.seu → EstimatorInv t.seu) : Core s t := by
  rw [e]
  exact ⟨rfl, fun _ => id, id, id, id, id, id, id, fun i => settings_same i i.bankA i.bankB rfl rfl rfl rfl hg
    ⟨rfl, rfl, rfl, rfl, rfl⟩ ⟨rfl, rfl⟩, h, id, ⟨rfl, rfl, rfl⟩, id⟩

/-- Only the accounts have changed. -/
theorem Core.ofYac {s t : State} (e : t = { s with yac := t.yac }) (h : AccountsInv s.yac → AccountsInv t.yac) :
    Core s t := by
  rw [e]
  exact ⟨rfl, fun _ => id, id, id, id, id, id, id, fun i => settings_same i i.bankA i.bankB rfl rfl rfl rfl rfl
    ⟨rfl, rfl, rfl, rfl, rfl⟩ ⟨rfl, rfl⟩, fun _ => id, h, ⟨rfl, rfl, rfl⟩, id⟩

/-- Only the report queue has changed. -/
theorem Core.ofRpq {s t : State} (e : t = { s with rpq := t.rpq }) (h : RpqStep s.rpq t.rpq) : Core s t :=
  (Lower.ofRpq e h).core

/-- Only the weather monitor has changed, and not its settings. -/
theorem Core.ofWxm {s t : State} (e : t = { s with wxm := t.wxm })
    (h6 : t.wxm.watchAt = s.wxm.watchAt ∧ t.wxm.stormAt = s.wxm.stormAt ∧ t.wxm.releaseHold = s.wxm.releaseHold ∧
      t.wxm.windSilence = s.wxm.windSilence ∧ t.wxm.parkingDeadline = s.wxm.parkingDeadline) : Core s t := by
  rw [e]
  exact ⟨rfl, fun _ => id, id, id, id, id, id, id, fun i => settings_same i i.bankA i.bankB rfl rfl rfl rfl rfl h6
    ⟨rfl, rfl⟩, fun _ => id, id, ⟨rfl, rfl, rfl⟩, id⟩

/-- Only the rows have changed, and not the hold timeout. -/
theorem Core.ofRac {s t : State} (e : t = { s with rac := t.rac }) (ht : t.rac.holdTimeout = s.rac.holdTimeout)
    (hr : NoticeInv s.rac → RowsInv s.rac → RowsInv t.rac) (hn : NoticeInv s.rac → NoticeInv t.rac)
    (hf : ReferenceInv s.rac → ReferenceInv t.rac) : Core s t := by
  rw [e]
  exact ⟨rfl, hr, hn, hf, id, id, id, id, fun i => settings_same i i.bankA i.bankB ht rfl rfl rfl rfl
    ⟨rfl, rfl, rfl, rfl, rfl⟩ ⟨rfl, rfl⟩, fun _ => id, id, ⟨rfl, rfl, rfl⟩, id⟩

/-- Only carriers have changed: the pool is what it was. -/
theorem Core.ofCarriers (s : State) (x : Table 4 Carrier) : Core s { s with txs := { s.txs with carriers := x } } :=
  ⟨rfl, fun _ => id, id, id, id, fun i => ⟨i.robots, i.requests⟩, id, id,
    fun i => settings_same i i.bankA i.bankB rfl rfl rfl rfl rfl ⟨rfl, rfl, rfl, rfl, rfl⟩ ⟨rfl, rfl⟩, fun _ => id, id, ⟨rfl, rfl, rfl⟩, id⟩

/-! ### The estimator and the accounts -/

theorem addSat_le (a v : Nat) : (addSat a v).1 ≤ Config.bucketLimit := by
  unfold addSat; split
  · exact Nat.le_refl _
  · omega

theorem addSat_exact (a v : Nat) (h : (addSat a v).2 = false) : (addSat a v).1 = a + v := by
  unfold addSat at *
  split at h
  · cases h
  · rename_i g; rw [if_neg g]

theorem satSucc_le (n : Nat) : satSucc n ≤ Config.countLimit := Nat.min_le_left _ _

/-- An addition to a loss bucket whose result is not held at the limit. -/
theorem addLoss_sound (c : FinalClass) (v : Nat) (b : Buckets) (hc : c ≠ .nodata) (h1 : b.produced ≤ Config.bucketLimit)
    (h2 : b.expected ≤ Config.bucketLimit) (h3 : b.surplus ≤ Config.bucketLimit) (h4 : b.soiling ≤ Config.bucketLimit)
    (h5 : b.service ≤ Config.bucketLimit) (h6 : b.stow ≤ Config.bucketLimit) (h7 : b.outage ≤ Config.bucketLimit)
    (bal : b.saturated = false →
      b.produced + b.soiling + b.service + b.stow + b.outage + v = b.expected + b.surplus) :
    (addLoss c v b).Sound := by
  unfold addLoss
  split
  · rename_i h
    cases c <;> first | exact absurd rfl hc | cases h
  · refine ⟨fun h => ?_, ⟨h1, h2, h3, addSat_le _ _, h5, h6, h7⟩⟩
    simp only [Bool.or_eq_false_iff] at h
    have := addSat_exact _ _ h.2
    have := bal h.1
    simp only; omega
  · refine ⟨fun h => ?_, ⟨h1, h2, h3, h4, addSat_le _ _, h6, h7⟩⟩
    simp only [Bool.or_eq_false_iff] at h
    have := addSat_exact _ _ h.2
    have := bal h.1
    simp only; omega
  · refine ⟨fun h => ?_, ⟨h1, h2, h3, h4, h5, addSat_le _ _, h7⟩⟩
    simp only [Bool.or_eq_false_iff] at h
    have := addSat_exact _ _ h.2
    have := bal h.1
    simp only; omega
  · refine ⟨fun h => ?_, ⟨h1, h2, h3, h4, h5, h6, addSat_le _ _⟩⟩
    simp only [Bool.or_eq_false_iff] at h
    have := addSat_exact _ _ h.2
    have := bal h.1
    simp only; omega

/-- An attribution adds the same to both sides of the balance, unless a bucket is held at its limit (R158, R160). -/
theorem attribute1_sound (e x : Nat) (c : FinalClass) (b : Buckets) (i : b.Sound) : (attribute1 e x c b).Sound := by
  obtain ⟨bal, l1, l2, l3, l4, l5, l6, l7⟩ := i
  unfold attribute1
  by_cases hc : c = .nodata
  · rw [if_pos hc]
    exact ⟨bal, l1, l2, l3, l4, l5, l6, l7⟩
  rw [if_neg hc]
  simp only
  split
  · refine ⟨fun h => ?_, ⟨addSat_le _ _, addSat_le _ _, addSat_le _ _, l4, l5, l6, l7⟩⟩
    simp only [Bool.or_eq_false_iff] at h
    have h1 := addSat_exact _ _ h.1.1.2
    have h2 := addSat_exact _ _ h.1.2
    have h3 := addSat_exact _ _ h.2
    have := bal h.1.1.1
    simp only; omega
  · split
    · refine addLoss_sound _ _ _ hc (addSat_le _ _) (addSat_le _ _) l3 l4 l5 l6 l7 (fun h => ?_)
      simp only [Bool.or_eq_false_iff] at h
      have h1 := addSat_exact _ _ h.1.2
      have h2 := addSat_exact _ _ h.2
      have := bal h.1.1
      simp only; omega
    · refine ⟨fun h => ?_, ⟨addSat_le _ _, addSat_le _ _, l3, l4, l5, l6, l7⟩⟩
      simp only [Bool.or_eq_false_iff] at h
      have h1 := addSat_exact _ _ h.1.2
      have h2 := addSat_exact _ _ h.2
      have := bal h.1.1
      simp only; omega

theorem attributeZone_sound (a : Attribution) (x : ZoneAccount) (i : x.buckets.Sound) :
    (attributeZone a x).buckets.Sound ∧ (attributeZone a x).recovered = x.recovered := by
  unfold attributeZone; split
  · exact ⟨i, rfl⟩
  · exact ⟨attribute1_sound _ _ _ _ i, rfl⟩

theorem attributeAll_inv (f : Row → Attribution) (y : Yac) (i : AccountsInv y) : AccountsInv (attributeAll f y) := by
  refine ⟨fun r => ?_, fun z => ?_⟩
  · simp only [attributeAll, tget_tmap]
    unfold attributeRow; split
    · exact ⟨(i.rows r).1, satSucc_le _⟩
    · exact ⟨attribute1_sound _ _ _ _ (i.rows r).1, (i.rows r).2⟩
  · simp only [attributeAll, tget_tmap]
    have key : ∀ (l : List Row) (x : ZoneAccount), x.buckets.Sound → x.recovered ≤ Config.bucketLimit →
        (l.foldl (fun v r => attributeZone (f r) v) x).buckets.Sound ∧
          (l.foldl (fun v r => attributeZone (f r) v) x).recovered ≤ Config.bucketLimit := by
      intro l
      induction l with
      | nil => exact fun x h g => ⟨h, g⟩
      | cons r l ih =>
        intro x h g
        have := attributeZone_sound (f r) x h
        exact ih _ this.1 (by rw [this.2]; exact g)
    exact key _ _ (i.zones z).1 (i.zones z).2

/-- The filter stays between the old ratio and the sample (R107, R108). -/
theorem filterRatio_le (s sr gain : Nat) (hs : s ≤ 4096) (hr : sr ≤ 4096) (hg : gain ≤ 16) :
    filterRatio s sr gain ≤ 4096 := by
  unfold filterRatio
  have h1 : (((sr : Int) - (s : Int)) * (gain : Int)).tdiv 16 ≤ 4096 - (s : Int) := by
    by_cases h : (s : Int) ≤ sr
    · have h2 : ((sr : Int) - s) * gain ≤ ((sr : Int) - s) * 16 :=
        Int.mul_le_mul_of_nonneg_left (by omega) (by omega)
      have h3 : (0 : Int) ≤ ((sr : Int) - s) * gain := Int.mul_nonneg (by omega) (by omega)
      rw [Int.tdiv_eq_ediv_of_nonneg h3]
      omega
    · have h3 : ((sr : Int) - s) * gain ≤ 0 := by
        have : (0 : Int) ≤ ((s : Int) - sr) * gain := Int.mul_nonneg (by omega) (by omega)
        have e : ((sr : Int) - s) * gain = -(((s : Int) - sr) * gain) := by
          rw [← Int.neg_mul]; congr 1; omega
        omega
      have h4 : (((sr : Int) - s) * gain).tdiv 16 ≤ 0 := by
        have e : ((sr : Int) - s) * gain = -(-(((sr : Int) - s) * gain)) := by omega
        rw [e, Int.neg_tdiv, Int.tdiv_eq_ediv_of_nonneg (by omega)]
        omega
      omega
  omega

theorem policy_gain (w : Work) (i : SettingsInv w.toState) (r : Row) : (w.policy r).gain ≤ 16 := by
  unfold Work.policy Pls.frontBank; split
  · exact (i.bankA.gain _).2
  · exact (i.bankB.gain _).2

theorem policy_pDry (w : Work) (i : SettingsInv w.toState) (r : Row) : (w.policy r).pDry ≤ 4096 := by
  unfold Work.policy Pls.frontBank; split
  · exact (i.bankA.pDry _).2
  · exact (i.bankB.pDry _).2

/-- A close raises nothing of a row but its accumulator (R26, R103). -/
theorem closeRow_inv (x : RowRec) (i : RowInv x) : RowInv { x with acc := rowClass x } ∧ AccInv { x with acc := rowClass x } :=
  ⟨⟨i.stowed, i.timer, i.hold, i.attempts, i.read, i.capacity, i.length⟩, Nat.le_refl _⟩

theorem closeInterval_core (w : Work) : Core w.toState (closeInterval w).toState := by
  unfold closeInterval
  refine Core.trans ?_ (postGroup_lower _ _).core
  refine ⟨rfl, fun _ i r => ?_, fun i => ⟨i.once, fun r => ?_, i.attention⟩, ?_, id, id, id, id, fun i => ?_, fun i j => ?_,
    attributeAll_inv _ _, ⟨rfl, rfl, rfl⟩, id⟩
  · simp only [tget_tmap]; exact closeRow_inv _ (i r).1
  · simp only [tget_tmap]; exact i.full r
  · exact reference_same (fun r => by simp)
  · exact settings_same i i.bankA i.bankB rfl rfl rfl rfl rfl ⟨rfl, rfl, rfl, rfl, rfl⟩ ⟨rfl, rfl⟩
  · refine ⟨fun r => ?_, fun r => ?_, ?_, ?_, j.yDay⟩
    · simp only [tget_tmap]
      split
      · exact filterRatio_le _ _ _ (j.ratio r) (Nat.min_le_left _ _) (policy_gain w i r)
      · exact j.ratio r
    · simp only [tget_tmap]; exact j.passes r
    · simp only; split
      · exact Nat.min_le_left _ _
      · exact j.daySum
    · simp only; split
      · exact satSucc_le _
      · exact j.refCount

theorem closeOpen_core (w : Work) : Core w.toState (closeOpen w).toState :=
  Core.ite (fun _ => closeInterval_core w) (fun _ => Core.refl _)

theorem openInterval_core (x : Half) (a b : Row) (w : Work) : Core w.toState (openInterval x a b w).1.toState := by
  unfold openInterval
  split
  · exact Core.refl _
  · split
    · exact Core.refl _
    · exact Core.ofSeu rfl rfl (fun _ i => ⟨fun r => by simpa using i.ratio r, fun r => by simpa using i.passes r,
        i.daySum, i.refCount, i.yDay⟩)

theorem energyValueIn_core (v : Half) (w : Work) : Core w.toState (energyValueIn v w).1.toState := by
  unfold energyValueIn
  split
  · rename_i r _ _
    have h1 : Core w.toState { w.toState with seu := { w.seu with
        rows := (if v = 0xFFFF#16 then w.seu.rows
          else tset w.seu.rows r { tget w.seu.rows r with reading := some v.toNat })
        pointer := if decide (r = w.seu.winLast) then none else some (r + 1) } } := by
      refine Core.ofSeu rfl rfl (fun _ i => ⟨fun q => ?_, fun q => ?_, i.daySum, i.refCount, i.yDay⟩)
      · simp only; split
        · exact i.ratio q
        · rw [tget_tset]; split
          · rename_i e; subst e; exact i.ratio _
          · exact i.ratio q
      · simp only; split
        · exact i.passes q
        · rw [tget_tset]; split
          · rename_i e; subst e; exact i.passes _
          · exact i.passes q
    simp only
    refine Core.ite (fun _ => ?_) (fun _ => h1)
    exact Core.trans h1 (closeInterval_core { w with seu := { w.seu with
        rows := (if v = 0xFFFF#16 then w.seu.rows
          else tset w.seu.rows r { tget w.seu.rows r with reading := some v.toNat })
        pointer := if decide (r = w.seu.winLast) then none else some (r + 1) } })
  · exact Core.refl _

theorem ratioAfter_le (c : Bool) (before post p len : Nat) (h1 : before ≤ 4096) (h2 : post ≤ 4096) :
    ratioAfter c before post p len ≤ 4096 := by
  unfold ratioAfter
  split
  · split <;> assumption
  · split
    · have : (post - before) * min p len / len ≤ post - before := by
        refine Nat.div_le_of_le_mul ?_
        rw [Nat.mul_comm len]
        exact Nat.mul_le_mul_left _ (Nat.min_le_right _ _)
      omega
    · exact h1

theorem addRecovered_core (z : Zone) (v : Nat) (w : Work) : Core w.toState (addRecovered z v w).toState := by
  refine Core.ofYac rfl (fun i => ⟨i.rows, fun y => ?_⟩)
  simp only [addRecovered]
  rw [tget_tset]; split
  · rename_i e; subst e; exact ⟨(i.zones _).1, addSat_le _ _⟩
  · exact i.zones y

theorem passResult_core (r : Row) (k : Slot) (m : Mode) (c : Bool) (p : Nat) (w : Work) :
    Core w.toState (passResult r k m c p w).toState := by
  unfold passResult
  simp only
  refine Core.trans ?_ (post_lower _ _).core
  refine Core.trans ?_ (addRecovered_core _ _ _)
  refine Core.ofSeu rfl rfl (fun i j => ?_)
  have hp : postRatio m (w.policy r) ≤ 4096 := by
    unfold postRatio; split
    · exact Nat.le_refl _
    · exact policy_pDry w i r
    · exact policy_pDry w i r
  have hr := ratioAfter_le c (tget w.seu.rows r).ratio (postRatio m (w.policy r)) p (w.row r).length (j.ratio r) hp
  refine ⟨fun q => ?_, fun q => ?_, j.daySum, j.refCount, j.yDay⟩
  · simp only; rw [tget_tset]; split
    · split
      · exact hr
      · exact hr
    · exact j.ratio q
  · simp only; rw [tget_tset]; split
    · split
      · exact ⟨satSucc_le _, (j.passes r).2⟩
      · exact ⟨(j.passes r).1, satSucc_le _⟩
    · exact j.passes q

theorem closeDay_core (w : Work) : Core w.toState (closeDay w).toState := by
  unfold closeDay
  simp only
  have h1 : Core w.toState { w.toState with seu := { w.seu with
      day := w.seu.day + 1, yDay := if 0 < w.seu.refCount then w.seu.daySum else w.seu.yDay } } := by
    refine Core.ofSeu rfl rfl (fun _ i => ⟨i.ratio, i.passes, i.daySum, i.refCount, ?_⟩)
    simp only; split
    · exact i.daySum
    · exact i.yDay
  refine Core.trans (Core.trans h1 (post_lower (.dayClosed (w.seu.day + 1)
    (if 0 < w.seu.refCount then w.seu.daySum else w.seu.yDay) w.seu.refCount) { w with seu := { w.seu with
      day := w.seu.day + 1, yDay := if 0 < w.seu.refCount then w.seu.daySum else w.seu.yDay } }).core) ?_
  exact Core.ofSeu rfl rfl (fun _ i => ⟨i.ratio, i.passes, Nat.zero_le _, Nat.zero_le _, i.yDay⟩)

theorem resetBuckets_sound : Buckets.reset.Sound := ⟨fun _ => rfl, by decide⟩

theorem clearAccounts_core (w : Work) : Core w.toState (clearAccounts w).toState := by
  have h1 : Core w.toState { w.toState with yac := Yac.reset } := by
    refine Core.ofYac rfl (fun _ => ⟨fun r => ?_, fun z => ?_⟩)
    · simp only [Yac.reset, tget_tfill]
      exact ⟨resetBuckets_sound, Nat.zero_le _⟩
    · simp only [Yac.reset, tget_tfill]
      exact ⟨resetBuckets_sound, Nat.zero_le _⟩
  have h2 : Core { w.toState with yac := Yac.reset } { w.toState with
      yac := Yac.reset, seu := { w.seu with rows := tmap (fun _ s => { s with fullPasses := 0, partPasses := 0 }) w.seu.rows } } := by
    refine Core.ofSeu rfl rfl (fun _ i => ⟨fun r => ?_, fun r => ?_, i.daySum, i.refCount, i.yDay⟩)
    · simpa using i.ratio r
    · simp
  exact h1.trans h2

theorem clearRowAccount_core (r : Row) (a b : Nat) (w : Work) : Core w.toState (clearRowAccount r a b w).toState := by
  have h1 : Core w.toState { w.toState with yac := { w.yac with rows := tset w.yac.rows r RowAccount.reset } } := by
    refine Core.ofYac rfl (fun i => ⟨fun q => ?_, i.zones⟩)
    simp only; rw [tget_tset]; split
    · exact ⟨resetBuckets_sound, Nat.zero_le _⟩
    · exact i.rows q
  refine Core.trans h1 (Core.ofSeu rfl rfl (fun _ i => ⟨fun q => ?_, fun q => ?_, i.daySum, i.refCount, i.yDay⟩))
  · simp only [clearRowAccount]; rw [tget_tset]; split
    · exact i.ratio r
    · exact i.ratio q
  · simp only [clearRowAccount]; rw [tget_tset]; split
    · have := i.passes r
      exact ⟨(Nat.sub_le _ _).trans this.1, (Nat.sub_le _ _).trans this.2⟩
    · exact i.passes q

theorem clearZoneAccount_core (z : Zone) (v : Nat) (w : Work) : Core w.toState (clearZoneAccount z v w).toState := by
  refine Core.ofYac rfl (fun i => ⟨i.rows, fun y => ?_⟩)
  simp only [clearZoneAccount]; rw [tget_tset]; split
  · exact ⟨resetBuckets_sound, (Nat.sub_le _ _).trans (i.zones z).2⟩
  · exact i.zones y

end Sys2Proof.Machine
end

