-- ==== Sys2Proof/Laws/Reports.lean ====
section
/-! SUPPORT. The robot, carrier and row reports keep the conditions of `Core`, and withdraw no more than storm alightings from
the weather monitor. -/

namespace Sys2Proof.Machine

/-- A report keeps the conditions, and only withdraws storm alightings from the weather monitor. -/
structure Reported (s t : State) : Prop where
  core : Core s t
  wxm : WxmStep s.wxm t.wxm

theorem Reported.refl (s : State) : Reported s s := ⟨Core.refl _, WxmStep.refl _⟩

theorem Reported.trans {s t u : State} (h : Reported s t) (g : Reported t u) : Reported s u :=
  ⟨h.core.trans g.core, h.wxm.trans g.wxm⟩

theorem Lower.reported {s t : State} (h : Lower s t) : Reported s t := ⟨h.core, h.wxm⟩
theorem Inner.reported {s t : State} (h : Inner s t) : Reported s t := ⟨h.core, h.wxm⟩

theorem Reported.ite {c : Prop} [Decidable c] {s : State} {a b : Work} (ha : c → Reported s a.toState)
    (hb : ¬ c → Reported s b.toState) : Reported s (if c then a else b).toState := by
  split
  · rename_i h; exact ha h
  · rename_i h; exact hb h

theorem Reported.foldl {α : Type} (f : Work → α → Work) (hf : ∀ v x, Reported v.toState (f v x).toState) (l : List α) :
    ∀ w : Work, Reported w.toState (l.foldl f w).toState := by
  induction l with
  | nil => exact fun w => Reported.refl _
  | cons x l ih => exact fun w => (hf w x).trans (ih (f w x))

/-- Whether a robot's slot is EMPTY is not touched by what `Lower` covers. -/
theorem Lower.enrolled {w v : Work} (h : Lower w.toState v.toState) (k : Slot) (hne : (w.robot k).state ≠ .empty) :
    (v.robot k).state ≠ .empty := fun e => hne ((h.fou.slots k).1.1 e)

/-- A change of a robot record that does not empty its slot and leaves its orders. -/
theorem updRobot_reported (k : Slot) (f : Robot → Robot) (w : Work)
    (hs : (f (w.robot k)).state = .empty → (w.robot k).state = .empty) (ho : (f (w.robot k)).orders = (w.robot k).orders) :
    Reported w.toState (updRobot k f w).toState := by
  refine Reported.trans (t := (putRobot k f w).toState) ⟨Core.ofFou rfl ⟨rfl, rfl⟩ (fun i => ?_), WxmStep.refl _⟩
    (stateChanged_lower _ _).reported
  have horders : ∀ u, (putRobot k f w).fou.orders u = w.fou.orders u := by
    intro u
    cases u with
    | robot j =>
      by_cases e : j = k
      · subst e; simpa [putRobot, Fou.orders, Work.robot] using ho
      · simp [putRobot, Fou.orders, tget_tset_other _ _ _ _ e]
    | carrier c => rfl
  refine ⟨i.once, fun u => ?_, fun u o h1 h2 h3 => ?_, i.attention, fun u => ?_, fun j h => ?_⟩
  · rw [horders]; exact i.waiting u
  · rw [horders] at h1; exact i.urgent u o h1 h2 h3
  · rw [horders]; exact i.units u
  · have h1 := horders (.robot j)
    simp only [Fou.orders] at h1
    rw [h1]
    by_cases e : j = k
    · subst e
      exact i.empty j (hs (by simpa [putRobot, Work.robot] using h))
    · exact i.empty j (by simpa [putRobot, tget_tset_other _ _ _ _ e] using h)

/-- A robot is put in a state other than EMPTY. -/
theorem putState_reported (k : Slot) (f : Robot → Robot) (w : Work) (hs : (f (w.robot k)).state ≠ .empty)
    (ho : (f (w.robot k)).orders = (w.robot k).orders) : Reported w.toState (updRobot k f w).toState :=
  updRobot_reported k f w (fun h => absurd h hs) ho

/-- A robot record is replaced in a slot with no order, by one with none. -/
theorem resetRobot_reported (k : Slot) (f : Robot → Robot) (w : Work)
    (h : FleetInv w.fou → (w.robot k).orders.slot = none) (hs : (f (w.robot k)).orders.slot = none)
    (hn : (f (w.robot k)).orders.successor = none) : Reported w.toState (updRobot k f w).toState := by
  refine Reported.trans (t := (putRobot k f w).toState) ⟨Core.ofFou rfl ⟨rfl, rfl⟩ (fun i => ?_), WxmStep.refl _⟩
    (stateChanged_lower _ _).reported
  have h0 : (w.fou.orders (.robot k)).slot = none := h i
  have hk : (putRobot k f w).fou.orders (.robot k) = (f (w.robot k)).orders := by
    simp [putRobot, Fou.orders, Work.robot]
  have ho : ∀ u, u ≠ .robot k → (putRobot k f w).fou.orders u = w.fou.orders u := by
    intro u hu
    cases u with
    | robot j =>
      have e : j ≠ k := fun e => hu (by rw [e])
      simp [putRobot, Fou.orders, tget_tset_other _ _ _ _ e]
    | carrier c => rfl
  refine ⟨i.once, fun u => ?_, fun u o h1 h2 h3 => ?_, i.attention, fun u => ?_, fun j g => ?_⟩
  · by_cases e : u = .robot k
    · subst e
      rw [hk]
      have := i.waiting (.robot k)
      constructor
      · intro m
        obtain ⟨o, g, _⟩ := this.1 m
        rw [h0] at g; cases g
      · rintro ⟨o, g, _⟩; rw [hs] at g; cases g
    · rw [ho u e]; exact i.waiting u
  · by_cases e : u = .robot k
    · subst e; rw [hk, hs] at h1; cases h1
    · rw [ho u e] at h1; exact i.urgent u o h1 h2 h3
  · by_cases e : u = .robot k
    · subst e
      rw [hk]
      constructor <;> simp [hs, hn]
    · rw [ho u e]; exact i.units u
  · by_cases e : j = k
    · subst e
      have := hk
      simp only [Fou.orders] at this
      rw [this]; exact hs
    · have := ho (.robot j) (by simpa using e)
      simp only [Fou.orders] at this
      rw [this]
      exact i.empty j (by simpa [putRobot, tget_tset_other _ _ _ _ e] using g)

/-! ### Leaving service -/

theorem lockRobotRow_lower (k : Slot) (p : RobotState) (w : Work) : Lower w.toState (lockRobotRow k p w).toState := by
  unfold lockRobotRow
  split
  · exact Lower.ite (fun _ => lockRow_lower _ _) (fun _ => Lower.refl _)
  · exact Lower.refl _

theorem tellEntryGone_lower (k : Slot) (l : Option TaskLink) (w : Work) :
    Lower w.toState (tellEntryGone k l w).toState := by
  unfold tellEntryGone
  split
  · exact send_lower _ _
  · exact Lower.refl _
  · exact Lower.refl _

theorem enterFault_lower (k : Slot) (c : RobotCause) (w : Work) (h : (w.robot k).state ≠ .empty) :
    Lower w.toState (enterFault k c w).toState := by
  unfold enterFault
  have h1 := discardOrders_lower (.robot k) w
  simp only
  refine Lower.trans ?_ (tellEntryGone_lower _ _ _)
  refine Lower.trans ?_ (robotOut_lower _ _ _)
  refine Lower.trans ?_ (lockRobotRow_lower _ _ _)
  exact h1.trans (putState_lower _ _ _ (h1.enrolled k h) (by simp) (by simp) (by simp))

theorem loseRobot_reported (k : Slot) (w : Work) : Reported w.toState (loseRobot k w).toState := by
  unfold loseRobot
  simp only
  refine Reported.trans ?_ (post_lower _ _).reported
  refine Reported.trans ?_ (tellEntryGone_lower _ _ _).reported
  refine Reported.trans ?_ (robotOut_lower _ _ _).reported
  refine Reported.trans ?_ (lockRobotRow_lower _ _ _).reported
  exact (discardOrders_lower (.robot k) w).reported.trans (putState_reported _ _ _ (by simp) (by simp))

/-! ### Pass results and stranding -/

theorem handPass_reported (k : Slot) (c : Bool) (w : Work) : Reported w.toState (handPass k c w).toState := by
  unfold handPass
  simp only
  have h1 : Reported w.toState (updRobot k (fun y =>
      if c then { y with fullPasses := satSucc y.fullPasses } else { y with partPasses := satSucc y.partPasses })
      w).toState := updRobot_reported _ _ _ (by cases c <;> exact id) (by cases c <;> rfl)
  split
  · exact h1.trans ⟨passResult_core _ _ _ _ _ _, WxmStep.refl _⟩
  · exact h1

theorem handPass_robot (k : Slot) (c : Bool) (w : Work) : ((handPass k c w).robot k).state = (w.robot k).state := by
  have h1 : ((updRobot k (fun y =>
      if c then { y with fullPasses := satSucc y.fullPasses } else { y with partPasses := satSucc y.partPasses })
      w).robot k).state = (w.robot k).state := by
    rw [updRobot_robot_same]; cases c <;> rfl
  unfold handPass
  simp only
  split
  · exact h1
  · exact h1

theorem tellEntryPass_lower (k : Slot) (c : Bool) (w : Work) : Lower w.toState (tellEntryPass k c w).toState := by
  unfold tellEntryPass
  split
  · exact send_lower _ _
  · exact Lower.refl _
  · exact Lower.refl _

theorem strandRobot_reported (k : Slot) (w : Work) : Reported w.toState (strandRobot k w).toState := by
  unfold strandRobot
  simp only
  have h1 : ∀ c : Bool, Reported w.toState (if c = true then handPass k false w else w).toState :=
    fun c => Reported.ite (fun _ => handPass_reported _ _ _) (fun _ => Reported.refl _)
  have h2 := fun c => ((h1 c).trans (discardOrders_lower (.robot k) _).reported).trans
    (putState_reported k (withState .stranded) _ (by simp) (by simp))
  split
  · exact (h2 _).trans (send_lower _ _).reported
  · exact h2 _
  · exact h2 _

theorem postStranded_lower (k : Slot) (c : StrandCause) (w : Work) : Lower w.toState (postStranded k c w).toState :=
  post_lower _ _

/-! ### Enrolment, retirement and recovery -/

theorem enrolRobot_reported (k : Slot) (n : Half) (r : Row) (w : Work) :
    Reported w.toState (enrolRobot k n r w).1.toState := by
  unfold enrolRobot
  split
  · exact Reported.refl _
  · rename_i he
    split
    · exact Reported.refl _
    · split
      · exact Reported.refl _
      · refine Reported.trans (resetRobot_reported _ _ _ (fun i => ?_) rfl rfl) (enterPresent_lower _ _ _).reported
        exact i.empty k (not_not.1 he)

theorem emptySlot_reported (k : Slot) (w : Work) : Reported w.toState (emptySlot k w).toState := by
  unfold emptySlot
  refine (discardOrders_lower (.robot k) w).reported.trans (resetRobot_reported _ _ _ (fun _ => ?_) rfl rfl)
  exact (discardOrders_none (.robot k) w).1

theorem retireRobot_reported (k : Slot) (w : Work) : Reported w.toState (retireRobot k w).1.toState := by
  unfold retireRobot
  simp only
  split
  · refine Reported.trans ?_ (emptySlot_reported _ _)
    exact ((((clearPresence_lower k w).trans (freeReservations_lower k [] _)).trans (robotRetired_lower k _)).trans
      (tellEntryGone_lower _ _ _)).reported
  · exact Reported.refl _

/-- The latest sent order of a unit with no order is forgotten. -/
theorem forgetSent_lower (u : FleetUnit) (w : Work) (h : (w.fou.orders u).slot = none) :
    Lower w.toState (updOrders u (fun o => { o with latestSent := none }) w).toState := by
  refine Lower.ofFou (orders_toState _ _ _) (OrderStep.fouStep ⟨by simp, fun k => updOrders_robot _ _ _ _, fun i => ?_⟩)
  have hq : (updOrders u (fun o => { o with latestSent := none }) w).fou.queue = w.fou.queue := by simp [Fou.queue]
  refine i.change u (fun v e => updOrders_orders_other _ _ _ _ e) (by simp) ?_ (by rw [hq]; exact i.once)
    (fun v _ => by rw [hq]) (fun v _ g => by simpa using g) ?_ ?_ (by rw [hq]; simpa using i.attention) ?_
  · rw [updOrders_orders_same]
    have hu := i.units u
    refine ⟨by simp [h], by simp [h], by simp [h], by simp [h], fun g => ?_⟩
    obtain ⟨o, h1, _⟩ := hu.successor g
    rw [h] at h1; cases h1
  · rw [hq, i.waiting]; simp [UnitOrders.waits]
  · intro o h1; simp [h] at h1
  · intro k e _; rw [updOrders_orders_same]; exact h

/-- The last report time of a robot is set. -/
theorem heard_reported (k : Slot) (t : Time) (w : Work) :
    Reported w.toState (updRobot k (fun x => { x with lastReport := t }) w).toState := updRobot_reported _ _ _ id rfl

theorem recover_reported (k : Slot) (row : Option Row) (w : Work) :
    Reported w.toState (recover k row w).toState := by
  unfold recover
  have hw : Lower w.toState (recoverRows k (robotRecovered k (tellEntryGone k (w.robot k).link
      (updOrders (.robot k) (fun o => { o with latestSent := none }) (discardOrders (.robot k) w))))).toState :=
    ((((discardOrders_lower (.robot k) w).trans (forgetSent_lower _ _ (discardOrders_none _ w).1)).trans
      (tellEntryGone_lower _ _ _)).trans (robotRecovered_lower k _)).trans (recoverRows_lower k _)
  simp only
  split
  · refine Reported.trans ?_ (enterPresent_lower _ _ _).reported
    exact hw.reported.trans (putState_reported _ _ _ (by simp) (by simp))
  · exact Reported.trans (Reported.trans hw.reported (emptySlot_reported _ _)) (heard_reported _ _ _)

theorem recoverRobot_reported (k : Slot) (row : Option Row) (w : Work) :
    Reported w.toState (recoverRobot k row w).1.toState := by
  unfold recoverRobot
  split
  · split
    · exact Reported.refl _
    · exact recover_reported _ _ _
  · exact Reported.refl _

/-! ### Robot reports -/

theorem lostReport_reported (k : Slot) (d : Option Row) (w : Work) (h : (w.robot k).state ≠ .empty) :
    Reported w.toState (lostReport k d w).1.toState := by
  unfold lostReport
  simp only
  split
  · exact putState_reported _ _ _ (by simp) (by simp)
  · exact (enterFault_lower _ _ _ h).reported

theorem acceptReport_lower (u : FleetUnit) (t : Byte) (w : Work) : Lower w.toState (acceptReport u t w).1.toState :=
  acceptOrder_lower u t w

theorem endRobotOccupancy_lower (r : Option Row) (w : Work) : Lower w.toState (endRobotOccupancy r w).toState := by
  unfold endRobotOccupancy; split
  · exact endOccupancy_lower _ _
  · exact Lower.refl _

theorem refusePass_lower (k : Slot) (w : Work) (h : (w.robot k).state ≠ .empty) :
    Lower w.toState (refusePass k w).toState := by
  unfold refusePass
  have h1 := (parkRobot_lower k id w h rfl rfl).trans (endRobotOccupancy_lower (w.robot k).row _)
  simp only
  split
  · exact h1.trans (send_lower _ _)
  · exact h1
  · exact h1

theorem turnBackBoarding_lower (k : Slot) (f : Robot → Robot) (w : Work) (h : (w.robot k).state ≠ .empty)
    (hn : (f (w.robot k)).serial = (w.robot k).serial) (ho : (f (w.robot k)).orders = (w.robot k).orders) :
    Lower w.toState (turnBackBoarding k f w).toState :=
  ((parkRobot_lower k f w h hn ho).trans (endRobotOccupancy_lower _ _)).trans (boardingRefused_lower _ _)

theorem turnBackAlighting_lower (k : Slot) (w : Work) (h : (w.robot k).state ≠ .empty) :
    Lower w.toState (turnBackAlighting k w).toState := by
  unfold turnBackAlighting
  exact (((putState_lower k _ w h (by simp) (by simp) (by simp)).trans (endOrder_lower _ _)).trans
    (endRobotOccupancy_lower _ _)).trans (alightingRefused_lower _ _ _)

/-- The refusal of an order does one of four things, or nothing. -/
theorem refuseOrder_cases (k : Slot) (o : OrderKind) (w : Work) (P : Work → Prop) (h0 : P w) (h1 : P (refusePass k w))
    (h2 : P (turnBackBoarding k id w)) (h3 : P (turnBackAlighting k w)) (h4 : P (enterFault k .refused w)) :
    P (refuseOrder k o w).1 := by
  unfold refuseOrder
  cases o <;> cases (w.robot k).state <;> dsimp only <;> with_reducible assumption

theorem refuseOrder_lower (k : Slot) (o : OrderKind) (w : Work) (h : (w.robot k).state ≠ .empty) :
    Lower w.toState (refuseOrder k o w).1.toState :=
  refuseOrder_cases k o w (fun v => Lower w.toState v.toState) (Lower.refl _) (refusePass_lower _ _ h)
    (turnBackBoarding_lower _ _ _ h rfl rfl) (turnBackAlighting_lower _ _ h) (enterFault_lower _ _ _ h)

theorem refuseReport_lower (k : Slot) (t : Byte) (w : Work) (h : (w.robot k).state ≠ .empty) :
    Lower w.toState (refuseReport k t w).1.toState := by
  unfold refuseReport
  split
  · exact Lower.refl _
  · split
    · exact refuseOrder_lower _ _ _ h
    · exact Lower.refl _

theorem doneReport_reported (k : Slot) (t : Byte) (w : Work) (h : (w.robot k).state ≠ .empty) :
    Reported w.toState (doneReport k t w).1.toState := by
  unfold doneReport
  simp only
  split
  · refine Reported.trans ?_ (endRobotOccupancy_lower _ _).reported
    refine Reported.trans ?_ (tellEntryPass_lower _ _ _).reported
    exact (parkRobot_lower k _ w h rfl rfl).reported.trans (handPass_reported _ _ _)
  · exact Reported.refl _

theorem progressReport_reported (k : Slot) (n : Nat) (w : Work) :
    Reported w.toState (progressReport k n w).1.toState := by
  unfold progressReport
  simp only
  split
  · exact updRobot_reported _ _ _ id rfl
  · exact Reported.refl _

theorem batteryReport_reported (k : Slot) (n : Nat) (w : Work) : Reported w.toState (batteryReport k n w).1.toState :=
  updRobot_reported _ _ _ id rfl

theorem dockAlighted_lower (k : Slot) (r : Row) (w : Work) (h : (w.robot k).state ≠ .empty) :
    Lower w.toState (dockAlighted k r w).toState := by
  unfold dockAlighted
  refine Lower.trans ?_ (robotAlighted_lower _ _ _)
  refine (parkRobot_lower k (fun y => { y with carrier := none, unconfirmed := false }) w h rfl rfl).trans
    (updRow_lower _ _ _ ?_)
  exact (enterReserved_step _).trans (endOccupancyRow_step _ _)

theorem dockedHere_reported (k : Slot) (r : Row) (w : Work) : Reported w.toState (dockedHere k r w).1.toState := by
  have hp : (w.robot k).state ≠ .empty → Reported w.toState (endOccupancy r (tellEntryPass k false (handPass k false
      (parkRobot k (fun y : Robot => { y with unconfirmed := false }) w)))).toState := by
    intro h
    refine Reported.trans ?_ (endOccupancy_lower _ _).reported
    refine Reported.trans ?_ (tellEntryPass_lower _ _ _).reported
    exact (parkRobot_lower k _ w h rfl rfl).reported.trans (handPass_reported _ _ _)
  unfold dockedHere
  simp only
  split
  · exact updRobot_reported _ _ _ id rfl
  · rename_i h; exact hp (by rw [h]; simp)
  · rename_i h; exact hp (by rw [h]; simp)
  · rename_i h; exact (turnBackBoarding_lower _ _ _ (by rw [h]; simp) rfl rfl).reported
  · rename_i h; dsimp only; exact (dockAlighted_lower _ _ _ (by rw [h]; simp)).reported
  · rename_i h; exact (enterFault_lower _ _ _ (by rw [h]; simp)).reported
  · split
    · exact Reported.refl _
    · exact putState_reported _ _ _ (by simp) (by simp)
  · exact Reported.refl _
  · rename_i h; exact lostReport_reported _ _ _ (by rw [h]; simp)
  · exact Reported.refl _

theorem dockedElsewhere_lower (k : Slot) (w : Work) : Lower w.toState (dockedElsewhere k w).1.toState := by
  unfold dockedElsewhere
  split
  · exact Lower.refl _
  · exact Lower.refl _
  · exact Lower.refl _
  · rename_i h; exact enterFault_lower _ _ _ h

theorem dockedReport_reported (k : Slot) (r : Row) (w : Work) : Reported w.toState (dockedReport k r w).1.toState := by
  unfold dockedReport
  split
  · exact dockedHere_reported _ _ _
  · exact (dockedElsewhere_lower _ _).reported

theorem comeAboard_lower (k : Slot) (c : CarrierIx) (r : Row) (w : Work) (h : (w.robot k).state ≠ .empty) :
    Lower w.toState (comeAboard k c r w).toState := by
  unfold comeAboard
  simp only
  refine Lower.trans ?_ (robotBoarded_lower _ _ _)
  refine ((putState_lower k _ w h (by simp) (by simp) (by simp)).trans (endOrder_lower _ _)).trans (updRow_lower _ _ _ ?_)
  exact (endOccupancyRow_step _ _).trans (present_step _ _)

theorem aboardReport_lower (k : Slot) (b : Byte) (w : Work) (hne : (w.robot k).state ≠ .empty) :
    Lower w.toState (aboardReport k b w).1.toState := by
  unfold aboardReport
  simp only
  split
  · split
    · split
      · split
        · dsimp only; exact comeAboard_lower _ _ _ _ hne
        · exact enterFault_lower _ _ _ hne
      · exact enterFault_lower _ _ _ hne
    · split
      · exact turnBackAlighting_lower _ _ hne
      · exact enterFault_lower _ _ _ hne
    · exact Lower.refl _
  · exact Lower.refl _

theorem faultReport_reported (k : Slot) (b : Byte) (w : Work) : Reported w.toState (faultReport k b w).1.toState := by
  unfold faultReport
  split
  · exact Reported.refl _
  · exact Reported.refl _
  · exact updRobot_reported _ _ _ id rfl
  · rename_i h _; exact (enterFault_lower _ _ _ h).reported

theorem faultClearReport_reported (k : Slot) (w : Work) : Reported w.toState (faultClearReport k w).1.toState := by
  unfold faultClearReport
  split
  · split
    · exact putState_reported _ _ _ (by simp) (by simp)
    · exact (putState_reported _ _ _ (by simp) (by simp)).trans (robotBack_lower _ _).reported
    · exact updRobot_reported _ _ _ id rfl
  · exact Reported.refl _

theorem reportEffect_reported (k : Slot) (x : RobotReport) (w : Work) (h : (w.robot k).state ≠ .empty) :
    Reported w.toState (reportEffect k x w).1.toState := by
  unfold reportEffect
  split
  · exact (acceptReport_lower _ _ _).reported
  · exact (refuseReport_lower _ _ _ h).reported
  · exact doneReport_reported _ _ _ h
  · exact progressReport_reported _ _ _
  · exact dockedReport_reported _ _ _
  · exact (aboardReport_lower _ _ _ h).reported
  · exact faultReport_reported _ _ _
  · exact faultClearReport_reported _ _
  · exact batteryReport_reported _ _ _
  · exact Reported.refl _

theorem robotReport_reported (b : Byte) (x : RobotReport) (w : Work) :
    Reported w.toState (robotReport b x w).1.toState := by
  unfold robotReport
  split
  · rename_i h
    simp only
    split
    · exact Reported.refl _
    · rename_i hne
      have h1 := updRobot_reported ⟨b.toNat, h⟩ (fun y => { y with lastReport := w.now }) w id rfl
      have h2 : ((updRobot ⟨b.toNat, h⟩ (fun y => { y with lastReport := w.now }) w).robot ⟨b.toNat, h⟩).state ≠ .empty := by
        rw [updRobot_robot_same]; exact hne
      split
      · exact h1.trans (lostReport_reported _ _ _ h2)
      · exact h1.trans (reportEffect_reported _ _ _ h2)
  · exact Reported.refl _

/-! ### Carrier reports and timeouts -/

theorem carrierReport_lower (b : Byte) (x : CarrierReport) (w : Work) :
    Lower w.toState (carrierReport b x w).1.toState := by
  unfold carrierReport
  split
  · simp only
    split
    · exact Lower.refl _
    · split
      · exact acceptReport_lower _ _ _
      · exact arrivedReport_lower _ _ _
      · exact garagedReport_lower _ _
      · exact halt_lower _ _ _
      · exact carrierClearReport_lower _ _
  · exact Lower.refl _

theorem expireAcceptTimer_reported (u : FleetUnit) (w : Work) : Reported w.toState (expireAcceptTimer u w).toState := by
  unfold expireAcceptTimer
  simp only
  split
  · exact Reported.refl _
  · exact (expireAccept_lower _ _).reported
  · split
    · exact loseRobot_reported _ _
    · exact (halt_lower _ _ _).reported

theorem expireSilence_reported (k : Slot) (w : Work) : Reported w.toState (expireSilence k w).toState := by
  unfold expireSilence
  exact Reported.ite (fun _ => loseRobot_reported _ _) (fun _ => Reported.refl _)

/-! ### Row reports -/

theorem holdTest_fits (h : Hold) (r : Row) (w : Work) (t : HoldTest) (e : holdTest h r w = some t) (f : t.fits = true) :
    (w.robot t.robot).state ≠ .empty := by
  have hd : ∀ k, dockedPresent k r w = true → (w.robot k).state ≠ .empty := by
    intro k g
    simp only [dockedPresent, Bool.and_eq_true, decide_eq_true_eq] at g
    rw [g.1]; simp
  have ha : ∀ k, aboardAt k r w = true → (w.robot k).state ≠ .empty := by
    intro k g
    simp only [aboardAt, Bool.and_eq_true, decide_eq_true_eq] at g
    rw [g.1.1]; simp
  unfold holdTest at e
  split at e
  · unfold entryHoldTest at e
    split at e
    · cases e
    · simp only [Option.map_eq_some_iff] at e
      obtain ⟨k, _, rfl⟩ := e
      exact hd k f
  · unfold requestHoldTest at e
    split at e
    · cases e
    · split at e
      · cases e
      · simp only [Option.some.injEq] at e
        subst e
        simp only at f ⊢
        split at f
        · simp only [Bool.and_eq_true] at f
          exact hd _ f.1.1
        · exact ha _ f
  · unfold stormHoldTest at e
    simp only [Option.some.injEq] at e
    subst e
    exact ha _ f

theorem releaseHeld_lower (h : Hold) (r : Row) (b : Bool) (w : Work) :
    Lower w.toState (releaseHeld h r b w).toState := by
  unfold releaseHeld
  have h1 := updRow_lower r (trackWith .release) w (trackWith_step _ _)
  exact Lower.ite (fun _ => h1.trans (answerHold_lower _ _ _ _)) (fun _ => h1)

/-- Issuing the order of a hold touches no row. -/
theorem issueHoldOrder_rac (p : Purpose) (k : Slot) (r : Row) (m : Mode) (c : CarrierIx) (cls : OrderClass) (w : Work) :
    (issueHoldOrder p k r m c cls w).rac = w.rac := by
  have h : ∀ u kind c v, (issueOrder u kind c v).rac = v.rac := by
    intro u kind c v
    have := issueOrder_toState u kind c v
    rw [this]
  unfold issueHoldOrder
  split <;> rw [h] <;> exact updRobot_rac _ _ _

theorem heldReport_lower (r : Row) (w : Work) : Lower w.toState (heldReport r w).1.toState := by
  unfold heldReport
  simp only
  split
  · rename_i h hs hh
    have h1 := updRow_lower r (fun y => { y with state := .held, holdTimer := none }) w (heldRow_step _ hs)
    split
    · exact h1.trans (releaseHeld_lower _ _ _ _)
    · rename_i t ht
      split
      · rename_i hf
        simp only [Bool.and_eq_true] at hf
        refine Lower.trans ?_ (answerHold_lower _ _ _ _)
        refine (h1.trans (issueHoldOrder_lower _ _ _ _ _ _ _ (holdTest_fits _ _ _ _ ht hf.2))).trans
          (updRow_lower _ _ _ (occupiedRow_step _ ?_))
        unfold Work.row
        rw [issueHoldOrder_rac]
        simp [putRow, raiseAcc_state]
      · exact h1.trans (releaseHeld_lower _ _ _ _)
  · exact Lower.refl _

theorem holdRefusedReport_lower (r : Row) (w : Work) : Lower w.toState (holdRefusedReport r w).1.toState := by
  unfold holdRefusedReport
  simp only
  split
  · exact (updRow_lower _ _ _ (dropHoldTracking_step _)).trans (answerHold_lower _ _ _ _)
  · exact Lower.refl _

theorem stowWantedReport_lower (r : Row) (w : Work) : Lower w.toState (stowWantedReport r w).toState := by
  unfold stowWantedReport
  have h1 := updRow_lower r stowWantedRow w (stowWantedRow_step _)
  simp only
  split
  · exact h1.trans (answerHold_lower _ _ _ _)
  · split
    · exact Lower.ite (fun _ => h1.trans (askGoHead_lower _ _ _)) (fun _ => h1)
    · exact h1
  · exact h1

theorem forcedStowReport_reported (r : Row) (w : Work) : Reported w.toState (forcedStowReport r w).toState := by
  unfold forcedStowReport
  have h1 := updRow_lower r forcedStowRow w (forcedStowRow_step _)
  simp only
  split
  · exact (h1.trans (answerHold_lower _ _ _ _)).reported
  · split
    · exact h1.reported
    · split
      · exact h1.reported
      · exact ((h1.reported.trans (strandRobot_reported _ _)).trans (postStranded_lower _ _ _).reported).trans
          (robotStranded_lower _ _ _).reported

theorem stowedReport_reported (r : Row) (w : Work) : Reported w.toState (stowedReport r w).toState := by
  unfold stowedReport
  exact Reported.ite (fun _ => (updRow_lower _ _ _ (stowRow_step _)).reported) (fun _ => forcedStowReport_reported _ _)

theorem unstowedReport_lower (r : Row) (w : Work) : Lower w.toState (unstowedReport r w).1.toState :=
  updRow_lower _ _ _ (unstowedRow_step _ _)

end Sys2Proof.Machine
end

