-- ==== Sys2Proof/Laws/Storm.lean ====
section
/-! SUPPORT. The weather inputs and timers: each keeps the conditions of `Core`, and the conditions of the weather monitor. -/

namespace Sys2Proof.Machine

/-- Only the weather monitor has changed within an event, and not its settings. -/
theorem setWxm_core (w : Work) (x : Wxm)
    (h : x.watchAt = w.wxm.watchAt ∧ x.stormAt = w.wxm.stormAt ∧ x.releaseHold = w.wxm.releaseHold ∧
      x.windSilence = w.wxm.windSilence ∧ x.parkingDeadline = w.wxm.parkingDeadline) :
    Core w.toState { w.toState with wxm := x } := Core.ofWxm rfl h

theorem changeWeather_core (n : Weather) (c : StormCause) (w : Work) : Core w.toState (changeWeather n c w).toState :=
  Core.trans (setWxm_core w { w.wxm with
      weather := n, released := if n = .watch then stormOn w.wxm.weather else w.wxm.released } ⟨rfl, rfl, rfl, rfl, rfl⟩)
    (post_lower (.stormState w.wxm.weather n c w.wxm.lastSample w.wxm.declared (strandedCount w))
      { w with wxm := { w.wxm with
        weather := n, released := if n = .watch then stormOn w.wxm.weather else w.wxm.released } }).core

theorem watchQuiet_core (w : Work) : Core w.toState (watchQuiet w).toState :=
  setWxm_core w _ ⟨rfl, rfl, rfl, rfl, rfl⟩

theorem enterWatch_core (c : StormCause) (w : Work) : Core w.toState (enterWatch c w).toState := by
  unfold enterWatch
  exact ((changeWeather_core _ _ w).trans (watchQuiet_core _)).trans (watchRound_inner _).core

theorem leaveStorm_core (w : Work) : Core w.toState (leaveStorm w).toState := by
  unfold leaveStorm
  simp only
  refine Core.trans ?_ (arbitrateAll_lower _).core
  refine Core.trans ?_ (removeAlights_lower _).core
  refine Core.trans ?_ (watchQuiet_core _)
  exact (changeWeather_core _ _ w).trans (setWxm_core (changeWeather .watch .released w) _ ⟨rfl, rfl, rfl, rfl, rfl⟩)

theorem returnCalm_core (w : Work) : Core w.toState (returnCalm w).toState := by
  unfold returnCalm
  simp only
  refine Core.trans ?_ (arbitrateAll_lower _).core
  refine Core.trans ?_ (resumeRound_inner _).core
  exact (changeWeather_core _ _ w).trans (setWxm_core (changeWeather .calm .quiet w) _ ⟨rfl, rfl, rfl, rfl, rfl⟩)

theorem orderGoHeads_lower (w : Work) : Lower w.toState (orderGoHeads w).toState :=
  Lower.foldl _ (fun v k => askGoHead_lower k .urgent v) _ w

theorem untested_wxm (f : Work → Work) (w : Work) : (untested f w).wxm = (f { w with entering := true }).wxm := rfl

theorem untested_reported (f : Work → Work) (h : ∀ v, Reported v.toState (f v).toState) (w : Work) :
    Reported w.toState (untested f w).toState := h { w with entering := true }

theorem parkingSteps_reported (v : Work) : Reported v.toState (parkingSteps v).toState := by
  unfold parkingSteps
  refine Reported.trans ?_ (abortRound_inner _).reported
  exact ((((chooseStormTargets_lower v).trans (standingClearance_lower _)).trans (orderGoHeads_lower _)).trans
    (stormEntryTxs_lower _)).reported

/-- Everything of the entry to PARKING after the change of the weather state (R144, steps 2 to 7). -/
theorem enterParking_rest (v : Work) : Reported v.toState (securedTest (tell (untested parkingSteps v))).toState :=
  ((untested_reported _ parkingSteps_reported v).trans (tell_lower _).reported).trans (securedTest_lower _).reported

theorem enterParking_core (c : StormCause) (w : Work) : Core w.toState (enterParking c w).toState := by
  unfold enterParking
  refine Core.trans ?_ (enterParking_rest _).core
  exact (setWxm_core w { w.wxm with quietTimer := none, releaseTimer := none, deadlineTimer := some w.now }
    ⟨rfl, rfl, rfl, rfl, rfl⟩).trans (changeWeather_core .parking c { w with wxm := { w.wxm with
      quietTimer := none, releaseTimer := none, deadlineTimer := some w.now } })

theorem judgeRelease_core (w : Work) : Core w.toState (judgeRelease w).toState :=
  setWxm_core w _ ⟨rfl, rfl, rfl, rfl, rfl⟩

theorem compareSample_core (a b : StormCause) (w : Work) : Core w.toState (compareSample a b w).toState := by
  unfold compareSample
  split
  · exact Core.refl _
  · split
    · exact Core.ite (fun _ => enterParking_core _ _)
        (fun _ => Core.ite (fun _ => enterWatch_core _ _) (fun _ => Core.refl _))
    · exact Core.ite (fun _ => enterParking_core _ _)
        (fun _ => Core.ite (fun _ => setWxm_core w _ ⟨rfl, rfl, rfl, rfl, rfl⟩)
          (fun _ => setWxm_core w _ ⟨rfl, rfl, rfl, rfl, rfl⟩))
    · exact judgeRelease_core _
    · exact judgeRelease_core _

theorem windSample_core (v : Nat) (w : Work) : Core w.toState (windSample v w).1.toState := by
  unfold windSample
  exact (setWxm_core w { w.wxm with lastSample := some (min 600 v), silenceStart := w.now, silenceExpired := false }
    ⟨rfl, rfl, rfl, rfl, rfl⟩).trans (compareSample_core _ _ { w with wxm := { w.wxm with
      lastSample := some (min 600 v), silenceStart := w.now, silenceExpired := false } })

theorem conditionPresent_core (c : StormCause) (w : Work) : Core w.toState (conditionPresent c w).toState :=
  Core.ite (fun _ => setWxm_core w _ ⟨rfl, rfl, rfl, rfl, rfl⟩) (fun _ => enterParking_core _ _)

theorem stormDeclare_core (w : Work) : Core w.toState (stormDeclare w).1.toState := by
  unfold stormDeclare
  split
  · exact Core.refl _
  · exact (setWxm_core w { w.wxm with declared := true } ⟨rfl, rfl, rfl, rfl, rfl⟩).trans
      (conditionPresent_core _ { w with wxm := { w.wxm with declared := true } })

theorem stormCancel_core (w : Work) : Core w.toState (stormCancel w).1.toState := by
  unfold stormCancel
  split
  · have h1 := setWxm_core w { w.wxm with declared := false } ⟨rfl, rfl, rfl, rfl, rfl⟩
    exact Core.ite (fun _ => h1.trans (judgeRelease_core { w with wxm := { w.wxm with declared := false } }))
      (fun _ => h1)
  · exact Core.refl _

theorem expireWindSilence_core (w : Work) : Core w.toState (expireWindSilence w).toState :=
  Core.ite (fun _ => (setWxm_core w { w.wxm with silenceExpired := true } ⟨rfl, rfl, rfl, rfl, rfl⟩).trans
    (conditionPresent_core _ { w with wxm := { w.wxm with silenceExpired := true } })) (fun _ => Core.refl _)

theorem expireQuiet_core (w : Work) : Core w.toState (expireQuiet w).toState :=
  Core.ite (fun _ => returnCalm_core _) (fun _ => Core.refl _)

theorem expireRelease_core (w : Work) : Core w.toState (expireRelease w).toState :=
  Core.ite (fun _ => leaveStorm_core _) (fun _ => Core.refl _)

theorem updAllRows_deadline_lower (w : Work) : Lower w.toState (updAllRows (fun _ => deadlineRow) w).toState :=
  updAllRows_lower _ w (fun _ => deadlineRow_step _)

theorem deadlineRows_lower (w : Work) : Lower w.toState (deadlineRows w).toState := by
  unfold deadlineRows
  exact (updAllRows_deadline_lower w).trans
    (Lower.foldl _ (fun v r => answerHold_lower r (w.row r).hold .holdLost v) _ _)

theorem strandAll_reported (l : List Slot) (w : Work) : Reported w.toState (strandAll l w).toState :=
  Reported.foldl _ (fun v k => strandRobot_reported k v) l w

theorem deadlineEnd_lower (out freed : List Slot) (w : Work) :
    Lower w.toState (deadlineEnd out freed w).toState := by
  unfold deadlineEnd
  refine Lower.trans ?_ (removeAlights_lower _)
  refine Lower.trans ?_ (deadlineTxs_lower _ _ _)
  exact Lower.foldl _ (fun v k => postStranded_lower k .deadline v) out w

theorem deadlineWork_reported (w : Work) : Reported w.toState (deadlineWork w).toState := by
  unfold deadlineWork
  refine Reported.trans ?_ (deadlineEnd_lower _ _ _).reported
  refine Reported.trans ?_ (strandAll_reported _ _)
  refine Reported.trans ?_ (strandAll_reported _ _)
  exact (deadlineRows_lower w).reported

theorem deadlineEnd_none (out freed : List Slot) (w : Work) (c : CarrierIx) :
    tget (deadlineEnd out freed w).wxm.alights c = none := by
  unfold deadlineEnd
  exact removeAlights_none _ c

theorem deadline_reported (w : Work) : Reported w.toState (untested deadlineWork w).toState :=
  untested_reported _ deadlineWork_reported w

theorem deadlineWork_none (w : Work) (c : CarrierIx) : tget (deadlineWork w).wxm.alights c = none := by
  unfold deadlineWork
  simp only
  exact deadlineEnd_none _ _ _ c

theorem deadline_none (w : Work) (c : CarrierIx) : tget (untested deadlineWork w).wxm.alights c = none := by
  rw [untested_wxm]
  exact deadlineWork_none _ c

theorem endDeadline_core (v : Work) : Core v.toState
    (changeWeather .secured .deadline { v with wxm := { v.wxm with deadlineTimer := none } }).toState :=
  (setWxm_core v { v.wxm with deadlineTimer := none } ⟨rfl, rfl, rfl, rfl, rfl⟩).trans
    (changeWeather_core _ _ { v with wxm := { v.wxm with deadlineTimer := none } })

theorem expireDeadline_core (w : Work) : Core w.toState (expireDeadline w).toState := by
  unfold expireDeadline
  split
  · exact (deadline_reported w).core.trans (endDeadline_core _)
  · exact Core.refl _

/-! ### The conditions of the weather monitor -/

theorem changeWeather_wxm (n : Weather) (c : StormCause) (w : Work) :
    (changeWeather n c w).wxm = { w.wxm with
      weather := n, released := if n = .watch then stormOn w.wxm.weather else w.wxm.released } := rfl

/-- In CALM and WATCH no declaration stands and the silence timer has not expired (R140, R141). -/
theorem WeatherInv.inputs {x : Wxm} (i : WeatherInv x) (h : stormOn x.weather = false) :
    x.declared = false ∧ x.silenceExpired = false := by
  have := i.clear h
  unfold stormCondition at this
  simp only [Bool.or_eq_false_iff] at this
  exact ⟨this.1.2, this.2⟩

/-- The entry to PARKING with the storm condition present. -/
theorem enterParking_weather (c : StormCause) (w : Work) (ht : w.wxm.watchAt < w.wxm.stormAt)
    (hc : stormCondition w.wxm = true) : WeatherInv (enterParking c w).wxm := by
  unfold enterParking
  simp only
  generalize hv : changeWeather .parking c { w with wxm := { w.wxm with
    quietTimer := none, releaseTimer := none, deadlineTimer := some w.now } } = v
  refine (enterParking_rest v).wxm.weatherInv ?_
  rw [← hv, changeWeather_wxm]
  refine ⟨ht, by simp, by simp [stormOn], by simp, by simp, ?_, by simp⟩
  have : stormCondition { w.wxm with weather := .parking, quietTimer := none, releaseTimer := none,
                                     deadlineTimer := some w.now } = true := hc
  simp [this]

/-- The entry to WATCH from CALM with the storm condition absent. -/
theorem enterWatch_weather (c : StormCause) (w : Work) (ht : w.wxm.watchAt < w.wxm.stormAt)
    (hc : stormCondition w.wxm = false) (hd : w.wxm.deadlineTimer = none) (hr : w.wxm.releaseTimer = none)
    (ha : ∀ k, (tget w.wxm.alights k).isSome = false) : WeatherInv (enterWatch c w).wxm := by
  unfold enterWatch
  refine (watchRound_inner _).wxm.weatherInv ?_
  have e : (watchQuiet (changeWeather .watch c w)).wxm = { w.wxm with
      weather := .watch, released := stormOn w.wxm.weather
      quietTimer := if belowWatch w.wxm then some w.now else none } := rfl
  rw [e]
  refine ⟨ht, by simp, fun _ => hc, by simp [hd], ?_, ?_, fun k h => ?_⟩
  · have : belowWatch { w.wxm with
        weather := .watch, released := stormOn w.wxm.weather
        quietTimer := if belowWatch w.wxm then some w.now else none } = belowWatch w.wxm := rfl
    rw [this]
    cases belowWatch w.wxm <;> simp
  · simp [hr, stormOn]
  · simp only at h; rw [ha k] at h; cases h

theorem judgeRelease_weather (w : Work) (ht : w.wxm.watchAt < w.wxm.stormAt) (hs : stormOn w.wxm.weather = true)
    (hd : w.wxm.deadlineTimer.isSome = true ↔ w.wxm.weather = .parking) (hq : w.wxm.quietTimer = none)
    (ha : ∀ k, (tget w.wxm.alights k).isSome = true → w.wxm.weather = .parking) :
    WeatherInv (judgeRelease w).wxm := by
  unfold judgeRelease
  refine ⟨ht, fun h => ?_, fun h => ?_, hd, ?_, ?_, ha⟩
  · simp only at h; rw [h] at hs; cases hs
  · simp only at h; rw [h] at hs; cases hs
  · simp only [hq]
    constructor
    · intro h; cases h
    · rintro ⟨h, _⟩; rw [h] at hs; cases hs
  · have : ∀ t, stormCondition { w.wxm with releaseTimer := t } = stormCondition w.wxm := fun _ => rfl
    simp only [this]
    cases h : stormCondition w.wxm
    · simp only [hs]
      cases w.wxm.releaseTimer <;> simp [startedAt]
    · simp

/-- The comparisons of the last sample restore the conditions of the weather monitor (R138, R139). -/
theorem compareSample_weather (a b : StormCause) (w : Work) (ht : w.wxm.watchAt < w.wxm.stormAt)
    (hi : stormOn w.wxm.weather = false → w.wxm.declared = false ∧ w.wxm.silenceExpired = false)
    (hd : w.wxm.deadlineTimer.isSome = true ↔ w.wxm.weather = .parking)
    (hq : w.wxm.quietTimer.isSome = true → w.wxm.weather = .watch)
    (hr : w.wxm.releaseTimer.isSome = true → stormOn w.wxm.weather = true)
    (ha : ∀ k, (tget w.wxm.alights k).isSome = true → w.wxm.weather = .parking)
    (hn : w.wxm.lastSample = none → WeatherInv w.wxm) : WeatherInv (compareSample a b w).wxm := by
  have hcond : ∀ v, w.wxm.lastSample = some v → w.wxm.stormAt ≤ v → stormCondition w.wxm = true := by
    intro v h1 h2; unfold stormCondition; rw [h1]; simp [h2]
  have hclear : ∀ v, w.wxm.lastSample = some v → ¬ w.wxm.stormAt ≤ v → stormOn w.wxm.weather = false →
      stormCondition w.wxm = false := by
    intro v h1 h2 h3
    obtain ⟨e1, e2⟩ := hi h3
    unfold stormCondition; rw [h1]; simp only [e1, e2, Bool.or_false, decide_eq_false_iff_not]; exact h2
  have hnone : ∀ {x : Option Time}, ¬ x.isSome = true → x = none := by intro x h; cases x <;> simp_all
  unfold compareSample
  split
  · rename_i h; exact hn h
  · rename_i v hv
    split
    · rename_i hw
      have hoff : stormOn w.wxm.weather = false := by rw [hw]; rfl
      have hd' : w.wxm.deadlineTimer = none := hnone (fun h => by rw [hd, hw] at h; cases h)
      have hr' : w.wxm.releaseTimer = none := hnone (fun h => by have := hr h; rw [hoff] at this; cases this)
      have hq' : w.wxm.quietTimer = none := hnone (fun h => by have := hq h; rw [hw] at this; cases this)
      have ha' : ∀ k, (tget w.wxm.alights k).isSome = false := fun k => by
        cases h : (tget w.wxm.alights k).isSome
        · rfl
        · have := ha k h; rw [hw] at this; cases this
      split
      · rename_i h; exact enterParking_weather _ _ ht (hcond v hv h)
      · rename_i h
        split
        · exact enterWatch_weather _ _ ht (hclear v hv h hoff) hd' hr' ha'
        · rename_i h2
          refine ⟨ht, fun _ u hu => ?_, fun _ => hclear v hv h hoff, hd, ?_, ?_, ha⟩
          · rw [hv] at hu; cases hu; omega
          · simp [hq', hw]
          · simp [hr', hoff]
    · rename_i hw
      have hoff : stormOn w.wxm.weather = false := by rw [hw]; rfl
      have hr' : w.wxm.releaseTimer = none := hnone (fun h => by have := hr h; rw [hoff] at this; cases this)
      have hcalm : w.wxm.weather ≠ .calm := by rw [hw]; simp
      split
      · rename_i h; exact enterParking_weather _ _ ht (hcond v hv h)
      · rename_i h
        have hcl := hclear v hv h hoff
        split
        · rename_i h2
          refine ⟨ht, fun e => absurd e hcalm, fun _ => hcl, hd, ?_, ?_, ha⟩
          · have : belowWatch { w.wxm with quietTimer := none } = false := by simp [belowWatch, hv, h2]
            simp [this]
          · simp [hr', hoff]
        · rename_i h2
          refine ⟨ht, fun e => absurd e hcalm, fun _ => hcl, hd, ?_, ?_, ha⟩
          · have : belowWatch { w.wxm with quietTimer := startedAt w.now w.wxm.quietTimer } = true := by
              simp only [belowWatch, hv, decide_eq_true_eq]; omega
            rw [this]
            simp only [hw, and_self, iff_true]
            cases w.wxm.quietTimer <;> rfl
          · simp [hr', hoff]
    · rename_i hw
      refine judgeRelease_weather w ht (by rw [hw]; rfl) hd (hnone (fun h => ?_)) ha
      have := hq h; rw [hw] at this; cases this
    · rename_i hw
      refine judgeRelease_weather w ht (by rw [hw]; rfl) hd (hnone (fun h => ?_)) ha
      have := hq h; rw [hw] at this; cases this

/-- A new last sample, with the silence timer restarted (R139). -/
theorem windSample_weather (v : Nat) (w : Work) (i : WeatherInv w.wxm) : WeatherInv (windSample v w).1.wxm := by
  unfold windSample
  exact compareSample_weather _ _ _ i.thresholds (fun h => ⟨(i.inputs h).1, rfl⟩) i.deadline
    (fun h => (i.quiet.1 h).1) (fun h => (i.release.1 h).1) i.alights (fun h => by cases h)

/-- New thresholds (R138). -/
theorem newThresholds_weather (a b : StormCause) (w : Work) (p q : Nat) (hpq : p < q) (i : WeatherInv w.wxm) :
    WeatherInv (compareSample a b { w with wxm := { w.wxm with watchAt := p, stormAt := q } }).wxm := by
  refine compareSample_weather _ _ _ hpq i.inputs i.deadline (fun h => (i.quiet.1 h).1)
    (fun h => (i.release.1 h).1) i.alights (fun h => ?_)
  simp only at h
  have hc : stormCondition { w.wxm with watchAt := p, stormAt := q } = stormCondition w.wxm := by
    simp [stormCondition, h]
  have hb : belowWatch { w.wxm with watchAt := p, stormAt := q } = belowWatch w.wxm := by simp [belowWatch, h]
  refine ⟨hpq, fun _ v hv => ?_, ?_, i.deadline, ?_, ?_, i.alights⟩
  · simp only [h] at hv; cases hv
  · rw [hc]; exact i.clear
  · rw [hb]; exact i.quiet
  · rw [hc]; exact i.release

/-- The storm condition has become present (R140, R141). -/
theorem conditionPresent_weather (c : StormCause) (w : Work) (x : Wxm)
    (hx : x.weather = w.wxm.weather ∧ x.lastSample = w.wxm.lastSample ∧ x.quietTimer = w.wxm.quietTimer ∧
      x.deadlineTimer = w.wxm.deadlineTimer ∧ x.alights = w.wxm.alights ∧ x.watchAt = w.wxm.watchAt ∧
      x.stormAt = w.wxm.stormAt) (hc : stormCondition x = true) (i : WeatherInv w.wxm) :
    WeatherInv (conditionPresent c { w with wxm := x }).wxm := by
  obtain ⟨e1, e2, e3, e4, e5, e6, e7⟩ := hx
  have ht : x.watchAt < x.stormAt := by rw [e6, e7]; exact i.thresholds
  unfold conditionPresent
  split
  · rename_i hs
    have hs' : stormOn x.weather = true := hs
    refine ⟨ht, fun h => ?_, fun h => ?_, ?_, ?_, ?_, ?_⟩
    · simp only at h; rw [h] at hs'; cases hs'
    · simp only at h; rw [hs'] at h; cases h
    · simp only; rw [e1, e4]; exact i.deadline
    · have hb : belowWatch { x with releaseTimer := none } = belowWatch w.wxm := by simp [belowWatch, e2, e6]
      simp only; rw [hb, e1, e3]; exact i.quiet
    · have : stormCondition { x with releaseTimer := none } = true := hc
      simp [this]
    · simp only; rw [e1, e5]; exact i.alights
  · exact enterParking_weather _ _ ht hc

theorem stormDeclare_weather (w : Work) (i : WeatherInv w.wxm) : WeatherInv (stormDeclare w).1.wxm := by
  unfold stormDeclare
  split
  · exact i
  · exact conditionPresent_weather _ w _ ⟨rfl, rfl, rfl, rfl, rfl, rfl, rfl⟩ (by simp [stormCondition]) i

theorem expireWindSilence_weather (w : Work) (i : WeatherInv w.wxm) : WeatherInv (expireWindSilence w).wxm := by
  unfold expireWindSilence
  split
  · exact conditionPresent_weather _ w _ ⟨rfl, rfl, rfl, rfl, rfl, rfl, rfl⟩ (by simp [stormCondition]) i
  · exact i

theorem stormCancel_weather (w : Work) (i : WeatherInv w.wxm) : WeatherInv (stormCancel w).1.wxm := by
  unfold stormCancel
  split
  · rename_i hd
    simp only
    split
    · rename_i hs
      refine judgeRelease_weather _ i.thresholds hs i.deadline ?_ i.alights
      cases h : w.wxm.quietTimer with
      | none => rfl
      | some t =>
        have := (i.quiet.1 (by rw [h]; rfl)).1
        have hs' : stormOn w.wxm.weather = true := hs
        rw [this] at hs'; cases hs'
    · rename_i hs
      have hs' : stormOn w.wxm.weather = false := by simpa using hs
      have := (i.inputs hs').1
      rw [hd] at this; cases this
  · exact i

theorem expireQuiet_weather (w : Work) (i : WeatherInv w.wxm) : WeatherInv (expireQuiet w).wxm := by
  unfold expireQuiet
  split
  · rename_i h
    obtain ⟨hw, -, hc, hb⟩ := h
    unfold returnCalm
    simp only
    refine (arbitrateAll_lower _).wxm.weatherInv ?_
    refine (resumeRound_inner _).wxm.weatherInv ?_
    have e : (changeWeather .calm .quiet w).wxm = { w.wxm with weather := .calm } := rfl
    simp only [e]
    have hq := i.quiet
    have hr := i.release
    have hd := i.deadline
    rw [hw] at hr hd
    refine ⟨i.thresholds, fun _ v hv => ?_, fun _ => hc, ?_, by simp, ?_, fun k hk => ?_⟩
    · simp only at hv
      simpa [belowWatch, hv] using hb
    · simpa using hd
    · simpa [stormOn] using hr
    · have := i.alights k hk; rw [hw] at this; cases this
  · exact i

theorem expireRelease_weather (w : Work) (i : WeatherInv w.wxm) : WeatherInv (expireRelease w).wxm := by
  unfold expireRelease
  split
  · rename_i h
    obtain ⟨hs, -, hc⟩ := h
    unfold leaveStorm
    simp only
    refine (arbitrateAll_lower _).wxm.weatherInv ?_
    generalize hv : watchQuiet { changeWeather .watch .released w with
      wxm := { (changeWeather .watch .released w).wxm with deadlineTimer := none, releaseTimer := none } } = v
    have e : v.wxm = { w.wxm with
        weather := .watch, released := stormOn w.wxm.weather, deadlineTimer := none, releaseTimer := none
        quietTimer := if belowWatch w.wxm then some w.now else none } := by rw [← hv]; rfl
    have hl := (removeAlights_lower v).wxm.same
    have hw : (removeAlights v).wxm.weather = .watch ∧ (removeAlights v).wxm.deadlineTimer = none := by
      rcases (removeAlights_lower v).wxm.weather with g | ⟨g, _⟩
      · rw [e] at g; exact g
      · rw [e] at g; cases g
    rw [e, hw.1, hw.2] at hl
    have hn := removeAlights_none v
    rw [hl]
    refine ⟨i.thresholds, by simp, fun _ => hc, by simp, ?_, by simp [stormOn], fun k hk => ?_⟩
    · have : belowWatch { w.wxm with
          weather := .watch, released := stormOn w.wxm.weather, deadlineTimer := none, releaseTimer := none
          quietTimer := (if belowWatch w.wxm then some w.now else none)
          alights := (removeAlights v).wxm.alights, askKept := (removeAlights v).wxm.askKept } = belowWatch w.wxm := rfl
      rw [this]
      cases belowWatch w.wxm <;> simp
    · simp only [hn k] at hk; cases hk
  · exact i

theorem endDeadline_weather (w v : Work) (h : Reported w.toState v.toState) (hn : ∀ c, tget v.wxm.alights c = none)
    (hw : w.wxm.weather = .parking) (i : WeatherInv w.wxm) :
    WeatherInv (changeWeather .secured .deadline { v with wxm := { v.wxm with deadlineTimer := none } }).wxm := by
  rw [changeWeather_wxm]
  refine secured_inv w.wxm _ ?_ hn hw i
  have hs := h.wxm.same
  simp only [reduceCtorEq, if_false]
  rw [hs]

theorem expireDeadline_weather (w : Work) (i : WeatherInv w.wxm) : WeatherInv (expireDeadline w).wxm := by
  unfold expireDeadline
  split
  · rename_i h
    exact endDeadline_weather w _ (deadline_reported w) (deadline_none w) h.1 i
  · exact i

end Sys2Proof.Machine
end

