-- ==== Sys2Proof/Laws/Kept.lean ====
section
/-! SUPPORT. Settings, plans, exclusions, the row map, spans, freeze and thaw, the timers and the reads: what each keeps. -/

namespace Sys2Proof.Machine

/-- Every condition of the block that held before holds after, and the queue of commands stays. -/
structure Kept (s t : State) : Prop where
  pending : t.pending = s.pending
  rows : NoticeInv s.rac → RowsInv s.rac → RowsInv t.rac
  notices : NoticeInv s.rac → NoticeInv t.rac
  reference : ReferenceInv s.rac → ReferenceInv t.rac
  fleetInv : FleetInv s.fou → FleetInv t.fou
  pool : PoolInv s.txs → PoolInv t.txs
  round : RoundInv s.pls s.rsc → RoundInv t.pls t.rsc
  weather : WeatherInv s.wxm → WeatherInv t.wxm
  reports : ReportInv s.rpq → ReportInv t.rpq
  settings : SettingsInv s → SettingsInv t
  estimator : SettingsInv s → EstimatorInv s.seu → EstimatorInv t.seu
  accounts : AccountsInv s.yac → AccountsInv t.yac

theorem Kept.refl (s : State) : Kept s s := ⟨rfl, fun _ => id, id, id, id, id, id, id, id, id, fun _ => id, id⟩

theorem Kept.trans {s t u : State} (h : Kept s t) (g : Kept t u) : Kept s u :=
  ⟨g.pending.trans h.pending, fun i j => g.rows (h.notices i) (h.rows i j), fun i => g.notices (h.notices i),
    fun i => g.reference (h.reference i), fun i => g.fleetInv (h.fleetInv i), fun i => g.pool (h.pool i),
    fun i => g.round (h.round i), fun i => g.weather (h.weather i), fun i => g.reports (h.reports i),
    fun i => g.settings (h.settings i), fun i j => g.estimator (h.settings i) (h.estimator i j),
    fun i => g.accounts (h.accounts i)⟩

theorem Kept.ite {c : Prop} [Decidable c] {s : State} {a b : Work} (ha : c → Kept s a.toState)
    (hb : ¬ c → Kept s b.toState) : Kept s (if c then a else b).toState := by
  split
  · rename_i h; exact ha h
  · rename_i h; exact hb h

theorem Kept.foldl {α : Type} (f : Work → α → Work) (hf : ∀ v x, Kept v.toState (f v x).toState) (l : List α) :
    ∀ w : Work, Kept w.toState (l.foldl f w).toState := by
  induction l with
  | nil => exact fun w => Kept.refl _
  | cons x l ih => exact fun w => (hf w x).trans (ih (f w x))

theorem Core.kept {s t : State} (h : Core s t) (hw : WeatherInv s.wxm → WeatherInv t.wxm) : Kept s t :=
  ⟨h.pending, h.rows, h.notices, h.reference, h.fleetInv, h.pool, h.round, hw, h.reports, h.settings, h.estimator,
    h.accounts⟩

theorem Reported.kept {s t : State} (h : Reported s t) : Kept s t := h.core.kept h.wxm.weatherInv
theorem Lower.kept {s t : State} (h : Lower s t) : Kept s t := h.reported.kept
theorem Inner.kept {s t : State} (h : Inner s t) : Kept s t := h.reported.kept
theorem Within.kept {s t : State} (h : Within s t) : Kept s t := h.core.kept h.wxm.inv

/-- The weather monitor is what it was. -/
theorem Core.kept_wxm {s t : State} (h : Core s t) (e : t.wxm = s.wxm) : Kept s t := h.kept (by rw [e]; exact id)

/-- Only the ports, the count of free values, the clock or the freeze state have changed. -/
theorem Kept.ofPorts {s t : State} (e : t = { s with
    plant := t.plant, tracker := t.tracker, fleet := t.fleet, freeUses := t.freeUses, now := t.now,
    pls := { s.pls with freeze := t.pls.freeze } }) : Kept s t := by
  rw [e]
  exact ⟨rfl, fun _ => id, id, id, id, id, fun i => ⟨i.flip, i.rows, i.length, i.limit, i.entries, i.budgets⟩, id, id,
    fun i => ⟨i.bankA, i.bankB, i.hold, i.accept, i.silence, i.perRow, i.slack, i.park, i.arbiter, i.jump, i.guard, i.gate,
      i.wind, i.releaseHold, i.windSilence, i.parking, i.threshold, i.stale⟩, fun _ => id, id⟩

/-! ### Settings -/

theorem clampTo_le (lo hi v : Nat) (h : lo ≤ hi) : lo ≤ (clampTo lo hi v).1 ∧ (clampTo lo hi v).1 ≤ hi := by
  simp only [clampTo]; omega

/-- The back bank is written: the settings of a plan bank stay in their ranges, and a round's budget at 64 or less. -/
theorem updBack_core (f : Bank → Bank) (w : Work) (h : ∀ b, BankInv b → BankInv (f b))
    (hb : ∀ b : Bank, b.round.budget ≤ 64 → (f b).round.budget ≤ 64) : Core w.toState (updBack f w).toState := by
  unfold updBack
  split
  · exact ⟨rfl, fun _ => id, id, id, id, id, fun i => ⟨i.flip, i.rows, i.length, i.limit, i.entries, i.budgets.1,
      hb _ i.budgets.2⟩, id, fun i => settings_same i i.bankA (h _ i.bankB) rfl rfl rfl rfl rfl ⟨rfl, rfl, rfl, rfl, rfl⟩
      ⟨rfl, rfl⟩, fun _ => id, id, ⟨rfl, rfl, rfl⟩, id⟩
  · exact ⟨rfl, fun _ => id, id, id, id, id, fun i => ⟨i.flip, i.rows, i.length, i.limit, i.entries, hb _ i.budgets.1,
      i.budgets.2⟩, id, fun i => settings_same i (h _ i.bankA) i.bankB rfl rfl rfl rfl rfl ⟨rfl, rfl, rfl, rfl, rfl⟩
      ⟨rfl, rfl⟩, fun _ => id, id, ⟨rfl, rfl, rfl⟩, id⟩

/-- A policy record in its ranges. -/
structure ZoneInv (x : ZonePolicy) : Prop where
  trigger : x.trigger ≤ 4096
  pDry : 2048 ≤ x.pDry ∧ x.pDry ≤ 4096
  horizon : 1 ≤ x.horizon ∧ x.horizon ≤ 30
  cost : x.cost ≤ 16777215
  minInterval : x.minInterval ≤ 60
  gain : 1 ≤ x.gain ∧ x.gain ≤ 16
  minBattery : x.minBattery ≤ 100

theorem updZone_core (z : Zone) (f : ZonePolicy → ZonePolicy) (w : Work) (h : ∀ x, ZoneInv x → ZoneInv (f x)) :
    Core w.toState (updZone z f w).toState := by
  refine updBack_core _ w (fun b i => ?_) (fun _ => id)
  have hz : ∀ y, ZoneInv (tget (tset b.zones z (f (tget b.zones z))) y) := by
    intro y
    rw [tget_tset]
    split
    · exact h _ ⟨i.trigger _, i.pDry _, i.horizon _, i.cost _, i.minInterval _, i.gain _, i.minBattery _⟩
    · exact ⟨i.trigger _, i.pDry _, i.horizon _, i.cost _, i.minInterval _, i.gain _, i.minBattery _⟩
  exact ⟨fun y => (hz y).trigger, fun y => (hz y).pDry, fun y => (hz y).horizon, fun y => (hz y).cost,
    fun y => (hz y).minInterval, fun y => (hz y).gain, fun y => (hz y).minBattery, i.ranges, i.period, i.budget, i.limit⟩

theorem zoneField_core (z : Zone) (n v : Nat) (w : Work) : Core w.toState (zoneField z n v w).1.toState := by
  unfold zoneField
  split
  · split
    · exact updZone_core _ _ _ (fun x i => ⟨i.trigger, i.pDry, i.horizon, i.cost, i.minInterval, i.gain, i.minBattery⟩)
    · exact Core.refl _
  · exact updZone_core _ _ _ (fun x i => ⟨(clampTo_le 0 4096 v (by omega)).2, i.pDry, i.horizon, i.cost, i.minInterval,
      i.gain, i.minBattery⟩)
  · exact updZone_core _ _ _ (fun x i => ⟨i.trigger, clampTo_le 2048 4096 v (by omega), i.horizon, i.cost, i.minInterval,
      i.gain, i.minBattery⟩)
  · exact updZone_core _ _ _ (fun x i => ⟨i.trigger, i.pDry, clampTo_le 1 30 v (by omega), i.cost, i.minInterval,
      i.gain, i.minBattery⟩)
  · exact updZone_core _ _ _ (fun x i => ⟨i.trigger, i.pDry, i.horizon, (clampTo_le 0 16777215 v (by omega)).2,
      i.minInterval, i.gain, i.minBattery⟩)
  · exact updZone_core _ _ _ (fun x i => ⟨i.trigger, i.pDry, i.horizon, i.cost, (clampTo_le 0 60 v (by omega)).2, i.gain,
      i.minBattery⟩)
  · exact updZone_core _ _ _ (fun x i => ⟨i.trigger, i.pDry, i.horizon, i.cost, i.minInterval,
      clampTo_le 1 16 v (by omega), i.minBattery⟩)
  · exact updZone_core _ _ _ (fun x i => ⟨i.trigger, i.pDry, i.horizon, i.cost, i.minInterval, i.gain,
      (clampTo_le 0 100 v (by omega)).2⟩)

@[simp] theorem zoneField_wxm (z : Zone) (n v : Nat) (w : Work) : (zoneField z n v w).1.wxm = w.wxm := by
  unfold zoneField
  split
  · split <;> simp [updZone]
  all_goals simp [updZone, zoneNumber]

theorem updRound_core (f : RoundParams → RoundParams) (w : Work)
    (hp : ∀ x, 10 ≤ x.period ∧ x.period ≤ 1440 → 10 ≤ (f x).period ∧ (f x).period ≤ 1440)
    (hb : ∀ x, 1 ≤ x.budget ∧ x.budget ≤ 64 → 1 ≤ (f x).budget ∧ (f x).budget ≤ 64)
    (hb' : ∀ x, x.budget ≤ 64 → (f x).budget ≤ 64)
    (hl : ∀ x, 10 ≤ x.limit ∧ x.limit ≤ 720 → 10 ≤ (f x).limit ∧ (f x).limit ≤ 720) :
    Core w.toState (updRound f w).toState :=
  updBack_core _ w (fun _ i => ⟨i.trigger, i.pDry, i.horizon, i.cost, i.minInterval, i.gain, i.minBattery, i.ranges,
    hp _ i.period, hb _ i.budget, hl _ i.limit⟩) (fun _ => hb' _)

theorem roundField_core (n v : Nat) (w : Work) : Core w.toState (roundField n v w).1.toState := by
  unfold roundField
  split
  · split
    · exact updRound_core _ _ (fun _ => id) (fun _ => id) (fun _ => id) (fun _ => id)
    · exact Core.refl _
  · exact updRound_core _ _ (fun _ _ => clampTo_le 10 1440 v (by omega)) (fun _ => id) (fun _ => id) (fun _ => id)
  · exact updRound_core _ _ (fun _ => id) (fun _ _ => clampTo_le 1 64 v (by omega))
      (fun _ _ => (clampTo_le 1 64 v (by omega)).2) (fun _ => id)
  · exact updRound_core _ _ (fun _ => id) (fun _ => id) (fun _ => id) (fun _ _ => clampTo_le 10 720 v (by omega))

@[simp] theorem roundField_wxm (n v : Nat) (w : Work) : (roundField n v w).1.wxm = w.wxm := by
  unfold roundField
  split
  · split <;> simp [updRound]
  all_goals simp [updRound, roundNumber]

/-- Only the settings of the transfer scheduler have changed. -/
theorem updTxs_core (x : Txs) (w : Work) (hp : PoolInv w.txs → PoolInv x)
    (hs : SettingsInv w.toState → (1 ≤ x.secondsPerRow ∧ x.secondsPerRow ≤ 20) ∧ (10 ≤ x.travelSlack ∧ x.travelSlack ≤ 120) ∧
      x.parkDelay ≤ 3600 ∧ (x.headHit ≤ 7 ∧ x.dirBonus ≤ 7 ∧ x.near ≤ 15) ∧
      (1 ≤ x.jump ∧ x.jump < x.ceiling ∧ x.ceiling ≤ 15) ∧ (15 ≤ x.guardSetting ∧ x.guardSetting ≤ 30)) :
    Core w.toState { w.toState with txs := x } :=
  ⟨rfl, fun _ => id, id, id, id, hp, id, id, fun i => by
    obtain ⟨h1, h2, h3, h4, h5, h6⟩ := hs i
    exact ⟨i.bankA, i.bankB, i.hold, i.accept, i.silence, h1, h2, h3, h4, h5, h6, i.gate, i.wind, i.releaseHold,
      i.windSilence, i.parking, i.threshold, i.stale⟩, fun _ => id, id, ⟨rfl, rfl, rfl⟩, id⟩

theorem capScores_inv (x : Txs) (n : Nat) (i : PoolInv x) :
    PoolInv { x with ceiling := n, pool := capScores n x.pool } := by
  refine ⟨?_, fun q hq => ?_⟩
  · have : (capScores n x.pool).map (·.robot) = x.pool.map (·.robot) := by simp [capScores]
    rw [this]; exact i.robots
  · simp only [capScores, List.mem_map] at hq
    obtain ⟨p, hp, rfl⟩ := hq
    have := i.requests p hp
    exact ⟨Nat.min_le_right _ _, this.guard, this.pickup, this.drop⟩

theorem arbiterField_core (n v : Nat) (w : Work) : Core w.toState (arbiterField n v w).1.toState := by
  unfold arbiterField
  split
  · exact updTxs_core _ w (fun i => ⟨i.robots, i.requests⟩) (fun i => ⟨i.perRow, i.slack, i.park,
      ⟨(clampTo_le 0 7 v (by omega)).2, i.arbiter.2⟩, i.jump, i.guard⟩)
  · exact updTxs_core _ w (fun i => ⟨i.robots, i.requests⟩) (fun i => ⟨i.perRow, i.slack, i.park,
      ⟨i.arbiter.1, (clampTo_le 0 7 v (by omega)).2, i.arbiter.2.2⟩, i.jump, i.guard⟩)
  · exact updTxs_core _ w (fun i => ⟨i.robots, i.requests⟩) (fun i => ⟨i.perRow, i.slack, i.park,
      ⟨i.arbiter.1, i.arbiter.2.1, (clampTo_le 0 15 v (by omega)).2⟩, i.jump, i.guard⟩)
  · simp only
    split
    · exact Core.refl _
    · rename_i h
      exact updTxs_core _ w (fun i => ⟨i.robots, i.requests⟩) (fun i => ⟨i.perRow, i.slack, i.park, i.arbiter,
        ⟨(clampTo_le 1 14 v (by omega)).1, by simpa using h, i.jump.2.2⟩, i.guard⟩)
  · simp only
    split
    · exact Core.refl _
    · rename_i h
      exact updTxs_core _ w (fun i => capScores_inv _ _ i) (fun i => ⟨i.perRow, i.slack, i.park, i.arbiter,
        ⟨i.jump.1, by simpa using h, (clampTo_le 1 15 v (by omega)).2⟩, i.guard⟩)
  · exact updTxs_core _ w (fun i => ⟨i.robots, i.requests⟩) (fun i => ⟨i.perRow, i.slack, i.park, i.arbiter, i.jump,
      clampTo_le 15 30 v (by omega)⟩)

@[simp] theorem arbiterField_wxm (n v : Nat) (w : Work) : (arbiterField n v w).1.wxm = w.wxm := by
  unfold arbiterField
  split
  · rfl
  · rfl
  · rfl
  · simp only; split <;> rfl
  · simp only; split <;> rfl
  · rfl

/-- A timing field is stored within its range. -/
theorem timingStore_core (n v : Nat) (w : Work) (hr : n ≠ 12) : Core w.toState (timingStore n v w).1.toState := by
  have key : ∀ (s t : State), t = { s with rac := { s.rac with holdTimeout := t.rac.holdTimeout }
                                           fou := { s.fou with acceptTimeout := t.fou.acceptTimeout
                                                               silenceTimeout := t.fou.silenceTimeout }
                                           txs := { s.txs with secondsPerRow := t.txs.secondsPerRow
                                                               travelSlack := t.txs.travelSlack
                                                               parkDelay := t.txs.parkDelay }
                                           seu := { s.seu with gate := t.seu.gate }
                                           wxm := t.wxm
                                           rpq := { s.rpq with staleTime := t.rpq.staleTime } } →
      (SettingsInv s → SettingsInv t) → Core s t := by
    intro s t e h
    refine ⟨by rw [e], ?_, ?_, ?_, ?_, ?_, ?_, ?_, h, ?_, ?_, ?_, ?_⟩
    · rw [e]; exact fun _ i => i
    · rw [e]; exact fun i => ⟨i.once, i.full, i.attention⟩
    · rw [e]; exact fun i => i
    · rw [e]; exact fun i => ⟨i.once, i.waiting, i.urgent, i.attention, i.units, i.empty⟩
    · rw [e]; exact fun i => ⟨i.robots, i.requests⟩
    · rw [e]; exact id
    · rw [e]; exact fun i => ⟨i.places, i.overrun, i.count, i.attention⟩
    · rw [e]; exact fun _ i => ⟨i.ratio, i.passes, i.daySum, i.refCount, i.yDay⟩
    · rw [e]; exact id
    · rw [e]; exact ⟨rfl, rfl, rfl⟩
    · rw [e]; exact id
  unfold timingStore
  simp only
  split
  · exact key _ _ rfl (fun i => ⟨i.bankA, i.bankB, clampTo_le 5 300 v (by omega), i.accept, i.silence, i.perRow, i.slack,
      i.park, i.arbiter, i.jump, i.guard, i.gate, i.wind, i.releaseHold, i.windSilence, i.parking, i.threshold, i.stale⟩)
  · exact key _ _ rfl (fun i => ⟨i.bankA, i.bankB, i.hold, clampTo_le 2 60 v (by omega), i.silence, i.perRow, i.slack,
      i.park, i.arbiter, i.jump, i.guard, i.gate, i.wind, i.releaseHold, i.windSilence, i.parking, i.threshold, i.stale⟩)
  · exact key _ _ rfl (fun i => ⟨i.bankA, i.bankB, i.hold, i.accept, clampTo_le 10 600 v (by omega), i.perRow, i.slack,
      i.park, i.arbiter, i.jump, i.guard, i.gate, i.wind, i.releaseHold, i.windSilence, i.parking, i.threshold, i.stale⟩)
  · exact key _ _ rfl (fun i => ⟨i.bankA, i.bankB, i.hold, i.accept, i.silence, clampTo_le 1 20 v (by omega), i.slack,
      i.park, i.arbiter, i.jump, i.guard, i.gate, i.wind, i.releaseHold, i.windSilence, i.parking, i.threshold, i.stale⟩)
  · exact key _ _ rfl (fun i => ⟨i.bankA, i.bankB, i.hold, i.accept, i.silence, i.perRow, clampTo_le 10 120 v (by omega),
      i.park, i.arbiter, i.jump, i.guard, i.gate, i.wind, i.releaseHold, i.windSilence, i.parking, i.threshold, i.stale⟩)
  · exact key _ _ rfl (fun i => ⟨i.bankA, i.bankB, i.hold, i.accept, i.silence, i.perRow, i.slack,
      (clampTo_le 0 3600 v (by omega)).2, i.arbiter, i.jump, i.guard, i.gate, i.wind, i.releaseHold, i.windSilence,
      i.parking, i.threshold, i.stale⟩)
  · exact key _ _ rfl (fun i => ⟨i.bankA, i.bankB, i.hold, i.accept, i.silence, i.perRow, i.slack, i.park, i.arbiter,
      i.jump, i.guard, (clampTo_le 0 1000 v (by omega)).2, i.wind, i.releaseHold, i.windSilence, i.parking, i.threshold,
      i.stale⟩)
  · split
    · exact Core.refl _
    · rename_i h
      exact key _ _ rfl (fun i => ⟨i.bankA, i.bankB, i.hold, i.accept, i.silence, i.perRow, i.slack, i.park, i.arbiter,
        i.jump, i.guard, i.gate, ⟨not_le.1 h, i.wind.2⟩, i.releaseHold, i.windSilence, i.parking, i.threshold,
        i.stale⟩)
  · split
    · exact Core.refl _
    · rename_i h
      exact key _ _ rfl (fun i => ⟨i.bankA, i.bankB, i.hold, i.accept, i.silence, i.perRow, i.slack, i.park, i.arbiter,
        i.jump, i.guard, i.gate, ⟨not_le.1 h, (clampTo_le 0 600 v (by omega)).2⟩, i.releaseHold, i.windSilence,
        i.parking, i.threshold, i.stale⟩)
  · exact key _ _ rfl (fun i => ⟨i.bankA, i.bankB, i.hold, i.accept, i.silence, i.perRow, i.slack, i.park, i.arbiter,
      i.jump, i.guard, i.gate, i.wind, clampTo_le 60 3600 v (by omega), i.windSilence, i.parking, i.threshold, i.stale⟩)
  · exact key _ _ rfl (fun i => ⟨i.bankA, i.bankB, i.hold, i.accept, i.silence, i.perRow, i.slack, i.park, i.arbiter,
      i.jump, i.guard, i.gate, i.wind, i.releaseHold, clampTo_le 5 120 v (by omega), i.parking, i.threshold, i.stale⟩)
  · exact key _ _ rfl (fun i => ⟨i.bankA, i.bankB, i.hold, i.accept, i.silence, i.perRow, i.slack, i.park, i.arbiter,
      i.jump, i.guard, i.gate, i.wind, i.releaseHold, i.windSilence, clampTo_le 30 900 v (by omega), i.threshold, i.stale⟩)
  · exact absurd rfl hr
  · exact key _ _ rfl (fun i => ⟨i.bankA, i.bankB, i.hold, i.accept, i.silence, i.perRow, i.slack, i.park, i.arbiter,
      i.jump, i.guard, i.gate, i.wind, i.releaseHold, i.windSilence, i.parking, i.threshold,
      clampTo_le 1 255 v (by omega)⟩)

/-- A new attention threshold is judged at once (R168, R174). -/
theorem threshold_core (v : Nat) (w : Work) : Core w.toState (afterTiming 12 (timingStore 12 v w).1).toState := by
  have e : (afterTiming 12 (timingStore 12 v w).1).toState = { w.toState with
      rpq := { w.rpq with
        threshold := (clampTo 1 128 v).1
        attention := plantAttention w.now { w.rpq with threshold := (clampTo 1 128 v).1 } } } := rfl
  rw [e]
  refine ⟨rfl, fun _ => id, id, id, id, id, id, fun i => ⟨i.places, i.overrun, i.count, fun h => ?_⟩, fun i => ?_,
    fun _ => id, id, ⟨rfl, rfl, rfl⟩, id⟩
  · simp only [plantAttention, Bool.or_eq_true, decide_eq_true_eq]
    rcases h with h | h
    · exact .inl (.inl h)
    · exact .inr h
  · exact ⟨i.bankA, i.bankB, i.hold, i.accept, i.silence, i.perRow, i.slack, i.park, i.arbiter, i.jump, i.guard, i.gate,
      i.wind, i.releaseHold, i.windSilence, i.parking, clampTo_le 1 128 v (by omega), i.stale⟩

/-! ### Timers -/

theorem expireStale_core (w : Work) : Core w.toState (expireStale w).toState := Core.ofRpq rfl (judgePlant_rpqStep w)

theorem expire_core (t : Timer) (w : Work) : Core w.toState (expire t w).toState := by
  cases t
  · exact (expireHold_lower _ _).core
  · exact (expireAcceptTimer_reported _ _).core
  · exact (expireSilence_reported _ _).core
  · exact (expireTravel_lower _ _).core
  · exact (expireRetry_lower _ _).core
  · exact (expirePark_lower _ _).core
  · exact (expirePeriod_inner _).core
  · exact (expireLimit_inner _).core
  · exact expireWindSilence_core _
  · exact expireQuiet_core _
  · exact expireRelease_core _
  · exact expireDeadline_core _
  · exact (expireAlightRetry_within _ _).core
  · exact expireStale_core _

theorem expire_weather (t : Timer) (w : Work) (i : WeatherInv w.wxm) : WeatherInv (expire t w).wxm := by
  cases t
  · exact (expireHold_lower _ _).wxm.weatherInv i
  · exact (expireAcceptTimer_reported _ _).wxm.weatherInv i
  · exact (expireSilence_reported _ _).wxm.weatherInv i
  · exact (expireTravel_lower _ _).wxm.weatherInv i
  · exact (expireRetry_lower _ _).wxm.weatherInv i
  · exact (expirePark_lower _ _).wxm.weatherInv i
  · exact (expirePeriod_inner _).wxm.weatherInv i
  · exact (expireLimit_inner _).wxm.weatherInv i
  · exact expireWindSilence_weather _ i
  · exact expireQuiet_weather _ i
  · exact expireRelease_weather _ i
  · exact expireDeadline_weather _ i
  · exact (expireAlightRetry_within _ _).wxm.inv i
  · exact i

theorem settle_core (w : Work) : Core w.toState (settle w).toState := (settle_within w).core

theorem settle_weather (w : Work) (i : WeatherInv w.wxm) : WeatherInv (settle w).wxm := (settle_within w).wxm.inv i

theorem expireAll_core (l : List Timer) (w : Work) : Core w.toState (expireAll l w).toState :=
  Core.foldl _ (fun v t => (expire_core t v).trans (settle_core _)) l w

theorem expireAll_weather (l : List Timer) (w : Work) (i : WeatherInv w.wxm) : WeatherInv (expireAll l w).wxm := by
  unfold expireAll
  induction l generalizing w with
  | nil => exact i
  | cons t l ih => exact ih _ (settle_weather _ (expire_weather t w i))

theorem afterTiming_core (n : Nat) (w : Work) : Core w.toState (afterTiming n w).toState := by
  unfold afterTiming
  split <;> first
    | exact expireAll_core _ _
    | exact Core.refl _
    | exact compareSample_core _ _ _
    | exact Core.ofRpq rfl (judgePlant_rpqStep w)

theorem timingField_core (n v : Nat) (w : Work) : Core w.toState (timingField n v w).1.toState := by
  unfold timingField
  by_cases hn : n = 12
  · subst hn
    have : (timingStore 12 v w).2 ≠ some .range := by
      simp only [timingStore, clampResult]; split <;> simp
    simp only [if_neg this]
    exact threshold_core v w
  · simp only
    split
    · exact timingStore_core n v w hn
    · exact (timingStore_core n v w hn).trans (afterTiming_core _ _)

/-- What a timing field stores of the weather monitor. -/
theorem timingStore_weather (n v : Nat) (w : Work) (h7 : n ≠ 7) (h8 : n ≠ 8) (i : WeatherInv w.wxm) :
    WeatherInv (timingStore n v w).1.wxm := by
  unfold timingStore
  simp only
  split <;> first
    | exact i
    | exact ⟨i.thresholds, i.calm, i.clear, i.deadline, i.quiet, i.release, i.alights⟩
    | exact absurd rfl h7
    | exact absurd rfl h8

theorem timingField_weather (n v : Nat) (w : Work) (i : WeatherInv w.wxm) : WeatherInv (timingField n v w).1.wxm := by
  unfold timingField
  simp only
  by_cases h7 : n = 7
  · subst h7
    by_cases h : w.wxm.stormAt ≤ (clampTo 0 600 v).1
    · have : timingStore 7 v w = (w, some .range) := by simp only [timingStore, if_pos h]
      rw [this]; exact i
    · have : timingStore 7 v w = (updWxm (fun x => { x with watchAt := (clampTo 0 600 v).1 }) w,
          clampResult (clampTo 0 600 v).2) := by simp only [timingStore, if_neg h]
      rw [this, if_neg (by simp only [clampResult]; split <;> simp)]
      exact newThresholds_weather _ _ w (clampTo 0 600 v).1 w.wxm.stormAt (by omega) i
  · by_cases h8 : n = 8
    · subst h8
      by_cases h : (clampTo 0 600 v).1 ≤ w.wxm.watchAt
      · have : timingStore 8 v w = (w, some .range) := by simp only [timingStore, if_pos h]
        rw [this]; exact i
      · have : timingStore 8 v w = (updWxm (fun x => { x with stormAt := (clampTo 0 600 v).1 }) w,
            clampResult (clampTo 0 600 v).2) := by simp only [timingStore, if_neg h]
        rw [this, if_neg (by simp only [clampResult]; split <;> simp)]
        exact newThresholds_weather _ _ w w.wxm.watchAt (clampTo 0 600 v).1 (by omega) i
    · have h := timingStore_weather n v w h7 h8 i
      split
      · exact h
      · simp only
        unfold afterTiming
        split <;> first
          | exact expireAll_weather _ _ h
          | exact h
          | exact absurd rfl h7
          | exact absurd rfl h8

theorem settingsApply_kept (c : Cmd) (n v : Nat) (z : Zone) (w : Work) :
    Kept w.toState (settingsApply c n v z w).1.toState := by
  unfold settingsApply
  split
  · exact (zoneField_core _ _ _ _).kept_wxm (zoneField_wxm _ _ _ _)
  · exact (roundField_core _ _ _).kept_wxm (roundField_wxm _ _ _)
  · exact (arbiterField_core _ _ _).kept_wxm (arbiterField_wxm _ _ _)
  · exact (timingField_core _ _ _).kept (timingField_weather _ _ _)
  · exact Kept.refl _

/-! ### Plans -/

theorem emptyRanges_kept (w : Work) : Kept w.toState (emptyRanges w).toState := by
  unfold emptyRanges
  refine (updBack_core (fun x => { x with ranges := [] }) w (fun b i => ?_) (fun _ => id)).kept_wxm (updBack_wxm _ _)
  exact ⟨i.trigger, i.pDry, i.horizon, i.cost, i.minInterval, i.gain, i.minBattery, ⟨Nat.zero_le _, by simp⟩, i.period,
    i.budget, i.limit⟩

theorem rangeEntry_kept (a b : Row) (w : Work) : Kept w.toState (rangeEntry a b w).1.toState := by
  unfold rangeEntry
  split
  · exact Kept.refl _
  · rename_i hab
    split
    · exact Kept.refl _
    · rename_i hn
      -- only the back bank grows, and it has a free place
      have hcore : Core w.toState (updBack (fun x => { x with ranges := x.ranges ++ [(a, b)] }) w).toState := by
        have grow : ∀ x : Bank, x.ranges.length < Config.rangePlaces → BankInv x →
            BankInv { x with ranges := x.ranges ++ [(a, b)] } := by
          intro x hx i
          refine ⟨i.trigger, i.pDry, i.horizon, i.cost, i.minInterval, i.gain, i.minBattery, ⟨?_, ?_⟩, i.period, i.budget,
            i.limit⟩
          · simp only [List.length_append, List.length_singleton]; omega
          · intro p hp
            rcases List.mem_append.1 hp with hp | hp
            · exact i.ranges.2 p hp
            · rw [List.mem_singleton.1 hp]; exact not_lt.1 hab
        unfold Pls.backBank at hn
        unfold updBack
        cases hf : w.pls.front
        · simp only [hf] at hn ⊢
          exact ⟨rfl, fun _ => id, id, id, id, id, fun i => ⟨i.flip, i.rows, i.length, i.limit, i.entries, i.budgets⟩, id,
            fun i => settings_same i i.bankA (grow _ (not_le.1 hn) i.bankB) rfl rfl rfl rfl rfl ⟨rfl, rfl, rfl, rfl, rfl⟩
              ⟨rfl, rfl⟩, fun _ => id, id, ⟨rfl, rfl, rfl⟩, id⟩
        · simp only [hf] at hn ⊢
          exact ⟨rfl, fun _ => id, id, id, id, id, fun i => ⟨i.flip, i.rows, i.length, i.limit, i.entries, i.budgets⟩, id,
            fun i => settings_same i (grow _ (not_le.1 hn) i.bankA) i.bankB rfl rfl rfl rfl rfl ⟨rfl, rfl, rfl, rfl, rfl⟩
              ⟨rfl, rfl⟩, fun _ => id, id, ⟨rfl, rfl, rfl⟩, id⟩
      exact hcore.kept_wxm (updBack_wxm _ _)

end Sys2Proof.Machine
end

