-- ==== Sys2Proof/Laws/Ports.lean ====
section
/-! SUPPORT. What the actions, the streams, the reads and the port controllers keep. -/

namespace Sys2Proof.Machine

/-! ### Rows written by the plant -/

/-- The notice list follows any change of one row (R24). -/
theorem putRow_notices (r : Row) (f : RowRec → RowRec) (w : Work) (i : NoticeInv w.rac) : NoticeInv (putRow r f w).rac := by
  have := syncNotices_inv w.rac.rows w.rac.notices r (raiseAcc (tget w.rac.rows r) (f (tget w.rac.rows r))) i.once i.full
  exact ⟨this.1, this.2, rfl⟩

theorem raiseAcc_reference (x y : RowRec) : (raiseAcc x y).reference = y.reference := by unfold raiseAcc; split <;> rfl

theorem excludeRows_core (a b : Row) (on : Bool) (w : Work) : Core w.toState (excludeRows a b on w).toState := by
  unfold excludeRows
  rw [updAllRows_same _ _ (fun r => by split <;> rfl)]
  refine Core.ofRac (putAllRows_toState _ w) (putAllRows_windows _ w).2.2.2 (fun _ i q => ?_) (putAllRows_notices _ w)
    (reference_same (fun r => ?_))
  · rw [putAllRows_rows, tget_tmap]
    refine ⟨raiseAcc_inv_row _ _ ?_, raiseAcc_inv _ _ (i q).2 ?_⟩
    · have := (i q).1
      split
      · exact ⟨this.stowed, this.timer, this.hold, this.attempts, this.read, this.capacity, this.length⟩
      · exact this
    · split <;> rfl
  · rw [putAllRows_rows, tget_tmap, raiseAcc_reference]
    split <;> rfl

/-- One place of a list without repeats may join a selection. -/
theorem filter_length_le {α : Type} [DecidableEq α] (p q : α → Bool) (r : α) (l : List α) (hn : l.Nodup)
    (h : ∀ x, x ≠ r → q x = p x) : (l.filter q).length ≤ (l.filter p).length + 1 ∧
      (q r = true → p r = true → (l.filter q).length = (l.filter p).length) ∧
      (q r = false → (l.filter q).length ≤ (l.filter p).length) := by
  induction l with
  | nil => simp
  | cons x l ih =>
    obtain ⟨h1, h2, h3⟩ := ih (List.nodup_cons.1 hn).2
    by_cases e : x = r
    · subst e
      have hx : ∀ y ∈ l, q y = p y := fun y hy => h y (fun e => (List.nodup_cons.1 hn).1 (e ▸ hy))
      have he : l.filter q = l.filter p := List.filter_congr hx
      simp only [List.filter_cons, he]
      refine ⟨?_, fun a b => ?_, fun a => ?_⟩
      · cases q x <;> cases p x <;> (simp; try omega)
      · simp [a, b]
      · rw [if_neg (by simp [a])]; cases p x <;> simp
    · simp only [List.filter_cons, h x e]
      split
      · simp only [List.length_cons]
        exact ⟨by omega, fun a b => by rw [h2 a b], fun a => by have := h3 a; omega⟩
      · exact ⟨h1, h2, h3⟩

/-- A row map entry keeps the ranges of the row record, the reference set within its places, and the rest (R4, R5). -/
theorem mapEntry_core (z : Byte) (c : Half) (n : Byte) (w : Work) : Core w.toState (mapEntry z c n w).1.toState := by
  generalize hx : w.row w.rac.mapPtr = x
  generalize hfull : (z.getLsbD 7 && !x.reference && decide (Config.referencePlaces ≤ (referenceRows w).length)) = full
  generalize hkeep : (decide (min 63 n.toNat = 0) && (x.present.isSome || x.incoming.isSome)) = keep
  have h1 : Core w.toState (putRow w.rac.mapPtr (fun y => { y with
      zone := ⟨z.toNat % 16, Nat.mod_lt _ (by decide)⟩, capacity := min 1000 c.toNat
      length := if keep then y.length else min 63 n.toNat, reference := z.getLsbD 7 && !full }) w).toState := by
    refine Core.ofRac rfl rfl (fun _ i q => ?_) (putRow_notices _ _ w) (fun i => ?_)
    · by_cases e : q = w.rac.mapPtr
      · subst e
        have := (i w.rac.mapPtr).1
        simp only [putRow, tget_tset_same]
        refine ⟨raiseAcc_inv_row _ _ ⟨this.stowed, this.timer, this.hold, this.attempts, this.read, Nat.min_le_left _ _, ?_⟩,
          raiseAcc_inv _ _ (i w.rac.mapPtr).2 rfl⟩
        simp only
        split
        · exact this.length
        · exact Nat.min_le_left _ _
      · simpa [putRow, tget_tset_other _ _ _ _ e] using i q
    · unfold ReferenceInv at *
      have hs : ∀ q, q ≠ w.rac.mapPtr → (tget (putRow w.rac.mapPtr (fun y => { y with
          zone := ⟨z.toNat % 16, Nat.mod_lt _ (by decide)⟩, capacity := min 1000 c.toNat
          length := if keep then y.length else min 63 n.toNat, reference := z.getLsbD 7 && !full }) w).rac.rows q).reference =
          (tget w.rac.rows q).reference := by
        intro q e; simp [putRow, tget_tset_other _ _ _ _ e]
      have hr : (tget (putRow w.rac.mapPtr (fun y => { y with
          zone := ⟨z.toNat % 16, Nat.mod_lt _ (by decide)⟩, capacity := min 1000 c.toNat
          length := if keep then y.length else min 63 n.toNat, reference := z.getLsbD 7 && !full }) w).rac.rows
            w.rac.mapPtr).reference = (z.getLsbD 7 && !full) := by
        simp [putRow, raiseAcc_reference]
      have key := filter_length_le (fun q => (tget w.rac.rows q).reference)
        (fun q => (tget (putRow w.rac.mapPtr (fun y => { y with
          zone := ⟨z.toNat % 16, Nat.mod_lt _ (by decide)⟩, capacity := min 1000 c.toNat
          length := if keep then y.length else min 63 n.toNat, reference := z.getLsbD 7 && !full }) w).rac.rows
            q).reference) w.rac.mapPtr (indices 256) (List.nodup_finRange 256) hs
      simp only [hr] at key
      by_cases hb : (z.getLsbD 7 && !full) = true
      · have hz : z.getLsbD 7 = true := by
          rw [Bool.and_eq_true] at hb; exact hb.1
        have hf : full = false := by
          rw [Bool.and_eq_true] at hb; simpa using hb.2
        by_cases hp : (tget w.rac.rows w.rac.mapPtr).reference = true
        · rw [key.2.1 hb hp]; exact i
        · have hx' : x.reference = false := by rw [← hx]; simpa [Work.row] using hp
          rw [hf, hz, hx'] at hfull
          simp only [Bool.not_false, Bool.true_and, Bool.and_true, decide_eq_false_iff_not, not_le] at hfull
          have : (referenceRows w).length = ((indices 256).filter (fun r => (tget w.rac.rows r).reference)).length := rfl
          rw [this] at hfull
          have := key.1
          omega
      · have := key.2.2 (by simpa using hb)
        exact this.trans i
  have h2 : ∀ v : Work, Core v.toState { v.toState with seu := { v.seu with
      rows := tset v.seu.rows w.rac.mapPtr { tget v.seu.rows w.rac.mapPtr with ratio := 4096 } } } := by
    intro v
    refine Core.ofSeu rfl rfl (fun _ i => ⟨fun q => ?_, fun q => ?_, i.daySum, i.refCount, i.yDay⟩)
    · simp only; rw [tget_tset]; split
      · exact Nat.le_refl _
      · exact i.ratio q
    · simp only; rw [tget_tset]; split
      · exact i.passes _
      · exact i.passes q
  have h3 : ∀ (v : Work) (p : Row), Core v.toState { v.toState with rac := { v.rac with mapPtr := p } } := by
    intro v p
    exact Core.ofRac rfl rfl (fun _ i => i) (fun i => ⟨i.once, i.full, i.attention⟩) id
  unfold mapEntry
  simp only
  rw [updRow_same _ _ _ rfl]
  simp only [hx, hfull, hkeep]
  refine Core.trans ?_ (h3 _ _)
  split
  · exact h1.trans (h2 _)
  · exact h1

@[simp] theorem mapEntry_wxm (z : Byte) (c : Half) (n : Byte) (w : Work) : (mapEntry z c n w).1.wxm = w.wxm := by
  unfold mapEntry
  simp only
  rw [updRow_same _ _ _ rfl]
  split <;> rfl

/-! ### Carriers -/

theorem reDerive_lower (q : Request) (w : Work) : Lower w.toState (reDerive q w).toState := by
  unfold reDerive
  simp only
  split
  · exact Lower.refl _
  · have h1 : Lower w.toState (match q.legTarget with
        | some t => if t = q.finalRow then w else freeReservation t w
        | none => w).toState := by
      split
      · exact Lower.ite (fun _ => Lower.refl _) (fun _ => freeReservation_lower _ _)
      · exact Lower.refl _
    have h2 := (h1.trans (findLegTarget_lower q _)).trans
      (updRequest_same_lower q.seq (fun p => { p with legTarget := (findLegTarget q (match q.legTarget with
        | some t => if t = q.finalRow then w else freeReservation t w
        | none => w)).1 }) _ (fun _ => ⟨rfl, rfl, rfl, rfl, rfl⟩))
    split
    · exact h2.trans (send_lower _ _)
    · exact h2

theorem setSpans_core (e : CarrierIx → Bool) (b : CarrierIx → Option Nat) (w : Work) :
    Core w.toState (setSpans e b w).1.toState := by
  unfold setSpans
  split
  · exact Core.refl _
  · split
    · exact Core.refl _
    · split
      · simp only
        refine Core.trans ?_ (Lower.foldl _ (fun v q => reDerive_lower q v) _ _).core
        exact Core.ofCarriers w.toState _
      · exact Core.refl _

theorem Lower.wxmInv {s t : State} (h : Lower s t) : WeatherInv s.wxm → WeatherInv t.wxm := h.wxm.weatherInv

theorem setSpans_kept (e : CarrierIx → Bool) (b : CarrierIx → Option Nat) (w : Work) :
    Kept w.toState (setSpans e b w).1.toState := by
  refine (setSpans_core e b w).kept (fun i => ?_)
  unfold setSpans
  split
  · exact i
  · split
    · exact i
    · split
      · exact (Lower.foldl _ (fun v q => reDerive_lower q v) _ _).wxmInv i
      · exact i

theorem enrolCarrier_lower (c : CarrierIx) (w : Work) : Lower w.toState (enrolCarrier c w).1.toState := by
  unfold enrolCarrier
  simp only
  split
  · exact Lower.refl _
  · split
    · exact Lower.refl _
    · refine Lower.trans ?_ (send_lower _ _)
      refine Lower.trans ?_ (forgetSent_lower _ _ (discardOrders_none _ _).1)
      exact (updCarrier_lower c _ w rfl rfl).trans (discardOrders_lower _ _)

/-! ### Freeze, thaw and the day close -/

theorem freeze_kept (w : Work) : Kept w.toState (freeze w).1.toState := by
  unfold freeze
  split
  · refine Kept.trans ?_ (drainTest_lower _).kept
    refine Kept.trans ?_ (suspendRound_inner _).kept
    exact Kept.ofPorts rfl
  · exact Kept.refl _

theorem thaw_kept (w : Work) : Kept w.toState (thaw w).1.toState := by
  unfold thaw
  split
  · exact Kept.refl _
  · refine Kept.trans ?_ (arbitrateAll_lower _).kept
    refine Kept.trans ?_ (resumeRound_inner _).kept
    exact Kept.ofPorts rfl

theorem closeDay_wxm (w : Work) : (closeDay w).wxm = w.wxm := rfl

theorem dayClose_kept (w : Work) : Kept w.toState (dayClose w).toState := by
  have h1 : Kept w.toState (closeDay w).toState := (closeDay_core w).kept_wxm rfl
  unfold dayClose
  simp only
  split
  · exact h1.trans (trigger_inner _).kept
  · exact h1

/-! ### Actions -/

theorem withSlot_kept (b : Byte) (f : Slot → Work → Work × Result) (w : Work)
    (h : ∀ k v, Kept v.toState (f k v).1.toState) : Kept w.toState (withSlot b f w).1.toState := by
  unfold withSlot; split
  · exact h _ _
  · exact Kept.refl _

theorem frozenCarrier_kept (b : Byte) (f : CarrierIx → Work → Work × Result) (w : Work)
    (h : ∀ k v, Kept v.toState (f k v).1.toState) : Kept w.toState (frozenCarrier b f w).1.toState := by
  unfold frozenCarrier; split
  · exact Kept.refl _
  · split
    · exact h _ _
    · exact Kept.refl _

theorem rowmapWindow_kept (a b : Row) (w : Work) : Kept w.toState (rowmapWindow a b w).1.toState := by
  unfold rowmapWindow
  split
  · exact Kept.refl _
  · split
    · exact Kept.refl _
    · refine Core.kept_wxm ?_ rfl
      exact Core.ofRac rfl rfl (fun _ i => i) (fun i => ⟨i.once, i.full, i.attention⟩) id

theorem rowExclude_kept (a b : Row) (on : Bool) (w : Work) : Kept w.toState (rowExclude a b on w).1.toState := by
  unfold rowExclude
  split
  · exact Kept.refl _
  · exact (excludeRows_core a b on w).kept_wxm (by
      unfold excludeRows; rw [updAllRows_same _ _ (fun r => by split <;> rfl)]; exact putAllRows_wxm _ _)

theorem openInterval_wxm (x : Half) (a b : Row) (w : Work) : (openInterval x a b w).1.wxm = w.wxm := by
  unfold openInterval
  split
  · rfl
  · split <;> rfl

theorem closeInterval_wxm (w : Work) : (closeInterval w).wxm = w.wxm := by simp [closeInterval]

theorem closeOpen_kept (w : Work) : Kept w.toState (closeOpen w).toState :=
  (closeOpen_core w).kept_wxm (by
    unfold closeOpen; split
    · exact closeInterval_wxm w
    · rfl)

theorem energyValueIn_kept (v : Half) (w : Work) : Kept w.toState (energyValueIn v w).1.toState := by
  refine (energyValueIn_core v w).kept_wxm ?_
  unfold energyValueIn
  split
  · simp only; split
    · rw [closeInterval_wxm]
    · rfl
  · rfl

theorem carrierSpans_kept (bs : List Byte) (w : Work) : Kept w.toState (carrierSpans bs w).1.toState := by
  unfold carrierSpans
  split
  · exact Kept.refl _
  · split
    · exact setSpans_kept _ _ _
    · exact Kept.refl _

theorem robotRecoveredAction_kept (bs : List Byte) (w : Work) : Kept w.toState (robotRecoveredAction bs w).1.toState := by
  unfold robotRecoveredAction
  split
  · exact Kept.refl _
  · exact withSlot_kept _ _ _ (fun k v => (recoverRobot_reported k _ v).kept)

theorem clearAccounts_kept (w : Work) : Kept w.toState (clearAccounts w).toState := by
  refine Core.kept_wxm (clearAccounts_core w) ?_
  simp only [clearAccounts]

theorem runAction_kept (c : Cmd) (bs : List Byte) (w : Work) : Kept w.toState (runAction c bs w).1.toState := by
  cases c
  case freeze => exact freeze_kept w
  case thaw => exact thaw_kept w
  case rowmapWindow => exact rowmapWindow_kept _ _ w
  case rowExclude => exact rowExclude_kept _ _ _ w
  case planFlip => exact (planFlip_inner w).kept
  case roundStart => exact (startRound_inner w).kept
  case roundStop => exact (stopRound_inner _ w).kept
  case energyOpen => exact (openInterval_core _ _ _ w).kept_wxm (openInterval_wxm _ _ _ w)
  case dayClose => exact dayClose_kept w
  case stormDeclare => exact (stormDeclare_core w).kept (stormDeclare_weather w)
  case stormCancel => exact (stormCancel_core w).kept (stormCancel_weather w)
  case carrierSpans => exact carrierSpans_kept bs w
  case carrierEnrol => exact frozenCarrier_kept _ _ w (fun k v => (enrolCarrier_lower k v).kept)
  case carrierRetire => exact frozenCarrier_kept _ _ w (fun k v => (retireCarrier_lower k v).kept)
  case robotEnrol => exact withSlot_kept _ _ w (fun k v => (enrolRobot_reported k _ _ v).kept)
  case robotRetire => exact withSlot_kept _ _ w (fun k v => (retireRobot_reported k v).kept)
  case robotRecovered => exact robotRecoveredAction_kept bs w
  case robotMove => exact withSlot_kept _ _ w (fun k v => (moveRobot_lower k _ v).kept)
  case accountsClear => exact clearAccounts_kept w
  case held => exact (heldReport_lower _ w).kept
  case holdRefused => exact (holdRefusedReport_lower _ w).kept
  case stowWanted => exact (stowWantedReport_lower _ w).kept
  case stowed => exact (stowedReport_reported _ w).kept
  case forcedStow => exact (forcedStowReport_reported _ w).kept
  case unstowed => exact (unstowedReport_lower _ w).kept
  case wind => exact (windSample_core _ w).kept (windSample_weather _ w)
  case robotReport =>
    simp only [runAction, robotReportAction]
    split
    · exact (robotReport_reported _ _ w).kept
    · exact Kept.refl _
  case carrierReport =>
    simp only [runAction, carrierReportAction]
    split
    · exact (carrierReport_lower _ _ w).kept
    · exact Kept.refl _
  all_goals exact Kept.refl _

/-! ### Streams and reads -/

theorem streamEntry_kept (c : Cmd) (bs : List Byte) (w : Work) : Kept w.toState (streamEntry c bs w).1.toState := by
  unfold streamEntry
  split
  · exact (mapEntry_core _ _ _ w).kept_wxm (mapEntry_wxm _ _ _ w)
  · exact rangeEntry_kept _ _ w
  · exact energyValueIn_kept _ w
  · exact Kept.refl _

theorem openStream_kept (c : Cmd) (w : Work) : Kept w.toState (openStream c w).1.toState := by
  unfold openStream
  split
  · exact Kept.refl _
  · exact emptyRanges_kept w
  · split
    · refine Core.kept_wxm ?_ rfl
      exact Core.ofSeu rfl rfl (fun _ i => ⟨i.ratio, i.passes, i.daySum, i.refCount, i.yDay⟩)
    · exact Kept.refl _
  · exact Kept.refl _

theorem beginNoticeRead_kept (w : Work) : Kept w.toState (beginNoticeRead w).toState := by
  unfold beginNoticeRead
  split
  · rename_i r rest hr
    rw [updRow_same _ _ _ rfl]
    refine Core.kept_wxm ?_ rfl
    refine Core.ofRac rfl rfl (fun n i => ?_) (putRow_notices r _ w) (reference_same (fun q => ?_))
    · have hs := (n.full r).1 (by rw [hr]; exact List.mem_cons_self)
      exact (putRow_racStep r (fun x => { x with noticeRead := true }) w (readRow_step _ hs)).rows i
    · by_cases e : q = r
      · subst e; simp [putRow, raiseAcc_reference]
      · simp [putRow, tget_tset_other _ _ _ _ e]
  · exact Kept.refl _

theorem finishNoticeRead_kept (r : Row) (w : Work) : Kept w.toState (finishNoticeRead r w).toState :=
  Kept.ite (fun _ => (updRow_lower r _ w (emptySlotRow_step _)).kept) (fun _ => Kept.refl _)

theorem useFree_kept (n : Nat) (w : Work) : Kept w.toState (useFree n w).toState := Kept.ofPorts rfl

theorem copyNow_kept (c : Cmd) (p : Port) (x : PortCtl) (w : Work) : Kept w.toState (copyNow c p x w).work.toState := by
  unfold copyNow
  split
  · exact Kept.refl _
  · exact Kept.refl _
  · exact Kept.refl _
  · unfold takeNoticeCopy
    split
    · exact beginNoticeRead_kept w
    · exact Kept.refl _
  · unfold takeOrderCopy
    split
    · exact useFree_kept 1 w
    · split
      · exact Kept.refl _
      · exact useFree_kept 1 w
  · exact Kept.refl _

theorem copyWith_kept (c : Cmd) (bs : List Byte) (n : Snapshot) (w : Work) :
    Kept w.toState (copyWith c bs n w).work.toState := by
  unfold copyWith
  split
  · exact Kept.refl _
  · split
    · exact useFree_kept _ w
    · exact Kept.refl _
  · split <;> exact Kept.refl _
  · unfold readAccountCopy
    split
    · split <;> exact Kept.refl _
    · exact Kept.refl _
  · exact Kept.refl _
  · exact Kept.refl _

theorem remove_kept (x : Removal) (w : Work) : Kept w.toState (remove x w).toState := by
  cases x
  · exact Kept.refl _
  · exact finishNoticeRead_kept _ w
  · exact (finishOrderRead_lower _ _ w).kept
  · exact Core.kept_wxm (Core.ofRpq (t := (removeReport w).toState) rfl (removeReport_rpqStep w)) rfl
  · exact (clearRowAccount_core _ _ _ w).kept_wxm rfl
  · exact (clearZoneAccount_core _ _ w).kept_wxm rfl

/-! ### The port controllers -/

theorem updPort_kept (p : Port) (f : PortCtl → PortCtl) (w : Work) : Kept w.toState (updPort p f w).toState := by
  cases p <;> exact Kept.ofPorts rfl

theorem setResult_kept (p : Port) (r : Result) (b : Byte) (w : Work) : Kept w.toState (setResult p r b w).toState :=
  updPort_kept _ _ _

theorem setContext_kept (p : Port) (c : Context) (w : Work) : Kept w.toState (setContext p c w).toState :=
  updPort_kept _ _ _

theorem setResult?_kept (p : Port) (r : Option Result) (b : Byte) (w : Work) :
    Kept w.toState (setResult? p r b w).toState := by
  unfold setResult?; split
  · exact setResult_kept _ _ _ _
  · exact Kept.refl _

theorem endCommand_kept (p : Port) (w : Work) : Kept w.toState (endCommand p w).toState := by
  unfold endCommand
  simp only
  refine Kept.trans ?_ (updPort_kept _ _ _)
  split
  · exact setResult_kept _ _ _ _
  · exact Kept.refl _

theorem closeAtCommand_kept (p : Port) (b : Byte) (w : Work) : Kept w.toState (closeAtCommand p b w).toState := by
  unfold closeAtCommand
  split
  · exact Kept.ite (fun _ => Kept.refl _) (fun _ => closeOpen_kept w)
  · exact Kept.refl _
  · exact Kept.refl _

theorem openCommand_kept (p : Port) (c : Cmd) (w : Work) : Kept w.toState (openCommand p c w).toState := by
  unfold openCommand
  split
  · exact Kept.ite (fun _ => (runAction_kept c [] w).trans (setResult_kept _ _ _ _)) (fun _ => setContext_kept _ _ _)
  · exact (setResult_kept _ _ _ _).trans (setContext_kept _ _ _)
  · have h := openStream_kept c w
    exact Kept.ite (fun _ => (h.trans (setResult_kept _ _ _ _)).trans (setContext_kept _ _ _))
      (fun _ => h.trans (setResult_kept _ _ _ _))
  · exact Kept.ite (fun _ => (copyNow_kept c p _ w).trans (setContext_kept _ _ _)) (fun _ => setContext_kept _ _ _)

theorem commandByte_kept (p : Port) (b : Byte) (w : Work) : Kept w.toState (commandByte p b w).toState := by
  unfold commandByte
  refine Kept.ite (fun _ => Kept.refl _) (fun _ => ?_)
  have h := (endCommand_kept p w).trans (closeAtCommand_kept p b _)
  simp only
  split
  · exact h.trans (setResult_kept _ _ _ _)
  · exact Kept.ite (fun _ => h.trans (openCommand_kept _ _ _)) (fun _ => h.trans (setResult_kept _ _ _ _))

theorem actionByte_kept (p : Port) (c : Cmd) (got : List Byte) (w : Work) :
    Kept w.toState (actionByte p c got w).toState := by
  unfold actionByte
  simp only
  refine Kept.ite (fun _ => (setResult_kept _ _ _ _).trans (setContext_kept _ _ _)) (fun _ => ?_)
  refine Kept.ite (fun _ => ?_) (fun _ => setContext_kept _ _ _)
  exact ((setContext_kept _ _ _).trans (runAction_kept _ _ _)).trans (setResult_kept _ _ _ _)

theorem settingsValue_kept (p : Port) (c : Cmd) (n v : Nat) (z : Zone) (w : Work) :
    Kept w.toState (settingsValue p c n v z w).toState := by
  unfold settingsValue
  simp only
  split
  · split
    · exact setContext_kept _ _ _
    · exact (setResult_kept _ _ _ _).trans (setContext_kept _ _ _)
  · exact ((setContext_kept _ _ _).trans (settingsApply_kept _ _ _ _ _)).trans (setResult?_kept _ _ _ _)

theorem settingsByte_kept (p : Port) (c : Cmd) (n : Nat) (got : List Byte) (z : Zone) (w : Work) :
    Kept w.toState (settingsByte p c n got z w).toState :=
  Kept.ite (fun _ => settingsValue_kept _ _ _ _ _ _) (fun _ => setContext_kept _ _ _)

theorem streamByte_kept (p : Port) (c : Cmd) (got : List Byte) (w : Work) :
    Kept w.toState (streamByte p c got w).toState :=
  Kept.ite (fun _ => ((setContext_kept _ _ _).trans (streamEntry_kept _ _ _)).trans (setResult?_kept _ _ _ _))
    (fun _ => setContext_kept _ _ _)

theorem readParamByte_kept (p : Port) (c : Cmd) (got : List Byte) (n : Snapshot) (w : Work) :
    Kept w.toState (readParamByte p c got n w).toState :=
  Kept.ite (fun _ => (copyWith_kept c got n w).trans (setContext_kept _ _ _)) (fun _ => setContext_kept _ _ _)

theorem copyByte_kept (p : Port) (l : List Byte) (x : Removal) (w : Work) : Kept w.toState (copyByte p l x w).toState := by
  unfold copyByte
  split
  · exact setContext_kept _ _ _
  · exact Kept.ite (fun _ => ((updPort_kept _ _ _).trans (setContext_kept _ _ _)).trans (remove_kept _ _))
      (fun _ => (updPort_kept _ _ _).trans (setContext_kept _ _ _))

theorem dataByte_kept (p : Port) (b : Byte) (w : Work) : Kept w.toState (dataByte p b w).toState := by
  unfold dataByte
  refine Kept.ite (fun _ => Kept.refl _) (fun _ => ?_)
  refine Kept.trans (updPort_kept p (fun x => { x with partialBits := [], dataOut := 0#8 }) w) ?_
  simp only
  split
  · exact Kept.refl _
  · exact actionByte_kept _ _ _ _
  · exact settingsByte_kept _ _ _ _ _ _
  · exact streamByte_kept _ _ _ _
  · exact readParamByte_kept _ _ _ _ _
  · exact copyByte_kept _ _ _ _

theorem settle_kept (w : Work) : Kept w.toState (settle w).toState := (settle_within w).kept

theorem dataBytes_kept (p : Port) (bs : List Byte) (w : Work) : Kept w.toState (dataBytes p bs w).toState :=
  Kept.foldl _ (fun v b => (dataByte_kept p b v).trans (settle_kept _)) bs w

theorem sendCommand_kept (p : Port) (c : Cmd) (bs : List Byte) (w : Work) : Kept w.toState (sendCommand p c bs w).toState :=
  ((commandByte_kept _ _ _).trans (settle_kept _)).trans (dataBytes_kept _ _ _)

theorem discardBits_kept (p : Port) (w : Work) : Kept w.toState (discardBits p w).toState := updPort_kept _ _ _

theorem assertReset_kept (p : Port) (w : Work) : Kept w.toState (assertReset p w).toState := by
  unfold assertReset
  simp only
  split
  · exact (updPort_kept _ _ _).trans (closeOpen_kept _)
  · exact updPort_kept _ _ _
  · exact updPort_kept _ _ _

theorem releaseReset_kept (p : Port) (w : Work) : Kept w.toState (releaseReset p w).toState := updPort_kept _ _ _

theorem expire_kept (t : Timer) (w : Work) : Kept w.toState (expire t w).toState :=
  (expire_core t w).kept (expire_weather t w)

/-- An event keeps what its effect keeps. -/
theorem runEvent_kept (f : Work → Work) (s : State) (h : ∀ w, Kept w.toState (f w).toState) : Kept s (runEvent f s) :=
  (h s.work).trans (settle_kept _)

end Sys2Proof.Machine
end

