-- ==== Sys2Proof/Laws/Exec.lean ====
section
/-! SUPPORT. Every command but POWER_ON_RESET is one event: the effect it begins with, and what that effect keeps. -/

namespace Sys2Proof.Machine

/-- The effect a command's event begins with; none for POWER_ON_RESET, which is no event of the running block. -/
def effect (i : Instr) : Option (Work → Work) :=
  match i with
  | .status port => some (sendCommand port .status [])
  | .freeze port => some (sendCommand port .freeze [])
  | .thaw port => some (sendCommand port .thaw [])
  | .rowmapWindow port params => some (sendCommand port .rowmapWindow params)
  | .rowmapData port => some (sendCommand port .rowmapData [])
  | .rowmapEntry port zoneRef capacity length => some (dataBytes port ([zoneRef] ++ halfBytes capacity ++ [length]))
  | .rowExclude port params => some (sendCommand port .rowExclude params)
  | .zoneWrite port => some (sendCommand port .zoneWrite [])
  | .planRanges port => some (sendCommand port .planRanges [])
  | .planRangeEntry port first last => some (dataBytes port [first, last])
  | .roundSetup port => some (sendCommand port .roundSetup [])
  | .planFlip port => some (sendCommand port .planFlip [])
  | .roundStart port => some (sendCommand port .roundStart [])
  | .roundStop port params => some (sendCommand port .roundStop params)
  | .energyOpen port params => some (sendCommand port .energyOpen params)
  | .energyData port => some (sendCommand port .energyData [])
  | .energyValue port value => some (dataBytes port (halfBytes value))
  | .dayClose port => some (sendCommand port .dayClose [])
  | .stormDeclare port => some (sendCommand port .stormDeclare [])
  | .stormCancel port => some (sendCommand port .stormCancel [])
  | .timingWrite port => some (sendCommand port .timingWrite [])
  | .arbiterWrite port => some (sendCommand port .arbiterWrite [])
  | .carrierSpans port params => some (sendCommand port .carrierSpans params)
  | .carrierEnrol port params => some (sendCommand port .carrierEnrol params)
  | .carrierRetire port params => some (sendCommand port .carrierRetire params)
  | .robotEnrol port params => some (sendCommand port .robotEnrol params)
  | .robotRetire port params => some (sendCommand port .robotRetire params)
  | .robotRecovered port params => some (sendCommand port .robotRecovered params)
  | .robotMove port params => some (sendCommand port .robotMove params)
  | .accountsClear port => some (sendCommand port .accountsClear [])
  | .readRow port params => some (sendCommand port .readRow params)
  | .readRobot port params => some (sendCommand port .readRobot params)
  | .readCarrier port params => some (sendCommand port .readCarrier params)
  | .readAccount port params => some (sendCommand port .readAccount params)
  | .readWorklist port => some (sendCommand port .readWorklist [])
  | .readPlan port params => some (sendCommand port .readPlan params)
  | .readReport port => some (sendCommand port .readReport [])
  | .takeNotice port => some (sendCommand port .takeNotice [])
  | .held port params => some (sendCommand port .held params)
  | .holdRefused port params => some (sendCommand port .holdRefused params)
  | .stowWanted port params => some (sendCommand port .stowWanted params)
  | .stowed port params => some (sendCommand port .stowed params)
  | .forcedStow port params => some (sendCommand port .forcedStow params)
  | .unstowed port params => some (sendCommand port .unstowed params)
  | .wind port params => some (sendCommand port .wind params)
  | .takeOrder port => some (sendCommand port .takeOrder [])
  | .robotAccept port slot fields => some (sendCommand port .robotReport ([slot, 0x01#8] ++ fields))
  | .refuse port slot fields => some (sendCommand port .robotReport ([slot, 0x02#8] ++ fields))
  | .done port slot fields => some (sendCommand port .robotReport ([slot, 0x03#8] ++ fields))
  | .progress port slot fields => some (sendCommand port .robotReport ([slot, 0x04#8] ++ fields))
  | .docked port slot fields => some (sendCommand port .robotReport ([slot, 0x05#8] ++ fields))
  | .aboard port slot fields => some (sendCommand port .robotReport ([slot, 0x06#8] ++ fields))
  | .robotFault port slot fields => some (sendCommand port .robotReport ([slot, 0x07#8] ++ fields))
  | .robotFaultClear port slot fields => some (sendCommand port .robotReport ([slot, 0x08#8] ++ fields))
  | .battery port slot fields => some (sendCommand port .robotReport ([slot, 0x09#8] ++ fields))
  | .alive port slot fields => some (sendCommand port .robotReport ([slot, 0x0A#8] ++ fields))
  | .carrierAccept port carrier fields => some (sendCommand port .carrierReport ([carrier, 0x01#8] ++ fields))
  | .arrived port carrier fields => some (sendCommand port .carrierReport ([carrier, 0x02#8] ++ fields))
  | .garaged port carrier fields => some (sendCommand port .carrierReport ([carrier, 0x03#8] ++ fields))
  | .carrierFault port carrier fields => some (sendCommand port .carrierReport ([carrier, 0x04#8] ++ fields))
  | .carrierFaultClear port carrier fields => some (sendCommand port .carrierReport ([carrier, 0x05#8] ++ fields))
  | .unknownCommand port value => some (commandByte port value)
  | .readByte port dataIn => some (dataByte port dataIn)
  | .selectRelease port _ => some (discardBits port)
  | .portReset port asserted => some (if asserted then assertReset port else releaseReset port)
  | .powerOnReset => none
  | .holdTimeout row => some (expire (.hold row))
  | .acceptTimeout unit => some (expire (.accept unit))
  | .robotSilenceTimeout slot => some (expire (.silence slot))
  | .travelTimeout c => some (expire (.travel c))
  | .dropRetryTimeout seq => some (expire (.dropRetry seq))
  | .parkDelayTimeout c => some (expire (.park c))
  | .periodTimeout => some (expire .period)
  | .timeLimitTimeout => some (expire .limit)
  | .windSilenceTimeout => some (expire .wind)
  | .quietTimeout => some (expire .quiet)
  | .releaseTimeout => some (expire .release)
  | .parkingDeadline => some (expire .deadline)
  | .stormAlightRetry c => some (expire (.alightRetry c))
  | .staleExpiry => some (expire .stale)
  | .settingsField port bytes => some (dataBytes port bytes)
  | .unknownReportKind port ofCarrier unit kind => some (sendCommand port (if ofCarrier then .carrierReport else .robotReport) [unit, kind])

/-- A command is the event its effect begins. -/
theorem exec_effect (i : Instr) (s : State) (f : Work → Work) (h : effect i = some f) :
    exec i s = .next (runEvent f s) := by
  cases i <;> simp only [effect, Option.some.injEq, reduceCtorEq] at h <;> subst h <;> rfl

/-- The effect of every command keeps the conditions of the block. -/
theorem effect_kept (i : Instr) (f : Work → Work) (h : effect i = some f) (w : Work) : Kept w.toState (f w).toState := by
  cases i <;> simp only [effect, Option.some.injEq, reduceCtorEq] at h <;> subst h
  case portReset p b =>
    cases b
    · exact releaseReset_kept _ w
    · exact assertReset_kept _ w
  all_goals first
    | with_reducible exact sendCommand_kept _ _ _ w
    | with_reducible exact expire_kept _ w
    | with_reducible exact dataBytes_kept _ _ w
    | with_reducible exact dataByte_kept _ _ w
    | with_reducible exact commandByte_kept _ _ w
    | with_reducible exact discardBits_kept _ w

/-- Every step but a power-on reset keeps the conditions of the block, on the rest of the queue. -/
theorem effect_step_kept (i : Instr) (f : Work → Work) (h : effect i = some f) (s : State) : Kept s (runEvent f s) :=
  runEvent_kept f s (effect_kept i f h)

end Sys2Proof.Machine
end

