-- ==== Sys2Proof/Laws/Quiet.lean ====
section
/-! SUPPORT. In a settled block the messages of an event change nothing, so that a command leaves exactly what its effect leaves. -/

namespace Sys2Proof.Machine

/-! ### The cascade of a settled block -/

/-- A message that a settled block does not act on: every one but the outcome of a transfer and the withdrawal of a storm
alighting's hold, which a settled block does not send. -/
def Msg.idle (m : Msg) : Prop :=
  match m with
  | .entryOutcome _ _ _ _ => False
  | .withdraw _ _ => False
  | _ => True

theorem foldl_same {α : Type} (f : Work → α → Work) (w : Work) (l : List α) (h : ∀ x ∈ l, f w x = w) : l.foldl f w = w := by
  induction l with
  | nil => rfl
  | cons x l ih =>
    rw [List.foldl_cons, h x List.mem_cons_self]
    exact ih (fun y hy => h y (List.mem_cons_of_mem _ hy))

/-- In a settled block an entry a message names has ended. -/
theorem entryOf_ended {w : Work} (h : Settled w.toState) (n : Half) (pos : Nat) (e : Entry) (he : entryOf n pos w = some e) :
    e.ended = true := by
  unfold entryOf at he
  split at he
  · exact h.ended e (List.mem_of_getElem? he)
  · cases he

theorem ended_states {e : Entry} (h : e.ended = true) : e.state ≠ .holding ∧ e.state ≠ .passing ∧ e.state ≠ .assigned := by
  cases hs : e.state <;> simp_all [Entry.ended]

theorem request_none {w : Work} (h : Settled w.toState) (n : Half) : w.request? n = none := by
  simp [Work.request?, h.pool]

theorem linked_none {w : Work} (h : Settled w.toState) (k : Slot) : linkedRequest? k w = none := by
  unfold linkedRequest?
  split
  · exact request_none h _
  · rfl

theorem candidates_none {w : Work} (h : Settled w.toState) (c : CarrierIx) : candidates w c = [] := by
  simp [candidates, h.pool]

theorem arbitrate_settled {w : Work} (h : Settled w.toState) (c : CarrierIx) : arbitrate c w = w := by
  unfold arbitrate
  simp only [candidates_none h]
  split <;> simp [winner, bestScore]

theorem rowFreed_settled {w : Work} (h : Settled w.toState) (r : Row) : rowFreed r w = w := by
  simp [rowFreed, h.pool]

theorem assignmentPass_settled {w : Work} (h : Settled w.toState) : assignmentPass w = w := by
  unfold assignmentPass
  rw [if_neg (by simp [h.round])]

theorem takeMsg_settled {w : Work} (h : Settled w.toState) (m : Msg) (hm : m.idle) (hp : m ≠ .assignPass) :
    takeMsg m w = w := by
  unfold takeMsg
  split
  · unfold entryAnswer
    split
    · rfl
    · rename_i e he
      rw [if_neg (fun g => (ended_states (entryOf_ended h _ _ _ he)).1 g.1)]
  · simp [requestAnswer, request_none h]
  · unfold stormAnswer
    split
    · rfl
    · rw [h.alights]
  · exact rowFreed_settled h _
  · exact arbitrate_settled h _
  · unfold entryGone
    split
    · rfl
    · rename_i e he
      rw [if_neg (fun g => by rw [entryOf_ended h _ _ _ he] at g; exact absurd g.1 (by simp))]
  · unfold entryStranded entryPass
    split
    · rfl
    · rename_i e he
      rw [if_neg (fun g => (ended_states (entryOf_ended h _ _ _ he)).2.1 g.1)]
  · unfold entryPass
    split
    · rfl
    · rename_i e he
      rw [if_neg (fun g => (ended_states (entryOf_ended h _ _ _ he)).2.1 g.1)]
  · unfold entryRefused
    split
    · rfl
    · rename_i e he
      rw [if_neg (fun g => (ended_states (entryOf_ended h _ _ _ he)).2.1 g.1)]
  · exact absurd hm id
  · unfold testRound
    rw [h.round]
  · exact absurd rfl hp
  · exact absurd hm id

theorem alightWanted_none {w : Work} (h : w.wxm.weather ≠ .parking) (c : CarrierIx) : alightWanted w c = none := by
  unfold alightWanted
  simp only
  rw [if_neg (fun g => h g.1)]

theorem syncAlight_settled {w : Work} (h : Settled w.toState) (c : CarrierIx) : syncAlight w c = w := by
  unfold syncAlight
  rw [h.alights c, alightWanted_none h.weather]

theorem keepAlights_settled {w : Work} (h : Settled w.toState) : keepAlights w = w :=
  foldl_same _ _ _ (fun c _ => syncAlight_settled h c)

/-- A state in which no change of a row, robot or carrier state passes a test (R94, R148). -/
structure State.Untested (s : State) : Prop where
  weather : s.wxm.weather ≠ .parking
  freeze : s.pls.freeze ≠ .freezeAsked

theorem Settled.untested {s : State} (h : Settled s) : s.Untested := ⟨h.weather, h.freeze⟩

/-- What a change of state does when no test passes. -/
theorem stateChanged_untested {w : Work} (h : w.toState.Untested) (b : Bool) :
    stateChanged b w = if b then tell w else w := by
  have e : securedTest (tell w) = tell w := by unfold securedTest; rw [if_neg (fun g => h.weather g.2.1)]
  have d : drainTest (tell w) = tell w := by unfold drainTest; rw [if_neg (fun g => h.freeze g.1)]
  unfold stateChanged
  rw [e, d]

theorem stateChanged_toState {w : Work} (h : w.toState.Untested) (b : Bool) : (stateChanged b w).toState = w.toState := by
  rw [stateChanged_untested h]; split <;> rfl

theorem stateChanged_agenda {w : Work} (h : w.toState.Untested) (b : Bool) : (stateChanged b w).agenda = w.agenda := by
  rw [stateChanged_untested h]; split <;> rfl

theorem cascadeStep_settled {w v : Work} (h : Settled w.toState) (hm : ∀ m ∈ w.agenda, m.idle)
    (e : cascadeStep w = some v) : v.toState = w.toState ∧ ∀ m ∈ v.agenda, m.idle := by
  unfold cascadeStep at e
  split at e
  · rename_i m rest hr
    have hs : Settled { w with agenda := rest }.toState := h
    have hrest : ∀ m' ∈ rest, m'.idle := fun m' h' => hm m' (by rw [hr]; exact List.mem_cons_of_mem _ h')
    by_cases hp : m = .assignPass
    · subst hp
      have hs' : Settled { w with agenda := rest, passDue := false }.toState := h
      rw [takeMsg, assignmentPass_settled hs'] at e
      cases e
      exact ⟨rfl, hrest⟩
    · rw [takeMsg_settled hs m (hm m (by rw [hr]; exact List.mem_cons_self)) hp] at e
      cases e
      exact ⟨rfl, hrest⟩
  · rename_i hr
    split at e
    · have hs : Settled { w with passDue := false }.toState := h
      rw [assignmentPass_settled hs] at e
      cases e
      exact ⟨rfl, hm⟩
    · split at e
      · have hs : Settled { w with told := false }.toState := h
        rw [keepAlights_settled hs] at e
        cases e
        exact ⟨rfl, hm⟩
      · cases e

theorem cascade_settled (n : Nat) : ∀ w : Work, Settled w.toState → (∀ m ∈ w.agenda, m.idle) →
    (cascade n w).toState = w.toState := by
  induction n with
  | zero => exact fun _ _ _ => rfl
  | succ n ih =>
    intro w h hm
    unfold cascade
    split
    · rfl
    · rename_i v e
      obtain ⟨e1, e2⟩ := cascadeStep_settled h hm e
      rw [ih v (by rw [e1]; exact h) e2, e1]

/-- The cascade of an event in a settled block changes nothing. -/
theorem settle_settled {w : Work} (h : Settled w.toState) (hm : ∀ m ∈ w.agenda, m.idle) :
    (settle w).toState = w.toState := cascade_settled _ w h hm

/-! ### A command taken on a ready port -/

@[simp] theorem setPort_port_same (s : State) (p : Port) (x : PortCtl) : (s.setPort p x).port p = x := by
  cases p <;> rfl

@[simp] theorem setPort_setPort (s : State) (p : Port) (x y : PortCtl) : (s.setPort p x).setPort p y = s.setPort p y := by
  cases p <;> rfl

@[simp] theorem setPort_self (s : State) (p : Port) : s.setPort p (s.port p) = s := by cases p <;> rfl

@[simp] theorem setPort_now (s : State) (p : Port) (x : PortCtl) : (s.setPort p x).now = s.now := by cases p <;> rfl
@[simp] theorem setPort_rac (s : State) (p : Port) (x : PortCtl) : (s.setPort p x).rac = s.rac := by cases p <;> rfl
@[simp] theorem setPort_fou (s : State) (p : Port) (x : PortCtl) : (s.setPort p x).fou = s.fou := by cases p <;> rfl
@[simp] theorem setPort_txs (s : State) (p : Port) (x : PortCtl) : (s.setPort p x).txs = s.txs := by cases p <;> rfl
@[simp] theorem setPort_pls (s : State) (p : Port) (x : PortCtl) : (s.setPort p x).pls = s.pls := by cases p <;> rfl
@[simp] theorem setPort_seu (s : State) (p : Port) (x : PortCtl) : (s.setPort p x).seu = s.seu := by cases p <;> rfl
@[simp] theorem setPort_rsc (s : State) (p : Port) (x : PortCtl) : (s.setPort p x).rsc = s.rsc := by cases p <;> rfl
@[simp] theorem setPort_wxm (s : State) (p : Port) (x : PortCtl) : (s.setPort p x).wxm = s.wxm := by cases p <;> rfl
@[simp] theorem setPort_yac (s : State) (p : Port) (x : PortCtl) : (s.setPort p x).yac = s.yac := by cases p <;> rfl
@[simp] theorem setPort_rpq (s : State) (p : Port) (x : PortCtl) : (s.setPort p x).rpq = s.rpq := by cases p <;> rfl
@[simp] theorem setPort_freeUses (s : State) (p : Port) (x : PortCtl) : (s.setPort p x).freeUses = s.freeUses := by
  cases p <;> rfl
@[simp] theorem setPort_pending (s : State) (p : Port) (x : PortCtl) : (s.setPort p x).pending = s.pending := by
  cases p <;> rfl

theorem Settled.setPort {s : State} (h : Settled s) (p : Port) (x : PortCtl) : Settled (s.setPort p x) := by
  cases p <;> exact ⟨h.round, h.ended, h.pool, h.alights, h.weather, h.freeze⟩

theorem updPort_toState (p : Port) (f : PortCtl → PortCtl) (w : Work) :
    (updPort p f w).toState = w.toState.setPort p (f (w.toState.port p)) := by cases p <;> rfl

/-- The port a command byte finds on a ready port, when the command under way has ended (R182). -/
def clearedPort (x : PortCtl) : PortCtl :=
  match cutShort x.context with
  | some (r, code) =>
    { x with lastResult := r, code := some code, context := .none, partialBits := [], dataOut := 0#8 }
  | none => { x with context := .none, partialBits := [], dataOut := 0#8 }

theorem endCommand_eq (p : Port) (s : State) : endCommand p s.work = (s.setPort p (clearedPort (s.port p))).work := by
  unfold endCommand clearedPort
  cases p <;> simp only [State.port] <;> split <;> rename_i h <;> simp only [work_toState] at h <;> simp only [h] <;> rfl

theorem opened_eq (p : Port) (c : Cmd) (s : State) (h : Ready p s) :
    opened p c s.work = (s.setPort p (clearedPort (s.port p))).work := by
  unfold opened
  rw [endCommand_eq]
  cases p
  · simp only [closeAtCommand, closeOpen]
    split
    · rfl
    · rw [if_neg]
      have := h.closed rfl
      simp [State.work, this]
  · rfl
  · rfl

/-- A port that has been answered after its command was opened. -/
theorem answered_cleared (p : Port) (r : Result) (c : Cmd) (s t : State) (h : (s.port p).resetHeld = false) :
    (t.setPort p (clearedPort (s.port p))).setPort p
      { (t.setPort p (clearedPort (s.port p))).port p with lastResult := r, code := some c.code } = answered p c r t := by
  rw [setPort_port_same, setPort_setPort]
  unfold answered answeredPort clearedPort
  split <;> simp [h]

/-- An action sent whole on a ready port of a block that its effect leaves settled: the effect, and the answer (R178, R179). -/
theorem action_answered (p : Port) (c : Cmd) (bs : List Byte) (s t : State) (r : Result) (hr : Ready p s)
    (hp : c.onPort p = true) (hkind : c.kind = .action) (hk : kindFields c (nth bs 1) ≠ none) (hlen : bs.length = need c bs)
    (h : ∀ x : PortCtl, (runAction c bs (s.setPort p x).work).2 = r ∧
      (runAction c bs (s.setPort p x).work).1.toState = t.setPort p x ∧
      ∀ m ∈ (runAction c bs (s.setPort p x).work).1.agenda, m.idle) (ht : Settled t) :
    runEvent (sendCommand p c bs) s = answered p c r t := by
  unfold runEvent
  rw [sendCommand_action p c bs s.work (work_still s) (by simpa using hr.free) hp hkind hk hlen, settle_settle,
    opened_eq p c s hr]
  obtain ⟨h1, h2, h3⟩ := h (clearedPort (s.port p))
  have e : (setResult p (runAction c bs (s.setPort p (clearedPort (s.port p))).work).2 c.code
      (runAction c bs (s.setPort p (clearedPort (s.port p))).work).1).toState = answered p c r t := by
    rw [h1]
    unfold setResult
    rw [updPort_toState, h2]
    exact answered_cleared p r c s t hr.free
  rw [settle_settled ?_ ?_, e]
  · rw [e]; exact ht.setPort _ _
  · simpa using h3

end Sys2Proof.Machine
end

