-- ==== Sys2Proof/Laws/Shapes.lean ====
section
/-! SUPPORT. What each shared operation does to the state, said once in the words of the statements, that it does the same whatever the
ports hold, and that the messages it sends change nothing in a settled block. -/

namespace Sys2Proof.Machine

/-! ### The operations as changes of the state -/

theorem putRow_shape (r : Row) (f : RowRec → RowRec) (w : Work) :
    (putRow r f w).toState = w.toState.withRow r (f (tget w.rac.rows r)) := by
  have h2 : ∀ x y : RowRec, (raiseAcc x y).notice = y.notice := by
    intro x y; unfold raiseAcc; split <;> rfl
  have h3 : syncNotices r (tget w.rac.rows r) (raiseAcc (tget w.rac.rows r) (f (tget w.rac.rows r))) w.rac.notices =
      (if (tget w.rac.rows r).notice = none ∧ (f (tget w.rac.rows r)).notice ≠ none then w.rac.notices ++ [r]
      else if (tget w.rac.rows r).notice ≠ none ∧ (f (tget w.rac.rows r)).notice = none then
        w.rac.notices.filter (fun q => decide (q ≠ r))
      else w.rac.notices) := by
    unfold syncNotices
    rw [h2]
    cases (tget w.rac.rows r).notice <;> cases (f (tget w.rac.rows r)).notice <;> simp
  unfold putRow State.withRow
  simp only
  rw [h3]
  rfl

/-- A change of a row record, where no change of state passes a test. -/
theorem updRow_shape (r : Row) (f : RowRec → RowRec) (w : Work) (h : w.toState.Untested) :
    (updRow r f w).toState = w.toState.withRow r (f (tget w.rac.rows r)) := by
  have g : (putRow r f w).toState.Untested := ⟨h.weather, h.freeze⟩
  unfold updRow
  rw [stateChanged_toState g, putRow_shape]

/-- A change of a robot record, where no change of state passes a test. -/
theorem updRobot_shape (k : Slot) (f : Robot → Robot) (w : Work) (h : w.toState.Untested) :
    (updRobot k f w).toState = w.toState.withRobot k (f (tget w.fou.robots k)) := by
  have g : (putRobot k f w).toState.Untested := ⟨h.weather, h.freeze⟩
  unfold updRobot
  rw [stateChanged_toState g]
  rfl

/-- A change of a carrier record, where no change of state passes a test. -/
theorem updCarrier_shape (c : CarrierIx) (f : Carrier → Carrier) (w : Work) (h : w.toState.Untested) :
    (updCarrier c f w).toState = w.toState.withCarrier c (f (tget w.txs.carriers c)) := by
  have g : (putCarrier c f w).toState.Untested := ⟨h.weather, h.freeze⟩
  unfold updCarrier
  rw [stateChanged_toState g]
  rfl

theorem orders_fou (w : Work) (u : FleetUnit) : w.orders u = w.fou.orders u := by cases u <;> rfl

theorem updOrders_shape (u : FleetUnit) (f : UnitOrders → UnitOrders) (w : Work) :
    (updOrders u f w).toState = w.toState.withOrders u (f (w.fou.orders u)) := by cases u <;> rfl

theorem leaveQueue_shape (u : FleetUnit) (w : Work) : (leaveQueue u w).toState = w.toState.unqueued u := by
  unfold leaveQueue setQueue State.unqueued State.withQueue
  simp only
  congr 2
  cases w.fou.urgentQ.filter (fun x => decide (x ≠ u)) <;> simp

theorem joinQueue_shape (u : FleetUnit) (c : OrderClass) (w : Work) :
    (joinQueue u c w).toState = w.toState.queued u c := by
  cases c <;> unfold joinQueue setQueue State.queued State.withQueue <;> simp only <;> congr 2
  · cases w.fou.urgentQ <;> simp
  · cases w.fou.urgentQ <;> simp

@[simp] theorem send_shape (m : Msg) (w : Work) : (send m w).toState = w.toState := rfl
@[simp] theorem askPass_shape (w : Work) : (askPass w).toState = w.toState := rfl
@[simp] theorem passAtOnce_shape (w : Work) : (passAtOnce w).toState = w.toState := rfl
@[simp] theorem tell_shape (w : Work) : (tell w).toState = w.toState := rfl
@[simp] theorem arbitrateAll_shape (w : Work) : (arbitrateAll w).toState = w.toState := rfl

@[simp] theorem answerHold_shape (r : Row) (h : Option Hold) (a : HoldAnswer) (w : Work) :
    (answerHold r h a w).toState = w.toState := by cases h <;> rfl

@[simp] theorem tellEntryGone_shape (k : Slot) (l : Option TaskLink) (w : Work) :
    (tellEntryGone k l w).toState = w.toState := by
  unfold tellEntryGone; split <;> rfl

@[simp] theorem tellEntryPass_shape (k : Slot) (b : Bool) (w : Work) : (tellEntryPass k b w).toState = w.toState := by
  unfold tellEntryPass; split <;> rfl

theorem postGroup_shape (l : List RecordBody) (w : Work) : (postGroup l w).toState = w.toState.posted l := rfl
theorem post_shape (b : RecordBody) (w : Work) : (post b w).toState = w.toState.posted [b] := rfl

theorem discardOrders_shape (u : FleetUnit) (w : Work) : (discardOrders u w).toState = w.toState.ordersDiscarded u := by
  cases u <;> rfl

theorem placeOrder_orders (u : FleetUnit) (kind : OrderKind) (cls : OrderClass) (w : Work) :
    (updOrders u (placeOrder kind cls) w).toState = w.toState.withOrders u (placeOrder kind cls (w.fou.orders u)) :=
  updOrders_shape u _ w

/-- A new order for a unit, case by case (R36). -/
theorem issued_empty (u : FleetUnit) (kind : OrderKind) (cls : OrderClass) (s : State)
    (h : (s.fou.orders u).slot = none) :
    s.issued u kind cls = (s.withOrders u (placeOrder kind cls (s.fou.orders u))).queued u cls := by
  unfold State.issued issueOrder
  rw [orders_fou]
  simp only [work_toState, h]
  rw [joinQueue_shape, updOrders_shape]
  rfl

theorem issueOrder_shape (u : FleetUnit) (kind : OrderKind) (cls : OrderClass) (w : Work) :
    (issueOrder u kind cls w).toState = w.toState.issued u kind cls := by
  unfold State.issued issueOrder
  rw [orders_fou, orders_fou]
  simp only [work_toState]
  split
  · simp only [joinQueue_shape, updOrders_shape, work_toState]
  · split
    · split <;> simp only [joinQueue_shape, leaveQueue_shape, updOrders_shape, work_toState]
    · simp only [updOrders_shape, work_toState]
    · simp only [joinQueue_shape, updOrders_shape, work_toState]

theorem promote_shape (u : FleetUnit) (w : Work) : (promote u w).toState = (promote u w.toState.work).toState := by
  have hp : unitParked u w.toState.work = unitParked u w := by cases u <;> rfl
  unfold promote
  rw [orders_fou, orders_fou, hp]
  simp only [work_toState]
  split
  · rfl
  · split <;> simp only [joinQueue_shape, updOrders_shape, work_toState]

theorem endOrder_shape (u : FleetUnit) (w : Work) : (endOrder u w).toState = w.toState.orderEnded u := by
  unfold State.orderEnded endOrder
  rw [promote_shape, promote_shape u (leaveQueue u (updOrders u (fun x => { x with slot := none }) w.toState.work))]
  simp only [leaveQueue_shape, updOrders_shape, work_toState]

theorem endOccupancy_shape (r : Row) (w : Work) (h : w.toState.Untested) :
    (endOccupancy r w).toState = w.toState.occupancyEnded (some r) := by
  unfold endOccupancy
  rw [updRow_shape _ _ _ h]
  rfl

theorem endRobotOccupancy_shape (r : Option Row) (w : Work) (h : w.toState.Untested) :
    (endRobotOccupancy r w).toState = w.toState.occupancyEnded r := by
  cases r
  · rfl
  · exact endOccupancy_shape _ w h

/-! ### The ports stay apart -/

theorem withRow_setPort (s : State) (p : Port) (x : PortCtl) (r : Row) (y : RowRec) :
    (s.setPort p x).withRow r y = (s.withRow r y).setPort p x := by cases p <;> rfl
theorem withRobot_setPort (s : State) (p : Port) (x : PortCtl) (k : Slot) (y : Robot) :
    (s.setPort p x).withRobot k y = (s.withRobot k y).setPort p x := by cases p <;> rfl
theorem withCarrier_setPort (s : State) (p : Port) (x : PortCtl) (c : CarrierIx) (y : Carrier) :
    (s.setPort p x).withCarrier c y = (s.withCarrier c y).setPort p x := by cases p <;> rfl
theorem withOrders_setPort (s : State) (p : Port) (x : PortCtl) (u : FleetUnit) (o : UnitOrders) :
    (s.setPort p x).withOrders u o = (s.withOrders u o).setPort p x := by cases p <;> cases u <;> rfl
theorem unqueued_setPort (s : State) (p : Port) (x : PortCtl) (u : FleetUnit) :
    (s.setPort p x).unqueued u = (s.unqueued u).setPort p x := by cases p <;> rfl
theorem queued_setPort (s : State) (p : Port) (x : PortCtl) (u : FleetUnit) (c : OrderClass) :
    (s.setPort p x).queued u c = (s.queued u c).setPort p x := by cases p <;> cases c <;> rfl
theorem posted_setPort (s : State) (p : Port) (x : PortCtl) (l : List RecordBody) :
    (s.setPort p x).posted l = (s.posted l).setPort p x := by cases p <;> rfl
theorem discarded_setPort (s : State) (p : Port) (x : PortCtl) (u : FleetUnit) :
    (s.setPort p x).ordersDiscarded u = (s.ordersDiscarded u).setPort p x := by cases p <;> cases u <;> rfl
theorem heard_setPort (s : State) (p : Port) (x : PortCtl) (k : Slot) :
    (s.setPort p x).heard k = (s.heard k).setPort p x := by cases p <;> rfl
theorem withBack_setPort (s : State) (p : Port) (x : PortCtl) (f : Bank → Bank) :
    (s.setPort p x).withBack f = (s.withBack f).setPort p x := by
  unfold State.withBack
  rw [setPort_pls]
  cases p <;> split <;> rfl

theorem issued_setPort (s : State) (p : Port) (x : PortCtl) (u : FleetUnit) (k : OrderKind) (c : OrderClass) :
    (s.setPort p x).issued u k c = (s.issued u k c).setPort p x := by
  unfold State.issued issueOrder
  rw [orders_fou, orders_fou]
  simp only [work_toState, setPort_fou]
  split
  · simp only [joinQueue_shape, updOrders_shape, work_toState, withOrders_setPort, queued_setPort, setPort_fou]
  · split
    · split <;> simp only [joinQueue_shape, leaveQueue_shape, updOrders_shape, work_toState, withOrders_setPort,
        queued_setPort, unqueued_setPort, setPort_fou]
    · simp only [updOrders_shape, work_toState, withOrders_setPort, setPort_fou]
    · simp only [joinQueue_shape, updOrders_shape, work_toState, withOrders_setPort, queued_setPort, setPort_fou]

theorem withOrders_fou_setPort (s : State) (p : Port) (x : PortCtl) : (s.setPort p x).work.toState.fou = s.fou := by simp

theorem unitParked_fou {w v : Work} (h : w.fou = v.fou) (u : FleetUnit) : unitParked u w = unitParked u v := by
  cases u
  · show decide ((tget w.fou.robots _).state = .parked) = decide ((tget v.fou.robots _).state = .parked)
    rw [h]
  · rfl

theorem ended_setPort (s : State) (p : Port) (x : PortCtl) (u : FleetUnit) :
    (s.setPort p x).orderEnded u = (s.orderEnded u).setPort p x := by
  have hp : ∀ w : Work, ∀ v : State, w.toState = v.setPort p x → (promote u w).toState =
      (promote u v.work).toState.setPort p x := by
    intro w v h
    have e : unitParked u w = unitParked u v.work := by
      cases u
      · have hf : w.fou = v.fou := by have := congrArg State.fou h; simpa using this
        exact unitParked_fou hf _
      · rfl
    unfold promote
    rw [orders_fou, orders_fou, e, h]
    simp only [work_toState, setPort_fou]
    split
    · exact h
    · split <;> simp only [joinQueue_shape, updOrders_shape, work_toState, h, withOrders_setPort, queued_setPort,
        setPort_fou]
  unfold State.orderEnded endOrder
  rw [hp _ ((leaveQueue u (updOrders u (fun x => { x with slot := none }) s.work)).toState)
    (by simp only [leaveQueue_shape, updOrders_shape, work_toState, withOrders_setPort, unqueued_setPort, setPort_fou])]
  rw [← promote_shape]

theorem occupancyEnded_setPort (s : State) (p : Port) (x : PortCtl) (r : Option Row) :
    (s.setPort p x).occupancyEnded r = (s.occupancyEnded r).setPort p x := by cases p <;> cases r <;> rfl

/-! ### Messages that a settled block does not act on -/

/-- Every message of the event so far is one a settled block does not act on. -/
def Work.Idle (w : Work) : Prop := ∀ m ∈ w.agenda, m.idle

theorem work_idle (s : State) : s.work.Idle := fun m hm => by simp at hm

theorem Work.Idle.append {w v : Work} (h : w.Idle) (l : List Msg) (e : v.agenda = w.agenda ++ l) (hl : ∀ m ∈ l, m.idle) :
    v.Idle := by
  intro m hm
  rw [e] at hm
  rcases List.mem_append.mp hm with hm | hm
  · exact h m hm
  · exact hl m hm

theorem Work.Idle.same {w v : Work} (h : w.Idle) (e : v.agenda = w.agenda) : v.Idle := by
  intro m hm; rw [e] at hm; exact h m hm

theorem Work.Idle.send {w : Work} (h : w.Idle) (m : Msg) (hm : m.idle) : (send m w).Idle :=
  h.append [m] rfl (by simpa using hm)

theorem Work.Idle.putRow {w : Work} (h : w.Idle) (r : Row) (f : RowRec → RowRec) : (putRow r f w).Idle := by
  apply h.append _ rfl
  intro m hm
  split at hm
  · simp at hm; subst hm; trivial
  · simp at hm

theorem Work.Idle.updRow {w : Work} (h : w.Idle) (g : w.toState.Untested) (r : Row) (f : RowRec → RowRec) :
    (updRow r f w).Idle :=
  (h.putRow r f).same (stateChanged_agenda (w := Sys2Proof.Machine.putRow r f w) ⟨g.weather, g.freeze⟩ _)

theorem Work.Idle.updRobot {w : Work} (h : w.Idle) (g : w.toState.Untested) (k : Slot) (f : Robot → Robot) :
    (updRobot k f w).Idle := h.same (stateChanged_agenda (w := putRobot k f w) ⟨g.weather, g.freeze⟩ _)

theorem Work.Idle.updCarrier {w : Work} (h : w.Idle) (g : w.toState.Untested) (c : CarrierIx) (f : Carrier → Carrier) :
    (updCarrier c f w).Idle := h.same (stateChanged_agenda (w := putCarrier c f w) ⟨g.weather, g.freeze⟩ _)

theorem Work.Idle.updOrders {w : Work} (h : w.Idle) (u : FleetUnit) (f : UnitOrders → UnitOrders) :
    (updOrders u f w).Idle := by cases u <;> exact h.same rfl
theorem Work.Idle.leaveQueue {w : Work} (h : w.Idle) (u : FleetUnit) : (leaveQueue u w).Idle := h.same rfl
theorem Work.Idle.joinQueue {w : Work} (h : w.Idle) (u : FleetUnit) (c : OrderClass) : (joinQueue u c w).Idle := by
  cases c <;> exact h.same rfl
theorem Work.Idle.post {w : Work} (h : w.Idle) (b : RecordBody) : (post b w).Idle := h.same rfl

theorem Work.Idle.answerHold {w : Work} (h : w.Idle) (r : Row) (x : Option Hold) (a : HoldAnswer) :
    (answerHold r x a w).Idle := by
  cases x
  · exact h
  · exact h.send _ trivial

theorem Work.Idle.tellEntryGone {w : Work} (h : w.Idle) (k : Slot) (l : Option TaskLink) : (tellEntryGone k l w).Idle := by
  unfold Sys2Proof.Machine.tellEntryGone
  split
  · exact h.send _ trivial
  · exact h
  · exact h

theorem Work.Idle.tellEntryPass {w : Work} (h : w.Idle) (k : Slot) (b : Bool) : (tellEntryPass k b w).Idle := by
  unfold Sys2Proof.Machine.tellEntryPass
  split
  · exact h.send _ trivial
  · exact h
  · exact h

theorem Work.Idle.issueOrder {w : Work} (h : w.Idle) (u : FleetUnit) (k : OrderKind) (c : OrderClass) :
    (issueOrder u k c w).Idle := by
  unfold Sys2Proof.Machine.issueOrder
  split
  · exact (h.updOrders u _).joinQueue u c
  · split
    · simp only
      split
      · exact ((h.updOrders u _).leaveQueue u).joinQueue u _
      · exact h.updOrders u _
    · exact h.updOrders u _
    · exact (h.updOrders u _).joinQueue u c

theorem Work.Idle.promote {w : Work} (h : w.Idle) (u : FleetUnit) : (promote u w).Idle := by
  unfold Sys2Proof.Machine.promote
  split
  · exact h
  · split
    · exact h.updOrders u _
    · exact (h.updOrders u _).joinQueue u _

theorem Work.Idle.endOrder {w : Work} (h : w.Idle) (u : FleetUnit) : (endOrder u w).Idle :=
  ((h.updOrders u _).leaveQueue u).promote u

theorem Work.Idle.discardOrders {w : Work} (h : w.Idle) (u : FleetUnit) : (discardOrders u w).Idle :=
  (h.updOrders u _).leaveQueue u

theorem Work.Idle.arbitrateAll {w : Work} (h : w.Idle) : (arbitrateAll w).Idle := by
  apply h.append _ rfl
  intro m hm
  obtain ⟨c, -, rfl⟩ := List.mem_map.mp hm
  trivial

/-! ### A settled block stays settled -/

theorem Settled.withRow {s : State} (h : Settled s) (r : Row) (y : RowRec) : Settled (s.withRow r y) :=
  ⟨h.round, h.ended, h.pool, h.alights, h.weather, h.freeze⟩
theorem Settled.withRobot {s : State} (h : Settled s) (k : Slot) (y : Robot) : Settled (s.withRobot k y) :=
  ⟨h.round, h.ended, h.pool, h.alights, h.weather, h.freeze⟩
theorem Settled.withCarrier {s : State} (h : Settled s) (c : CarrierIx) (y : Carrier) : Settled (s.withCarrier c y) :=
  ⟨h.round, h.ended, h.pool, h.alights, h.weather, h.freeze⟩
theorem Settled.withOrders {s : State} (h : Settled s) (u : FleetUnit) (y : UnitOrders) : Settled (s.withOrders u y) := by
  cases u
  · exact h.withRobot _ _
  · exact ⟨h.round, h.ended, h.pool, h.alights, h.weather, h.freeze⟩
theorem Settled.unqueued {s : State} (h : Settled s) (u : FleetUnit) : Settled (s.unqueued u) :=
  ⟨h.round, h.ended, h.pool, h.alights, h.weather, h.freeze⟩
theorem Settled.queued {s : State} (h : Settled s) (u : FleetUnit) (c : OrderClass) : Settled (s.queued u c) := by
  cases c <;> exact ⟨h.round, h.ended, h.pool, h.alights, h.weather, h.freeze⟩
theorem Settled.posted {s : State} (h : Settled s) (l : List RecordBody) : Settled (s.posted l) :=
  ⟨h.round, h.ended, h.pool, h.alights, h.weather, h.freeze⟩
theorem Settled.heard {s : State} (h : Settled s) (k : Slot) : Settled (s.heard k) := h.withRobot _ _

/-- A state that differs from a settled one in nothing a settled block is judged by. -/
theorem Settled.same {s t : State} (h : Settled s) (h1 : t.rsc.state = s.rsc.state) (h2 : t.rsc.worklist = s.rsc.worklist)
    (h3 : t.txs.pool = s.txs.pool) (h4 : t.wxm.alights = s.wxm.alights) (h5 : t.wxm.weather = s.wxm.weather)
    (h6 : t.pls.freeze = s.pls.freeze) : Settled t :=
  ⟨h1.trans h.round, fun e he => h.ended e (by rw [← h2]; exact he), h3.trans h.pool,
    fun c => by rw [h4]; exact h.alights c, by rw [h5]; exact h.weather, by rw [h6]; exact h.freeze⟩

theorem Settled.issued {s : State} (h : Settled s) (u : FleetUnit) (k : OrderKind) (c : OrderClass) :
    Settled (s.issued u k c) := by
  unfold State.issued issueOrder
  split
  · rw [joinQueue_shape, updOrders_shape]; exact (h.withOrders _ _).queued _ _
  · split
    · simp only
      split
      · rw [joinQueue_shape, leaveQueue_shape, updOrders_shape]; exact ((h.withOrders _ _).unqueued _).queued _ _
      · rw [updOrders_shape]; exact h.withOrders _ _
    · rw [updOrders_shape]; exact h.withOrders _ _
    · rw [joinQueue_shape, updOrders_shape]; exact (h.withOrders _ _).queued _ _

theorem Settled.orderEnded {s : State} (h : Settled s) (u : FleetUnit) : Settled (s.orderEnded u) := by
  have hq : Settled (leaveQueue u (updOrders u (fun x => { x with slot := none }) s.work)).toState := by
    rw [leaveQueue_shape, updOrders_shape]; exact (h.withOrders _ _).unqueued _
  unfold State.orderEnded endOrder promote
  split
  · exact hq
  · split
    · rw [updOrders_shape]; exact hq.withOrders _ _
    · rw [joinQueue_shape, updOrders_shape]; exact (hq.withOrders _ _).queued _ _

theorem Settled.ordersDiscarded {s : State} (h : Settled s) (u : FleetUnit) : Settled (s.ordersDiscarded u) := by
  unfold State.ordersDiscarded discardOrders
  rw [leaveQueue_shape, updOrders_shape]; exact (h.withOrders _ _).unqueued _

theorem Settled.occupancyEnded {s : State} (h : Settled s) (r : Option Row) : Settled (s.occupancyEnded r) := by
  cases r
  · exact h
  · exact h.withRow _ _

/-! ### Events of a settled block -/

/-- A timer event in a settled block leaves what its effect leaves. -/
theorem event_settled (i : Instr) (s t : State) (f : Work → Work) (hf : effect i = some f) (h : (f s.work).toState = t)
    (ha : (f s.work).Idle) (ht : Settled t) : exec i s = .next t := by
  rw [exec_effect _ _ _ hf]
  unfold runEvent
  rw [settle_settled (by rw [h]; exact ht) ha, h]

end Sys2Proof.Machine
end

