-- ==== Sys2Proof/Tests/Slice0.lean ====
section
/-! SUPPORT. Small tests with the results the manual gives, an ill-formed command for each flaw, and for every statement with
hypotheses a concrete state and operands that meet them. -/

namespace Sys2Proof.Tests

open Sys2Proof Sys2Proof.Machine

set_option maxRecDepth 20000
set_option Elab.async false

/-! ### WellFormed: a command for each flaw -/

theorem test_flaw_role : (Instr.wind .plant [0, 100]).flaw = some .role := by decide
theorem test_flaw_length : (Instr.wind .tracker [0]).flaw = some .length := by decide
theorem test_flaw_value : (Instr.unknownCommand .plant 0x01).flaw = some .value := by decide
theorem test_flaw_bits : (Instr.selectRelease .fleet (List.replicate 8 true)).flaw = some .bits := by decide
theorem test_wellFormed_wind : (Instr.wind .tracker [0, 100]).wellFormed = true := by decide
theorem test_wellFormed_report : (Instr.refuse .fleet 3 [1, 0]).wellFormed = true := by decide

/-- The table gives no row any bits, so no word spells a command (log entry 4). -/
theorem test_no_word_spells_a_command : decodeTableWord 8 0x2A = none := by decide

/-! ### Small states -/

/-- The state a command leaves. -/
def after (i : Instr) (s : State) : State :=
  match exec i s with
  | .next t => t
  | _ => s

/-- A row with a rail. -/
def railed : RowRec := { RowRec.reset with length := 40, capacity := 500 }

/-- The reset state with a record at row 3. -/
def rowIs (x : RowRec) : State :=
  { State.reset with rac := { Rac.reset with rows := tset (tfill 256 RowRec.reset) 3 x } }

/-- A state with a robot in slot 2. -/
def robotIs (x : Robot) (s : State) : State := s.withRobot 2 x

/-- A state with another carrier 0. -/
def carrierIs (x : Carrier) (s : State) : State := s.withCarrier 0 x

/-- A robot parked at row 3. -/
def parkedAt : Robot := { Robot.reset with state := .parked, row := some 3 }

/-- A row asked for a hold by a transfer request. -/
def asked : RowRec :=
  { railed with state := .holdAsked, hold := some ⟨.request 1, .pass⟩, holdTimer := some 0#32, acc := .service }

/-- A state in RUNNING. -/
def running (s : State) : State := { s with pls := { s.pls with freeze := .running } }

/-- A state whose plant port has a command under way. -/
def plantIn (c : Context) (s : State) : State := { s with plant := { s.plant with context := c } }

/-! ### Commands of the plant supervisor -/

theorem test_window_last : (after (.rowmapWindow .plant [10, 20]) State.reset).rac.winLast = 20 := by decide +kernel
theorem test_window_range : (after (.rowmapWindow .plant [20, 10]) State.reset).plant.lastResult = .range := by
  decide +kernel
theorem test_map_entry_pointer :
    (after (.rowmapEntry .plant 0x02 500 40) (plantIn (.stream .rowmapData []) State.reset)).rac.mapPtr = 1 := by
  decide +kernel
theorem test_map_entry_clamped :
    (after (.rowmapEntry .plant 0x02 1001 40) (plantIn (.stream .rowmapData []) State.reset)).plant.lastResult =
      .clamped := by decide +kernel
theorem test_exclude_range : (after (.rowExclude .plant [4, 3, 1]) State.reset).plant.lastResult = .range := by
  decide +kernel
theorem test_freeze_when_frozen : (after (.freeze .plant) State.reset).plant.lastResult = .state := by decide +kernel
theorem test_thaw : (after (.thaw .plant) State.reset).pls.freeze = .running := by decide +kernel
theorem test_flip : (after (.planFlip .plant) State.reset).pls.front = .b := by decide +kernel
theorem test_range_entry :
    (after (.planRangeEntry .plant 4 9) (plantIn (.stream .planRanges []) State.reset)).pls.bankB.ranges = [(4, 9)] := by
  decide +kernel
theorem test_zone_field_clamped :
    (after (.settingsField .plant [0x20, 0x00]) (plantIn (.settings .zoneWrite 2 [] 5) State.reset)).plant.lastResult =
      .clamped := by decide +kernel
theorem test_zone_field_value :
    (tget (after (.settingsField .plant [0x20, 0x00])
      (plantIn (.settings .zoneWrite 2 [] 5) State.reset)).pls.bankB.zones 5).trigger = 4096 := by decide +kernel
theorem test_round_start_when_frozen : (after (.roundStart .plant) State.reset).rsc.due = true := by decide +kernel
theorem test_round_stop_without_round : (after (.roundStop .plant [0]) State.reset).plant.lastResult = .state := by
  decide +kernel
theorem test_energy_open_index : (after (.energyOpen .plant [0x01, 0x9B, 0, 255]) State.reset).seu.openIndex = 411 := by
  decide +kernel
theorem test_energy_data_closed : (after (.energyData .plant) State.reset).plant.lastResult = .state := by decide +kernel
theorem test_energy_value_none :
    (tget (after (.energyValue .plant 0xFFFF) { plantIn (.stream .energyData []) State.reset with
      seu := { Seu.reset with intervalOpen := true, winLast := 9 } }).seu.rows 0).reading = none := by decide +kernel
theorem test_day_close : (after (.dayClose .plant) State.reset).seu.day = 1 := by decide +kernel
theorem test_storm_cancel_undeclared : (after (.stormCancel .plant) State.reset).plant.lastResult = .state := by
  decide +kernel
theorem test_carrier_spans :
    (tget (after (.carrierSpans .plant [3, 0, 119, 0xFF, 0xFF, 0xFF, 0xFF]) State.reset).txs.carriers 1).span =
      some (120, 255) := by decide +kernel
theorem test_carrier_enrol_disabled : (after (.carrierEnrol .plant [1]) State.reset).plant.lastResult = .range := by
  decide +kernel
theorem test_carrier_retire :
    (tget (after (.carrierRetire .plant [0]) State.reset).txs.carriers 0).state = .absent := by decide +kernel
theorem test_robot_enrol_serial :
    (tget (after (.robotEnrol .plant [2, 1, 0, 3]) (rowIs railed)).fou.robots 2).serial = 256 := by decide +kernel
theorem test_robot_retire_empty : (after (.robotRetire .plant [2]) State.reset).plant.lastResult = .state := by
  decide +kernel
theorem test_robot_move_no_rail :
    (after (.robotMove .plant [2, 4]) (robotIs parkedAt (rowIs railed))).plant.lastResult = .range := by decide +kernel
theorem test_accounts_clear : (after (.accountsClear .plant) State.reset).plant.lastResult = .ok := by decide +kernel
theorem test_status_copy :
    (after (.status .plant) State.reset).plant.context = .readCopy [0, 0, 0, 0, 0, 2, 0] .nothing := by decide +kernel
theorem test_read_report_empty :
    (after (.readReport .plant) State.reset).plant.context = .readCopy [0, 0, 0, 0, 0] .nothing := by decide +kernel

/-! ### Reports of the tracker master and the fleet gateway -/

theorem test_take_notice_empty :
    (after (.takeNotice .tracker) State.reset).tracker.context = .readCopy [0, 0, 0] .nothing := by decide +kernel
theorem test_stow_wanted_tracking :
    (tget (after (.stowWanted .tracker [3]) (rowIs railed)).rac.rows 3).state = .stowCleared := by decide +kernel
theorem test_stowed :
    (tget (after (.stowed .tracker [3]) (rowIs { railed with state := .stowCleared })).rac.rows 3).state = .stowed := by
  decide +kernel
theorem test_forced_stow_sets_wanted :
    (tget (after (.forcedStow .tracker [3]) (rowIs railed)).rac.rows 3).stowWanted = true := by decide +kernel
theorem test_unstowed :
    (tget (after (.unstowed .tracker [3]) (rowIs { railed with state := .stowed, stowWanted := true })).rac.rows 3).state =
      .tracking := by decide +kernel
theorem test_held_not_asked : (after (.held .tracker [3]) (rowIs railed)).tracker.lastResult = .state := by decide +kernel
theorem test_hold_refused :
    (tget (after (.holdRefused .tracker [3]) (rowIs asked)).rac.rows 3).state = .tracking := by decide +kernel
theorem test_wind_sample : (after (.wind .tracker [0, 100]) State.reset).wxm.lastSample = some 100 := by decide +kernel
theorem test_wind_watch : (after (.wind .tracker [0, 120]) State.reset).wxm.weather = .watch := by decide +kernel
theorem test_battery_clamped :
    (tget (after (.battery .fleet 2 [101]) (robotIs parkedAt State.reset)).fou.robots 2).battery = 100 := by
  decide +kernel
theorem test_robot_fault :
    (tget (after (.robotFault .fleet 2 [9]) (robotIs parkedAt State.reset)).fou.robots 2).cause = .code 9 := by
  decide +kernel
theorem test_docked_elsewhere :
    (tget (after (.docked .fleet 2 [4]) (robotIs parkedAt State.reset)).fou.robots 2).cause = .mismatch := by
  decide +kernel
theorem test_carrier_fault :
    (tget (after (.carrierFault .fleet 0 [7]) State.reset).txs.carriers 0).cause = .code 7 := by decide +kernel
theorem test_arrived_without_order : (after (.arrived .fleet 0 [7]) State.reset).fleet.lastResult = .state := by
  decide +kernel
theorem test_report_of_empty_slot : (after (.alive .fleet 2 []) State.reset).fleet.lastResult = .state := by
  decide +kernel
theorem test_unknown_command : (after (.unknownCommand .fleet 0x2E) State.reset).fleet.lastResult = .unknown := by
  decide +kernel
theorem test_unknown_report :
    (after (.unknownReportKind .fleet false 2 11) State.reset).fleet.lastResult = .range := by decide +kernel

/-! ### Timers and resets -/

theorem test_hold_timeout :
    (tget (after (.holdTimeout 3) { rowIs asked with now := 60 }).rac.rows 3).notice = some .withdraw := by
  decide +kernel
theorem test_hold_timer_runs_on :
    (tget (after (.holdTimeout 3) { rowIs asked with now := 59 }).rac.rows 3).state = .holdAsked := by decide +kernel
theorem test_silence :
    (tget (after (.robotSilenceTimeout 2) { robotIs parkedAt State.reset with now := 120 }).fou.robots 2).state =
      .lost := by decide +kernel
theorem test_power_on_clock : (after .powerOnReset { State.reset with now := 9 }).now = 0 := by decide +kernel
theorem test_port_reset : (after (.portReset .fleet true) State.reset).fleet.resetHeld = true := by decide +kernel

/-! ### The worked cases of sections 5.10 and 8.5 -/

/-- The references of interval 411 (Table 5-5). -/
def references411 : Reference := { sumE := 18772, sumC := 1040, y := 180, referenced := true, count := 2 }

theorem test_sample_411 : sampleOf references411 8100 500 = 3676 := by decide +kernel
theorem test_filter_411 : filterRatio 3800 3676 4 = 3769 := by decide +kernel
theorem test_filter_truncates : filterRatio 3800 3797 4 = 3800 := by decide +kernel
theorem test_expected_411 : expectedOf references411 8100 500 = 9025 := by decide +kernel
theorem test_partial_pass : ratioAfter false 3769 4000 25 40 = 3913 := by decide +kernel
theorem test_attribution_row70 :
    attribute1 8100 9025 .normal Buckets.reset =
      { Buckets.reset with produced := 8100, expected := 9025, soiling := 925 } := by decide +kernel
theorem test_attribution_row75 :
    attribute1 9100 9025 .normal Buckets.reset =
      { Buckets.reset with produced := 9100, expected := 9025, surplus := 75 } := by decide +kernel

/-! ### Witnesses: what the statements suppose can be met -/

theorem ready_at {p : Port} {s : State} (h : (s.port p).resetHeld = false) (g : s.seu.intervalOpen = false) : Ready p s :=
  ⟨h, fun _ => g⟩

theorem settled_at {s : State} (h1 : s.rsc = Rsc.reset) (h2 : s.txs.pool = []) (h3 : s.wxm.alights = tfill 4 none)
    (h4 : s.wxm.weather ≠ .parking) (h5 : s.pls.freeze ≠ .freezeAsked) : Settled s := by
  refine ⟨by rw [h1]; rfl, ?_, h2, ?_, h4, h5⟩
  · rw [h1]; intro e he; simp [Rsc.reset] at he
  · intro c; rw [h3]; simp

/-- A state as settled as the reset state. -/
theorem settled_like {s : State} (h1 : s.rsc = Rsc.reset) (h2 : s.txs.pool = []) (h3 : s.wxm = Wxm.reset)
    (h4 : s.pls = Pls.reset ∨ s.pls = { Pls.reset with freeze := .running }) : Settled s := by
  refine settled_at h1 h2 (by rw [h3]; rfl) (by rw [h3]; decide) ?_
  rcases h4 with h | h <;> rw [h] <;> decide

theorem ready_reset (p : Port) : Ready p State.reset := by cases p <;> exact ready_at rfl rfl
theorem settled_reset : Settled State.reset := settled_like rfl rfl rfl (.inl rfl)

theorem witness_StepRunsFrontCommand :
    ({ State.reset with pending := [.powerOnReset] } : State).pending = .powerOnReset :: [] := rfl


theorem witness_PortReset :
    let s := after (.portReset .fleet true) State.reset
    bytesOn (.status .fleet) = some .fleet ∧ (s.port .fleet).resetHeld = true := ⟨rfl, rfl⟩

theorem witness_Roles :
    sentBytes (.wind .plant [0, 1]) = some (.plant, .wind, [0, 1]) ∧ Cmd.wind.onPort .plant = false ∧
    (State.reset.port .plant).resetHeld = false := ⟨rfl, rfl, rfl⟩

theorem witness_CommandContexts :
    (sentBytes (.rowmapWindow .plant [7]) = some (.plant, .rowmapWindow, [7]) ∧ Cmd.rowmapWindow.onPort .plant = true ∧
      Cmd.rowmapWindow.kind = .action ∧ [(7 : Byte)].length < Cmd.rowmapWindow.params ∧ Ready .plant State.reset) ∧
    (∀ c ∈ [Context.action .rowmapWindow [7], .settings .zoneWrite 0 [] 0, .stream .rowmapData [7], .stream .rowmapData [],
      .readParams .readRow [] .none, .readCopy [7] .nothing, .none],
      Ready .plant (plantIn c State.reset) ∧ ((plantIn c State.reset).port .plant).context = c) ∧
    (∀ p, (State.reset.port p).resetHeld = false) ∧ cmdOf 0x00 = none ∧ cmdOf 0x2E = none ∧ cmdOf 0xFF = none ∧
    (11#8 = 0#8 ∨ 10#8 < 11#8) ∧ (6#8 = 0#8 ∨ 5#8 < 6#8) :=
  ⟨⟨rfl, rfl, rfl, by decide, ready_reset _⟩, fun _ _ => ⟨ready_at rfl rfl, rfl⟩, fun p => by cases p <;> rfl, by decide,
    by decide, by decide, by decide, by decide⟩

/-- A report in the queue. -/
def reported : State := { State.reset with rpq := { Rpq.reset with queue := [⟨0#32, .freezeDone⟩] } }

theorem witness_Reads :
    (∀ p, Ready p State.reset ∧ (State.reset.port p).context = .none) ∧ State.reset.rpq.queue = [] ∧
    (Ready .plant reported ∧ reported.plant.context = .none ∧ reported.rpq.queue = [⟨0#32, .freezeDone⟩]) ∧
    ((plantIn (.readCopy [1, 2] .report) State.reset).plant.resetHeld = false ∧
      ((plantIn (.readCopy [1, 2] .report) State.reset).port .plant).context = .readCopy (1 :: [2]) .report ∧
      ((plantIn (.readCopy [1] .nothing) State.reset).port .plant).context = .readCopy [1] .nothing) :=
  ⟨fun p => ⟨ready_reset p, by cases p <;> rfl⟩, rfl, ⟨ready_at rfl rfl, rfl, rfl⟩, rfl, rfl, rfl⟩

theorem witness_RowMap :
    (Ready .plant State.reset ∧ State.reset.pls.freeze = .frozen) ∧
    (Ready .plant (running State.reset) ∧ (running State.reset).pls.freeze ≠ .frozen) ∧
    ((plantIn (.stream .rowmapData []) State.reset).plant.resetHeld = false ∧
      (plantIn (.stream .rowmapData []) State.reset).plant.context = .stream .rowmapData []) :=
  ⟨⟨ready_reset _, rfl⟩, ⟨ready_at rfl rfl, by decide⟩, rfl, rfl⟩

theorem witness_RowExclude :
    Ready .plant State.reset ∧ Settled State.reset ∧ (0#8 < 1#8) ∧ (0#8 ≤ 0#8) ∧ (0#8 ≤ 255#8) ∧ (255#8 ≤ 255#8) :=
  ⟨ready_reset _, settled_reset, by decide, by decide, by decide, by decide⟩

theorem witness_HoldRefused :
    Ready .tracker (rowIs asked) ∧ Settled (rowIs asked) ∧ ((rowIs asked).work.row 3).state = .holdAsked ∧
    ((rowIs asked).work.row 3).hold = some ⟨.request 1, .pass⟩ ∧ ((rowIs asked).work.row 4).state ≠ .holdAsked ∧
    (rowIs asked).work.entering = false :=
  ⟨ready_at rfl rfl, settled_like rfl rfl rfl (.inl rfl), by decide +kernel, by decide +kernel, by decide +kernel, rfl⟩

/-- A row whose state takes a hold for robot 2: for a PASS or a BOARD, and for an ALIGHT. -/
theorem witness_HoldAskedAndTimedOut :
    (let x := tget (rowIs { railed with present := some 2 }).rac.rows 3;
      x.state = .tracking ∧ x.excluded = false ∧ x.length ≠ 0 ∧ x.present = some 2) ∧
    (let x := tget (rowIs { railed with incoming := some ⟨2, .leg⟩ }).rac.rows 3;
      x.state = .tracking ∧ x.excluded = false ∧ x.length ≠ 0 ∧ x.present = none ∧ x.incoming = some ⟨2, .leg⟩) ∧
    (tget (rowIs asked).rac.rows 3).state ≠ .tracking ∧ Settled (rowIs asked) ∧
    (let w := State.work { rowIs asked with now := 60 };
      (w.row 3).state = .holdAsked ∧ (w.row 3).hold = some ⟨.request 1, .pass⟩ ∧
      due w.now (w.row 3).holdTimer w.rac.holdTimeout = true ∧ w.entering = false) :=
  ⟨by decide +kernel, by decide +kernel, by decide +kernel, settled_like rfl rfl rfl (.inl rfl), by decide +kernel⟩

/-- A notice in the slot of row 3. -/
def noticed : State :=
  { rowIs { asked with notice := some (.holdAsk .pass) } with
    rac := { (rowIs { asked with notice := some (.holdAsk .pass) }).rac with notices := [3], attention := true } }

theorem witness_Notices :
    (Ready .tracker State.reset ∧ State.reset.tracker.context = .none ∧ State.reset.rac.notices = []) ∧
    (Ready .tracker noticed ∧ noticed.tracker.context = .none ∧ noticed.rac.notices = 3 :: [] ∧
      (tget noticed.rac.rows 3).notice = some (.holdAsk .pass)) ∧
    (let s := { noticed with tracker := { noticed.tracker with context := .readCopy [0] (.notice 3) } };
      s.tracker.resetHeld = false ∧ s.tracker.context = .readCopy [0] (.notice 3)) :=
  ⟨⟨ready_reset _, rfl, rfl⟩, ⟨ready_at rfl rfl, rfl, rfl, by decide +kernel⟩, rfl, rfl⟩

/-- The order side of a robot with a PASS in its slot. -/
def passOrder (st : OrderStatus) (cls : OrderClass) (attempts : Nat) : UnitOrders :=
  { tagCounter := 1, latestSent := some (1, .pass), successor := none
    slot := some { tag := 1, kind := .pass 3 .dry, cls := cls, status := st, attempts := attempts
                   acceptTimer := if st = .sent then some 0#32 else none } }

/-- A robot that passes on row 3 with that order. -/
def ordered (st : OrderStatus) (cls : OrderClass) (attempts : Nat) : State :=
  robotIs { parkedAt with state := .passing, position := .onTable, orders := passOrder st cls attempts }
    (rowIs { railed with state := .occupied, present := some 2, hold := some ⟨.request 1, .pass⟩ })

/-- The robot's orders as the state holds them. -/
theorem ordered_orders (st : OrderStatus) (cls : OrderClass) (n : Nat) :
    (ordered st cls n).fou.orders (.robot 2) = passOrder st cls n := by
  simp [ordered, robotIs, State.withRobot, Fou.orders]

theorem settled_ordered (st : OrderStatus) (cls : OrderClass) (n : Nat) : Settled (ordered st cls n) :=
  settled_like rfl rfl rfl (.inl rfl)

theorem ready_ordered (st : OrderStatus) (cls : OrderClass) (n : Nat) (p : Port) : Ready p (ordered st cls n) := by
  cases p <;> exact ready_at rfl rfl

theorem witness_TakeOrder :
    (Ready .fleet State.reset ∧ State.reset.fleet.context = .none ∧ State.reset.fou.queue = []) ∧
    (let s := { ordered .queued .routine 0 with
        fou := { (ordered .queued .routine 0).fou with routineQ := [.robot 2] } };
      Ready .fleet s ∧ s.fleet.context = .none ∧ s.fou.queue = .robot 2 :: [] ∧
      (s.fou.orders (.robot 2)).slot = (passOrder .queued .routine 0).slot) ∧
    (let s := { ordered .queued .routine 0 with
        fleet := { PortCtl.reset with context := .readCopy [1] (.order (.robot 2) 1) } };
      s.fleet.resetHeld = false ∧ s.fleet.context = .readCopy [1] (.order (.robot 2) 1) ∧
      (s.fou.orders (.robot 2)).slot = (passOrder .queued .routine 0).slot) ∧
    (∀ o, (State.reset.fou.orders (.robot 2)).slot = some o → o.status = .queued → o.tag ≠ 1#8) := by
  refine ⟨⟨ready_reset _, rfl, rfl⟩, ⟨ready_at rfl rfl, rfl, rfl, ?_⟩, ⟨rfl, rfl, ?_⟩, ?_⟩
  · exact congrArg UnitOrders.slot (ordered_orders .queued .routine 0)
  · exact congrArg UnitOrders.slot (ordered_orders .queued .routine 0)
  · intro o h; simp [State.reset, Fou.reset, Fou.orders, Robot.reset, UnitOrders.reset] at h

theorem witness_ReadAccount :
    (Ready .plant State.reset ∧ State.reset.plant.context = .none) ∧
    (plantIn (.readCopy [1] (.rowAccount 3 0 0)) State.reset).plant.context = .readCopy [1] (.rowAccount 3 0 0) ∧
    (plantIn (.readCopy [1] (.zoneAccount 15 0)) State.reset).plant.context = .readCopy [1] (.zoneAccount 15 0) ∧
    (∀ c, (plantIn c State.reset).plant.resetHeld = false) := ⟨⟨ready_reset _, rfl⟩, rfl, rfl, fun _ => rfl⟩

/-- The first and the last field of each kind, and the numbers next to the ranges. -/
theorem witness_ZoneWrite :
    (∀ n z, (plantIn (.settings .zoneWrite n [] z) State.reset).plant.context = .settings .zoneWrite n [] z ∧
      (plantIn (.settings .zoneWrite n [] z) State.reset).plant.resetHeld = false) ∧ 15#8 < 16#8 ∧
    (2 ≤ 2 ∧ 2 ≤ 8 ∧ [(0 : Byte), 0].length = [1, 1, 2, 2, 1, 3, 1, 1, 1].getD 2 0) ∧
    (2 ≤ 8 ∧ 8 ≤ 8 ∧ [(100 : Byte)].length = [1, 1, 2, 2, 1, 3, 1, 1, 1].getD 8 0) ∧
    (Ready .plant State.reset ∧ (Instr.arbiterWrite .plant, Cmd.arbiterWrite) ∈
      [(Instr.zoneWrite .plant, Cmd.zoneWrite), (.roundSetup .plant, .roundSetup), (.timingWrite .plant, .timingWrite),
        (.arbiterWrite .plant, .arbiterWrite)]) :=
  ⟨fun _ _ => ⟨rfl, rfl⟩, by decide, by decide, by decide, ready_reset _, by decide⟩

theorem witness_RoundAndArbiterFields :
    (∀ c n, (plantIn (.settings c n [] 0) State.reset).plant.context = .settings c n [] 0 ∧
      (plantIn (.settings c n [] 0) State.reset).plant.resetHeld = false) ∧
    (1 ≤ 1 ∧ 1 ≤ 3 ∧ [(0 : Byte), 10].length = [1, 2, 1, 2].getD 1 0) ∧
    (1 ≤ 3 ∧ 3 ≤ 3 ∧ [(2 : Byte), 208].length = [1, 2, 1, 2].getD 3 0) ∧ (0 ≤ 5 ∧ 5 ≤ 5) :=
  ⟨fun _ _ => ⟨rfl, rfl⟩, by decide, by decide, by decide⟩

/-- A field with no timer of its own; a hold timeout a hold has reached; a watch threshold at the storm threshold; and threshold
fields with no sample, with one below them, with one between them in CALM and in WATCH, and with one in PARKING. -/
theorem witness_TimingFields :
    (let s := plantIn (.settings .timingWrite 13 [] 0) State.reset;
      s.plant.resetHeld = false ∧ s.plant.context = .settings .timingWrite 13 [] 0 ∧ s.wxm.lastSample = none) ∧
    (let s := { plantIn (.settings .timingWrite 0 [] 0) (rowIs asked) with now := 5 };
      s.plant.resetHeld = false ∧ s.plant.context = .settings .timingWrite 0 [] 0 ∧
      dueHolds { s with rac := { s.rac with holdTimeout := 5 } } = [.hold 3]) ∧
    [(255 : Byte)].length = [2, 1, 2, 1, 1, 2, 2, 2, 2, 2, 1, 2, 1, 1].getD 13 0 ∧
    [(0 : Byte), 5].length = [2, 1, 2, 1, 1, 2, 2, 2, 2, 2, 1, 2, 1, 1].getD 0 0 ∧
    [(0 : Byte), 180].length = [2, 1, 2, 1, 1, 2, 2, 2, 2, 2, 1, 2, 1, 1].getD 7 0 ∧
    State.reset.wxm.stormAt ≤ max 0 (min 600 180) ∧ max 0 (min 600 179) < State.reset.wxm.stormAt ∧
    State.reset.wxm.watchAt < max 0 (min 600 121) ∧
    (∀ w, let s := plantIn (.settings .timingWrite 7 [] 0) { State.reset with
        wxm := { Wxm.reset with weather := w, lastSample := some 100 } };
      s.plant.resetHeld = false ∧ s.plant.context = .settings .timingWrite 7 [] 0 ∧ s.wxm.lastSample = some 100 ∧
      s.wxm.weather = w ∧ s.rsc.state = .none ∧ 100 < s.wxm.stormAt) :=
  ⟨by decide +kernel, by decide +kernel, by decide, by decide, by decide, by decide, by decide, by decide,
    fun _ => ⟨rfl, rfl, rfl, rfl, rfl, by show 100 < 180; decide⟩⟩

/-- A request that carries robot 2 from row 9 to row 3, and one that fetches it at row 3. -/
def carry : Request :=
  { seq := 7, robot := 2, fromRow := 9, legTarget := some 3, finalRow := 3, cls := .routine, origin := .plant, leg := 1
    dyn := 0, guard := 0, pickupFails := 0, dropFails := 0, retry := none, cancelled := false, state := .serving 0
    search := .leg, relocated := false, stormTarget := none, stormCrossing := false }
def fetch : Request := { carry with fromRow := 3, legTarget := some 9, finalRow := 9 }

/-- A request that waits for robot 2 at row 3. -/
def waits : Request := { fetch with state := .waiting }

/-- Carrier 0 stands at row 3 in a state and serves a request, with row 3 and robot 2 as given. -/
def serving (q : Request) (st : CarrierState) (x : RowRec) (v : Robot) : State :=
  carrierIs { Carrier.firstReset with state := st, position := .row 3, task := some 7 }
    (robotIs { v with link := some (.request 7) } { running (rowIs x) with txs := { Txs.reset with pool := [q] } })

theorem ready_serving (q : Request) (st : CarrierState) (x : RowRec) (v : Robot) (p : Port) :
    Ready p (serving q st x v) := by cases p <;> exact ready_at rfl rfl
theorem quiet_serving (q : Request) (st : CarrierState) (x : RowRec) (v : Robot) :
    (serving q st x v).rsc.state = .none ∧ (∀ c, tget (serving q st x v).wxm.alights c = none) ∧
    (serving q st x v).wxm.weather = .calm ∧ (serving q st x v).pls.freeze = .running ∧
    (serving q st x v).txs.pool = [q] := ⟨rfl, fun c => by fin_cases c <;> rfl, rfl, rfl, rfl⟩

/-- Robot 2 on its dock at row 3, on the table of row 3, and on carrier 0. -/
def boarder : Robot := { parkedAt with state := .boarding, position := .onTable }
def alighter : Robot := { parkedAt with state := .alighting, position := .onTable, carrier := some 0 }
def rider : Robot := { parkedAt with state := .aboard, position := .onCarrier, carrier := some 0, row := none }

/-- Robot 2 alights at row 3 from carrier 0, which is HALTED. -/
def halfway (q : Request) : State :=
  carrierIs { Carrier.firstReset with state := .halted, position := .row 3, task := some 7, load := some 2 }
    (serving q .halted { railed with state := .occupied, incoming := some ⟨2, .final⟩ } alighter)

/-- R81: the request of a HALTED carrier with a load is converted at once; R76: a DOCKED ends its leg (log entry 21). -/
theorem test_entry_converts_halfway :
    (after (.stormDeclare .plant) (halfway carry)).txs.pool.map (fun q => (q.cls, q.legTarget)) = [(.storm, none)] := by
  decide +kernel

/-- A state in FREEZE_ASKED. -/
def draining (s : State) : State := { s with pls := { s.pls with freeze := .freezeAsked } }

/-- R7, R94: HOLD_REFUSED of the last row that holds up a drain ends it, though a STORM request asks the hold again at once. -/
def refusedDrain : State :=
  draining (serving { fetch with cls := .storm } .toPickup
    { asked with present := some 2, hold := some ⟨.request 7, .board⟩ } parkedAt)

theorem test_refusal_ends_drain :
    let t := after (.holdRefused .tracker [3]) refusedDrain
    t.pls.freeze = .frozen ∧ (tget t.rac.rows 3).state = .holdAsked := by decide +kernel

/-- R56, R74, R94: the DOCKED that ends a drain posts FREEZE_DONE, and then TRANSFER_DONE. -/
theorem test_docked_ends_drain :
    (after (.docked .fleet 2 [3]) (draining (serving carry .unloading
      { railed with state := .occupied, incoming := some ⟨2, .final⟩ } alighter))).rpq.queue.map (·.body) =
    [.freezeDone, .transferDone 7 2 3 (some 3) 1 .routine .delivered] := by decide +kernel

theorem test_docked_halfway :
    (after (.docked .fleet 2 [3]) (halfway { carry with cls := .storm, legTarget := none })).txs.pool = [] := by
  decide +kernel

/-- A round whose one entry waits for its hold, with its robot parked at row 3. -/
def holding : State :=
  { robotIs parkedAt (running (rowIs { railed with
      state := .holdAsked, hold := some ⟨.entry 1 0, .pass⟩, present := some 2, holdTimer := some 0#32 })) with
    rsc := { Rsc.reset with
      state := .active, number := 1
      worklist := [{ row := 3, mode := .dry, score := 5, state := .holding, robot := some 2, holdFails := 0,
                     transferFails := 0, skip := none }] } }

theorem witness_HeldReport :
    (Ready .tracker holding ∧ holding.wxm.weather = .calm ∧ holding.pls.freeze = .running ∧
      (∀ c, tget holding.wxm.alights c = none) ∧ (tget holding.rac.rows (byteRow 3)).state = .holdAsked ∧
      (tget holding.rac.rows (byteRow 3)).hold = some ⟨.entry 1 0, .pass⟩ ∧
      (tget holding.rac.rows (byteRow 3)).present = some 2 ∧ holding.rsc.number = 1 ∧
      (holding.rsc.worklist[0]?).map (fun e => (e.state, e.row, e.robot)) = some (.holding, byteRow 3, some 2) ∧
      (tget holding.fou.robots 2).state = .parked) ∧
    (let s := serving fetch .toPickup { railed with
        state := .holdAsked, hold := some ⟨.request 7, .board⟩, present := some 2 } parkedAt;
      s.work.request? fetch.seq = some fetch ∧ fetch.fromRow = byteRow 3 ∧
      ((tget s.rac.rows (byteRow 3)).state = .holdAsked ∧
        (tget s.rac.rows (byteRow 3)).hold = some ⟨.request fetch.seq, .board⟩ ∧
        (tget s.rac.rows (byteRow 3)).present = some fetch.robot) ∧
      ((tget s.txs.carriers 0).state = .toPickup ∧ (tget s.txs.carriers 0).load = none ∧
        standsAt (tget s.txs.carriers 0) (byteRow 3) = true) ∧ (tget s.fou.robots fetch.robot).state = .parked) ∧
    (let s := serving carry .toDrop { railed with
        state := .holdAsked, hold := some ⟨.request 7, .alight⟩, incoming := some ⟨2, .final⟩ } rider;
      s.work.request? carry.seq = some carry ∧ carry.legTarget = some (byteRow 3) ∧
      ((tget s.rac.rows (byteRow 3)).state = .holdAsked ∧
        (tget s.rac.rows (byteRow 3)).hold = some ⟨.request carry.seq, .alight⟩ ∧
        (tget s.rac.rows (byteRow 3)).incoming.map (·.robot) = some carry.robot) ∧
      ((tget s.txs.carriers 0).state = .toDrop ∧ standsAt (tget s.txs.carriers 0) (byteRow 3) = true) ∧
      (tget s.fou.robots carry.robot).state = .aboard ∧ (tget s.fou.robots carry.robot).carrier = some 0) ∧
    (let a : StormAlight := { robot := 2, row := 3, asks := 1, retry := none };
      let s := { serving carry .halted { railed with
          state := .holdAsked, hold := some ⟨.storm 2, .alight⟩, incoming := some ⟨2, .storm⟩ } rider with
        wxm := { Wxm.reset with weather := .parking, alights := tset (tfill 4 none) 0 (some a) } };
      (s.wxm.weather = .parking ∧ s.pls.freeze ≠ .freezeAsked ∧ tget s.wxm.alights 0 = some a ∧
        (∀ e, e ≠ 0 → tget s.wxm.alights e = none) ∧ ∀ e, e ≠ 0 → (tget s.txs.carriers e).state ≠ .halted) ∧
      a.row = byteRow 3 ∧ (tget s.rac.rows 3).state = .holdAsked ∧
      (tget s.rac.rows 3).hold = some ⟨.storm a.robot, .alight⟩ ∧
      (tget s.rac.rows 3).incoming.map (·.robot) = some a.robot ∧ (tget s.fou.robots a.robot).state = .aboard ∧
      (tget s.fou.robots a.robot).carrier = some 0 ∧ standsAt (tget s.txs.carriers 0) 3 = true) ∧
    Ready .tracker (rowIs asked) ∧ Settled (rowIs asked) :=
  ⟨⟨ready_at rfl rfl, rfl, rfl, by decide, by decide +kernel, by decide +kernel, by decide +kernel, rfl,
    by decide +kernel, by decide +kernel⟩, by decide +kernel, by decide +kernel, by decide +kernel, ready_at rfl rfl,
    settled_like rfl rfl rfl (.inl rfl)⟩

theorem witness_StowReports :
    (∀ x, Ready .tracker (rowIs x) ∧ Settled (rowIs x)) ∧
    (tget (rowIs { railed with state := .stowCleared }).rac.rows (byteRow 3)).state = .stowCleared ∧
    (tget (rowIs { railed with state := .locked, incoming := some ⟨2, .final⟩ }).rac.rows (byteRow 3)).state ≠
      .stowCleared :=
  ⟨fun _ => ⟨ready_at rfl rfl, settled_like rfl rfl rfl (.inl rfl)⟩, by decide +kernel, by decide +kernel⟩

/-- In calm weather, and under storm parking with a row reserved STORM. -/
theorem witness_StowWantedAndUnstowed :
    (Ready .tracker (ordered .sent .routine 1) ∧ Settled (ordered .sent .routine 1)) ∧
    (Ready .tracker (rowIs { railed with state := .stowed }) ∧ Settled (rowIs { railed with state := .stowed }) ∧
      (tget (rowIs { railed with state := .stowed }).rac.rows (byteRow 3)).state ≠ .held) ∧
    (let s : State := { rowIs { railed with state := .stowed, incoming := some ⟨2, .storm⟩ } with
        wxm := { Wxm.reset with weather := .secured } };
      Ready .tracker s ∧ Settled s ∧ s.wxm.weather = .secured ∧
      (tget s.rac.rows (byteRow 3)).incoming.map (·.kind) = some .storm) :=
  ⟨⟨ready_ordered _ _ _ _, settled_ordered _ _ _⟩,
    ⟨ready_at rfl rfl, settled_like rfl rfl rfl (.inl rfl), by decide +kernel⟩, ready_at rfl rfl,
    settled_at rfl rfl rfl (by decide) (by decide), rfl, by decide +kernel⟩

/-- A robot with a SENT order and a successor, in a state of its own. -/
def followed (st : RobotState) (kind : OrderKind) : State :=
  robotIs { parkedAt with
    state := st, orders := { passOrder .sent .routine 1 with successor := some ⟨kind, .urgent⟩ } } State.reset

/-- An empty slot, and an order of each status; a QUEUED one of either class; a successor of a PARKED robot and of another. -/
theorem witness_OrderIssuedAndEnded :
    (State.reset.fou.orders (.robot 2)).slot = none ∧
    (∀ st cls n, ((ordered st cls n).fou.orders (.robot 2)).slot = (passOrder st cls n).slot) ∧
    ((passOrder .queued .routine 0).slot.map (fun o => (o.status, o.cls)) = some (.queued, .routine) ∧
      (passOrder .accepted .routine 1).slot.map (·.status) = some .accepted ∧
      (passOrder .sent .routine 1).slot.map (·.status) = some .sent) ∧
    ¬ (OrderClass.urgent = .urgent ∧ OrderClass.urgent = .routine) ∧
    (State.reset.fou.orders (.robot 2)).successor = none ∧
    (((followed .parked .goHead).fou.orders (.robot 2)).successor = some ⟨.goHead, .urgent⟩ ∧
      (tget (followed .parked .goHead).fou.robots 2).state = .parked) ∧
    (((followed .passing .goHead).fou.orders (.robot 2)).successor = some ⟨.goHead, .urgent⟩ ∧
      (tget (followed .passing .goHead).fou.robots 2).state ≠ .parked) := by
  refine ⟨?_, fun st cls n => by rw [ordered_orders], by decide, by decide, ?_⟩ <;>
  simp [State.reset, Fou.reset, Fou.orders, Robot.reset, UnitOrders.reset, followed, robotIs, State.withRobot]

theorem witness_AcceptReports :
    (∀ st, Ready .fleet (ordered st .routine 1) ∧ Settled (ordered st .routine 1) ∧
      (tget (ordered st .routine 1).fou.robots 2).state = .passing ∧
      (ordered st .routine 1).fou.orders (.robot 2) = passOrder st .routine 1) ∧
    ((passOrder .sent .routine 1).latestSent.map (·.1) ≠ some 0#8 ∧
      (passOrder .sent .routine 1).latestSent.map (·.1) = some 1#8 ∧ (passOrder .sent .routine 1).successor = none) ∧
    (let s := robotIs { parkedAt with orders := { UnitOrders.reset with latestSent := some (1, .pass) } } State.reset;
      (s.fou.orders (.robot 2)).latestSent.map (·.1) = some 1#8 ∧ (s.fou.orders (.robot 2)).slot = none) ∧
    (∀ st, Ready .fleet (followed st .goHead) ∧ Settled (followed st .goHead) ∧
      (tget (followed st .goHead).fou.robots 2).state = st ∧
      (followed st .goHead).fou.orders (.robot 2) =
        { passOrder .sent .routine 1 with successor := some ⟨.goHead, .urgent⟩ }) ∧
    (tget State.reset.txs.carriers 0).state ≠ .absent := by
  refine ⟨fun st => ⟨ready_ordered _ _ _ _, settled_ordered _ _ _, ?_, ordered_orders _ _ _⟩, by decide, ?_,
    fun st => ⟨ready_at rfl rfl, settled_like rfl rfl rfl (.inl rfl), ?_, ?_⟩, by decide +kernel⟩
  · simp [ordered, robotIs, State.withRobot]
  · simp [robotIs, State.withRobot, Fou.orders, UnitOrders.reset]
  · simp [followed, robotIs, State.withRobot]
  · simp [followed, robotIs, State.withRobot, Fou.orders]

theorem witness_AcceptTimeout :
    (∀ s : State, s = { ordered .sent .routine 1 with now := 10 } ∨ s = { ordered .sent .routine 3 with now := 10 } →
      Settled s) ∧
    (∀ n, (passOrder .sent .routine n).slot.map (fun o => (o.status, o.attempts, due 10#32 o.acceptTimer 10)) =
      some (.sent, n, true)) ∧
    (passOrder .sent .routine 3).successor = none ∧
    due 9#32 (some 0#32) 10 = false := by
  refine ⟨?_, fun n => rfl, rfl, by decide⟩
  rintro s (rfl | rfl) <;> exact settled_like rfl rfl rfl (.inl rfl)

theorem witness_RobotEnrolled :
    (∀ x, Ready .plant (rowIs x) ∧ Settled (rowIs x)) ∧ (tget (rowIs railed).fou.robots 2).state = .empty ∧
    (tget (robotIs parkedAt (rowIs railed)).fou.robots 2).state ≠ .empty ∧
    ((tget (rowIs railed).rac.rows (byteRow 3)).length ≠ 0 ∧ (tget (rowIs railed).rac.rows (byteRow 3)).present = none ∧
      (tget (rowIs railed).rac.rows (byteRow 3)).incoming = none) ∧
    (tget (rowIs railed).rac.rows (byteRow 4)).length = 0 ∧
    (tget (rowIs { railed with present := some 5 }).rac.rows (byteRow 3)).present ≠ none ∧ 31#8 < 32#8 :=
  ⟨fun _ => ⟨ready_at rfl rfl, settled_like rfl rfl rfl (.inl rfl)⟩, by decide +kernel, by decide +kernel,
    by decide +kernel, by decide +kernel, by decide +kernel, by decide⟩

/-- A robot in a state, docked at row 9, with row 3 free. -/
def robotIn (st : RobotState) : State := robotIs { parkedAt with state := st, row := some 9 } (rowIs railed)

theorem ready_robotIn (st : RobotState) (p : Port) : Ready p (robotIn st) := by cases p <;> exact ready_at rfl rfl
theorem settled_robotIn (st : RobotState) : Settled (robotIn st) := settled_like rfl rfl rfl (.inl rfl)
theorem robotIn_state (st : RobotState) : (tget (robotIn st).fou.robots 2).state = st := by
  simp [robotIn, robotIs, State.withRobot]
theorem robotIn_loads (st : RobotState) (c : CarrierIx) : (tget (robotIn st).txs.carriers c).load ≠ some 2 := by
  fin_cases c <;> exact nofun

/-- Every timer started at 0, in a weather state, so many seconds later. -/
def timed (w : Weather) (n : Nat) : State :=
  let s := carrierIs { Carrier.firstReset with state := .toDrop, travelTimer := some (0, 3) }
    (robotIs { parkedAt with orders := passOrder .sent .routine 1 } (rowIs asked))
  { s with
    now := BitVec.ofNat 32 n
    fou := { s.fou with carrierOrders := tset s.fou.carrierOrders 0 (passOrder .sent .routine 1) }
    txs := { s.txs with
      carriers := tset s.txs.carriers 1 { Carrier.absentReset with state := .idle, idleStart := some 0 }
      pool := [{ carry with retry := some 0 }] }
    rsc := { Rsc.reset with state := .active, periodTimer := some (0, 600), limitTimer := some (0, 700) }
    wxm := { Wxm.reset with
      weather := w, lastSample := some 119, quietTimer := some 0, releaseTimer := some 0, deadlineTimer := some 0
      alights := tset (tfill 4 none) 0 (some { robot := 2, row := 3, asks := 1, retry := some 0 }) }
    rpq := { Rpq.reset with queue := [⟨0, .freezeDone⟩] } }

/-- Each timer at the second at which it reaches its setting, and one second before. -/
theorem witness_EmptyQueueIsASecond :
    State.reset.pending = [] ∧
    (.hold 3 ∈ dueHolds (timed .calm 60) ∧ .hold 3 ∉ dueHolds (timed .calm 59)) ∧
    (∀ u ∈ [FleetUnit.robot 2, .carrier 0],
      .accept u ∈ dueAccepts (timed .calm 10) ∧ .accept u ∉ dueAccepts (timed .calm 9)) ∧
    (.silence 2 ∈ dueSilences (timed .calm 120) ∧ .silence 2 ∉ dueSilences (timed .calm 119)) ∧
    (.travel 0 ∈ dueTravels (timed .calm 42) ∧ .travel 0 ∉ dueTravels (timed .calm 41)) ∧
    (.dropRetry 7 ∈ dueRetries (timed .calm 10) ∧ .dropRetry 7 ∉ dueRetries (timed .calm 9)) ∧
    (.park 1 ∈ dueParks (timed .calm 300) ∧ .park 1 ∉ dueParks (timed .calm 299)) ∧
    (∀ n, n = 599 ∨ n = 600 → dueLen (BitVec.ofNat 32 n) (timed .calm n).rsc.periodTimer = decide (n = 600)) ∧
    (.wind ∈ dueWind (timed .calm 30) ∧ .wind ∉ dueWind (timed .calm 29)) ∧
    (.quiet ∈ dueReleases (timed .watch 900) ∧ .quiet ∉ dueReleases (timed .watch 899)) ∧
    (.release ∈ dueReleases (timed .secured 900) ∧ .release ∉ dueReleases (timed .secured 899)) ∧
    (.deadline ∈ dueDeadline (timed .parking 180) ∧ .deadline ∉ dueDeadline (timed .parking 179)) ∧
    (.alightRetry 0 ∈ dueAlights (timed .parking 10) ∧ .alightRetry 0 ∉ dueAlights (timed .parking 9)) ∧
    (stale (timed .calm 20).now (timed .calm 20).rpq = true ∧ stale (timed .calm 19).now (timed .calm 19).rpq = false) := by
  refine ⟨rfl, by decide +kernel, by decide +kernel, by decide +kernel, by decide +kernel, by decide +kernel, by decide +kernel,
    ?_, by decide +kernel, by decide +kernel, by decide +kernel, by decide +kernel, by decide +kernel, by decide +kernel⟩
  rintro n (rfl | rfl) <;> rfl

theorem witness_RobotLeaves :
    (∀ st, Ready .plant (robotIn st) ∧ Settled (robotIn st) ∧ (tget (robotIn st).fou.robots 2).state = st ∧
      ∀ c, (tget (robotIn st).txs.carriers c).load ≠ some 2) ∧
    (tget (robotIn .parked).fou.robots 2).position = .docked ∧
    (∀ r : Row, (tget (robotIn .parked).rac.rows r).state ≠ .locked) ∧
    ((tget (robotIn .lost).rac.rows 3).length ≠ 0 ∧ (tget (robotIn .lost).rac.rows 3).present = none ∧
      (tget (robotIn .lost).rac.rows 3).incoming = none ∧ (tget (robotIn .lost).fou.robots 2).row = some 9 ∧
      (tget (robotIn .lost).rac.rows 4).length = 0) ∧
    (let s := robotIs { parkedAt with row := some 9 } (rowIs { railed with state := .locked, incoming := some ⟨2, .final⟩ });
      Ready .plant s ∧ Settled s ∧ (tget s.fou.robots 2).state = .parked ∧ (tget s.rac.rows 3).state = .locked ∧
      (tget s.rac.rows 3).incoming.map (·.robot) = some 2 ∧ ∀ c, (tget s.txs.carriers c).load ≠ some 2) ∧
    (let s := robotIs { parkedAt with state := .lost, row := some 9 } (rowIs { railed with state := .locked, present := some 5 });
      (tget s.rac.rows 3).state = .locked ∧ (tget s.rac.rows 3).present ≠ some 2 ∧ (tget s.rac.rows 3).incoming = none) ∧
    (∀ st, let s := carrierIs { Carrier.firstReset with state := st, load := some 2 } (robotIn .lost);
      Ready .plant s ∧ Settled s ∧ s.wxm.weather ≠ .secured ∧ (tget s.txs.carriers 0).load = some 2 ∧
      (tget s.fou.robots 2).state = .lost) ∧
    31#8 < 32#8 := by
  refine ⟨fun st => ⟨ready_robotIn st _, settled_robotIn st, robotIn_state st, robotIn_loads st⟩, by decide +kernel, ?_,
    by decide +kernel, ⟨ready_at rfl rfl, settled_like rfl rfl rfl (.inl rfl), by decide +kernel⟩, by decide +kernel,
    fun st => ⟨ready_at rfl rfl, settled_like rfl rfl rfl (.inl rfl), nofun, by simp [carrierIs, State.withCarrier],
      robotIn_state .lost⟩,
    by decide⟩
  intro r
  show (tget (tset (tfill 256 RowRec.reset) 3 railed) r).state ≠ .locked
  rw [tget_tset]
  split
  · decide
  · rw [tget_tfill]; decide

/-- The same with carrier 0 on rows 0..2 only, so that row 3 is beyond its handover row 2, which is as given. -/
def beyond (f : Row) (x : RowRec) : State :=
  (carrierIs { Carrier.firstReset with span := some (0, 2) }
    (robotIs { parkedAt with row := some f } (rowIs railed))).withRow 2 x

/-- A move to a row the carrier reaches, frozen and running, and to one it does not, with its handover row open and not; a robot that
may not move; and requests that are PENDING: for row 3, for the handover row, re-aimed, and converted. -/
theorem witness_RobotMoved :
    (∀ s : State, s = robotIn .parked ∨ s = running (robotIn .parked) →
      Ready .plant s ∧ Settled s ∧ s.wxm.weather ≠ .secured ∧ (tget s.fou.robots 2).link = none ∧
      (tget s.fou.robots 2).state = .parked ∧ (tget s.fou.robots 2).unconfirmed = false ∧
      (tget s.fou.robots 2).row = some 9 ∧ (9 : Row) ≠ byteRow 3) ∧
    ((tget (robotIn .parked).rac.rows (byteRow 3)).length ≠ 0 ∧
      (tget (robotIn .parked).rac.rows (byteRow 3)).present = none ∧
      (tget (robotIn .parked).rac.rows (byteRow 3)).incoming = none) ∧
    (servingOf (robotIn .parked).work 9 (byteRow 3) = some 0 ∧
      reaches (tget (robotIn .parked).txs.carriers 0) (byteRow 3) = true) ∧
    ((robotIn .parked).pls.freeze = .frozen ∧ (running (robotIn .parked)).pls.freeze = .running ∧
      (running (robotIn .parked)).wxm.weather = .calm ∧ (tget (robotIn .parked).txs.carriers 0).state = .garaged ∧
      standsAt (tget (robotIn .parked).txs.carriers 0) 9 = false ∧
      inSpan (tget (robotIn .parked).txs.carriers 0) 9 = true) ∧
    (tget (robotIn .lost).fou.robots 2).state ≠ .parked ∧
    (∀ x, Ready .plant (beyond 1 x) ∧ Settled (beyond 1 x) ∧ (beyond 1 x).pls.freeze = .frozen) ∧
    (∀ x ∈ [railed, { railed with state := .stowed }], let s := beyond 1 x;
      ((tget s.fou.robots 2).state = .parked ∧ (tget s.fou.robots 2).link = none ∧ (tget s.fou.robots 2).row = some 1 ∧
        (tget s.rac.rows 3).length ≠ 0 ∧ (tget s.rac.rows 3).present = none ∧ (tget s.rac.rows 3).incoming = none) ∧
      servingOf s.work 1 3 = some 0 ∧ reaches (tget s.txs.carriers 0) 3 = false ∧
      (tget s.txs.carriers 0).span = some (0, 2) ∧ (2 : Row) < 3 ∧
      ((tget s.rac.rows 2).state, (tget s.rac.rows 2).length, (tget s.rac.rows 2).incoming) = (x.state, 40, none)) ∧
    (let q := { waits with legTarget := none, finalRow := 3, fromRow := 1 };
      let s := { beyond 1 { railed with state := .stowed } with txs := { (beyond 1 railed).txs with pool := [q] } };
      Ready .tracker s ∧ s.rsc.state = .none ∧ s.wxm.weather = .calm ∧ s.pls.freeze = .frozen ∧ s.txs.pool = [q] ∧
      q.search = .leg ∧ q.cls = .routine ∧ servingOf s.work q.fromRow q.finalRow = some 0 ∧
      reaches (tget s.txs.carriers 0) 2 = true ∧ (tget s.rac.rows (byteRow 2)).state = .stowed) ∧
    (∀ f ∈ [Search.leg, .relocate 9 true, .relocate 9 false, .storm],
      let q := { carry with legTarget := none, search := f, fromRow := 1 };
      let s := serving q .toDrop railed rider;
      q.search = f ∧ q.state = .serving 0 ∧ reaches (tget s.txs.carriers 0) 3 = true ∧
      inSpan (tget s.txs.carriers 0) 3 = true ∧ rowOpen (tget s.rac.rows 3) = true) := by
  refine ⟨?_, by decide +kernel, by decide +kernel, by decide +kernel, by decide +kernel,
    fun _ => ⟨ready_at rfl rfl, settled_like rfl rfl rfl (.inl rfl), rfl⟩, by decide +kernel,
    ⟨ready_at rfl rfl, by decide +kernel⟩, by decide +kernel⟩
  rintro s (rfl | rfl)
  · exact ⟨ready_robotIn _ _, settled_robotIn _, by decide, by decide +kernel, by decide +kernel, by decide +kernel,
      by decide +kernel, by decide⟩
  · exact ⟨ready_at rfl rfl, settled_like rfl rfl rfl (.inr rfl), by decide, by decide +kernel, by decide +kernel,
      by decide +kernel, by decide +kernel, by decide⟩

theorem witness_PlainRobotReports :
    (∀ st n, Ready .fleet (ordered st .routine n) ∧ Settled (ordered st .routine n)) ∧
    (tget (ordered .sent .routine 1).fou.robots 2).state = .passing ∧ (tget (robotIn .fault).fou.robots 2).state = .fault ∧
    (Ready .fleet State.reset ∧ (tget State.reset.fou.robots 31).state = .empty ∧ 31#8 < 32#8) ∧
    (Ready .fleet (robotIn .lost) ∧ Settled (robotIn .lost) ∧ (tget (robotIn .lost).fou.robots 2).state = .lost ∧
      (tget (robotIn .lost).fou.robots 2).row ≠ some (byteRow 3)) ∧
    (tget (robotIs { parkedAt with state := .lost, position := .onCarrier } State.reset).fou.robots 2).position =
      .onCarrier :=
  ⟨fun _ _ => ⟨ready_ordered _ _ _ _, settled_ordered _ _ _⟩, by decide +kernel, by decide +kernel,
    ⟨ready_reset _, by decide +kernel, by decide⟩,
    ⟨ready_robotIn _ _, settled_robotIn _, robotIn_state _, by decide +kernel⟩, by decide +kernel⟩

/-- A robot under an order of its own, on row 3. -/
def underOrder (v : Robot) (kind : OrderKind) (st : OrderStatus) : State :=
  robotIs { v with orders :=
      { tagCounter := 1, latestSent := some (1, kind.name), successor := none
        slot := some { tag := 1, kind := kind, cls := .routine, status := st, attempts := 1, acceptTimer := none } } }
    (rowIs { railed with state := .occupied, present := some 2, hold := some ⟨.entry 1 0, .pass⟩ })

/-- A PASS, a BOARD, an ALIGHT and a GO_HEAD that fit the robot's state; one ACCEPTED, and a BOARD of a PARKED robot. -/
theorem witness_OrderRefused :
    (∀ v kind st, Ready .fleet (underOrder v kind st) ∧ Settled (underOrder v kind st) ∧
      (tget (underOrder v kind st).fou.robots 2).state = v.state ∧
      (tget (underOrder v kind st).fou.robots 2).orders.latestSent.map (·.1) = some 1#8 ∧
      (tget (underOrder v kind st).fou.robots 2).orders.slot =
        some { tag := 1, kind := kind, cls := .routine, status := st, attempts := 1, acceptTimer := none }) ∧
    (boarder.state = .boarding ∧ alighter.state = .alighting ∧ parkedAt.state = .parked) ∧
    OrderStatus.accepted ≠ .sent ∧ OrderStatus.accepted ≠ .queued ∧ (0 : Nat) < 1 := by
  refine ⟨fun v kind st => ⟨ready_at rfl rfl, settled_like rfl rfl rfl (.inl rfl), ?_, ?_, ?_⟩, ⟨rfl, rfl, rfl⟩, by decide,
    by decide, by decide⟩ <;>
  simp [underOrder, robotIs, State.withRobot]

theorem witness_PassEnds :
    Ready .fleet (ordered .accepted .routine 1) ∧ Settled (ordered .accepted .routine 1) ∧
    (tget (ordered .accepted .routine 1).fou.robots 2).row = some 3 ∧
    (tget (ordered .accepted .routine 1).fou.robots 2).state = .passing ∧
    (tget (ordered .accepted .routine 1).fou.robots 2).orders.latestSent = some (1, .pass) ∧
    (tget (ordered .accepted .routine 1).fou.robots 2).orders.latestSent ≠ some (2, .pass) :=
  ⟨ready_ordered _ _ _ _, settled_ordered _ _ _, by decide +kernel, by decide +kernel, by decide +kernel,
    by decide +kernel⟩

theorem witness_DockedAndAboard :
    (∀ st, Ready .fleet (robotIn st) ∧ Settled (robotIn st) ∧ (tget (robotIn st).fou.robots 2).state = st) ∧
    (∀ st, (tget (robotIn st).fou.robots 2).row = some 9 ∧ (tget (robotIn st).fou.robots 2).position ≠ .onCarrier) ∧
    byteRow 9 = 9 ∧ byteRow 3 ≠ 9 ∧ RobotState.boarding ∈ [RobotState.parked, .passing, .returning, .boarding, .aboard, .alighting, .lost] ∧
    3#8 < 4#8 ∧ 3#8 < 255#8 ∧ 3#8 = BitVec.ofNat 8 (3 : CarrierIx).val ∧
    RobotState.stranded ∈ [RobotState.parked, .passing, .returning, .aboard, .fault, .stranded] ∧
    (let s := robotIs { parkedAt with state := .stranded, position := .onCarrier, row := none, carrier := some 0 } State.reset;
      Ready .fleet s ∧ Settled s ∧ (tget s.fou.robots 2).state = .stranded ∧
      (tget s.fou.robots 2).position = .onCarrier) ∧
    (let s := robotIs alighter (rowIs { railed with state := .occupied, incoming := some ⟨2, .final⟩ });
      Ready .fleet s ∧ Settled s ∧ (tget s.fou.robots 2).state = .alighting ∧ (tget s.fou.robots 2).row = some 3 ∧
      (tget s.fou.robots 2).carrier = some 0) ∧
    (let s := serving fetch .loading { railed with state := .occupied, present := some 2 } boarder;
      (tget s.fou.robots 2).row = some 3 ∧ (tget s.fou.robots 2).link = some (.request fetch.seq) ∧
      (tget s.rac.rows 3).state = .occupied ∧ (tget s.fou.robots 2).state = .boarding ∧
      (tget s.txs.carriers 0).state = .loading ∧ standsAt (tget s.txs.carriers 0) 3 = true ∧
      standsAt (tget s.txs.carriers 0) 9 = false ∧ fetch.legTarget = some 9 ∧ fetch.stormCrossing = false) ∧
    (let s := serving carry .unloading { railed with state := .occupied, incoming := some ⟨2, .final⟩ } alighter;
      (tget s.fou.robots 2).row = some 3 ∧ (tget s.fou.robots 2).link = some (.request carry.seq) ∧
      (tget s.rac.rows 3).state = .occupied ∧ (tget s.fou.robots 2).state = .alighting ∧
      (carry.legTarget = some 3 ∧ carry.finalRow = 3 ∧ carry.origin = .plant ∧ carry.stormCrossing = false) ∧
      (tget s.rac.rows 9).state ≠ .holdAsked ∧
      (tget s.rac.rows 3).incoming = some ⟨2, .final⟩ ∧ (tget s.rac.rows carry.fromRow).state ≠ .holdAsked ∧
      ∀ z : Row, z ≠ 3 → (tget s.rac.rows z).incoming.map (·.robot) ≠ some 2) := by
  refine ⟨fun st => ⟨ready_robotIn st _, settled_robotIn st, robotIn_state st⟩, fun st => ?_, by decide, by decide, by decide,
    by decide, by decide, by decide, by decide, ⟨ready_at rfl rfl, settled_like rfl rfl rfl (.inl rfl), by decide +kernel⟩,
    ⟨ready_at rfl rfl, settled_like rfl rfl rfl (.inl rfl), by decide +kernel⟩, by decide +kernel, by decide +kernel⟩
  simp [robotIn, robotIs, State.withRobot, parkedAt, Robot.reset]

theorem witness_RobotFaultsAndLosses :
    (∀ st, Ready .fleet (robotIn st) ∧ Settled (robotIn st) ∧ (tget (robotIn st).fou.robots 2).state = st) ∧
    RobotState.parked ∈ [RobotState.parked, .passing, .returning, .boarding, .aboard, .alighting] ∧
    RobotState.stranded ≠ .fault ∧ RobotState.stranded ≠ .empty ∧ RobotState.stranded ≠ .lost :=
  ⟨fun st => ⟨ready_robotIn st _, settled_robotIn st, robotIn_state st⟩, by decide, by decide, by decide, by decide⟩

/-- Outside FROZEN; the empty set; carriers 0 and 1, with the bound 119, taken; carrier 0 left out; a request SERVING. -/
theorem witness_CarrierSpans :
    (Ready .plant (running State.reset) ∧ (running State.reset).pls.freeze ≠ .frozen) ∧
    (Ready .plant State.reset ∧ State.reset.pls.freeze = .frozen ∧ State.reset.txs.pool = []) ∧
    (∀ c : CarrierIx, (0#8).getLsbD c.val = false) ∧
    ((∀ c : CarrierIx, (3#8).getLsbD c.val = true ↔ c = 0 ∨ c = 1) ∧ (0#8).toNat * 256 + (119#8).toNat = 119 ∧
      (255#8).toNat * 256 + (255#8).toNat = 65535 ∧ (∀ c : CarrierIx, c ≠ 0 → (tget State.reset.txs.carriers c).state = .absent) ∧
      (tget State.reset.txs.carriers 0).position = .garage) ∧
    ((∀ c : CarrierIx, (2#8).getLsbD c.val = true ↔ c = 1) ∧ (tget State.reset.txs.carriers 0).state ≠ .absent) ∧
    (let s : State := { State.reset with txs := { Txs.reset with pool := [carry] } };
      Ready .plant s ∧ s.pls.freeze = .frozen ∧ ∃ q ∈ s.txs.pool, q.state ≠ .waiting) :=
  ⟨⟨ready_at rfl rfl, by decide⟩, ⟨ready_reset _, rfl, rfl⟩, by decide, by decide +kernel, by decide +kernel,
    ready_at rfl rfl, rfl, carry, .head _, by decide⟩

theorem witness_CarrierEnrolment :
    Ready .plant State.reset ∧ Settled State.reset ∧ State.reset.pls.freeze = .frozen ∧ 3#8 < 4#8 :=
  ⟨ready_reset _, settled_reset, rfl, by decide⟩

/-- Carrier 0 in a state, with an order sent to it. -/
def carrierSent (st : CarrierState) (kind : OrderKind) : State :=
  carrierIs { Carrier.firstReset with state := st, position := .row 3 } { State.reset with
    fou := { Fou.reset with
      carrierOrders := tset (tfill 4 UnitOrders.reset) 0 { UnitOrders.reset with
        tagCounter := 1, slot := some { tag := 1, kind := kind, cls := .routine, status := .sent, attempts := 1
                                        acceptTimer := some 0#32 } } } }

/-- With the TRAVEL to row 3 sent to carrier 0. -/
def travelling (s : State) : State :=
  { s with fou := { s.fou with carrierOrders := (carrierSent .toDrop (.travel 3)).fou.carrierOrders } }

/-- R77: an ARRIVED at the pickup row asks the BOARD hold also where a successor follows its order. -/
theorem test_arrived_with_successor :
    let s := travelling (serving fetch .toPickup { railed with present := some 2 } parkedAt)
    (tget (after (.arrived .fleet 0 [3]) (updOrders (.carrier 0) (fun o => { o with
      successor := some ⟨.travel 5, .routine⟩ }) s.work).toState).rac.rows 3).state = .holdAsked := by decide +kernel

theorem witness_CarrierReports :
    (∀ st kind, Ready .fleet (carrierSent st kind) ∧ Settled (carrierSent st kind) ∧
      (tget (carrierSent st kind).txs.carriers 0).state = st ∧ (tget (carrierSent st kind).txs.carriers 0).load = none ∧
      ((carrierSent st kind).fou.orders (.carrier 0)).slot.map (fun o => (o.kind, o.status)) = some (kind, .sent) ∧
      ((carrierSent st kind).fou.orders (.carrier 0)).successor = none) ∧
    CarrierState.toGarage ≠ .absent ∧ CarrierState.toGarage ≠ .halted ∧ OrderKind.travel 0 ≠ .travel 255 ∧
    OrderKind.travel 0 ≠ .park ∧ stormOn Weather.calm = false ∧
    (let s := travelling (serving fetch .toPickup { railed with present := some 2 } parkedAt);
      Ready .fleet s ∧ ((s.fou.orders (.carrier 0)).slot.map (fun m => (m.kind, m.status)) = some (.travel 3, .sent) ∧
        (s.fou.orders (.carrier 0)).successor = none) ∧ (tget s.txs.carriers 0).task = some fetch.seq ∧
      s.work.request? fetch.seq = some fetch ∧ (tget s.rac.rows 3).state = .tracking ∧
      (tget s.rac.rows 3).hold = none ∧
      (tget s.txs.carriers 0).state = .toPickup ∧ fetch.fromRow = 3 ∧ s.pls.freeze = .running ∧
      (tget s.rac.rows 3).present = some fetch.robot) ∧
    (let s := travelling (serving carry .toDrop { railed with incoming := some ⟨2, .final⟩ } rider);
      s.work.request? carry.seq = some carry ∧ (tget s.txs.carriers 0).state = .toDrop ∧ carry.legTarget = some 3 ∧
      (tget s.fou.robots 2).state = .aboard ∧ (tget s.rac.rows 3).excluded = false ∧ (tget s.rac.rows 3).length ≠ 0 ∧
      (tget s.rac.rows 3).present = none ∧ (tget s.rac.rows 3).incoming.map (·.robot) = some carry.robot) ∧
    (let x : RowRec := { asked with hold := some ⟨.request 7, .board⟩ }; x.hold.map (·.by_) = some (.request fetch.seq)) ∧
    (Ready .fleet State.reset ∧ (3 : Byte) = BitVec.ofNat 8 (3 : CarrierIx).val ∧
      (tget State.reset.txs.carriers 3).state = .absent ∧ 3#8 < 4#8) := by
  refine ⟨fun st kind => ⟨ready_at rfl rfl, settled_like rfl rfl rfl (.inl rfl), ?_, ?_, ?_, ?_⟩, by decide, by decide,
    by decide, by decide, by decide, ⟨ready_at rfl rfl, by decide +kernel⟩, by decide +kernel, rfl, ready_reset _, by decide,
    by decide +kernel, by decide⟩ <;>
  simp [carrierSent, carrierIs, State.withCarrier, Fou.orders, Carrier.firstReset, Carrier.absentReset, UnitOrders.reset]

theorem witness_CarrierTimers :
    Settled (carrierIs { Carrier.firstReset with travelTimer := some (0, 7) } State.reset) ∧
    (tget (carrierIs { Carrier.firstReset with travelTimer := some (0, 7) } State.reset).txs.carriers 0).travelTimer =
      some (0, 7) ∧
    Settled State.reset ∧ (tget State.reset.txs.carriers 3).travelTimer = none :=
  ⟨settled_like rfl rfl rfl (.inl rfl), by decide +kernel, settled_reset, by decide +kernel⟩

/-- A request whose drop has failed, and the robot it carries, which waits ABOARD over row 3. -/
def failedDrop : Request := { carry with dropFails := 1, retry := some 0#32 }

/-- The state with that request, ten seconds after the failed answer. -/
def dropping (cls : ReqClass) (st : CarrierState) (w : Weather) : State :=
  carrierIs { Carrier.firstReset with state := st, load := some 2, task := some 7, position := .row 3 }
    (robotIs { parkedAt with state := .aboard, position := .onCarrier, carrier := some 0 }
      { rowIs { railed with incoming := some ⟨2, .final⟩ } with
        now := 10, txs := { Txs.reset with pool := [{ failedDrop with cls := cls }] }
        wxm := { Wxm.reset with weather := w } })

/-- A drop retry; a failed pickup; a third failed drop, with row 3 open to go to and with no row open; a robot that refuses its
crossing while its carrier loads, is HALTED, and unloads, in calm weather and under the storm entry. -/
theorem witness_TransferFailures :
    (let s := dropping .routine .toDrop .calm;
      s.wxm.weather ≠ .parking ∧ s.pls.freeze ≠ .freezeAsked ∧ (∀ c, tget s.wxm.alights c = none) ∧
      s.work.request? 7 = some failedDrop ∧ due s.now failedDrop.retry 10 = true ∧
      (tget s.txs.carriers 0).state = .toDrop ∧ (tget s.fou.robots 2).state = .aboard ∧
      ((tget s.rac.rows 3).state = .tracking ∧ (tget s.rac.rows 3).excluded = false ∧ (tget s.rac.rows 3).length ≠ 0 ∧
        (tget s.rac.rows 3).present = none ∧ (tget s.rac.rows 3).incoming.map (·.robot) = some 2)) ∧
    due 9#32 failedDrop.retry 10 = false ∧
    (∀ q : Request, q.seq = 7 → q.state = .serving 0 → q.robot = 2 → ∀ st x v,
      (serving q st x v).work.request? 7 = some q ∧ (tget (serving q st x v).txs.carriers 0).state = st ∧
      (tget (serving q st x v).txs.carriers 0).load = none ∧ (serving q st x v).wxm.weather = .calm ∧
      (tget (serving q st x v).fou.robots q.robot).link = some (.request q.seq) ∧
      ∀ p ∈ (serving q st x v).txs.pool, p.seq = q.seq → p = q) ∧
    (fetch.pickupFails = 0 ∧ fetch.stormCrossing = false ∧ { fetch with stormCrossing := true }.stormCrossing = true ∧
      2 ≤ { carry with dropFails := 2 }.dropFails ∧ carry.legTarget = some 3 ∧ carry.legTarget ≠ some 9) ∧
    (let s := serving { carry with dropFails := 2, legTarget := some 9, finalRow := 9 } .toDrop railed rider;
      (inSpan (tget s.txs.carriers 0) 3 = true ∧ rowOpen (tget s.rac.rows 3) = true) ∧
      ∀ r : Row, rowOpen (tget s.rac.rows r) = true → r = 3) ∧
    (∀ r : Row, rowOpen (tget (serving carry .toDrop RowRec.reset rider).rac.rows r) = false) := by
  have opens : ∀ x q st v (r : Row), rowOpen (tget (serving q st x v).rac.rows r) = true → r = 3 ∧ rowOpen x = true := by
    intro x q st v r
    show rowOpen (tget (tset (tfill 256 RowRec.reset) 3 x) r) = true → _
    rw [tget_tset]
    split
    · exact fun h => ⟨by assumption, h⟩
    · rw [tget_tfill]; exact fun h => absurd h (by decide)
  refine ⟨by decide +kernel, by decide, ?_, by decide, ⟨by decide +kernel, fun r h => (opens _ _ _ _ r h).1⟩, fun r => ?_⟩
  · intro q h1 h2 h3 st x v
    have e : (serving q st x v).txs.pool = [q] := rfl
    refine ⟨by simp [serving, Work.request?, h1, carrierIs, robotIs, running, State.withCarrier, State.withRobot, State.work],
      by simp [serving, carrierIs, State.withCarrier],
      by simp [serving, carrierIs, State.withCarrier, Carrier.firstReset, Carrier.absentReset], rfl, ?_, ?_⟩
    · simp [serving, carrierIs, robotIs, State.withCarrier, State.withRobot, h1, h3]
    · intro p h _; rw [e] at h; simpa using h
  · cases h : rowOpen (tget (serving carry .toDrop RowRec.reset rider).rac.rows r)
    · rfl
    · exact absurd (opens _ _ _ _ r h).2 (by decide)

/-- A carrier in its garage with one request it may serve, away from its row and standing at it, and with two. -/
theorem witness_Arbitration :
    (let s : State := { running (rowIs railed) with txs := { Txs.reset with pool := [waits] } };
      let t : State := { s with txs := { s.txs with pool := [{ waits with seq := 8, cls := .relocate }, waits] } };
      ((tget s.txs.carriers 0).state = .garaged ∧ s.pls.freeze = .running ∧ s.wxm.weather = .calm ∧
        servingOf s.work waits.fromRow waits.finalRow = some 0 ∧ waits.legTarget ≠ none ∧ waits.cls = .routine) ∧
      (standsAt (tget s.txs.carriers 0) waits.fromRow = false ∧
        standsAt { tget s.txs.carriers 0 with position := .row 3 } waits.fromRow = true) ∧
      ((s.txs.pool.map (·.seq)).Nodup ∧ (t.txs.pool.map (·.seq)).Nodup) ∧ waits.guard < s.txs.guardSetting ∧
      waits.cls ≠ .storm) ∧
    (tget State.reset.txs.carriers 3).state = .absent := by decide +kernel

/-- A target held, a leg target, and row 3 open; a carrier with its request on its way with and without a load, HALTED with a
load, and idle; at its leg target, away from it, and with none. -/
theorem witness_StormTransfers :
    (let s := serving carry .toDrop { railed with incoming := some ⟨2, .leg⟩ } rider;
      (tget s.rac.rows 3).state = .tracking ∧ reservedFor (tget s.rac.rows 3) 2 = true ∧ carry.legTarget = some 3 ∧
      standsAt (tget s.txs.carriers 0) 3 = true ∧ carry.stormTarget = none ∧
      { carry with stormTarget := some 3 }.stormTarget = some 3 ∧ ∀ r : Row, r ≠ 3 → carry.legTarget ≠ some r) ∧
    (let s := serving { carry with legTarget := none } .halted railed rider;
      inSpan (tget s.txs.carriers 0) 3 = true ∧ rowOpen (tget s.rac.rows 3) = true ∧
      standsAt (tget s.txs.carriers 0) 3 = true ∧ distance 3 (posInt (tget s.txs.carriers 0)) = 0) ∧
    (∀ w, w = Weather.parking ∨ w = .secured → ∀ q st x v,
      let s := { serving q st x v with wxm := { Wxm.reset with weather := w } };
      (s.wxm.weather = .parking ∨ s.wxm.weather = .secured) ∧ ∀ p ∈ s.txs.pool, p.seq = q.seq → p = q) ∧
    (let s := serving fetch .toPickup { railed with present := some 2 } parkedAt;
      (tget s.txs.carriers 0).task = some fetch.seq ∧ s.work.request? fetch.seq = some fetch ∧
      (tget s.txs.carriers 0).state = .toPickup ∧ (tget s.txs.carriers 0).load = none) ∧
    (let y := { tget (dropping .routine .halted .parking).txs.carriers 0 with state := CarrierState.halted };
      y.state = .halted ∧ y.load ≠ none ∧ { y with load := none }.load = none) ∧
    (standsAt { Carrier.firstReset with position := .row 3 } 3 = true ∧
      standsAt { Carrier.firstReset with position := .row 3 } 9 = false) := by
  refine ⟨by decide +kernel, by decide +kernel, ?_, by decide +kernel, by decide +kernel, by decide +kernel⟩
  intro w h q st x v
  exact ⟨h, fun p hp _ => List.mem_singleton.mp hp⟩

theorem witness_PlanBanks :
    (Ready .plant State.reset ∧ State.reset.pls.flipPending = false ∧ State.reset.rsc.state = .none) ∧
    (plantIn (.stream .planRanges []) State.reset).plant.context = .stream .planRanges [] ∧
    (let s := { State.reset with pls := { Pls.reset with flipPending := true } };
      Ready .plant s ∧ s.pls.flipPending = true) ∧
    (let s := { State.reset with rsc := { Rsc.reset with state := .active } };
      Ready .plant s ∧ s.pls.flipPending = false ∧ s.rsc.state ≠ .none) :=
  ⟨⟨ready_reset _, rfl, rfl⟩, rfl, ⟨ready_at rfl rfl, rfl⟩, ready_at rfl rfl, rfl, by decide⟩

/-- An open interval over rows 0..255, its pointer at row 3. -/
def intervalOn : State :=
  { State.reset with seu := { Seu.reset with intervalOpen := true, winLast := 255, pointer := some 3 } }

theorem witness_EnergyIntake :
    State.reset.plant.resetHeld = false ∧
    ((plantIn (.stream .energyData []) intervalOn).plant.context = .stream .energyData [] ∧
      (plantIn (.stream .energyData []) intervalOn).seu.intervalOpen = true ∧
      (plantIn (.stream .energyData []) intervalOn).seu.pointer = some 3) ∧
    ((plantIn (.stream .energyData []) State.reset).plant.context = .stream .energyData [] ∧
      (plantIn (.stream .energyData []) State.reset).seu.intervalOpen = false) := ⟨rfl, ⟨rfl, rfl, rfl⟩, rfl, rfl⟩

theorem witness_IntervalClose :
    intervalOn.seu.intervalOpen = true ∧
    (Buckets.reset.produced + 8100 ≤ 4294967295 ∧ Buckets.reset.expected + 9025 ≤ 4294967295) ∧
    4294967295 < { Buckets.reset with produced := 4294967295 }.produced + 1 ∧ FinalClass.normal ≠ .nodata ∧
    { Buckets.reset with saturated := true }.saturated = true ∧ Buckets.reset.Sound :=
  ⟨rfl, by decide, by decide, by decide, rfl, ⟨fun _ => rfl, by decide⟩⟩

/-- A front bank that triggers at the day close. -/
def dayTriggered : State :=
  { State.reset with pls := { Pls.reset with
      bankA := { Bank.reset with round := { RoundParams.reset with source := .dayClose } } } }

theorem witness_DayClose :
    (State.reset.plant.resetHeld = false ∧ State.reset.pls.bankA.round.source ≠ .dayClose ∧
      State.reset.seu.intervalOpen = false) ∧
    (dayTriggered.plant.resetHeld = false ∧ dayTriggered.pls.bankA.round.source = .dayClose ∧
      dayTriggered.pls.freeze ≠ .running) := ⟨⟨rfl, by decide, rfl⟩, rfl, rfl, by decide⟩

theorem witness_AccountsClear : State.reset.plant.resetHeld = false := rfl

/-- A running block whose front bank covers row 3, which is dirty enough to be a candidate. -/
def dirty : State :=
  { running (robotIs parkedAt (rowIs { railed with present := some 2 })) with
    pls := { Pls.reset with
      freeze := .running
      bankA := { Bank.reset with
        ranges := [(3, 3)], zones := tset (tfill 16 ZonePolicy.reset) 0 { ZonePolicy.reset with mode := .dry } } }
    seu := { Seu.reset with yDay := 6200, rows := tset (tfill 256 SeuRow.reset) 3 { SeuRow.reset with ratio := 3000 } } }

theorem witness_RoundTrigger :
    (Ready .plant State.reset ∧ Settled State.reset ∧ State.reset.pls.freeze ≠ .running) ∧
    (Ready .plant (running State.reset) ∧ Settled (running State.reset) ∧ (running State.reset).wxm.weather = .calm ∧
      (running State.reset).pls.freeze = .running ∧ (running State.reset).pls.flipPending = false ∧
      (running State.reset).pls.bankA.ranges = []) ∧
    (dueLen 5#32 (some (0#32, 5)) = true ∧ dueLen 5#32 (some (0#32, 6)) = false) ∧
    (Settled dirty ∧ dirty.wxm.weather = .calm ∧ dirty.pls.freeze = .running ∧ dirty.pls.flipPending = false ∧
      (3, 3) ∈ dirty.pls.bankA.ranges ∧ 0 < dirty.pls.bankA.round.budget ∧
      ((tget dirty.rac.rows 3).reference = false ∧ 0 < (tget dirty.rac.rows 3).length ∧
        (tget dirty.rac.rows 3).excluded = false ∧ (tget dirty.rac.rows 3).state = .tracking) ∧
      (let pol := tget dirty.pls.bankA.zones (tget dirty.rac.rows 3).zone;
        pol.mode = .dry ∧ (tget dirty.seu.rows 3).lastClean = none ∧ (tget dirty.seu.rows 3).ratio ≤ pol.trigger ∧
        pol.cost < pol.horizon * dirty.seu.yDay * (tget dirty.rac.rows 3).capacity *
          (pol.pDry - (tget dirty.seu.rows 3).ratio) / 40960)) :=
  ⟨⟨ready_reset _, settled_reset, by decide⟩,
    ⟨ready_at rfl rfl, settled_like rfl rfl rfl (.inr rfl), rfl, rfl, rfl, rfl⟩, by decide,
    settled_at rfl rfl rfl (by decide) (by decide), rfl, rfl, rfl, by decide +kernel, by decide +kernel, by decide +kernel,
    by decide +kernel⟩

/-- A block in which a round is due. -/
def roundDue (s : State) : State := { s with rsc := { s.rsc with due := true } }

/-- Where a due round is built it has an entry in `dirty` and none after reset. -/
theorem round_built : (startRound (roundDue dirty).work).1.rsc.state = .active ∧
    (startRound (roundDue (running State.reset)).work).1.rsc.state = .none := by decide +kernel

/-- A round with an entry that waits and one that has ended. -/
def rounding : State :=
  { State.reset with rsc := { Rsc.reset with
      state := .suspended, number := 1, limitTimer := some (0, 600)
      worklist := [
        { row := 3, mode := .dry, score := 5, state := .waiting, robot := none, holdFails := 0, transferFails := 0
          skip := none },
        { row := 4, mode := .dry, score := 4, state := .doneFull, robot := some 2, holdFails := 0, transferFails := 0
          skip := none }] } }

/-- An entry for row 3, and an ACTIVE round of it alone, with row 3 and robot 2 as given. -/
def entryIn (st : EntryState) (k : Option Slot) : Entry :=
  { row := 3, mode := .dry, score := 5, state := st, robot := k, holdFails := 0, transferFails := 0, skip := none }
def round1 (e : Entry) (x : RowRec) (v : Robot) : State :=
  { robotIs v (running (rowIs x)) with rsc := { Rsc.reset with state := .active, number := 1, worklist := [e] } }

/-- A SUSPENDED round of one entry in a state, in a weather state. -/
def suspendedIn (w : Weather) (st : EntryState) : State :=
  { State.reset with
    rsc := { Rsc.reset with state := .suspended, number := 1, worklist := [entryIn st (some 2)] }
    wxm := { Wxm.reset with weather := w, lastSample := some 119, quietTimer := some (-900) } }

/-- A running block that is drained and one that is not, in every round; a freeze asked and a block frozen, with a round SUSPENDED in
CALM whose entry passes, with one in WATCH, and with none. -/
theorem witness_FreezeThaw :
    (∀ f st (s : State), s = State.reset ∨ s = robotIn .boarding →
      let t : State := { s with pls := { Pls.reset with freeze := f }, rsc := { Rsc.reset with state := st } };
      Ready .plant t ∧ t.pls.freeze = f ∧ t.rsc.state = st ∧ t.txs.pool = [] ∧ (∀ c, tget t.wxm.alights c = none) ∧
      t.wxm.weather = .calm ∧ t.rsc.due = false) ∧
    ((∀ k : Slot, (tget (running State.reset).fou.robots k).state = .empty) ∧
      (∀ c : CarrierIx, (tget (running State.reset).txs.carriers c).state ∈ [CarrierState.garaged, .absent]) ∧
      ∀ r : Row, (tget (running State.reset).rac.rows r).state = .tracking) ∧
    (tget (robotIn .boarding).fou.robots 2).state = .boarding ∧ (draining State.reset).pls.freeze = .freezeAsked ∧
    (∀ w, let s := suspendedIn w .passing;
      Ready .plant s ∧ s.rsc.state = .suspended ∧ s.wxm.weather = w ∧ s.txs.pool = [] ∧
      (∃ e ∈ s.rsc.worklist, e.ended = false) ∧ ∀ e ∈ s.rsc.worklist, e.state ≠ .waiting ∧ e.state ≠ .assigned) ∧
    ∀ t, t = dirty ∨ t = State.reset →
      let s := roundDue { t with pls := { t.pls with freeze := .frozen } };
      Ready .plant s ∧ s.pls.freeze ≠ .running ∧ s.rsc.state = .none ∧ s.rsc.due = true ∧ s.wxm.weather = .calm ∧
      s.pls.flipPending = false ∧ s.txs.pool = [] ∧ running s = roundDue (running t) := by
  refine ⟨?_, ⟨fun k => ?_, by decide +kernel, fun r => ?_⟩, by decide +kernel, rfl, fun w => ⟨ready_at rfl rfl, rfl, rfl, rfl,
    ⟨entryIn .passing (some 2), List.mem_singleton.mpr rfl, rfl⟩, fun e h => ?_⟩, ?_⟩
  · rintro f st s (rfl | rfl) <;> exact ⟨ready_at rfl rfl, rfl, rfl, rfl, fun c => by fin_cases c <;> rfl, rfl, rfl⟩
  · simp [running, State.reset, Fou.reset, Robot.reset]
  · simp [running, State.reset, Rac.reset, RowRec.reset]
  · rw [List.mem_singleton.mp h]; decide
  · rintro t (rfl | rfl) <;> exact ⟨ready_at rfl rfl, by decide, rfl, rfl, rfl, rfl, rfl, rfl⟩

/-- An entry that passes, and one that waits: at a row excluded, stowed, occupied, and in TRACKING; with its robot there, with a
robot that may be assigned there and at row 9, and with none. -/
theorem witness_AssignmentPass :
    (∀ e x v, (round1 e x v).rsc.worklist[0]? = some e ∧ (round1 e x v).rsc.state = .active) ∧
    ((entryIn .passing (some 2)).state ≠ .waiting ∧ (entryIn .passing (some 2)).state ≠ .assigned ∧
      (entryIn .waiting none).state = .waiting ∧ (entryIn .assigned (some 2)).state = .assigned) ∧
    (∀ x v, tget (round1 (entryIn .waiting none) x v).rac.rows 3 = x) ∧ railed.length ≠ 0 ∧
    (let s := round1 (entryIn .waiting none) { railed with present := some 2 } { parkedAt with battery := 100 };
      ((tget s.fou.robots 2).state = .parked ∧ (tget s.fou.robots 2).row = some 3) ∧
      ((tget s.fou.robots 2).unconfirmed = false ∧ (tget s.fou.robots 2).link = none ∧
        (tget s.rac.rows 3).state = .tracking ∧
        (tget s.pls.bankA.zones (tget s.rac.rows 3).zone).minBattery ≤ (tget s.fou.robots 2).battery) ∧
      ∀ j : Slot, j ≠ 2 → (tget s.fou.robots j).state = .empty) ∧
    (let s := round1 (entryIn .waiting none) railed { parkedAt with battery := 100, row := some 9 };
      ((tget s.fou.robots 2).state = .parked ∧ (tget s.fou.robots 2).row = some 9 ∧
        (tget s.rac.rows 9).state = .tracking) ∧
      (∀ f ∈ s.rsc.worklist, f.state = .waiting → f.row ≠ 9) ∧ s.txs.pool = [] ∧
      (tget s.rac.rows 3).present = none ∧ (tget s.rac.rows 3).incoming = none) ∧
    (let s := round1 (entryIn .waiting none) railed Robot.reset; ∀ j : Slot, (tget s.fou.robots j).state = .empty) ∧
    State.reset.rsc.state ≠ .active := by
  refine ⟨fun _ _ _ => ⟨rfl, rfl⟩, by decide, fun x v => ?_, by decide, by decide +kernel, by decide +kernel,
    by decide +kernel, by decide⟩
  simp [round1, robotIs, running, rowIs, State.withRobot]

/-- An entry HOLDING, PASSING and ASSIGNED with its robot, one ended, and one of another round. -/
theorem witness_EntryEvents :
    (∀ st k x v, (round1 (entryIn st k) x v).rsc.worklist[0]? = some (entryIn st k) ∧ (entryIn st k).state = st ∧
      (entryIn st k).robot = k ∧ (round1 (entryIn st k) x v).rsc.state = .active) ∧
    (EntryState.passing ≠ .holding ∧ (entryIn .holding (some 2)).ended = false ∧
      (entryIn .doneFull (some 2)).ended = true ∧ (some 3 : Option Slot) ≠ some 2) ∧
    (tget (round1 (entryIn .holding (some 2)) { railed with state := .stowCleared } parkedAt).rac.rows
      (entryIn .holding (some 2)).row).state = .stowCleared ∧
    (∀ x v, (2 : Half) ≠ (round1 (entryIn .holding none) x v).rsc.number) :=
  ⟨fun _ _ _ _ => ⟨rfl, rfl, rfl, rfl⟩, by decide, by decide +kernel, fun _ _ => nofun⟩

/-- A round with an entry that waits and one ended, one with a robot that passes, entries that hold and that wait for a
transfer, and a round that drains. -/
theorem witness_RoundGivenUp :
    (Ready .plant rounding ∧ rounding.rsc.state = .suspended ∧ rounding.txs.pool = [] ∧
      (∀ c, tget rounding.wxm.alights c = none) ∧ rounding.wxm.weather ≠ .parking ∧ rounding.pls.freeze ≠ .freezeAsked ∧
      (roundEnd .stopped rounding.work).rsc.state = .none ∧ dueLen 600 rounding.rsc.limitTimer = true ∧
      dueLen 599 rounding.rsc.limitTimer = false ∧ ∀ e ∈ rounding.rsc.worklist, e.ended = true ∨ (e.state = .waiting ∧ e.robot = none)) ∧
    (Ready .plant State.reset ∧ State.reset.rsc.state = .none) ∧
    (let s := round1 (entryIn .passing (some 2)) { railed with state := .occupied, present := some 2 } boarder;
      Ready .plant s ∧ s.rsc.state = .active ∧ s.txs.pool = [] ∧ (∀ c, tget s.wxm.alights c = none) ∧
      s.wxm.weather ≠ .parking ∧ s.pls.freeze ≠ .freezeAsked ∧ (∀ e ∈ s.rsc.worklist, e.state = .passing)) ∧
    (∀ st x v, (round1 (entryIn st (some 2)) x v).rsc.worklist[0]? = some (entryIn st (some 2)) ∧
      (tget (round1 (entryIn st (some 2)) x v).fou.robots 2).link = v.link) ∧
    { parkedAt with link := some (.request 7) }.link = some (.request 7) ∧
    (∀ seq, parkedAt.link ≠ some (.request seq)) ∧
    (let s : State := { rounding with rsc := { rounding.rsc with state := .draining } };
      s.rsc.state = .draining ∧ s.rsc.state ≠ .none) ∧
    (let s : State := roundDue { rounding with pls := { Pls.reset with freeze := .running, flipPending := true } };
      Ready .plant s ∧ s.rsc.state = .suspended ∧ s.txs.pool = [] ∧ (∀ c, tget s.wxm.alights c = none) ∧
      s.wxm.weather = .calm ∧ s.pls.flipPending = true ∧ s.rsc.due = true ∧ s.rsc.worklist = rounding.rsc.worklist ∧
      (roundEnd .stopped s.work).rsc.state = .none) :=
  ⟨⟨ready_at rfl rfl, rfl, rfl, by decide, by decide, by decide, by decide +kernel, rfl, rfl, by decide⟩, ⟨ready_reset _, rfl⟩,
    ⟨ready_at rfl rfl, rfl, rfl, by decide, by decide, by decide, by decide⟩,
    fun st x v => ⟨rfl, by simp [round1, robotIs, State.withRobot]⟩, rfl, nofun, ⟨rfl, by decide⟩,
    ready_at rfl rfl, rfl, rfl, by decide, rfl, rfl, rfl, rfl, by decide +kernel⟩

/-- The block in a weather state, with what else the weather monitor holds. -/
def weatherIs (x : Wxm) : State := { State.reset with wxm := x }

theorem settled_weather (x : Wxm) (h : x.alights = tfill 4 none) (g : x.weather ≠ .parking) : Settled (weatherIs x) :=
  settled_at rfl rfl h g (by intro e; cases e)

theorem witness_WindWatch :
    (∀ x p, Ready p (weatherIs x)) ∧
    (∀ w d t, let s := weatherIs { Wxm.reset with weather := w, declared := d, silenceStart := t };
      s.wxm.weather = w ∧ s.wxm.declared = d ∧ s.rsc.state = .none) ∧
    (let v := min 600 ((0#8).toNat * 256 + (119#8).toNat); v < Wxm.reset.watchAt ∧ v < Wxm.reset.stormAt) ∧
    (let v := min 600 ((0#8).toNat * 256 + (120#8).toNat); Wxm.reset.watchAt ≤ v ∧ v < Wxm.reset.stormAt) ∧
    (Ready .tracker holding ∧ holding.wxm.weather = .calm ∧ holding.rsc.state = .active ∧ holding.txs.pool = [] ∧
      (∀ c, tget holding.wxm.alights c = none) ∧ holding.pls.freeze ≠ .freezeAsked) ∧
    (Wxm.reset.silenceExpired = false ∧ Wxm.reset.windSilence ≤ (30#32 - 0#32).toNat ∧
      ¬ Wxm.reset.windSilence ≤ (29#32 - 0#32).toNat) :=
  ⟨fun _ p => by cases p <;> exact ready_at rfl rfl, fun _ _ _ => ⟨rfl, rfl, rfl⟩, by decide, by decide,
    ⟨ready_at rfl rfl, rfl, rfl, rfl, by decide, by decide⟩, by decide⟩

/-- From CALM with nothing to secure, with a robot that boards, and from WATCH. -/
theorem witness_StormEntry :
    ((∀ k : Slot, (tget State.reset.fou.robots k).state = .empty) ∧
      (∀ c : CarrierIx, (tget State.reset.txs.carriers c).state ∈ [CarrierState.absent, .garaged, .halted]) ∧
      ∀ r : Row, (tget State.reset.rac.rows r).state = .tracking) ∧
    (Settled (robotIn .boarding) ∧ (robotIn .boarding).wxm.weather = .calm ∧
      (tget (robotIn .boarding).fou.robots 2).state = .boarding) ∧
    (Settled State.reset ∧ State.reset.wxm.weather = .calm ∧ Ready .tracker State.reset ∧ Ready .plant State.reset) ∧
    Wxm.reset.stormAt ≤ min 600 ((0#8).toNat * 256 + (180#8).toNat) ∧ Wxm.reset.declared = false ∧
    (Settled (weatherIs { Wxm.reset with weather := .watch, silenceStart := -30 }) ∧
      (weatherIs { Wxm.reset with weather := .watch, silenceStart := -30 }).wxm.silenceExpired = false ∧
      Wxm.reset.windSilence ≤ ((0#32) - (-30 : Time)).toNat) ∧
    (let s := plantIn (.settings .timingWrite 8 [] 0) (weatherIs { Wxm.reset with weather := .watch, lastSample := some 150 });
      Settled s ∧ s.plant.resetHeld = false ∧ s.plant.context = .settings .timingWrite 8 [] 0 ∧
      s.wxm.lastSample = some 150 ∧ s.wxm.watchAt < min 600 ((0#8).toNat * 256 + (150#8).toNat) ∧
      min 600 ((0#8).toNat * 256 + (150#8).toNat) ≤ 150) ∧
    (weatherIs { Wxm.reset with weather := .parking }).wxm.weather = .parking ∧
    { State.reset.work with entering := true }.entering = true :=
  ⟨⟨fun k => by simp [State.reset, Fou.reset, Robot.reset], by decide +kernel,
      fun r => by simp [State.reset, Rac.reset, RowRec.reset]⟩,
    ⟨settled_robotIn _, rfl, by decide +kernel⟩,
    ⟨settled_reset, rfl, ready_reset _, ready_reset _⟩, by decide, rfl, ⟨settled_weather _ rfl (by decide), rfl, by decide⟩,
    ⟨settled_at rfl rfl rfl (by decide) (by decide), rfl, rfl, rfl, by decide, by decide⟩, rfl, rfl⟩

/-- The quiet timer with no round, with one SUSPENDED whose entry passes, in RUNNING and FROZEN; the release in PARKING, with a storm
alighting and its request, and in SECURED. -/
theorem witness_StormOver :
    (∀ f, let s : State := { suspendedIn .watch .passing with pls := { Pls.reset with freeze := f } };
      s.wxm.weather = .watch ∧ due s.now s.wxm.quietTimer s.wxm.releaseHold = true ∧ s.wxm.lastSample = some 119 ∧
      (119 < s.wxm.stormAt ∧ 119 < s.wxm.watchAt) ∧ s.wxm.declared = false ∧ s.wxm.silenceExpired = false ∧
      s.rsc.state = .suspended ∧ s.pls.freeze = f ∧ s.txs.pool = [] ∧ s.rsc.due = false ∧
      (∃ e ∈ s.rsc.worklist, e.ended = false) ∧ ∀ e ∈ s.rsc.worklist, e.state ≠ .waiting ∧ e.state ≠ .assigned) ∧
    (∀ w, w = Weather.parking ∨ w = .secured →
      let s : State := { serving { carry with cls := .storm } .halted { railed with incoming := some ⟨2, .storm⟩ } rider with
        wxm := { Wxm.reset with
          weather := w, lastSample := some 179, releaseTimer := some (-900)
          alights := tset (tfill 4 none) 0 (some { robot := 2, row := 3, asks := 1, retry := none }) } };
      (s.wxm.weather = .parking ∨ s.wxm.weather = .secured) ∧ due s.now s.wxm.releaseTimer s.wxm.releaseHold = true ∧
      s.wxm.lastSample = some 179 ∧ 179 < s.wxm.stormAt ∧ s.wxm.declared = false ∧ s.wxm.silenceExpired = false ∧
      s.pls.freeze ≠ .freezeAsked ∧ ∀ q ∈ s.txs.pool, q.state ≠ .waiting ∧ q.legTarget ≠ none) ∧
    ∀ p, p = (dirty, RoundState.active) ∨ p = (running State.reset, .none) →
      let s : State := roundDue { p.1 with wxm := (suspendedIn .watch .passing).wxm };
      s.rsc.state = .none ∧ s.rsc.due = true ∧ s.pls.freeze = .running ∧ s.pls.flipPending = false ∧ s.txs.pool = [] ∧
      (startRound ({ s with wxm := { s.wxm with weather := .calm, quietTimer := none } } : State).work).1.rsc.state = p.2 := by
  refine ⟨fun f => ⟨rfl, by show due 0#32 (some (-900)) 900 = true; decide, rfl, by show 119 < 180 ∧ 119 < 120; decide, rfl, rfl, rfl, rfl, rfl, rfl,
    ⟨entryIn .passing (some 2), List.mem_singleton.mpr rfl, rfl⟩, fun e h => ?_⟩,
    fun w h => ⟨h, by show due 0#32 (some (-900)) 900 = true; decide, rfl, by show 179 < 180; decide, rfl, rfl, nofun, fun q h => ?_⟩, ?_⟩
  · rw [List.mem_singleton.mp h]; decide
  · rw [List.mem_singleton.mp h]; decide
  · rintro p (rfl | rfl) <;> exact ⟨rfl, rfl, rfl, rfl, rfl, by decide +kernel⟩

theorem witness_StormTimers :
    (let s : State := { ordered .accepted .routine 1 with
        wxm := { Wxm.reset with weather := .parking, deadlineTimer := some 0 }, now := 180 };
      s.wxm.weather = .parking ∧ due s.now s.wxm.deadlineTimer s.wxm.parkingDeadline = true ∧ s.rsc.state = .none ∧
      (∀ e ∈ s.rsc.worklist, e.ended = true) ∧ s.txs.pool = [] ∧ (∀ c, tget s.wxm.alights c = none) ∧
      s.pls.freeze ≠ .freezeAsked) ∧
    (let s := { dropping .storm .halted .parking with
        wxm := { Wxm.reset with
          weather := .parking
          alights := tset (tfill 4 none) 0 (some { robot := 2, row := 3, asks := 1, retry := some 0#32 }) } };
      tget s.wxm.alights 0 = some { robot := 2, row := 3, asks := 1, retry := some 0#32 } ∧
      (∀ d, d ≠ 0 → tget s.wxm.alights d = none) ∧ (∀ d, d ≠ 0 → (tget s.txs.carriers d).state ≠ .halted) ∧
      s.wxm.weather = .parking ∧ s.pls.freeze ≠ .freezeAsked ∧
      ((tget s.txs.carriers 0).state = .halted ∧ (tget s.txs.carriers 0).load = some 2 ∧
        (tget s.txs.carriers 0).task = some 7 ∧ s.work.request? 7 = some { failedDrop with cls := .storm } ∧
        standsAt (tget s.txs.carriers 0) 3 = true) ∧
      (tget s.fou.robots 2).state = .aboard ∧ due s.now (some 0#32) 10 = true ∧
      ((tget s.rac.rows 3).state = .tracking ∧ (tget s.rac.rows 3).excluded = false ∧ (tget s.rac.rows 3).length ≠ 0 ∧
        (tget s.rac.rows 3).present = none ∧ (tget s.rac.rows 3).incoming.map (·.robot) = some 2)) ∧
    (∀ a, tget State.reset.wxm.alights 3 = some a → due State.reset.now a.retry 10 = false) ∧
    Ready .fleet (dropping .storm .halted .parking) ∧
    (∀ al ∈ [none, some { robot := 2, row := 3, asks := 3, retry := none }, some { robot := 2, row := 9, asks := 1, retry := none }],
      ∀ kept ∈ [0, 2, 3], let s := { dropping .storm .halted .parking with
        wxm := { Wxm.reset with weather := .parking, alights := tset (tfill 4 none) 0 al, askKept := tset (tfill 4 0) 0 kept } };
      (tget s.wxm.alights 0 = al ∧ tget s.wxm.askKept 0 = kept ∧ s.wxm.weather = .parking ∧ s.pls.freeze ≠ .freezeAsked ∧
        ∀ d, d ≠ 0 → tget s.wxm.alights d = none) ∧
      ((tget s.txs.carriers 0).state = .halted ∧ (tget s.txs.carriers 0).load = some 2 ∧
        (tget s.txs.carriers 0).task = some 7 ∧ s.work.request? 7 = some { failedDrop with cls := .storm } ∧
        failedDrop.robot = 2 ∧ failedDrop.legTarget = some 3 ∧ standsAt (tget s.txs.carriers 0) 3 = true ∧
        reaches (tget s.txs.carriers 0) 3 = true) ∧
      (∀ d, d ≠ 0 → (tget s.txs.carriers d).state ≠ .halted) ∧ (tget s.fou.robots 2).state = .aboard ∧
      ((tget s.rac.rows 3).state = .tracking ∧ (tget s.rac.rows 3).excluded = false ∧ (tget s.rac.rows 3).length ≠ 0 ∧
        (tget s.rac.rows 3).present = none ∧ (tget s.rac.rows 3).incoming.map (·.robot) = some 2)) ∧
    (∀ k, (tget State.reset.txs.carriers 0).load ≠ some k) :=
  ⟨by decide +kernel, by decide +kernel, nofun, ready_at rfl rfl, by decide +kernel, nofun⟩

theorem witness_Reports :
    (plantIn (.readCopy [1] .report) reported).plant.resetHeld = false ∧
    (plantIn (.readCopy [1] .report) reported).plant.context = .readCopy [1] .report := ⟨rfl, rfl⟩

/-! ### The invariants in a state other than reset -/

/-- The notice of row 3 in its list, the order of robot 2 in the queue, and the block otherwise as after reset. -/
def busy : State :=
  { noticed with
    fou := { (ordered .queued .routine 0).fou with routineQ := [.robot 2], attention := true }, pending := [.staleExpiry] }

theorem witness_invariant_row : RowInv { asked with notice := some (.holdAsk .pass) } := by
  constructor <;> decide

theorem witness_RowsAndOrdersKept :
    NoticeInv busy.rac ∧ RowsInv busy.rac ∧ ReferenceInv busy.rac ∧ FleetInv busy.fou := by
  have refs : ((indices 256).filter (fun r => (tget busy.rac.rows r).reference)).length ≤ Config.referencePlaces := by
    decide +kernel
  have row : ∀ r : Row, tget busy.rac.rows r =
      if r = 3 then { asked with notice := some (.holdAsk .pass) } else RowRec.reset := by
    intro r
    show tget (tset (tfill 256 RowRec.reset) 3 _) r = _
    rw [tget_tset, tget_tfill]
  refine ⟨⟨by decide, fun r => ?_, rfl⟩, fun r => ?_, refs, ?_⟩
  · rw [row]; split
    · rename_i h; subst h; decide
    · rename_i h; simp [busy, noticed, h, RowRec.reset]
  · rw [row]; split
    · exact ⟨witness_invariant_row, by unfold AccInv; decide⟩
    · exact ⟨by constructor <;> decide, by unfold AccInv; decide⟩
  · have units : ∀ u, busy.fou.orders u = if u = .robot 2 then passOrder .queued .routine 0 else UnitOrders.reset := by
      intro u
      cases u with
      | robot k =>
        show (tget (tset (tfill 32 Robot.reset) 2 _) k).orders = _
        rw [tget_tset, tget_tfill]
        by_cases h : k = 2 <;> simp [h, Robot.reset]
      | carrier c =>
        show tget (tfill 4 UnitOrders.reset) c = _
        rw [tget_tfill]; rfl
    refine ⟨by decide, fun u => ?_, fun u o h => ?_, rfl, fun u => ?_, fun k h => ?_⟩
    · rw [units]
      show u ∈ [FleetUnit.robot 2] ↔ _
      by_cases h : u = .robot 2 <;> simp [h, UnitOrders.waits, passOrder, UnitOrders.reset]
    · rw [units] at h
      by_cases g : u = .robot 2
      · simp only [g, if_true, passOrder] at h; cases h; exact nofun
      · simp [g, UnitOrders.reset] at h
    · rw [units]
      by_cases g : u = .robot 2
      · simp only [g, if_true]
        refine ⟨?_, ?_, ?_, ?_, nofun⟩ <;> intro o h <;> cases h <;> decide
      · simp only [g, if_false]
        constructor <;> simp [UnitOrders.reset]
    · have e := units (.robot k)
      by_cases g : k = 2
      · subst g; exact absurd h (by decide +kernel)
      · have e' : (tget busy.fou.robots k).orders = UnitOrders.reset := by simpa [Fou.orders, g] using e
        rw [e']; rfl

/-- A robot that passes on row 3, as its occupying robot, with a command that waits. -/
def onTable : State :=
  { underOrder { parkedAt with state := .passing, position := .onTable } (.pass 3 .dry) .accepted with
    pending := [.staleExpiry] }

theorem witness_PlacesKept : PlaceInv onTable.rac onTable.fou ∧ ∃ t, step onTable = .next t := by
  refine ⟨?_, _, rfl⟩
  have row : ∀ r : Row, tget onTable.rac.rows r =
      if r = 3 then { railed with state := .occupied, present := some 2, hold := some ⟨.entry 1 0, .pass⟩ }
      else RowRec.reset := by
    intro r
    show tget (tset (tfill 256 RowRec.reset) 3 _) r = _
    rw [tget_tset, tget_tfill]
  have robot : ∀ k : Slot, (tget onTable.fou.robots k).state = (if k = 2 then .passing else .empty) ∧
      (tget onTable.fou.robots k).row = (if k = 2 then some 3 else none) ∧
      (tget onTable.fou.robots k).position = (if k = 2 then .onTable else .docked) := by
    decide +kernel
  constructor
  · intro r; rw [row]; split <;> decide
  · intro r k; rw [row, (robot k).2.1]; split
    · rename_i h; subst h; intro g; cases g; rfl
    · nofun
  · intro r v; rw [row]; split <;> nofun
  · intro r; rw [row]; split <;> decide
  · intro r; rw [row]; split
    · exact fun _ => ⟨2, rfl, by rw [(robot 2).1]; rfl⟩
    · intro h; exact absurd h (by decide)
  · intro r; rw [row]; split <;> intro h <;> exact absurd h (by decide)
  · intro r h; rw [row]; split
    · intro g; cases g; rfl
    · nofun
  · intro k r; rw [(robot k).1, (robot k).2.1, row]; split
    · intro g; cases g; rename_i h; subst h; exact .inl rfl
    · nofun
  · intro k; rw [(robot k).1, (robot k).2.1]; split
    · rename_i h; subst h
      exact fun _ => ⟨3, rfl, by rw [row]; exact ⟨.inl rfl, rfl⟩⟩
    · intro h; exact absurd h (by decide)
  · intro k; rw [(robot k).1]; split <;> intro h <;> exact absurd h (by decide)
  · intro k; rw [(robot k).1, (robot k).2.1, (robot k).2.2]; split
    · intro h; exact absurd h (by decide)
    · exact fun _ => rfl
  · intro k
    unfold Robot.placed
    rw [(robot k).1, (robot k).2.2]; split <;> decide
  · intro k; rw [(robot k).1]; split <;> nofun

/-- The next step of the busy state answers a next state. -/
theorem witness_busy_steps : step busy = .next (after .staleExpiry { busy with pending := [] }) := by
  rfl

theorem witness_SchedulersKept :
    PoolInv (dropping .routine .toDrop .calm).txs ∧ RoundInv rounding.pls rounding.rsc ∧
    WeatherInv { Wxm.reset with weather := .watch, lastSample := some 119, quietTimer := some 0#32 } := by
  refine ⟨⟨by decide, ?_⟩, ⟨by decide, by decide, by decide, by decide, ?_, by decide⟩, ?_⟩
  · intro q h
    have e : q = failedDrop := List.mem_singleton.mp h
    subst e
    constructor <;> decide
  · intro e h
    simp only [rounding, List.mem_cons, List.not_mem_nil, or_false] at h
    rcases h with rfl | rfl <;> constructor <;> decide
  · refine ⟨by decide, nofun, by decide, by decide, by decide, by decide, ?_⟩
    intro c h; simp [Wxm.reset] at h

/-- Accounts with the attribution of row 70 of section 8.5 at row 3. -/
def accounted : Yac :=
  { rows := tset (tfill 256 RowAccount.reset) 3
      ⟨{ Buckets.reset with produced := 8100, expected := 9025, soiling := 925 }, 0⟩
    zones := tfill 16 ZoneAccount.reset }

theorem witness_RecordsKept :
    ReportInv { Rpq.reset with queue := [⟨0#32, .dayClosed 1 180 1⟩] } ∧ SettingsInv busy ∧ EstimatorInv dirty.seu ∧
    AccountsInv accounted ∧ RoleInv (plantIn (.stream .rowmapData []) State.reset) ∧
    MapStreamInv (plantIn (.stream .rowmapData []) State.reset) := by
  have bank : BankInv Bank.reset := by
    have z : ∀ z, tget Bank.reset.zones z = ZonePolicy.reset := fun z => by simp [Bank.reset]
    constructor <;> first
      | (intro y; rw [z]; simp [ZonePolicy.reset])
      | simp [Bank.reset, RoundParams.reset]
  have zero : Buckets.reset.Sound := ⟨fun _ => rfl, by decide⟩
  refine ⟨by constructor <;> decide, ?_, ?_, ⟨fun r => ?_, fun z => ?_⟩, ?_, fun _ _ => rfl⟩
  · exact { bankA := bank, bankB := bank, hold := by decide, accept := by decide, silence := by decide
            perRow := by decide, slack := by decide, park := by decide, arbiter := by decide, jump := by decide
            guard := by decide, gate := by decide, wind := by decide, releaseHold := by decide
            windSilence := by decide, parking := by decide, threshold := by decide, stale := by decide }
  · refine ⟨fun r => ?_, fun r => ?_, by decide, by decide, by decide⟩
    · show (tget (tset (tfill 256 SeuRow.reset) 3 _) r).ratio ≤ 4096
      rw [tget_tset]; split <;> simp [SeuRow.reset]
    · show (tget (tset (tfill 256 SeuRow.reset) 3 _) r).fullPasses ≤ _ ∧ (tget (tset (tfill 256 SeuRow.reset) 3 _) r).partPasses ≤ _
      rw [tget_tset]; split <;> simp [SeuRow.reset]
  · show (tget (tset (tfill 256 RowAccount.reset) 3 _) r).buckets.Sound ∧ (tget (tset (tfill 256 RowAccount.reset) 3 _) r).nodata ≤ _
    rw [tget_tset]; split
    · exact ⟨⟨fun _ => rfl, by decide⟩, by decide⟩
    · simp only [tget_tfill]; exact ⟨zero, by decide⟩
  · show (tget (tfill 16 ZoneAccount.reset) z).buckets.Sound ∧ (tget (tfill 16 ZoneAccount.reset) z).recovered ≤ _
    simp only [tget_tfill]; exact ⟨zero, by decide⟩
  · intro p c h
    cases p <;> cases h
    rfl

end Sys2Proof.Tests
end

section
/-! PROOF. Holds given back (R12, R13): what a change of state leaves when its tests pass, HOLD_REFUSED, and the cancel. -/

namespace Sys2Proof.Machine

/-! ### The tests at a change of state, in any block (R7, R94, R148) -/

theorem securedTest_shape (w : Work) (h : w.entering = false) : (securedTest w).toState = w.toState.securedTested := by
  unfold securedTest State.securedTested
  by_cases g : w.wxm.weather = .parking ∧ secured w.rac.rows w.fou.robots w.txs.carriers = true
  · rw [if_pos ⟨h, g⟩, if_pos g]
    unfold changeWeather
    rw [post_shape, ← g.1]
    rfl
  · rw [if_neg (fun k => g k.2), if_neg g]

theorem drainTest_shape (w : Work) : (drainTest w).toState = w.toState.drainTested := by
  unfold drainTest State.drainTested
  split
  · exact post_shape _ _
  · rfl

theorem stateChanged_shape (w : Work) (h : w.entering = false) : (stateChanged true w).toState = w.toState.tested := by
  show (drainTest (securedTest (tell w))).toState = _
  rw [drainTest_shape, securedTest_shape (tell w) h]
  rfl

/-- A change of a row record in any block, outside the storm entry: the tests are made where the row's state changes (R7). -/
theorem updRow_changedRow (r : Row) (f : RowRec → RowRec) (w : Work) (h : w.entering = false) :
    (updRow r f w).toState = w.toState.changedRow r (f (w.row r)) := by
  unfold State.changedRow
  split
  next e => rw [updRow_same r f w e.symm, putRow_shape]; rfl
  next e =>
    have changed : updRow r f w = stateChanged true (putRow r f w) := congrArg (stateChanged · _) (decide_eq_true e)
    rw [changed, stateChanged_shape (putRow r f w) h, putRow_shape]
    rfl

/-- A row that changes its state is written, and then both tests are made, in one order or the other. -/
theorem updRow_tested (r : Row) (f : RowRec → RowRec) (w : Work) (h : w.entering = false)
    (changes : (w.row r).state ≠ (f (w.row r)).state) :
    let t := w.toState.withRow r (f (w.row r))
    (updRow r f w).toState ∈ [t.securedTested.drainTested, t.drainTested.securedTested] := by
  intro t
  have e : (updRow r f w).toState = t.tested := (updRow_changedRow r f w h).trans (if_neg changes)
  rw [e]
  exact List.mem_cons_self

/-! ### HOLD_REFUSED (R12) -/

/-- The record of a row that gives its hold up and returns to TRACKING. -/
def trackingRow (x : RowRec) : RowRec := { x with state := .tracking, hold := none, holdTimer := none }

theorem holdRefusedReport_asked (r : Row) (w : Work) (h : (w.row r).state = .holdAsked) :
    holdRefusedReport r w = (answerHold r (w.row r).hold .refused (updRow r trackingRow w), .ok) := if_pos h

theorem holdRefusedReport_otherwise (r : Row) (w : Work) (h : (w.row r).state ≠ .holdAsked) :
    holdRefusedReport r w = (w, .state) := if_neg h

/-- HOLD_REFUSED on a ready tracker port of a settled block, for a row in HOLD_ASKED. -/
theorem exec_holdRefused_asked (b : Byte) (s : State) (hr : Ready .tracker s) (hs : Settled s)
    (h : (tget s.rac.rows (byteRow b)).state = .holdAsked) :
    exec (.holdRefused .tracker [b]) s = .next (answered .tracker .holdRefused .ok
      (s.withRow (byteRow b) (trackingRow (tget s.rac.rows (byteRow b))))) := by
  rw [exec_effect _ _ _ rfl]
  congr 1
  refine action_answered .tracker .holdRefused [b] s _ .ok hr rfl rfl nofun rfl (fun x => ?_) (hs.withRow _ _)
  have untested : (s.setPort .tracker x).Untested := (hs.setPort .tracker x).untested
  have run : runAction .holdRefused [b] (s.setPort .tracker x).work = _ := holdRefusedReport_asked (byteRow b) _ h
  rw [run]
  refine ⟨rfl, ?_, ((work_idle _).updRow untested _ _).answerHold _ _ _⟩
  rw [answerHold_shape, updRow_shape _ _ _ untested]
  exact withRow_setPort ..

/-- HOLD_REFUSED on a ready tracker port of a settled block, for a row in any other state. -/
theorem exec_holdRefused_otherwise (b : Byte) (s : State) (hr : Ready .tracker s) (hs : Settled s)
    (h : (tget s.rac.rows (byteRow b)).state ≠ .holdAsked) :
    exec (.holdRefused .tracker [b]) s = .next (answered .tracker .holdRefused .state s) := by
  rw [exec_effect _ _ _ rfl]
  congr 1
  refine action_answered .tracker .holdRefused [b] s s .state hr rfl rfl nofun rfl (fun x => ?_) hs
  have run : runAction .holdRefused [b] (s.setPort .tracker x).work = _ := holdRefusedReport_otherwise (byteRow b) _ h
  rw [run]
  exact ⟨rfl, rfl, work_idle _⟩

/-- Settles O10, by whether the row is in HOLD_ASKED: there the row is written, tested and its requester answered. -/
theorem holdRefused : Obligations.HoldRefused := by
  refine ⟨fun b s hr hs => ?_, holdRefusedReport_otherwise, fun r h w asked held entering => ?_⟩
  · intro x
    split
    next h => exact exec_holdRefused_asked b s hr hs h
    next h => exact exec_holdRefused_otherwise b s hr hs h
  · have changes : (w.row r).state ≠ (trackingRow (w.row r)).state := by rw [asked]; exact nofun
    rw [holdRefusedReport_asked r w asked, held]
    exact ⟨rfl, updRow_tested r trackingRow w entering changes, _, rfl⟩

/-! ### The cancel of a hold (R13) -/

theorem cancelHold_asked (q : Requester) (r : Row) (w : Work)
    (h : (w.row r).state = .holdAsked ∧ (w.row r).hold.map (·.by_) = some q) :
    cancelHold q r w = updRow r (trackWith .withdraw) w := if_pos h

theorem cancelHold_otherwise (q : Requester) (r : Row) (w : Work)
    (h : ¬ ((w.row r).state = .holdAsked ∧ (w.row r).hold.map (·.by_) = some q)) : cancelHold q r w = w := if_neg h

theorem trackWith_trackingRow (n : Notice) (x : RowRec) : trackWith n x = placeNotice n (trackingRow x) := rfl

theorem trackWith_state (n : Notice) (x : RowRec) : (trackWith n x).state = .tracking := by
  simp [trackWith, placeNotice_fields]

/-- A WITHDRAW on a slot with a HOLD_ASK empties it, unless the read of the HOLD_ASK has begun (Table 1-10). -/
theorem placeNotice_withdraw_holdAsk (x : RowRec) (p : Purpose) (live : x.state ≠ .stowed)
    (h : x.notice = some (.holdAsk p)) :
    placeNotice .withdraw x =
      if x.noticeRead then { x with notice := some .withdraw, noticeRead := false }
      else { x with notice := none, noticeRead := false } := by
  unfold placeNotice
  rw [if_neg live, h]

/-- A WITHDRAW fills an empty slot, and replaces every notice but a HOLD_ASK (Table 1-10). -/
theorem placeNotice_withdraw_fills (x : RowRec) (live : x.state ≠ .stowed) (h : ∀ p, x.notice ≠ some (.holdAsk p)) :
    placeNotice .withdraw x = { x with notice := some .withdraw, noticeRead := false } := by
  unfold placeNotice
  rw [if_neg live]
  split
  next p e _ => exact absurd e (h p)
  next e => cases e
  next => rfl

/-- Settles O11: the cancel of the requester named is a change of the row's state with its tests, on the record a WITHDRAW
leaves; any other cancel changes nothing. -/
theorem holdCancel : Obligations.HoldCancel := by
  intro q r s x y t asked
  refine ⟨fun h => ?_, cancelHold_otherwise q r s.work⟩
  have record : t = s.withRow r (trackWith .withdraw x) := by
    apply congrArg (s.withRow r)
    rw [trackWith_trackingRow]
    split
    next p e => exact (placeNotice_withdraw_holdAsk (trackingRow x) p nofun e).symm
    next e => exact (placeNotice_withdraw_fills (trackingRow x) nofun e).symm
  have changes : x.state ≠ (trackWith .withdraw x).state := by rw [h.1, trackWith_state]; exact nofun
  rw [cancelHold_asked q r s.work h, record]
  exact updRow_tested r (trackWith .withdraw) s.work rfl changes

end Sys2Proof.Machine
end

section
/-! PROOF. A pass result at the estimator (R51, R112 to R114, R163): the ratio after a pass, the saturating sums, and the row
and zone records that the result leaves. -/

namespace Sys2Proof.Machine

/-! ### The ratio after a pass (R112) -/

/-- A complete pass never lowers the ratio (R112). -/
theorem ratioAfter_complete (before post p len : Nat) : ratioAfter true before post p len = max before post := by
  unfold ratioAfter
  rw [if_pos rfl]
  split
  next raised => exact (max_eq_right raised.le).symm
  next kept => exact (max_eq_left (Nat.le_of_not_lt kept)).symm

/-- Where the post-pass ratio is not above the ratio, the truncated difference makes the share 0 (R112). -/
theorem ratioAfter_partial (before post p len : Nat) :
    ratioAfter false before post p len =
      if len = 0 then before else before + (post - before) * min p len / len := by
  unfold ratioAfter
  rw [if_neg Bool.false_ne_true]
  by_cases unset : len = 0
  · rw [if_pos unset, if_neg (fun h => h.2.ne' unset)]
  · rw [if_neg unset]
    split
    next => rfl
    next h =>
      have kept : post ≤ before := Nat.le_of_not_lt fun raised => h ⟨raised, Nat.pos_of_ne_zero unset⟩
      rw [Nat.sub_eq_zero_of_le kept, Nat.zero_mul, Nat.zero_div, Nat.add_zero]

theorem ratioAfter_eq (complete : Bool) (before post p len : Nat) :
    ratioAfter complete before post p len =
      if complete then max before post
      else if len = 0 then before
      else before + (post - before) * min p len / len := by
  cases complete with
  | true => exact ratioAfter_complete before post p len
  | false => exact ratioAfter_partial before post p len

theorem postRatio_eq (mode : Mode) (pol : ZonePolicy) : postRatio mode pol = if mode = .deep then 4096 else pol.pDry := by
  cases mode <;> rfl

/-! ### The recovered bucket of a zone (R156, R163) -/

theorem addSat_sum (a v : Nat) : (addSat a v).1 = min Config.bucketLimit (a + v) := by
  unfold addSat
  split
  next above => exact (min_eq_left above.le).symm
  next fits => exact (min_eq_right (Nat.le_of_not_lt fits)).symm

theorem addRecovered_toState (z : Zone) (v : Nat) (w : Work) :
    let x := tget w.yac.zones z
    (addRecovered z v w).toState = { w.toState with
      yac := { w.yac with zones := tset w.yac.zones z { x with recovered := min 4294967295 (x.recovered + v) } } } := by
  intro x
  have sum : (addSat x.recovered v).1 = min 4294967295 (x.recovered + v) := addSat_sum x.recovered v
  rw [← sum]
  rfl

/-! ### The pass result

The model's function is `Machine.passResult`; the statement about it stands in a namespace of its own. -/

namespace Estimator

/-- Settles O30: the record is posted on a state in which only the row's estimate and the zone's recovered bucket have
changed, and the ratio in all three is the one of R112. -/
theorem passResult : Obligations.PassResult := by
  intro r k mode complete p s e x bank pol post after recovered z e' z'
  have ratio : ratioAfter complete (tget s.work.seu.rows r).ratio (postRatio mode (s.work.policy r)) p
      (s.work.row r).length = after := by
    rw [ratioAfter_eq, postRatio_eq]
    rfl
  unfold Machine.passResult
  rw [post_shape, addRecovered_toState]
  simp only [ratio]
  rfl

end Estimator

end Sys2Proof.Machine
end

section
/-! PROOF. ACCOUNTS_CLEAR (R167): a plant command that finds its interval closed and sends no message, in any state of the block,
and the accounts and pass counters that the clear leaves. -/

namespace Sys2Proof.Machine

/-! ### A plant command byte that closes an open interval (R101) -/

/-- Closing an interval neither reads nor writes a port. -/
theorem closeInterval_setPort (p : Port) (x : PortCtl) (s : State) :
    (closeInterval (s.setPort p x).work).toState = (closeInterval s.work).toState.setPort p x := by cases p <;> rfl

theorem intervalClosed_setPort (p : Port) (x : PortCtl) (s : State) :
    intervalClosed (s.setPort p x) = (intervalClosed s).setPort p x := by
  have still_open : (s.setPort p x).work.seu.intervalOpen = s.work.seu.intervalOpen := by cases p <;> rfl
  unfold intervalClosed closeOpen
  rw [still_open]
  split
  · exact closeInterval_setPort p x s
  · rfl

/-- The close leaves no message behind it, so that what follows finds the beginning of an event. -/
theorem closeOpen_work (s : State) : closeOpen s.work = (intervalClosed s).work :=
  (closeOpen_still (work_still s)).eq_work.symm

/-- Every plant command but the stream command of an interval finds an open interval closed. -/
theorem opened_closed (c : Cmd) (s : State) (h : c.code ≠ Cmd.energyData.code) :
    opened .plant c s.work = ((intervalClosed s).setPort .plant (clearedPort s.plant)).work := by
  have other : isStreamCommand c.code (endCommand .plant s.work) = false := by simp [isStreamCommand, h]
  have closes : opened .plant c s.work = closeOpen (endCommand .plant s.work) :=
    if_neg (Bool.eq_false_iff.mp other)
  rw [closes, endCommand_eq, closeOpen_work, intervalClosed_setPort]
  rfl

/-- A plant action whose effect sends no message, in any state of the block: an open interval is closed, then the effect is made,
and the result answered (R101, R178, R179). -/
theorem plantAction_answered (c : Cmd) (bs : List Byte) (s t : State) (r : Result) (free : s.plant.resetHeld = false)
    (role : c.onPort .plant = true) (kind : c.kind = .action) (closes : c.code ≠ Cmd.energyData.code)
    (known : kindFields c (nth bs 1) ≠ none) (whole : bs.length = need c bs)
    (h : ∀ x : PortCtl, runAction c bs ((intervalClosed s).setPort .plant x).work = ((t.setPort .plant x).work, r)) :
    runEvent (sendCommand .plant c bs) s = answered .plant c r t := by
  unfold runEvent
  rw [sendCommand_action .plant c bs s.work (work_still s) free role kind known whole, settle_settle,
    opened_closed c s closes, h, settle_still _ ((work_still _).setResult _ _ _), setResult, updPort_toState]
  exact answered_cleared .plant r c s t free

/-! ### The clear -/

/-- The state in which every account and pass counter has been cleared. -/
def State.accountsCleared (s : State) : State := (clearAccounts s.work).toState

theorem clearAccounts_setPort (s : State) (p : Port) (x : PortCtl) :
    clearAccounts (s.setPort p x).work = (s.accountsCleared.setPort p x).work := by cases p <;> rfl

/-- Only the accounts and the row records of the estimator change. -/
theorem accountsCleared_frame (s : State) : s.accountsCleared =
    { s with yac := s.accountsCleared.yac, seu := { s.seu with rows := s.accountsCleared.seu.rows } } := rfl

theorem accountsCleared_rowAccount (s : State) (r : Row) :
    tget s.accountsCleared.yac.rows r = { buckets := Buckets.reset, nodata := 0 } := tget_tfill 256 RowAccount.reset r

theorem accountsCleared_zoneAccount (s : State) (z : Zone) :
    tget s.accountsCleared.yac.zones z = { buckets := Buckets.reset, recovered := 0 } := tget_tfill 16 ZoneAccount.reset z

/-- A row keeps its ratio, reading and last-clean day (R164). -/
theorem accountsCleared_estimate (s : State) (r : Row) :
    tget s.accountsCleared.seu.rows r = { tget s.seu.rows r with fullPasses := 0, partPasses := 0 } := by
  unfold State.accountsCleared clearAccounts
  rw [tget_tmap]
  rfl

/-- ACCOUNTS_CLEAR on a plant port that takes bytes, in any state of the block. -/
theorem exec_accountsClear (s : State) (free : s.plant.resetHeld = false) :
    exec (.accountsClear .plant) s =
      .next (answered .plant .accountsClear .ok (intervalClosed s).accountsCleared) := by
  rw [exec_effect _ _ _ rfl]
  congr 1
  refine plantAction_answered .accountsClear [] s _ .ok free rfl rfl (by decide) nofun rfl (fun x => ?_)
  exact congrArg (·, Result.ok) (clearAccounts_setPort (intervalClosed s) .plant x)

/-- Settles O46: the clear is made on the state in which an open interval has been closed, and no message follows it. -/
theorem accountsClear : Obligations.AccountsClear := by
  intro s0 free s
  exact ⟨s.accountsCleared, exec_accountsClear s0 free, accountsCleared_frame s,
    fun r => ⟨accountsCleared_rowAccount s r, accountsCleared_estimate s r⟩, accountsCleared_zoneAccount s, rfl⟩

end Sys2Proof.Machine
end

section
/-! PROOF. The report queue (R171 to R175): what a posting and a removal leave of it, the conditions of the attention as Table 9-1
lists them, and the last byte of a copy. -/

namespace Sys2Proof.Machine

/-! ### A posting and a removal (R171 to R173) -/

theorem storeGroup_eq (now : Time) (bodies : List RecordBody) (q : Rpq) :
    let lost := min 65535 (q.overrun + bodies.length)
    storeGroup now bodies q =
      if q.overrun = 0 ∧ q.queue.length + bodies.length ≤ 128 then
        { q with queue := q.queue ++ bodies.map (fun b => { stamp := now, body := b }) }
      else if lost ≠ 0 ∧ q.queue.length < 128 then
        { q with queue := q.queue ++ [{ stamp := now, body := .overrun lost }], overrun := 0 }
      else { q with overrun := lost } := rfl

theorem posted_eq (bodies : List RecordBody) (s : State) :
    s.posted bodies = { s with rpq := Rpq.judged s.now (storeGroup s.now bodies s.rpq) } := rfl

/-- The queue and the count after the place for a pending OVERRUN has been looked for, each on its own (R172). -/
theorem storeOverrun_eq (now : Time) (q : Rpq) :
    let stored := q.overrun ≠ 0 ∧ q.queue.length < 128
    storeOverrun now q = { q with
      queue := if stored then q.queue ++ [{ stamp := now, body := .overrun q.overrun }] else q.queue
      overrun := if stored then 0 else q.overrun } := by
  intro stored
  by_cases h : stored
  · rw [if_pos h, if_pos h]
    exact if_pos h
  · rw [if_neg h, if_neg h]
    exact if_neg h

/-- The state in which the head record has been removed (R173). -/
def State.headRemoved (s : State) : State := (removeReport s.work).toState

theorem headRemoved_eq (s : State) :
    s.headRemoved = { s with rpq := Rpq.judged s.now (storeOverrun s.now { s.rpq with queue := s.rpq.queue.tail }) } := rfl

theorem removeReport_setPort (p : Port) (x : PortCtl) (s : State) :
    removeReport (s.setPort p x).work = (s.headRemoved.setPort p x).work := by cases p <;> rfl

/-! ### The conditions of the attention (R174, R175, Table 9-1) -/

theorem prompt_iff (body : RecordBody) : prompt body = true ↔
    (∃ a b c d e f, body = .stormState a b c d e f) ∨ (∃ a b c d, body = .stranded a b c d) ∨
      (∃ a b c, body = .robotLost a b c) ∨ (∃ a b c d, body = .carrierHalted a b c d) ∨ body = .freezeDone ∨
      (∃ bank, body = .planFlipped bank) ∨ ∃ n, body = .overrun n := by
  cases body <;> simp [prompt]

theorem stale_iff (now : Time) (q : Rpq) :
    stale now q = true ↔ ∃ h rest, q.queue = h :: rest ∧ q.staleTime ≤ (now - h.stamp).toNat := by
  unfold stale
  cases q.queue with
  | nil => exact ⟨nofun, nofun⟩
  | cons h rest =>
    rw [decide_eq_true_iff]
    constructor
    · exact fun waited => ⟨h, rest, rfl, waited⟩
    · rintro ⟨_, _, ⟨⟩, waited⟩
      exact waited

theorem plantAttention_iff (now : Time) (q : Rpq) : plantAttention now q = true ↔
    q.threshold ≤ q.queue.length ∨ stale now q = true ∨ ∃ m ∈ q.queue, prompt m.body = true := by
  simp [plantAttention, or_assoc]

/-! ### The last byte of a copy (R180) -/

/-- The byte goes out, the command ends, and the removal of the read is made. -/
theorem dataByte_lastByte (p : Port) (d b : Byte) (m : Removal) (s : State) (free : (s.port p).resetHeld = false)
    (last : (s.port p).context = .readCopy [b] m) :
    dataByte p d s.work =
      remove m (s.setPort p { s.port p with context := .none, partialBits := [], dataOut := b }).work := by
  have taken : dataByte p d s.work =
      copyByte p [b] m (updPort p (fun x => { x with partialBits := [], dataOut := 0#8 }) s.work) := by
    unfold dataByte
    rw [work_toState, free, last]
    rfl
  rw [taken]
  cases p <;> rfl

/-- A last byte whose removal sends no message leaves what the removal leaves, in any state of the block. -/
theorem exec_readByte_lastByte (p : Port) (d b : Byte) (m : Removal) (s t : State) (free : (s.port p).resetHeld = false)
    (last : (s.port p).context = .readCopy [b] m)
    (removed : ∀ x : PortCtl, remove m (s.setPort p x).work = (t.setPort p x).work) :
    exec (.readByte p d) s =
      .next (t.setPort p { s.port p with context := .none, partialBits := [], dataOut := b }) := by
  rw [exec_effect _ _ _ rfl]
  unfold runEvent
  rw [dataByte_lastByte p d b m s free last, removed, settle_still _ (work_still _)]
  rfl

/-- Settles O55: a posting and a removal are the queue's own operations with the attention judged after them, and each condition
of the attention is read off its own function. -/
theorem reports : Obligations.Reports := by
  refine ⟨⟨fun bodies s => ?_, fun now x => ?_⟩, fun d b s free last => ?_⟩
  · intro fits lost
    rw [posted_eq, storeGroup_eq]
  · show plantAttention now x = true ↔ _
    simp only [plantAttention_iff, stale_iff, prompt_iff]
  · intro rest freed
    rw [exec_readByte_lastByte .plant d b .report s s.headRemoved free last (removeReport_setPort .plant · s),
      headRemoved_eq, storeOverrun_eq]
    rfl

end Sys2Proof.Machine
end

section
/-! PROOF. A command on a port of another role (R178, R185): the command byte ends the command under way, closes an open interval
on the plant port and is answered with ROLE, and the data bytes after it are discarded. -/

namespace Sys2Proof.Machine

/-! ### What a command is on its port -/

theorem effect_of_sentBytes {i : Instr} {p : Port} {c : Cmd} {bs : List Byte} (h : sentBytes i = some (p, c, bs)) :
    effect i = some (sendCommand p c bs) := by
  cases i <;> simp only [sentBytes, reduceCtorEq, Option.some.injEq, Prod.mk.injEq] at h <;>
    obtain ⟨rfl, rfl, rfl⟩ := h <;> rfl

theorem exec_of_sentBytes {i : Instr} {p : Port} {c : Cmd} {bs : List Byte} (h : sentBytes i = some (p, c, bs)) (s : State) :
    exec i s = .next (runEvent (sendCommand p c bs) s) := exec_effect i s _ (effect_of_sentBytes h)

/-! ### What a command byte closes (R101, R182) -/

theorem closeAtCommand_work (p : Port) (b : Byte) (s : State) : closeAtCommand p b s.work = (closedAt p b s).work := by
  cases p with
  | plant =>
    have reads : isStreamCommand b s.work = true ↔ b = Cmd.energyData.code ∧ s.seu.streamSeen = false := by
      simp [isStreamCommand]
    by_cases stream : b = Cmd.energyData.code ∧ s.seu.streamSeen = false
    · rw [closedAt, if_neg (fun closes => closes.2 stream)]
      exact if_pos (reads.mpr stream)
    · rw [closedAt, if_pos ⟨rfl, stream⟩, ← closeOpen_work]
      exact if_neg (fun names => stream (reads.mp names))
  | tracker => rfl
  | fleet => rfl

theorem closedAt_setPort (p q : Port) (b : Byte) (x : PortCtl) (s : State) :
    closedAt p b (s.setPort q x) = (closedAt p b s).setPort q x := by
  unfold closedAt
  rw [setPort_seu]
  split
  · exact intervalClosed_setPort q x s
  · rfl

/-- A command byte of any port in any state: `opened_eq` and `opened_closed` without their premises. -/
theorem opened_closedAt (p : Port) (c : Cmd) (s : State) :
    opened p c s.work = ((closedAt p c.code s).setPort p (clearedPort (s.port p))).work := by
  rw [opened, endCommand_eq, closeAtCommand_work, closedAt_setPort]

/-! ### The answer, and the bytes after it -/

theorem setResult_work (p : Port) (r : Result) (b : Byte) (s : State) :
    setResult p r b s.work = (s.setPort p { s.port p with lastResult := r, code := some b }).work := by cases p <;> rfl

/-- With no command under way a data byte is discarded, and shifts out 0 (R177, R178). -/
theorem dataByte_idle (p : Port) (b : Byte) (w : Work) (idle : (w.toState.port p).context = .none)
    (clear : (w.toState.port p).partialBits = []) (out : (w.toState.port p).dataOut = 0#8) : dataByte p b w = w := by
  unfold dataByte
  split
  · rfl
  · rw [idle]
    exact updPort_eq_self p _ w (by rw [← clear, ← out])

theorem dataBytes_idle (p : Port) (bs : List Byte) (w : Work) (still : w.Still) (idle : (w.toState.port p).context = .none)
    (clear : (w.toState.port p).partialBits = []) (out : (w.toState.port p).dataOut = 0#8) : dataBytes p bs w = w := by
  induction bs with
  | nil => rfl
  | cons b bs ih => rw [dataBytes_cons, dataByte_idle p b w idle clear out, settle_still w still, ih]

theorem dataBytes_answered (p : Port) (bs : List Byte) (c : Cmd) (r : Result) (s : State) :
    dataBytes p bs (answered p c r s).work = (answered p c r s).work := by
  have port : (answered p c r s).work.toState.port p = answeredPort r c.code := setPort_port_same s p _
  exact dataBytes_idle p bs _ (work_still _) (by rw [port]; rfl) (by rw [port]; rfl) (by rw [port]; rfl)

theorem commandByte_refused (p : Port) (c : Cmd) (s : State) (role : c.onPort p = false)
    (free : (s.port p).resetHeld = false) :
    commandByte p c.code s.work = (answered p c .role (closedAt p c.code s)).work := by
  rw [commandByte_wrong p c s.work free role, opened_closedAt, setResult_work,
    answered_cleared p .role c s (closedAt p c.code s) free]

theorem sendCommand_refused (p : Port) (c : Cmd) (bs : List Byte) (s : State) (role : c.onPort p = false)
    (free : (s.port p).resetHeld = false) :
    sendCommand p c bs s.work = (answered p c .role (closedAt p c.code s)).work := by
  rw [sendCommand, commandByte_refused p c s role free, settle_still _ (work_still _), dataBytes_answered]

/-- Settles O5: the tables are read off command by command, and a refused command is its command byte alone. -/
theorem roles : Obligations.Roles := by
  refine ⟨?tracker, ?fleet, ?plant, ?params, ?refused⟩
  case tracker => intro c; cases c <;> decide
  case fleet => intro c; cases c <;> decide
  case plant => intro c; cases c <;> decide
  case params => intro c; cases c <;> decide
  case refused =>
    intro i p c bs s sent role free
    rw [exec_of_sentBytes sent, runEvent, sendCommand_refused p c bs s role free, settle_still _ (work_still _)]
    rfl

end Sys2Proof.Machine
end

section
/-! PROOF. The power-on reset (R184): the state it leaves, and the records of its tables. -/

namespace Sys2Proof.Machine

/-- The state a power-on reset leaves; a port reset input that is held, the waiting commands and the count of free values stay
(log entry 12). -/
def State.poweredOn (s : State) : State :=
  { State.reset with
    pending := s.pending, freeUses := s.freeUses
    plant := { PortCtl.reset with resetHeld := s.plant.resetHeld }
    tracker := { PortCtl.reset with resetHeld := s.tracker.resetHeld }
    fleet := { PortCtl.reset with resetHeld := s.fleet.resetHeld } }

theorem exec_powerOnReset (s : State) : exec .powerOnReset s = .next s.poweredOn := rfl

/-- Only whether its reset input is held is left of a port. -/
theorem poweredOn_port (s : State) (p : Port) :
    s.poweredOn.port p = { PortCtl.reset with resetHeld := (s.port p).resetHeld } := by cases p <;> rfl

theorem reset_row (r : Row) : tget Rac.reset.rows r = RowRec.reset := tget_tfill 256 RowRec.reset r

theorem reset_robot (k : Slot) : tget Fou.reset.robots k = Robot.reset := tget_tfill 32 Robot.reset k

theorem reset_carrierOrders (c : CarrierIx) : tget Fou.reset.carrierOrders c = UnitOrders.reset :=
  tget_tfill 4 UnitOrders.reset c

theorem reset_carrier (c : CarrierIx) :
    tget Txs.reset.carriers c = if c = 0 then Carrier.firstReset else Carrier.absentReset := by
  rw [Txs.reset, tget_tset, tget_tfill]

theorem reset_zonePolicy (z : Zone) : tget Bank.reset.zones z = ZonePolicy.reset := tget_tfill 16 ZonePolicy.reset z

theorem reset_estimate (r : Row) : tget Seu.reset.rows r = SeuRow.reset := tget_tfill 256 SeuRow.reset r

theorem reset_alight (c : CarrierIx) : tget Wxm.reset.alights c = none := tget_tfill 4 none c

theorem reset_rowAccount (r : Row) : tget Yac.reset.rows r = RowAccount.reset := tget_tfill 256 RowAccount.reset r

theorem reset_zoneAccount (z : Zone) : tget Yac.reset.zones z = ZoneAccount.reset := tget_tfill 16 ZoneAccount.reset z

/-- Settles O3: the fields are those of the blocks' power-on records, and each table holds its record at every index. -/
theorem powerOnReset : Obligations.PowerOnReset := by
  intro s
  have bank : ∀ b ∈ [Bank.reset, Bank.reset], b = Bank.reset := by simp
  -- one line for each block, in the order of the chapters
  refine ⟨s.poweredOn, exec_powerOnReset s, rfl, ?ports,
    ?rows, rfl, rfl, rfl, rfl, rfl, rfl,
    ?robots, reset_carrierOrders, rfl, rfl, rfl, rfl, rfl,
    reset_carrier, rfl, rfl, rfl, rfl,
    rfl, rfl, rfl, ?banks,
    reset_estimate, rfl, rfl, rfl, rfl, rfl, rfl, rfl, rfl,
    rfl, rfl, rfl, rfl, rfl, rfl, rfl,
    rfl, rfl, rfl, rfl, rfl, rfl, rfl, rfl, reset_alight, rfl,
    reset_rowAccount, reset_zoneAccount, rfl,
    rfl, rfl, rfl, rfl, rfl⟩
  case ports =>
    intro p
    rw [poweredOn_port]
    exact ⟨rfl, rfl, rfl, rfl⟩
  case rows => exact fun r => congrArg (fun x : RowRec => { x with lastForced := false, noticeRead := false }) (reset_row r)
  case robots => exact fun k => congrArg (fun x : Robot => { x with passMode := .dry }) (reset_robot k)
  case banks =>
    intro b among
    rw [bank b among]
    exact ⟨rfl, rfl, reset_zonePolicy⟩

end Sys2Proof.Machine
end
